-- ==== Sys2Proof/Word.lean ====
section
/-! DEFINITION. The words of the KC540: port fields, counters, converter readings, and the two plainest
operations on integers the rules use. -/

namespace Sys2Proof

/-- A field A, B, X or Y of a frame, a word of the store, a record number (R178, R181, R149). -/
abbrev Word := BitVec 16

/-- A byte of a frame (R178). -/
abbrev Byte := BitVec 8

/-- A position counter: signed, 32 bits, wrapping (R29). -/
abbrev Count := BitVec 32

/-- A converter reading, 0 to 4 095 (R32). -/
abbrev Raw := BitVec 12

/-- `x` brought within `lo` to `hi`. -/
def clamp (lo hi x : Int) : Int := max lo (min hi x)

/-- Division rounding toward minus infinity, "floors" (00_scope.md, Rounding). -/
def floorDiv (x y : Int) : Int := x.fdiv y

/-- Division rounding toward zero, "truncates" (00_scope.md, Rounding). -/
def truncDiv (x y : Int) : Int := x.tdiv y

end Sys2Proof
end

