-- ==== Sys2Proof/Config.lean ====
section
/-! DEFINITION. What one part fixes: the constants the rules name, and the FREE VALUES, opaque constants
with no body that stand for what the spec leaves open. Each free value takes the index of the use
(State.freeCount), so that no two uses are tied together. -/

namespace Sys2Proof

/-- Records the FIFO holds at most (R148). -/
def Config.fifoCapacity : Nat := 512

/-- Counts of the head angle in one revolution (00_scope.md, Units and ranges; R40). -/
def Config.countsPerTurn : Int := 1440

/-- Saturation of A_f, A_r, the op angle, the gap count and the clock count (R15, R54, R155, R170). -/
def Config.maxCount : Nat := 65535

/-- The cap value that means no cap, and the greatest value a ceiling carries (R75, R91, R114). -/
def Config.noCap : Int := 65535

/-- The speed window, ms (R38). -/
def Config.windowMs : Nat := 100

/-- The rest timer, ms (R42). -/
def Config.restMs : Nat := 200

/-- The self-timed store commit, ms (R163, R164). -/
def Config.commitMs : Nat := 80

/-- The select timeout, ms (R171). -/
def Config.selectMs : Nat := 5

/-- The stall test's least advance, counts (R132). -/
def Config.stallCounts : Int := 36

/-- FREE VALUE (entry 12): X of a refusal for which the spec states no X. -/
opaque Config.unstatedX : Nat → Word

/-- FREE VALUE (entry 12): Y of a refusal for which the spec states no Y. -/
opaque Config.unstatedY : Nat → Word

/-- FREE VALUE (entry 13): the direction READ carries for a value of 0, which "has no direction" (R94). -/
opaque Config.zeroDirection : Nat → Bool

/-- FREE VALUE (entry 14): whether X of a zero demand held off by the neutral hold carries the cause as it
stood before the demand, or DROP, which it becomes (R98). -/
opaque Config.heldCauseBefore : Nat → Bool

/-- FREE VALUE (entry 10): how many whole words a commit had written when the power fell (R165). -/
opaque Config.wordsWritten : Nat → Nat

/-- FREE VALUE (entry 10): the word that was being written when the power fell (R165). -/
opaque Config.tornWord : Nat → Word

/-- FREE VALUE (entry 4): the level of the STORE_WP line after a millisecond in which it may have moved. -/
opaque Config.storeWpLevel : Nat → Bool

/-- FREE VALUE (entry 3): where the k-th of the timers that ran out in one millisecond stands among the
ones before it. -/
opaque Config.expirySlot : Nat → Nat → Nat

end Sys2Proof
end

