-- ==== Sys2Proof/Syntax.lean ====
section
/-! DEFINITION. The commands of the KC540: one constructor of `Instr` per row of spec/opcode_table.json,
with the operands the rules give the row. -/

namespace Sys2Proof

/-- The four ports (00_scope.md, The part on the board). -/
inductive Port where
  | cab | hoist | crowd | rotary
  deriving DecidableEq, Repr

/-- The three drives, each with a port of its own (R94). -/
inductive Drive where
  | hoist | crowd | rotary
  deriving DecidableEq, Repr

/-- The two encoders that measure a position in millimetres (R30). -/
inductive PositionEncoder where
  | rope | stroke
  deriving DecidableEq, Repr

/-- The levels of the two lines of a quadrature pair (R29). -/
structure Pair where
  a : Bool
  b : Bool
  deriving DecidableEq, Repr

/-- The six raw readings of one scan, in the converter's order (R32). -/
structure Readings where
  cd : Raw
  cu : Raw
  rp : Raw
  sp : Raw
  rl : Raw
  ot : Raw
  deriving DecidableEq, Repr

/-- The levels of the lines the part samples as POR ends: the encoder pairs (R31), ESTOP (R146, true when
asserted) and STORE_WP (R163). -/
structure LineLevels where
  rope : Pair
  stroke : Pair
  angle : Pair
  estop : Bool
  storeWp : Bool
  deriving DecidableEq, Repr

/-- The commands a valid frame's CMD may name (R174). -/
inductive Cmd where
  | nop | read | ackReset | demand | set | settingsDefault | phase | engage | releaseEnable | release
  | abortOp | confirmFree | datum | openPile | closePile | zoneWrite | geomWrite | storeEnable
  | storeCommit | clearFaults | recordRead
  deriving DecidableEq, Repr

/-- The rows of spec/opcode_table.json. A request row carries the port it came on and its A and B; it is
taken at the end of its frame (R170, R174). -/
inductive Instr where
  /-- Power-on reset; the operand is the level of the sampled lines as it ends (R165). -/
  | por (lines : LineLevels)
  /-- Assertion of the XRST line (R177). -/
  | xrstAssert
  /-- End of XRST (R146). -/
  | xrstEnd
  /-- Assertion of the ESTOP line (R143). -/
  | estopAssert
  /-- Release of the ESTOP line (R143). -/
  | estopRelease
  /-- A rope or stroke encoder line change; the operand is the new state of the pair (R29, R30). -/
  | positionCountChange (encoder : PositionEncoder) (pair : Pair)
  /-- An angle encoder line change; the operand is the new state of the pair (R16, R29). -/
  | angleCountChange (pair : Pair)
  /-- End of a converter scan with its six readings (R36). -/
  | scanCompletion (readings : Readings)
  /-- Expiry of the speed window (R38). -/
  | windowExpiry
  /-- Expiry of the rest timer (R42). -/
  | restTimerExpiry
  /-- Expiry of the stall window (R132). -/
  | stallWindowExpiry
  /-- Expiry of the op timer (R56, R60). -/
  | opTimerExpiry
  /-- Expiry of a drive's grant life (R107). -/
  | grantExpired (drive : Drive)
  /-- End of the 80 ms store commit (R164). -/
  | commitCompletion
  /-- Fall of select on a port (R169). -/
  | selectFall (port : Port)
  /-- Select held low for 5 ms on a port (R171). -/
  | selectTimeout (port : Port)
  /-- End of a frame that fails a check: the clocks counted and the request bits received, the first 56 at
  most, right-aligned with the last received in bit 0 (R170). -/
  | linkReject (port : Port) (clocks : Nat) (bits : BitVec 56)
  /-- A valid frame whose CMD names no command (R174). -/
  | badCmd (port : Port) (cmd : Byte) (a b : Word)
  /-- NOP (R175). -/
  | nop (port : Port) (a b : Word)
  /-- READ: A = item number, B = index (R176). -/
  | read (port : Port) (a b : Word)
  /-- ACK_RESET (R97, R175). -/
  | ackReset (port : Port) (a b : Word)
  /-- DEMAND: A = magnitude, B = direction (R95). -/
  | demand (port : Port) (a b : Word)
  /-- SET: A = setting number, B = value (R166). -/
  | set (port : Port) (a b : Word)
  /-- SETTINGS_DEFAULT (R167). -/
  | settingsDefault (port : Port) (a b : Word)
  /-- PHASE: A = phase code (R49). -/
  | phase (port : Port) (a b : Word)
  /-- ENGAGE (R53). -/
  | engage (port : Port) (a b : Word)
  /-- RELEASE_ENABLE (R51). -/
  | releaseEnable (port : Port) (a b : Word)
  /-- RELEASE: A = code of the release target (R57). -/
  | release (port : Port) (a b : Word)
  /-- ABORT_OP (R61). -/
  | abortOp (port : Port) (a b : Word)
  /-- CONFIRM_FREE: A = joint mask (R23). -/
  | confirmFree (port : Port) (a b : Word)
  /-- DATUM: A = depth in 10 mm units, signed (R121). -/
  | datum (port : Port) (a b : Word)
  /-- OPEN_PILE: A = pile number (R123). -/
  | openPile (port : Port) (a b : Word)
  /-- CLOSE_PILE (R124). -/
  | closePile (port : Port) (a b : Word)
  /-- ZONE_WRITE: A = entry number x 256 + field number, B = value (R115). -/
  | zoneWrite (port : Port) (a b : Word)
  /-- GEOM_WRITE: A = item number, B = value (R161). -/
  | geomWrite (port : Port) (a b : Word)
  /-- STORE_ENABLE (R162). -/
  | storeEnable (port : Port) (a b : Word)
  /-- STORE_COMMIT (R163). -/
  | storeCommit (port : Port) (a b : Word)
  /-- CLEAR_FAULTS: A = source mask (R140). -/
  | clearFaults (port : Port) (a b : Word)
  /-- RECORD_READ, with the 160 bits shifted in during the extension (R157). -/
  | recordRead (port : Port) (a b : Word) (extension : BitVec 160)
  /-- A clock on a selected port, with the request bit it shifts in (R169). -/
  | shiftClock (port : Port) (bit : Bool)
  deriving DecidableEq, Repr

end Sys2Proof
end

