-- ==== Sys2Proof/Decode.lean ====
section
/-! DEFINITION. Reading a request from the bits of a frame (R170, R174, R178, R179), and the encoder beside
it. No row of spec/opcode_table.json gives bits, so no table word spells a command (`decodeTableWord`). -/

namespace Sys2Proof

/-- The command a word spells by the table's bits: no row of the table gives bits, so none. -/
def decodeTableWord (_nbits _w : Nat) : Option Instr := none

/-- The number of a port (00_scope.md, The part on the board). -/
def Port.number : Port → Nat
  | .cab => 0
  | .hoist => 1
  | .crowd => 2
  | .rotary => 3

/-- The port with a number. -/
def Port.ofNumber : Nat → Option Port
  | 0 => some .cab
  | 1 => some .hoist
  | 2 => some .crowd
  | 3 => some .rotary
  | _ => none

/-- The port of a drive (R94). -/
def Drive.port : Drive → Port
  | .hoist => .hoist
  | .crowd => .crowd
  | .rotary => .rotary

/-- The drive of a port; the cab port has none (R94). -/
def Port.drive : Port → Option Drive
  | .cab => none
  | .hoist => some .hoist
  | .crowd => some .crowd
  | .rotary => some .rotary

/-- The CMD code of a command (R174). -/
def Cmd.code : Cmd → Byte
  | .nop => 0x01
  | .read => 0x02
  | .ackReset => 0x03
  | .demand => 0x10
  | .set => 0x20
  | .settingsDefault => 0x21
  | .phase => 0x30
  | .engage => 0x31
  | .releaseEnable => 0x32
  | .release => 0x33
  | .abortOp => 0x34
  | .confirmFree => 0x35
  | .datum => 0x40
  | .openPile => 0x41
  | .closePile => 0x42
  | .zoneWrite => 0x43
  | .geomWrite => 0x50
  | .storeEnable => 0x51
  | .storeCommit => 0x52
  | .clearFaults => 0x60
  | .recordRead => 0x70

/-- Every command, in the order of R174. -/
def Cmd.all : List Cmd :=
  [.nop, .read, .ackReset, .demand, .set, .settingsDefault, .phase, .engage, .releaseEnable, .release,
   .abortOp, .confirmFree, .datum, .openPile, .closePile, .zoneWrite, .geomWrite, .storeEnable,
   .storeCommit, .clearFaults, .recordRead]

/-- The command a CMD code names, none for a code of no command (R174, check 1). -/
def Cmd.ofCode (code : Byte) : Option Cmd := Cmd.all.find? fun c => c.code = code

/-- Whether a command is taken on a port (R174, column Ports). -/
def Cmd.takenOn (c : Cmd) (p : Port) : Bool :=
  match c with
  | .nop | .read | .ackReset => true
  | .demand => p ≠ .cab
  | _ => p = .cab

/-- Whether a command is taken while the port's RST is set (R174, check 3). -/
def Cmd.takenUnacknowledged : Cmd → Bool
  | .nop | .read | .ackReset | .demand => true
  | _ => false

/-- One shift of the CRC-8 register, generator 0x1D (R179). -/
def crc8Shift (r : Byte) : Byte := if r.msb then (r <<< 1) ^^^ 0x1D else r <<< 1

/-- The CRC-8 register after one more byte (R179). -/
def crc8Byte (r b : Byte) : Byte := crc8Shift^[8] (r ^^^ b)

/-- CRC-8 of the first 48 bits of a frame, initial value 0xFF (R179). -/
def crc8 (first48 : BitVec 48) : Byte :=
  [first48.extractLsb' 40 8, first48.extractLsb' 32 8, first48.extractLsb' 24 8,
   first48.extractLsb' 16 8, first48.extractLsb' 8 8, first48.extractLsb' 0 8].foldl crc8Byte 0xFF

/-- CMD of a request, bits 55 to 48 (R178). -/
def requestCmd (bits : BitVec 56) : Byte := bits.extractLsb' 48 8
/-- A of a request, bits 47 to 32 (R178). -/
def requestA (bits : BitVec 56) : Word := bits.extractLsb' 32 16
/-- B of a request, bits 31 to 16 (R178). -/
def requestB (bits : BitVec 56) : Word := bits.extractLsb' 16 16
/-- RSV of a request, bits 15 to 8 (R178). -/
def requestRsv (bits : BitVec 56) : Byte := bits.extractLsb' 8 8
/-- CRC of a request, bits 7 to 0 (R178). -/
def requestCrc (bits : BitVec 56) : Byte := bits.extractLsb' 0 8

/-- The 56 bits of a request, CRC included (R178, R179). -/
def encodeRequest (cmd : Byte) (a b : Word) : BitVec 56 :=
  let first48 : BitVec 48 := cmd ++ a ++ b ++ (0 : Byte)
  (first48 ++ crc8 first48 : BitVec (48 + 8))

/-- The 56 bits of a response: SUM, CODE, X, Y and the CRC over them (R169, R178). -/
def encodeResponse (sum code : Byte) (x y : Word) : BitVec 56 :=
  let first48 : BitVec 48 := sum ++ code ++ x ++ y
  (first48 ++ crc8 first48 : BitVec (48 + 8))

/-- Why a frame was rejected or abandoned (R170, R171). -/
inductive Reason where
  | length | crc | rsv | stuckLow | stuckHigh | timeout
  deriving DecidableEq, Repr

/-- The code of a rejection reason (R170, R171). -/
def Reason.code : Reason → Nat
  | .length => 1
  | .crc => 2
  | .rsv => 3
  | .stuckLow => 4
  | .stuckHigh => 5
  | .timeout => 6

/-- The clocks a frame needs by its CMD: 216 for RECORD_READ, 56 otherwise (R170, check 3). -/
def expectedClocks (cmd : Byte) : Nat := if cmd = Cmd.recordRead.code then 216 else 56

/-- The first check a frame fails, none for a valid frame (R170). `bits` holds the request bits received,
the first 56 at most, right-aligned. -/
def frameCheck (clocks : Nat) (bits : BitVec 56) : Option Reason :=
  if 8 ≤ clocks ∧ bits = 0 then some .stuckLow
  else if 8 ≤ clocks ∧ bits.toNat = 2 ^ min clocks 56 - 1 then some .stuckHigh
  else if clocks < 56 ∨ clocks ≠ expectedClocks (requestCmd bits) then some .length
  else if crc8 (bits.extractLsb' 8 48) ≠ requestCrc bits then some .crc
  else if requestRsv bits ≠ 0 then some .rsv
  else none

end Sys2Proof
end

