-- ==== Sys2Proof/Machine/Names.lean ====
section
/-! DEFINITION. The named values of the blocks: phases, depth qualities, fault sources, groups, modes and
actions, answer codes, with the codes and tables the spec gives them. -/

namespace Sys2Proof.Machine

/-- The phases (R46). -/
inductive Phase where
  | parked | free | engaging | drill | releasing | hoist | spinOff
  deriving DecidableEq, Repr

/-- The code of a phase (R46). -/
def Phase.code : Phase → Nat
  | .parked => 0
  | .free => 1
  | .engaging => 2
  | .drill => 3
  | .releasing => 4
  | .hoist => 5
  | .spinOff => 6

/-- The phase with a code (R46). -/
def Phase.ofCode : Nat → Option Phase
  | 0 => some .parked
  | 1 => some .free
  | 2 => some .engaging
  | 3 => some .drill
  | 4 => some .releasing
  | 5 => some .hoist
  | 6 => some .spinOff
  | _ => none

/-- The phases RELEASING may be told to move to (R46, R57). -/
inductive ReleaseTarget where
  | free | hoist
  deriving DecidableEq, Repr

/-- The phase of a release target. -/
def ReleaseTarget.phase : ReleaseTarget → Phase
  | .free => .free
  | .hoist => .hoist

/-- The depth quality (R10). -/
inductive Quality where
  | none | valid | strokeOnly | held
  deriving DecidableEq, Repr

/-- The code of a depth quality (R121). -/
def Quality.code : Quality → Nat
  | .none => 0
  | .valid => 1
  | .strokeOnly => 2
  | .held => 3

/-- The analogue channels, in the converter's order (R32). -/
inductive Channel where
  | cd | cu | rp | sp | rl | ot
  deriving DecidableEq, Repr

/-- The channel with a number (R181). -/
def Channel.ofNumber : Nat → Option Channel
  | 0 => some .cd
  | 1 => some .cu
  | 2 => some .rp
  | 3 => some .sp
  | 4 => some .rl
  | 5 => some .ot
  | _ => none

/-- The least and the greatest value of a channel (R33). -/
def Channel.range : Channel → Int × Int
  | .cd | .cu | .rp | .sp => (0, 5000)
  | .rl => (0, 65535)
  | .ot => (-40, 150)

/-- One thing for each channel. -/
structure PerChannel (α : Type) where
  cd : α
  cu : α
  rp : α
  sp : α
  rl : α
  ot : α
  deriving DecidableEq, Repr

/-- The thing of one channel. -/
def PerChannel.get {α : Type} (v : PerChannel α) : Channel → α
  | .cd => v.cd
  | .cu => v.cu
  | .rp => v.rp
  | .sp => v.sp
  | .rl => v.rl
  | .ot => v.ot

/-- The table with the thing of one channel replaced. -/
def PerChannel.put {α : Type} (v : PerChannel α) (c : Channel) (x : α) : PerChannel α :=
  match c with
  | .cd => { v with cd := x }
  | .cu => { v with cu := x }
  | .rp => { v with rp := x }
  | .sp => { v with sp := x }
  | .rl => { v with rl := x }
  | .ot => { v with ot := x }

/-- The same thing for every channel. -/
def PerChannel.all {α : Type} (x : α) : PerChannel α := ⟨x, x, x, x, x, x⟩

/-- A set of drives: a reach (R129), or one level per drive. -/
structure DriveSet where
  hoist : Bool
  crowd : Bool
  rotary : Bool
  deriving DecidableEq, Repr

/-- Whether a drive is in a set. -/
def DriveSet.has (r : DriveSet) : Drive → Bool
  | .hoist => r.hoist
  | .crowd => r.crowd
  | .rotary => r.rotary

/-- No drive. -/
def DriveSet.empty : DriveSet := ⟨false, false, false⟩
/-- All three drives. -/
def DriveSet.full : DriveSet := ⟨true, true, true⟩

/-- The drives in either of two sets. -/
def DriveSet.union (r t : DriveSet) : DriveSet :=
  ⟨r.hoist || t.hoist, r.crowd || t.crowd, r.rotary || t.rotary⟩

/-- A set as READ carries it: bit 0 hoist, bit 1 crowd, bit 2 rotary (R147). -/
def DriveSet.mask (r : DriveSet) : Nat := r.hoist.toNat + 2 * r.crowd.toNat + 4 * r.rotary.toNat

/-- The drives in the order the GRU takes them (R103). -/
def drivesInOrder : List Drive := [.hoist, .crowd, .rotary]

/-- The fault sources (R128). -/
inductive Source where
  | estop | oilHot | chainOpen | reverseOverrun | unlockUnderLoad | depthDisagree | overtorque | stall
  | rotSensor | overcrowd | crwSensor | ropeSlack | stopOverspeed | hstSensor | opTimeout | oilSensor
  deriving DecidableEq, Repr

/-- The number of a source (R128). -/
def Source.idx : Source → Fin 16
  | .estop => 0
  | .oilHot => 1
  | .chainOpen => 2
  | .reverseOverrun => 3
  | .unlockUnderLoad => 4
  | .depthDisagree => 5
  | .overtorque => 6
  | .stall => 7
  | .rotSensor => 8
  | .overcrowd => 9
  | .crwSensor => 10
  | .ropeSlack => 11
  | .stopOverspeed => 12
  | .hstSensor => 13
  | .opTimeout => 14
  | .oilSensor => 15

/-- The sources in rising number (R128). -/
def Source.all : List Source :=
  [.estop, .oilHot, .chainOpen, .reverseOverrun, .unlockUnderLoad, .depthDisagree, .overtorque, .stall,
   .rotSensor, .overcrowd, .crwSensor, .ropeSlack, .stopOverspeed, .hstSensor, .opTimeout, .oilSensor]

/-- The source with a number. -/
def Source.ofNumber (n : Nat) : Option Source := Source.all[n]?

/-- The groups of fault sources (R128). -/
inductive Group where
  | str | rot | crw | hst
  deriving DecidableEq, Repr

/-- The group of a source (R128). -/
def Source.group : Source → Group
  | .overtorque | .stall | .rotSensor => .rot
  | .overcrowd | .crwSensor => .crw
  | .ropeSlack | .stopOverspeed | .hstSensor => .hst
  | .estop | .oilHot | .chainOpen | .reverseOverrun | .unlockUnderLoad | .depthDisagree
  | .opTimeout | .oilSensor => .str

/-- What ends a source's override (R129). -/
inductive Mode where
  | latched | cyclic
  deriving DecidableEq, Repr

/-- The code of a mode (R129). -/
def Mode.code : Mode → Nat
  | .latched => 0
  | .cyclic => 1

/-- The mode with a code. -/
def Mode.ofCode : Nat → Option Mode
  | 0 => some .latched
  | 1 => some .cyclic
  | _ => none

/-- What a source's override does (R129). -/
inductive OverrideAction where
  | limit | drop
  deriving DecidableEq, Repr

/-- The action of a source: none, or the action of its override (R129). -/
inductive Action where
  | none | limit | drop
  deriving DecidableEq, Repr

/-- The code of an action (R129). -/
def Action.code : Action → Nat
  | .none => 0
  | .limit => 1
  | .drop => 2

/-- The action with a code. -/
def Action.ofCode : Nat → Option Action
  | 0 => some .none
  | 1 => some .limit
  | 2 => some .drop
  | _ => Option.none

/-- The override an action begins, if it begins one (R134). -/
def Action.override : Action → Option OverrideAction
  | .none => Option.none
  | .limit => some .limit
  | .drop => some .drop

/-- The code of an override action, as of the action (R129). -/
def OverrideAction.code : OverrideAction → Nat
  | .limit => 1
  | .drop => 2

/-- The default mode of a source (R128). -/
def Source.defaultMode : Source → Mode
  | .overtorque | .stall | .overcrowd | .stopOverspeed => .cyclic
  | .estop | .oilHot | .chainOpen | .reverseOverrun | .unlockUnderLoad | .depthDisagree | .rotSensor
  | .crwSensor | .ropeSlack | .hstSensor | .opTimeout | .oilSensor => .latched

/-- The default action of a source (R128). -/
def Source.defaultAction : Source → Action
  | .chainOpen | .depthDisagree | .opTimeout | .oilSensor => .none
  | .reverseOverrun | .unlockUnderLoad | .overcrowd => .limit
  | .estop | .oilHot | .overtorque | .stall | .rotSensor | .crwSensor | .ropeSlack | .stopOverspeed
  | .hstSensor => .drop

/-- How far a group's override reaches (R135). -/
inductive GroupMode where
  | isolate | whole
  deriving DecidableEq, Repr

/-- The code of a group mode (R166). -/
def GroupMode.code : GroupMode → Nat
  | .isolate => 0
  | .whole => 1

/-- The group mode with a code. -/
def GroupMode.ofCode : Nat → Option GroupMode
  | 0 => some .isolate
  | 1 => some .whole
  | _ => none

/-- The drives a group's override reaches (R135). -/
def Group.reach (g : Group) (m : GroupMode) : DriveSet :=
  match g, m with
  | .str, _ => .full
  | .rot, .isolate => ⟨false, false, true⟩
  | .crw, .isolate => ⟨false, true, false⟩
  | .hst, .isolate => ⟨true, false, false⟩
  | .rot, .whole | .crw, .whole | .hst, .whole => .full

/-- Why a grant record is in NEUTRAL_WAIT (R94). -/
inductive NeutralCause where
  | ackReset | grantExpired | parked | drop
  deriving DecidableEq, Repr

/-- The code of a neutral cause (R98). -/
def NeutralCause.code : NeutralCause → Nat
  | .ackReset => 1
  | .grantExpired => 2
  | .parked => 3
  | .drop => 4

/-- The answer codes (R172). -/
inductive Code where
  | ok | clamped | reduced | blocked | restart | restarted | neutralRequired | busy | wrongPhase
  | wrongPort | notEnabled | notAligned | underLoad | zoneForbids | frozen | badArg | badCmd
  | noGeometry | fifoFull | storeProtected | linkReject
  deriving DecidableEq, Repr

/-- The number of an answer code (R172). -/
def Code.number : Code → Nat
  | .ok => 0
  | .clamped => 1
  | .reduced => 2
  | .blocked => 3
  | .restart => 4
  | .restarted => 5
  | .neutralRequired => 6
  | .busy => 7
  | .wrongPhase => 8
  | .wrongPort => 9
  | .notEnabled => 10
  | .notAligned => 11
  | .underLoad => 12
  | .zoneForbids => 13
  | .frozen => 14
  | .badArg => 15
  | .badCmd => 16
  | .noGeometry => 17
  | .fifoFull => 18
  | .storeProtected => 19
  | .linkReject => 20

end Sys2Proof.Machine
end

