-- ==== Sys2Proof/Machine/Geometry.lean ====
section
/-! DEFINITION. The geometry record (R1, R2), its items with their numbers and ranges (R181), the staging
record's six pocket positions and pocket count (R161), the words of the store and its CRC-16 (R181). -/

namespace Sys2Proof.Machine

/-- The fields of one joint, with the pocket count and the six positions of the staging record (R1, R161). -/
structure JointGeometry where
  eMax : Int
  crowd : Int
  window : Int
  friction : Int
  keyRadius : Int
  pocketCount : Int
  positions : Vector Int 6
  deriving DecidableEq, Repr

/-- Gain and offset of one channel (R33). -/
structure Calibration where
  gain : Int
  offset : Int
  deriving DecidableEq, Repr

/-- A geometry record, active or staging: fields for five bars and five joints whatever `n` is (R1, R161). -/
structure Geometry where
  n : Int
  tHead : Int
  cHead : Int
  lRated : Int
  aD : Int
  aU : Int
  kRot : Int
  ropeScale : Int
  strokeScale : Int
  lCl : Int
  wTool : Int
  barWeight : Vector Int 5
  barTorque : Vector Int 5
  joint : Vector JointGeometry 5
  channel : PerChannel Calibration
  deriving DecidableEq, Repr

/-- The pocket list of a joint: the first positions, as many as its pocket count gives (R161). -/
def JointGeometry.pockets (g : JointGeometry) : List Int := g.positions.toList.take g.pocketCount.toNat

/-- The geometry of joints J0 to J(n-1), in joint order (R4). -/
def Geometry.joints (g : Geometry) : List JointGeometry := g.joint.toList.take g.n.toNat

/-- The rated torques of bars B1 to Bn (R77). -/
def Geometry.torques (g : Geometry) : List Int := g.barTorque.toList.take g.n.toNat

/-- W_total, the sum of the n bar weights and the tool weight (R1). -/
def Geometry.wTotal (g : Geometry) : Int := (g.barWeight.toList.take g.n.toNat).sum + g.wTool

/-- W_total, 0 with no active geometry (R74). -/
def wTotalOf (active : Option Geometry) : Int := (active.map Geometry.wTotal).getD 0

/-- The rope scale, 1 000 with no active geometry (R30). -/
def ropeScaleOf (active : Option Geometry) : Int := (active.map Geometry.ropeScale).getD 1000

/-- The stroke scale, 1 000 with no active geometry (R30). -/
def strokeScaleOf (active : Option Geometry) : Int := (active.map Geometry.strokeScale).getD 1000

/-- Gain and offset of a channel, 0 with no active geometry (R33). -/
def calibrationOf (active : Option Geometry) (c : Channel) : Calibration :=
  (active.map fun g => g.channel.get c).getD ⟨0, 0⟩

/-- The geometry items (R181). -/
inductive GeomItem where
  | n | tHead | cHead | lRated | aD | aU | kRot | ropeScale | strokeScale | lCl | wTool
  | barWeight (i : Fin 5)
  | barTorque (i : Fin 5)
  | eMax (j : Fin 5)
  | crowd (j : Fin 5)
  | window (j : Fin 5)
  | friction (j : Fin 5)
  | keyRadius (j : Fin 5)
  | pocketCount (j : Fin 5)
  | pocket (j : Fin 5) (k : Fin 6)
  | gain (c : Channel)
  | offset (c : Channel)
  deriving DecidableEq, Repr

/-- The item of joint `j` at place `f` of its sixteen numbers (R181). -/
def GeomItem.ofJointPlace (j : Fin 5) : Nat → Option GeomItem
  | 0 => some (.eMax j)
  | 1 => some (.crowd j)
  | 2 => some (.window j)
  | 3 => some (.friction j)
  | 4 => some (.keyRadius j)
  | 5 => some (.pocketCount j)
  | 6 => some (.pocket j 0)
  | 7 => some (.pocket j 1)
  | 8 => some (.pocket j 2)
  | 9 => some (.pocket j 3)
  | 10 => some (.pocket j 4)
  | 11 => some (.pocket j 5)
  | _ => Option.none

/-- The geometry item with a number (R181). -/
def GeomItem.ofNumber (k : Nat) : Option GeomItem :=
  if h : 16 ≤ k ∧ k < 21 then some (.barWeight ⟨k - 16, by omega⟩)
  else if h : 24 ≤ k ∧ k < 29 then some (.barTorque ⟨k - 24, by omega⟩)
  else if h : 32 ≤ k ∧ k < 112 then GeomItem.ofJointPlace ⟨(k - 32) / 16, by omega⟩ ((k - 32) % 16)
  else if 112 ≤ k ∧ k < 124 then
    (Channel.ofNumber ((k - 112) / 2)).map fun c => if k % 2 = 0 then .gain c else .offset c
  else match k with
    | 0 => some .n
    | 1 => some .tHead
    | 2 => some .cHead
    | 3 => some .lRated
    | 4 => some .aD
    | 5 => some .aU
    | 6 => some .kRot
    | 7 => some .ropeScale
    | 8 => some .strokeScale
    | 9 => some .lCl
    | 10 => some .wTool
    | _ => Option.none

/-- The items in rising number, the gaps omitted: the order of the store (R181). -/
def GeomItem.all : List GeomItem := (List.range 124).filterMap GeomItem.ofNumber

/-- The least and the greatest value of an item (R1, R33, R161). -/
def GeomItem.range : GeomItem → Int × Int
  | .n => (2, 5)
  | .tHead | .cHead | .lRated | .crowd _ | .gain _ => (0, 65535)
  | .aD | .aU => (10, 2000)
  | .kRot | .barTorque _ => (100, 8000)
  | .ropeScale | .strokeScale => (100, 5000)
  | .lCl => (1000, 30000)
  | .wTool => (0, 20000)
  | .barWeight _ => (1, 2000)
  | .eMax _ | .pocket _ _ => (0, 25000)
  | .window _ => (10, 80)
  | .friction _ => (0, 400)
  | .keyRadius _ => (100, 800)
  | .pocketCount _ => (0, 6)
  | .offset _ => (-32768, 32767)

/-- A value brought within an item's range (R161). -/
def GeomItem.bring (i : GeomItem) (x : Int) : Int := clamp i.range.1 i.range.2 x

/-- A word as an item's field reads it: channel offsets signed, every other item unsigned (R161, R181). -/
def GeomItem.read (i : GeomItem) (w : Word) : Int :=
  match i with
  | .offset _ => w.toInt
  | _ => w.toNat

/-- The value of an item. -/
def Geometry.get (g : Geometry) : GeomItem → Int
  | .n => g.n
  | .tHead => g.tHead
  | .cHead => g.cHead
  | .lRated => g.lRated
  | .aD => g.aD
  | .aU => g.aU
  | .kRot => g.kRot
  | .ropeScale => g.ropeScale
  | .strokeScale => g.strokeScale
  | .lCl => g.lCl
  | .wTool => g.wTool
  | .barWeight i => g.barWeight[i]
  | .barTorque i => g.barTorque[i]
  | .eMax j => g.joint[j].eMax
  | .crowd j => g.joint[j].crowd
  | .window j => g.joint[j].window
  | .friction j => g.joint[j].friction
  | .keyRadius j => g.joint[j].keyRadius
  | .pocketCount j => g.joint[j].pocketCount
  | .pocket j k => g.joint[j].positions[k]
  | .gain c => (g.channel.get c).gain
  | .offset c => (g.channel.get c).offset

/-- The record with the fields of one joint replaced. -/
def Geometry.putJoint (g : Geometry) (j : Fin 5) (x : JointGeometry) : Geometry :=
  { g with joint := g.joint.set j x }

/-- The record with one item written. -/
def Geometry.put (g : Geometry) (i : GeomItem) (x : Int) : Geometry :=
  match i with
  | .n => { g with n := x }
  | .tHead => { g with tHead := x }
  | .cHead => { g with cHead := x }
  | .lRated => { g with lRated := x }
  | .aD => { g with aD := x }
  | .aU => { g with aU := x }
  | .kRot => { g with kRot := x }
  | .ropeScale => { g with ropeScale := x }
  | .strokeScale => { g with strokeScale := x }
  | .lCl => { g with lCl := x }
  | .wTool => { g with wTool := x }
  | .barWeight k => { g with barWeight := g.barWeight.set k x }
  | .barTorque k => { g with barTorque := g.barTorque.set k x }
  | .eMax j => g.putJoint j { g.joint[j] with eMax := x }
  | .crowd j => g.putJoint j { g.joint[j] with crowd := x }
  | .window j => g.putJoint j { g.joint[j] with window := x }
  | .friction j => g.putJoint j { g.joint[j] with friction := x }
  | .keyRadius j => g.putJoint j { g.joint[j] with keyRadius := x }
  | .pocketCount j => g.putJoint j { g.joint[j] with pocketCount := x }
  | .pocket j k => g.putJoint j { g.joint[j] with positions := g.joint[j].positions.set k x }
  | .gain c => { g with channel := g.channel.put c { g.channel.get c with gain := x } }
  | .offset c => { g with channel := g.channel.put c { g.channel.get c with offset := x } }

/-- The record a store of zero words gives: every field 0, brought within its range (R161). -/
def Geometry.least : Geometry where
  n := 2
  tHead := 0
  cHead := 0
  lRated := 0
  aD := 10
  aU := 10
  kRot := 100
  ropeScale := 100
  strokeScale := 100
  lCl := 1000
  wTool := 0
  barWeight := #v[1, 1, 1, 1, 1]
  barTorque := #v[100, 100, 100, 100, 100]
  joint := Vector.replicate 5 ⟨0, 0, 10, 0, 100, 0, #v[0, 0, 0, 0, 0, 0]⟩
  channel := .all ⟨0, 0⟩

/-- The words of a record in the order of the store, signed items in two's complement (R181). -/
def Geometry.words (g : Geometry) : List Word := GeomItem.all.map fun i => BitVec.ofInt 16 (g.get i)

/-- The record the words of a store give, each brought within its item's range (R161, R181). -/
def Geometry.ofWords (ws : List Word) : Geometry :=
  (GeomItem.all.zip ws).foldl (fun g iw => g.put iw.1 (iw.1.bring (iw.1.read iw.2))) Geometry.least

/-- The store: 93 words in rising item number and the CRC-16 over them (R181). -/
structure Store where
  data : List Word
  crc : Word
  deriving DecidableEq, Repr

/-- One shift of the CRC-16 register, generator 0x1021 (R181). -/
def crc16Shift (r : Word) : Word := if r.msb then (r <<< 1) ^^^ 0x1021 else r <<< 1

/-- The CRC-16 register after one more byte, combined into its upper eight bits (R181). -/
def crc16Byte (r : Word) (b : Byte) : Word := crc16Shift^[8] (r ^^^ (b ++ (0 : Byte)))

/-- CRC-16 of words, each sent high byte first, initial value 0xFFFF (R181). -/
def crc16 (ws : List Word) : Word :=
  ws.foldl (fun r w => crc16Byte (crc16Byte r (w.extractLsb' 8 8)) (w.extractLsb' 0 8)) 0xFFFF

/-- The store a commit of a record leaves (R164, R181). -/
def Store.ofGeometry (g : Geometry) : Store := ⟨g.words, crc16 g.words⟩

/-- The blank store of State.reset: every word 0 (entry 8). -/
def Store.blank : Store := ⟨List.replicate 93 0, 0⟩

/-- Whether the CRC of a store is good (R165, R181). -/
def Store.good (t : Store) : Bool := crc16 t.data = t.crc

/-- The first pocket of a list that breaks a constraint of R2, after the predecessor `prev` at place `k`:
below the capture window, above the maximum extension, or not above its predecessor by 2 w + 1 (R163). -/
def JointGeometry.brokenFrom (g : JointGeometry) (prev : Option Int) (k : Nat) : List Int → Option Nat
  | [] => none
  | p :: ps =>
    if p < g.window ∨ g.eMax < p ∨ (prev.any fun q => p < q + 2 * g.window + 1) then some k
    else g.brokenFrom (some p) (k + 1) ps

/-- The first joint, from number `j` on, with a pocket that breaks a constraint, and that pocket (R163). -/
def firstBroken (j : Nat) : List JointGeometry → Option (Nat × Nat)
  | [] => none
  | g :: gs =>
    match g.brokenFrom none 0 g.pockets with
    | some k => some (j, k)
    | none => firstBroken (j + 1) gs

/-- The first joint and pocket that make a staging record inconsistent, none when it is consistent (R163). -/
def Geometry.inconsistency (g : Geometry) : Option (Nat × Nat) := firstBroken 0 g.joints

end Sys2Proof.Machine
end

