-- ==== Sys2Proof/Machine/Records.lean ====
section
/-! DEFINITION. Bore records: their kinds and contents (R149 to R152) and the five words RECORD_READ shifts
out (R180). -/

namespace Sys2Proof.Machine

/-- The four step accumulators (R152). -/
structure Accumulators where
  turns : Nat
  tMax : Int
  cMax : Int
  wotPeak : Int
  deriving DecidableEq, Repr

/-- The accumulators at 0 (R152). -/
def Accumulators.zero : Accumulators := ⟨0, 0, 0, 0⟩

/-- What an EVENT record reports, with its detail (R151). A joint or zone number is a natural number. -/
inductive EventDetail where
  | phaseChange (from_ to_ : Phase)
  | locked (joints : Nat)
  | freed (joints : Nat)
  | uncertain (joints : Nat)
  | faultRaised (src : Source)
  | xrst
  | zoneEnter (zone : Nat)
  | zoneExit (zone : Nat)
  deriving DecidableEq, Repr

/-- The event code (R151). -/
def EventDetail.code : EventDetail → Nat
  | .phaseChange _ _ => 1
  | .locked _ => 2
  | .freed _ => 3
  | .uncertain _ => 4
  | .faultRaised _ => 5
  | .xrst => 7
  | .zoneEnter _ => 8
  | .zoneExit _ => 9

/-- The contents of a record by its kind (R149, R150). -/
inductive RecordBody where
  | none
  | opened (pile : Word)
  | closed (pile : Word)
  | step (acc : Accumulators)
  | turn (acc : Accumulators)
  | event (detail : EventDetail)
  | gap (count : Nat)
  deriving DecidableEq, Repr

/-- The kind code (R149). -/
def RecordBody.kind : RecordBody → Nat
  | .none => 0
  | .opened _ => 1
  | .closed _ => 2
  | .step _ => 3
  | .turn _ => 4
  | .event _ => 5
  | .gap _ => 6

/-- A bore record (R149). -/
structure Record where
  seq : Word
  fromDepth : Int
  toDepth : Int
  body : RecordBody
  deriving DecidableEq, Repr

/-- The NONE record, shifted out when the FIFO is empty (R149, R157). -/
def Record.nothing : Record := ⟨0, 0, 0, .none⟩

/-- Word 3 of an EVENT record: presence bits of the detail fields and fields 1 to 3 (R180). -/
def EventDetail.word3 : EventDetail → Nat
  | .phaseChange f t => 2 ^ 24 + 2 ^ 25 + 2 ^ 16 * f.code + 2 ^ 8 * t.code
  | .locked m | .freed m | .uncertain m => 2 ^ 26 + m
  | .faultRaised _ => 2 ^ 27
  | .zoneEnter _ | .zoneExit _ => 2 ^ 28
  | .xrst => 0

/-- Word 4 of an EVENT record: fields 4 and 5 (R180). -/
def EventDetail.word4 : EventDetail → Nat
  | .faultRaised src => 2 ^ 24 * src.idx.val
  | .zoneEnter z | .zoneExit z => z
  | .phaseChange _ _ | .locked _ | .freed _ | .uncertain _ | .xrst => 0

/-- Word 3 of a record (R180). -/
def RecordBody.word3 : RecordBody → Nat
  | .none => 0
  | .opened pile | .closed pile => pile.toNat
  | .step acc | .turn acc => 2 ^ 24 * acc.turns + acc.tMax.toNat
  | .event d => d.word3
  | .gap count => count

/-- Word 4 of a record (R180). -/
def RecordBody.word4 : RecordBody → Nat
  | .step acc | .turn acc => 2 ^ 16 * acc.cMax.toNat + acc.wotPeak.toNat
  | .event d => d.word4
  | .none | .opened _ | .closed _ | .gap _ => 0

/-- The event code byte of word 0: 0 but for EVENT (R180). -/
def RecordBody.eventCode : RecordBody → Nat
  | .event d => d.code
  | .none | .opened _ | .closed _ | .step _ | .turn _ | .gap _ => 0

/-- Word 0 of a record (R180). -/
def Record.word0 (r : Record) : BitVec 32 :=
  BitVec.ofNat 8 r.body.kind ++ BitVec.ofNat 8 r.body.eventCode ++ r.seq

/-- The 160 bits of a record, word 0 first (R157, R180). -/
def Record.bits (r : Record) : BitVec 160 :=
  r.word0 ++ BitVec.ofInt 32 r.fromDepth ++ BitVec.ofInt 32 r.toDepth ++
    BitVec.ofNat 32 r.body.word3 ++ BitVec.ofNat 32 r.body.word4

end Sys2Proof.Machine
end

