-- ==== Sys2Proof/Machine/Settings.lean ====
section
/-! DEFINITION. The operating settings (R166) with their numbers (R182), ranges and defaults. The group mode
and the modes and actions of the sources are settings by number; their values are the FSV's. -/

namespace Sys2Proof.Machine

/-- Settings 1 to 35, in the order of their numbers (R182). -/
inductive Setting where
  | lockAngle | unlockAngle | reverseMargin
  | tSeat | tRelease | tFree | tHold | tSpin | tFreeTool
  | cFree | cPull
  | vFree | vStop | vAlign | vFollow
  | sSlow | lFollow | lSlack | fRelease | wotMax | pMargin
  | thetaHot | thetaMax | overTolerance | stallTime | depthTolerance
  | lifeHoist | lifeCrowd | lifeRotary
  | engageTimeout | releaseTimeout | recordStep | dTurn | spinOffLevel | autoAdvance
  deriving DecidableEq, Repr

/-- Settings 1 to 35 in rising number (R182). -/
def Setting.all : List Setting :=
  [.lockAngle, .unlockAngle, .reverseMargin, .tSeat, .tRelease, .tFree, .tHold, .tSpin, .tFreeTool,
   .cFree, .cPull, .vFree, .vStop, .vAlign, .vFollow, .sSlow, .lFollow, .lSlack, .fRelease, .wotMax,
   .pMargin, .thetaHot, .thetaMax, .overTolerance, .stallTime, .depthTolerance, .lifeHoist, .lifeCrowd,
   .lifeRotary, .engageTimeout, .releaseTimeout, .recordStep, .dTurn, .spinOffLevel, .autoAdvance]

/-- The values of settings 1 to 35 (R166). -/
structure Settings where
  lockAngle : Int
  unlockAngle : Int
  reverseMargin : Int
  tSeat : Int
  tRelease : Int
  tFree : Int
  tHold : Int
  tSpin : Int
  tFreeTool : Int
  cFree : Int
  cPull : Int
  vFree : Int
  vStop : Int
  vAlign : Int
  vFollow : Int
  sSlow : Int
  lFollow : Int
  lSlack : Int
  fRelease : Int
  wotMax : Int
  pMargin : Int
  thetaHot : Int
  thetaMax : Int
  overTolerance : Int
  stallTime : Int
  depthTolerance : Int
  lifeHoist : Int
  lifeCrowd : Int
  lifeRotary : Int
  engageTimeout : Int
  releaseTimeout : Int
  recordStep : Int
  dTurn : Int
  spinOffLevel : Int
  autoAdvance : Bool
  deriving DecidableEq, Repr

/-- The defaults (R166). -/
def Settings.default : Settings where
  lockAngle := 120
  unlockAngle := 120
  reverseMargin := 40
  tSeat := 600
  tRelease := 400
  tFree := 300
  tHold := 300
  tSpin := 800
  tFreeTool := 1500
  cFree := 0
  cPull := 800
  vFree := 1500
  vStop := 200
  vAlign := 50
  vFollow := 300
  sSlow := 1500
  lFollow := 200
  lSlack := 100
  fRelease := 300
  wotMax := 6000
  pMargin := 200
  thetaHot := 75
  thetaMax := 90
  overTolerance := 5
  stallTime := 1500
  depthTolerance := 100
  lifeHoist := 40
  lifeCrowd := 40
  lifeRotary := 40
  engageTimeout := 5000
  releaseTimeout := 5000
  recordStep := 250
  dTurn := 8
  spinOffLevel := -500
  autoAdvance := true

/-- The least and the greatest value of a setting (R166). -/
def Setting.range : Setting → Int × Int
  | .lockAngle | .unlockAngle => (40, 360)
  | .reverseMargin => (10, 200)
  | .tSeat | .tRelease | .tFree | .tHold | .tSpin | .tFreeTool | .cFree | .cPull => (0, 65535)
  | .vFree | .vStop | .vAlign | .vFollow | .sSlow => (0, 5000)
  | .lFollow | .lSlack | .fRelease | .wotMax => (0, 65535)
  | .pMargin => (0, 1000)
  | .thetaHot | .thetaMax => (-40, 150)
  | .overTolerance => (0, 25)
  | .stallTime => (500, 5000)
  | .depthTolerance => (20, 1000)
  | .lifeHoist | .lifeCrowd | .lifeRotary => (10, 250)
  | .engageTimeout | .releaseTimeout => (1000, 30000)
  | .recordStep => (100, 2000)
  | .dTurn => (0, 64)
  | .spinOffLevel => (-20000, 0)
  | .autoAdvance => (0, 1)

/-- B as a setting reads it: signed for the settings whose range goes below 0 (R166). -/
def Setting.read (v : Setting) (w : Word) : Int := if v.range.1 < 0 then w.toInt else w.toNat

/-- The value of a setting. -/
def Settings.get (t : Settings) : Setting → Int
  | .lockAngle => t.lockAngle
  | .unlockAngle => t.unlockAngle
  | .reverseMargin => t.reverseMargin
  | .tSeat => t.tSeat
  | .tRelease => t.tRelease
  | .tFree => t.tFree
  | .tHold => t.tHold
  | .tSpin => t.tSpin
  | .tFreeTool => t.tFreeTool
  | .cFree => t.cFree
  | .cPull => t.cPull
  | .vFree => t.vFree
  | .vStop => t.vStop
  | .vAlign => t.vAlign
  | .vFollow => t.vFollow
  | .sSlow => t.sSlow
  | .lFollow => t.lFollow
  | .lSlack => t.lSlack
  | .fRelease => t.fRelease
  | .wotMax => t.wotMax
  | .pMargin => t.pMargin
  | .thetaHot => t.thetaHot
  | .thetaMax => t.thetaMax
  | .overTolerance => t.overTolerance
  | .stallTime => t.stallTime
  | .depthTolerance => t.depthTolerance
  | .lifeHoist => t.lifeHoist
  | .lifeCrowd => t.lifeCrowd
  | .lifeRotary => t.lifeRotary
  | .engageTimeout => t.engageTimeout
  | .releaseTimeout => t.releaseTimeout
  | .recordStep => t.recordStep
  | .dTurn => t.dTurn
  | .spinOffLevel => t.spinOffLevel
  | .autoAdvance => if t.autoAdvance then 1 else 0

/-- The settings with one written. -/
def Settings.put (t : Settings) (v : Setting) (x : Int) : Settings :=
  match v with
  | .lockAngle => { t with lockAngle := x }
  | .unlockAngle => { t with unlockAngle := x }
  | .reverseMargin => { t with reverseMargin := x }
  | .tSeat => { t with tSeat := x }
  | .tRelease => { t with tRelease := x }
  | .tFree => { t with tFree := x }
  | .tHold => { t with tHold := x }
  | .tSpin => { t with tSpin := x }
  | .tFreeTool => { t with tFreeTool := x }
  | .cFree => { t with cFree := x }
  | .cPull => { t with cPull := x }
  | .vFree => { t with vFree := x }
  | .vStop => { t with vStop := x }
  | .vAlign => { t with vAlign := x }
  | .vFollow => { t with vFollow := x }
  | .sSlow => { t with sSlow := x }
  | .lFollow => { t with lFollow := x }
  | .lSlack => { t with lSlack := x }
  | .fRelease => { t with fRelease := x }
  | .wotMax => { t with wotMax := x }
  | .pMargin => { t with pMargin := x }
  | .thetaHot => { t with thetaHot := x }
  | .thetaMax => { t with thetaMax := x }
  | .overTolerance => { t with overTolerance := x }
  | .stallTime => { t with stallTime := x }
  | .depthTolerance => { t with depthTolerance := x }
  | .lifeHoist => { t with lifeHoist := x }
  | .lifeCrowd => { t with lifeCrowd := x }
  | .lifeRotary => { t with lifeRotary := x }
  | .engageTimeout => { t with engageTimeout := x }
  | .releaseTimeout => { t with releaseTimeout := x }
  | .recordStep => { t with recordStep := x }
  | .dTurn => { t with dTurn := x }
  | .spinOffLevel => { t with spinOffLevel := x }
  | .autoAdvance => { t with autoAdvance := x ≠ 0 }

/-- A value brought within a setting's range; the reverse margin stays below the unlock angle (R166). -/
def Settings.bring (t : Settings) (v : Setting) (x : Int) : Int :=
  match v with
  | .reverseMargin => min (clamp v.range.1 v.range.2 x) (t.unlockAngle - 1)
  | _ => clamp v.range.1 v.range.2 x

/-- The settings after a SET of a value within its range: a SET of the unlock angle at or below the reverse
margin lowers the margin to the new unlock angle less 1 (R166). -/
def Settings.write (t : Settings) (v : Setting) (x : Int) : Settings :=
  let t := t.put v x
  { t with reverseMargin := if v = .unlockAngle then min t.reverseMargin (t.unlockAngle - 1) else t.reverseMargin }

/-- The grant life of a drive port, ms (R106). -/
def Settings.life (t : Settings) : Drive → Nat
  | .hoist => t.lifeHoist.toNat
  | .crowd => t.lifeCrowd.toNat
  | .rotary => t.lifeRotary.toNat

/-- What a setting number names (R182). -/
inductive SettingItem where
  | value (v : Setting)
  | groupMode
  | mode (src : Source)
  | action (src : Source)
  deriving DecidableEq, Repr

/-- The setting with a number; 64 and 80 name source 0 and are no setting of SET (R141, R182). -/
def SettingItem.ofNumber (k : Nat) : Option SettingItem :=
  if 1 ≤ k ∧ k ≤ 35 then Setting.all[k - 1]?.map .value
  else if k = 36 then some .groupMode
  else if 65 ≤ k ∧ k < 80 then (Source.ofNumber (k - 64)).map .mode
  else if 81 ≤ k ∧ k < 96 then (Source.ofNumber (k - 80)).map .action
  else none

end Sys2Proof.Machine
end

