-- ==== Sys2Proof/Machine/Blocks.lean ====
section
/-! DEFINITION. The state of each block (00_scope.md, Block overview) and what it starts with at POR. -/

namespace Sys2Proof.Machine

/-- A channel's items (R34, R45). -/
structure ChannelState where
  value : Int
  lastGood : Int
  raw : Raw
  railRun : Nat
  holding : Bool
  deriving DecidableEq, Repr

/-- The Measurement Unit (chapter 2). A reference is the last state of its pair (R29). -/
structure Msu where
  rope : Count
  stroke : Count
  angle : Count
  ropeRef : Pair
  strokeRef : Pair
  angleRef : Pair
  ropeMm : Int
  strokeMm : Int
  channels : PerChannel ChannelState
  windowTimer : Nat
  windowRef : Count
  speed : Int
  markRef : Count
  rest : Bool
  restTimer : Option Nat
  deriving DecidableEq, Repr

/-- The MSU as POR leaves it (R31, R32, R35, R39, R41, R43). -/
def Msu.start (l : LineLevels) : Msu where
  rope := 0
  stroke := 0
  angle := 0
  ropeRef := l.rope
  strokeRef := l.stroke
  angleRef := l.angle
  ropeMm := 0
  strokeMm := 0
  channels := .all ⟨0, 0, 0, 0, false⟩
  windowTimer := Config.windowMs
  windowRef := 0
  speed := 0
  markRef := 0
  rest := false
  restTimer := some Config.restMs

/-- The state of a joint, with its pocket while LOCKED (R4). -/
inductive JointState where
  | locked (pocket : Nat)
  | free
  | uncertain
  deriving DecidableEq, Repr

/-- An entry of the joint table (R4). -/
structure Joint where
  state : JointState
  ext : Int
  aligned : Option Nat
  deriving DecidableEq, Repr

/-- The String Tracker (chapter 1). -/
structure Stk where
  joints : List Joint
  ropeOffset : Int
  strokeOffset : Int
  datumSet : Bool
  quality : Quality
  depth : Int
  heldDepth : Int
  taut : Bool
  disagreement : Int
  bottomHole : Int
  aF : Nat
  aR : Nat
  reverseRun : Bool
  deriving DecidableEq, Repr

/-- The number of the pocket that captures an extension, none when no pocket does (R5). -/
def JointGeometry.aligned (g : JointGeometry) (ext : Int) : Option Nat :=
  g.pockets.findIdx? fun p => decide (p - g.window ≤ ext ∧ ext ≤ p + g.window)

/-- The STK as POR leaves it: every joint of the table UNCERTAIN at extension 0 (R3, R25). -/
def Stk.start (active : Option Geometry) : Stk where
  joints := ((active.map Geometry.joints).getD []).map fun g => ⟨.uncertain, 0, g.aligned 0⟩
  ropeOffset := 0
  strokeOffset := 0
  datumSet := false
  quality := .none
  depth := 0
  heldDepth := 0
  taut := false
  disagreement := 0
  bottomHole := 0
  aF := 0
  aR := 0
  reverseRun := false

/-- The joint operation in flight: its op angle and op timer (R46). Its kind is the phase. -/
structure Operation where
  angle : Nat
  timer : Nat
  deriving DecidableEq, Repr

/-- The Phase Controller (R46). -/
structure Phc where
  phase : Phase
  op : Option Operation
  target : Option ReleaseTarget
  releaseLatch : Bool
  advanceArm : Bool
  deriving DecidableEq, Repr

/-- The PHC as POR and XRST leave it (R46, R67, R68). -/
def Phc.start : Phc := ⟨.parked, none, none, false, false⟩

/-- An entry of the zone table; the flags are NO_UNLOCK, NO_REVERSE and MARK from bit 0 (R114). -/
structure Zone where
  valid : Bool
  top : Int
  bottom : Int
  tCap : Int
  cCap : Int
  wotCap : Int
  vCap : Int
  flags : BitVec 3
  deriving DecidableEq, Repr

/-- An entry as POR leaves it (R114). -/
def Zone.start : Zone := ⟨false, 0, 0, 65535, 65535, 65535, 65535, 0⟩

/-- The combined limits; `zWot` is the zones' cap, before WOT_max is folded in (R118). -/
structure Limits where
  zT : Int
  zC : Int
  zWot : Int
  zV : Int
  noUnlock : Bool
  noReverse : Bool
  deriving DecidableEq, Repr

/-- The limits of an empty combined set (R118). -/
def Limits.open_ : Limits := ⟨65535, 65535, 65535, 65535, false, false⟩

/-- The Zone Table (chapter 6). The mask and the combined set hold entry numbers in rising order. -/
structure Znt where
  zones : Vector Zone 8
  mask : List Nat
  combined : List Nat
  limits : Limits
  sessionOpen : Bool
  pile : Word
  deriving DecidableEq, Repr

/-- The ZNT as POR leaves it (R114, R122, R126). -/
def Znt.start : Znt := ⟨Vector.replicate 8 Zone.start, [], [], .open_, false, 0⟩

/-- The eight ceilings and caps that LIMIT forcing may force (R71, R90). -/
structure Ceilings where
  tFwd : Int
  tRev : Int
  cDown : Int
  cUp : Int
  pRotMax : Int
  pCdMax : Int
  vPay : Int
  vHaul : Int
  deriving DecidableEq, Repr

/-- Every ceiling 0. -/
def Ceilings.zero : Ceilings := ⟨0, 0, 0, 0, 0, 0, 0, 0⟩

/-- The quantities formed from a scan (R37). -/
structure Measured where
  fC : Int
  tMeas : Int
  lR : Int
  theta : Int
  deriving DecidableEq, Repr

/-- The envelope record (R71): the grant fields, the computed ceilings, the measured quantities, and the
combined limits as the ENV used them (R93). -/
structure Envelope where
  grant : Ceilings
  lMin : Int
  lCeil : Int
  computed : Ceilings
  dr : Int
  measured : Measured
  wot : Int
  k : Int
  supplyShort : Bool
  budgetSpent : Bool
  zT : Int
  zC : Int
  zWot : Int
  zV : Int
  deriving DecidableEq, Repr

/-- The zeroed record of a part without active geometry after POR (R74, R92, R93). -/
def Envelope.start : Envelope where
  grant := .zero
  lMin := 0
  lCeil := 0
  computed := .zero
  dr := 100
  measured := ⟨0, 0, 0, 0⟩
  wot := 0
  k := 0
  supplyShort := false
  budgetSpent := false
  zT := 65535
  zC := 65535
  zWot := 6000
  zV := 65535

/-- The state of a grant record, with the neutral cause in NEUTRAL_WAIT and the life remaining, in ms, in
ACTIVE (R94). -/
inductive GrantState where
  | unacked
  | neutralWait (cause : NeutralCause)
  | active (life : Nat)
  deriving DecidableEq, Repr

/-- A grant record (R94). Demands and grants are positive in direction 0 and negative in direction 1. -/
structure Grant where
  state : GrantState
  lastDemand : Int
  granted : Int
  reportedCeiling : Int
  clamped : Bool
  blocked : Bool
  reduced : Bool
  hold : Bool
  deriving DecidableEq, Repr

/-- A grant record after POR and XRST (R94). -/
def Grant.start : Grant := ⟨.unacked, 0, 0, 0, false, false, false, false⟩

/-- The permit outputs (R109, R110). -/
structure Permits where
  hoist : Bool
  crowd : Bool
  rotary : Bool
  brakeRelease : Bool
  deriving DecidableEq, Repr

/-- Every permit output low. -/
def Permits.low : Permits := ⟨false, false, false, false⟩

/-- The Grant Unit (chapter 5). -/
structure Gru where
  hoist : Grant
  crowd : Grant
  rotary : Grant
  permits : Permits
  deriving DecidableEq, Repr

/-- The GRU as POR and XRST leave it (R112). -/
def Gru.start : Gru := ⟨.start, .start, .start, .low⟩

/-- An override in force: its action and its start mode (R129). -/
structure Override where
  action : OverrideAction
  startMode : Mode
  deriving DecidableEq, Repr

/-- An entry of the fault table (R129). -/
structure FaultEntry where
  condition : Bool
  latched : Bool
  mode : Mode
  action : Action
  pendingMode : Option Mode
  pendingAction : Option Action
  override : Option Override
  deriving DecidableEq, Repr

/-- The entry of a source as POR leaves it (R128, R146). -/
def FaultEntry.start (src : Source) : FaultEntry :=
  ⟨false, false, src.defaultMode, src.defaultAction, none, none, none⟩

/-- The five warnings (R145). -/
structure Warnings where
  supplyShort : Bool
  depthQuality : Bool
  fifoFull : Bool
  oilWarm : Bool
  channelHolding : Bool
  deriving DecidableEq, Repr

/-- The Fault Supervisor (chapter 7). The table is indexed by source number. -/
structure Fsv where
  table : Vector FaultEntry 16
  groupMode : GroupMode
  pendingGroupMode : Option GroupMode
  limitReach : DriveSet
  dropReach : DriveSet
  stallTimer : Nat
  stallRef : Count
  warnings : Warnings
  deriving DecidableEq, Repr

/-- The FSV as POR leaves it (R146). -/
def Fsv.start : Fsv where
  table := #v[.start .estop, .start .oilHot, .start .chainOpen, .start .reverseOverrun,
    .start .unlockUnderLoad, .start .depthDisagree, .start .overtorque, .start .stall,
    .start .rotSensor, .start .overcrowd, .start .crwSensor, .start .ropeSlack,
    .start .stopOverspeed, .start .hstSensor, .start .opTimeout, .start .oilSensor]
  groupMode := .isolate
  pendingGroupMode := none
  limitReach := .empty
  dropReach := .empty
  stallTimer := 1500
  stallRef := 0
  warnings := ⟨false, true, false, false, false⟩

/-- The gap accumulator (R155). -/
structure Gap where
  count : Nat
  pending : Bool
  first : Int
  last : Int
  deriving DecidableEq, Repr

/-- The gap accumulator cleared (R156). -/
def Gap.clear : Gap := ⟨0, false, 0, 0⟩

/-- The Bore Recorder (chapter 8). The FIFO is oldest first. -/
structure Brc where
  fifo : List Record
  seqCounter : Word
  gap : Gap
  acc : Accumulators
  turnDivider : Nat
  lastStep : Int
  nextStep : Int
  deriving DecidableEq, Repr

/-- The BRC as POR leaves it (R159). -/
def Brc.start : Brc := ⟨[], 0, .clear, .zero, 0, 0, 0⟩

/-- The Geometry Store (chapter 9). `commit` is the remaining time, in ms, of a commit in flight. -/
structure Gst where
  store : Store
  active : Option Geometry
  storeCorrupt : Bool
  staging : Geometry
  storeEnable : Bool
  commit : Option Nat
  settings : Settings
  deriving DecidableEq, Repr

/-- The GST as POR leaves it with the store as read (R161, R165, R167). A word of a good store that lies outside its
item's range is brought within it for the active geometry as for the staging record (DEDUCED: entry 37). -/
def Gst.start (t : Store) : Gst where
  store := t
  active := if t.good then some (Geometry.ofWords t.data) else none
  storeCorrupt := !t.good
  staging := Geometry.ofWords t.data
  storeEnable := false
  commit := none
  settings := .default

/-- An answer: CODE, X and Y (R172), and whether it answers a DEMAND taken in ACTIVE or one that moved the
record to ACTIVE, which the GRU may rewrite before the next frame begins (R104). -/
structure Answer where
  code : Code
  x : Word
  y : Word
  rewritable : Bool
  deriving DecidableEq, Repr

/-- A frame in flight (R157, R169, R171): the response fixed at the fall, the clocks counted, the request
bits received so far, whether an extension bit was 1, the record latched at the 56th clock, and the time
left before select times out. -/
structure Shift where
  response : BitVec 56
  clocks : Nat
  request : BitVec 56
  extensionOnes : Bool
  latched : Option Record
  timer : Nat
  deriving DecidableEq, Repr

/-- A port's select: high, low with a frame in flight, or low and ignored until it rises (R171, R177). -/
inductive Frame where
  | idle
  | ignored
  | shifting (f : Shift)
  deriving DecidableEq, Repr

/-- A port of the PIF (chapter 10). `dataOut` is absent while the output is released (R169). -/
structure PortState where
  answer : Answer
  rst : Bool
  link : Bool
  lastReason : Nat
  frame : Frame
  dataOut : Option Bool
  deriving DecidableEq, Repr

/-- A port as a reset leaves it; X of RESTART is 1 after POR and 2 after XRST (R172, R177). -/
def PortState.start (restartX : Word) (frame : Frame) : PortState :=
  ⟨⟨.restart, restartX, 0, false⟩, true, false, 0, frame, none⟩

/-- The Port Interface (chapter 10). -/
structure Pif where
  cab : PortState
  hoist : PortState
  crowd : PortState
  rotary : PortState
  deriving DecidableEq, Repr

/-- The PIF after POR with select high on every port (R177). -/
def Pif.start : Pif :=
  ⟨.start 1 .idle, .start 1 .idle, .start 1 .idle, .start 1 .idle⟩

/-- The input lines whose level the part reads: ESTOP and XRST, true while asserted, and STORE_WP, true while
high (R143, R163, R177). -/
structure Lines where
  estop : Bool
  xrst : Bool
  storeWp : Bool
  deriving DecidableEq, Repr

end Sys2Proof.Machine
end

