-- ==== Sys2Proof/Machine/State.lean ====
section
/-! DEFINITION. The state of the KC540: its ten blocks, its lines, the queue of commands that wait, and the
machine right after reset. -/

namespace Sys2Proof.Machine

/-- How a step can stop. Nobody raises a fault: the spec gives every command an effect in every state, and
the part's own fault sources are State (R128). -/
inductive Fault where
  deriving DecidableEq, Repr

/-- How a command can have no meaning. -/
inductive Refusal where
  /-- Raised by `exec` for a row of the opcode table without a meaning (there is none in this model); safe. -/
  | notModelled (mnemonic : String)
  deriving DecidableEq, Repr

/-- The state of the part. `freeCount` and `pending` are the model's own: the index of the next use of a free
value (entry 31), and the commands that wait, first in, first out. -/
structure State where
  msu : Msu
  stk : Stk
  phc : Phc
  znt : Znt
  env : Envelope
  gru : Gru
  fsv : Fsv
  brc : Brc
  gst : Gst
  pif : Pif
  lines : Lines
  freeCount : Nat
  pending : List Instr
  deriving DecidableEq, Repr

/-- The levels of the lines at State.reset: encoder lines low, ESTOP released, STORE_WP low (entry 9). -/
def restLines : LineLevels := ⟨⟨false, false⟩, ⟨false, false⟩, ⟨false, false⟩, false, false⟩

/-- The machine right after POR with a blank store, whose CRC is bad (R165; entry 8): no active geometry, the
zeroed envelope (R74), and every block as its POR rule starts it. -/
def State.reset : State where
  msu := .start restLines
  stk := .start none
  phc := .start
  znt := .start
  env := .start
  gru := .start
  fsv := .start
  brc := .start
  gst := ⟨.blank, none, true, .least, false, none, .default⟩
  pif := .start
  lines := ⟨false, false, false⟩
  freeCount := 0
  pending := []

end Sys2Proof.Machine
end

