-- ==== Sys2Proof/Machine/Ops.lean ====
section
/-! DEFINITION. The named operations every block uses: writing one block, one grant record, one port, one
fault entry of the state, and the readings of the state several blocks share. -/

namespace Sys2Proof.Machine

/-- The state with the MSU replaced. -/
def State.withMsu (s : State) (x : Msu) : State := { s with msu := x }
/-- The state with the STK replaced. -/
def State.withStk (s : State) (x : Stk) : State := { s with stk := x }
/-- The state with the PHC replaced. -/
def State.withPhc (s : State) (x : Phc) : State := { s with phc := x }
/-- The state with the ZNT replaced. -/
def State.withZnt (s : State) (x : Znt) : State := { s with znt := x }
/-- The state with the envelope record replaced. -/
def State.withEnv (s : State) (x : Envelope) : State := { s with env := x }
/-- The state with the GRU replaced. -/
def State.withGru (s : State) (x : Gru) : State := { s with gru := x }
/-- The state with the FSV replaced. -/
def State.withFsv (s : State) (x : Fsv) : State := { s with fsv := x }
/-- The state with the BRC replaced. -/
def State.withBrc (s : State) (x : Brc) : State := { s with brc := x }
/-- The state with the GST replaced. -/
def State.withGst (s : State) (x : Gst) : State := { s with gst := x }
/-- The state with the PIF replaced. -/
def State.withPif (s : State) (x : Pif) : State := { s with pif := x }
/-- The state with the lines replaced. -/
def State.withLines (s : State) (x : Lines) : State := { s with lines := x }
/-- The state with the index of the next free value replaced. -/
def State.withFreeCount (s : State) (x : Nat) : State := { s with freeCount := x }
/-- The state with the queue replaced. -/
def State.withPending (s : State) (x : List Instr) : State := { s with pending := x }

/-- The state after one more use of a free value (entry 31). -/
def State.useFree (s : State) : State := s.withFreeCount (s.freeCount + 1)

/-- The grant record of a drive (R94). -/
def Gru.grant (g : Gru) : Drive → Grant
  | .hoist => g.hoist
  | .crowd => g.crowd
  | .rotary => g.rotary

/-- The GRU with the record of a drive replaced. -/
def Gru.withGrant (g : Gru) (d : Drive) (x : Grant) : Gru :=
  match d with
  | .hoist => { g with hoist := x }
  | .crowd => { g with crowd := x }
  | .rotary => { g with rotary := x }

/-- The grant record of a drive (R94). -/
def State.grant (s : State) (d : Drive) : Grant := s.gru.grant d

/-- The state with the grant record of a drive replaced. -/
def State.withGrant (s : State) (d : Drive) (x : Grant) : State := s.withGru (s.gru.withGrant d x)

/-- The port with a name (chapter 10). -/
def Pif.port (f : Pif) : Port → PortState
  | .cab => f.cab
  | .hoist => f.hoist
  | .crowd => f.crowd
  | .rotary => f.rotary

/-- The PIF with one port replaced. -/
def Pif.withPort (f : Pif) (p : Port) (x : PortState) : Pif :=
  match p with
  | .cab => { f with cab := x }
  | .hoist => { f with hoist := x }
  | .crowd => { f with crowd := x }
  | .rotary => { f with rotary := x }

/-- The port with a name. -/
def State.port (s : State) (p : Port) : PortState := s.pif.port p

/-- The state with one port replaced. -/
def State.withPort (s : State) (p : Port) (x : PortState) : State := s.withPif (s.pif.withPort p x)

/-- The fault table's entry of a source (R129). -/
def Fsv.entry (f : Fsv) (src : Source) : FaultEntry := f.table[src.idx]

/-- The FSV with the entry of a source replaced. -/
def Fsv.withEntry (f : Fsv) (src : Source) (x : FaultEntry) : Fsv :=
  { f with table := f.table.set src.idx x }

/-- The fault table's entry of a source (R129). -/
def State.entry (s : State) (src : Source) : FaultEntry := s.fsv.entry src

/-- The state with the entry of a source replaced. -/
def State.withEntry (s : State) (src : Source) (x : FaultEntry) : State :=
  s.withFsv (s.fsv.withEntry src x)

/-- Whether a joint is LOCKED (R4). -/
def Joint.isLocked (j : Joint) : Bool :=
  match j.state with
  | .locked _ => true
  | .free | .uncertain => false

/-- Whether a joint is FREE (R4). -/
def Joint.isFree (j : Joint) : Bool := j.state = .free

/-- Whether a joint is UNCERTAIN (R4). -/
def Joint.isUncertain (j : Joint) : Bool := j.state = .uncertain

/-- The chain is closed when the table has entries and every one is LOCKED (R6). -/
def chainClosed (js : List Joint) : Bool := !js.isEmpty && js.all Joint.isLocked

/-- Whether every joint is FREE (R49, R59, R65). -/
def allFree (js : List Joint) : Bool := js.all Joint.isFree

/-- The sum of the extensions of a joint table (R7). -/
def extSum (js : List Joint) : Int := (js.map Joint.ext).sum

/-- P_rope, the depth of the tool as the rope measures it (R7). -/
def State.pRope (s : State) : Int := s.msu.ropeMm + s.stk.ropeOffset

/-- H, the depth of the head carriage's reference point (R7). -/
def State.headPos (s : State) : Int := s.msu.strokeMm + s.stk.strokeOffset

/-- Whether a store commit is in flight (R164). -/
def State.committing (s : State) : Bool := s.gst.commit.isSome

/-- The difference of two angle values, modulo 2^32 as a signed 32-bit number (R29). -/
def angleDiff (x y : Count) : Int := (x - y).toInt

end Sys2Proof.Machine
end

