-- ==== Sys2Proof/Machine/Operands.lean ====
section
/-! DEFINITION. How A and B of a request are read, and how values are carried in X and Y of an answer
(R28, R45, R93, R113, R183). -/

namespace Sys2Proof.Machine

/-- An answer with X and Y as integers, each carried in its low 16 bits: a value below 0 in two's complement, as R28, R93,
R115 and R127 carry the signed values they name. The payout speed and the oil temperature channel (R45), the signed
settings (R166) and the channel offsets (R161) have no packing stated and are carried so too (DESIGN CHOICE: entry 38). -/
def answer (code : Code) (x y : Int) : Answer := ⟨code, BitVec.ofInt 16 x, BitVec.ofInt 16 y, false⟩

/-- An answer the GRU may rewrite before the next frame begins (R104). -/
def rewritableAnswer (code : Code) (x y : Int) : Answer :=
  ⟨code, BitVec.ofInt 16 x, BitVec.ofInt 16 y, true⟩

/-- A request refused with a stated X and Y: no effect but the answer (00_scope.md, Words for what happens). -/
def refuse (code : Code) (x y : Int) (s : State) : State × Answer := (s, answer code x y)

/-- A request refused where the spec states no X and no Y: both are free values (entry 12). -/
def refuseOpen (code : Code) (s : State) : State × Answer :=
  (s.useFree, ⟨code, Config.unstatedX s.freeCount, Config.unstatedY s.freeCount, false⟩)

/-- A value carried as a signed 16-bit number, clamped to its range (R28, R93). -/
def signed16 (x : Int) : Int := clamp (-32768) 32767 x

/-- A value carried as an unsigned 16-bit number, clamped to its range (R57, R93). -/
def unsigned16 (x : Int) : Int := clamp 0 65535 x

/-- A depth in 10 mm units, floored and clamped to the signed 16-bit range (R28, R45, R160). -/
def depth10 (mm : Int) : Int := signed16 (floorDiv mm 10)

/-- A flag as READ carries it: 1 when set (R183). -/
def flag (b : Bool) : Int := if b then 1 else 0

/-- The upper half of a 32-bit count (R45, R183). -/
def upperHalf (c : Count) : Word := c.extractLsb' 16 16

/-- The lower half of a 32-bit count (R45, R183). -/
def lowerHalf (c : Count) : Word := c.extractLsb' 0 16

/-- A pocket or entry number, 255 when absent (R183). -/
def numberOr255 (n : Option Nat) : Int := (n.map Int.ofNat).getD 255

/-- A set of numbers as a mask, member i as 2 to the power i (R127, R147). -/
def maskOf (members : List Nat) : Nat := (members.map fun i => 2 ^ i).sum

/-- The mask of the joints a test holds of: bit j for joint Jj (R21, R53). -/
def jointMask (test : Joint → Bool) : List Joint → Nat
  | [] => 0
  | j :: js => (test j).toNat + 2 * jointMask test js

/-- The signed value of a DEMAND: +A in direction 0, -A in direction 1 (R94, R100). -/
def signedDemand (a : Word) (reverse : Bool) : Int := if reverse then -(a.toNat : Int) else a.toNat

end Sys2Proof.Machine
end

