-- ==== Sys2Proof/Machine/Recorder.lean ====
section
/-! DEFINITION. The Bore Recorder's operations (chapter 8): appending, counting into the gap, the GAP record,
EVENT, STEP and TURN records, the step accumulators. -/

namespace Sys2Proof.Machine

/-- A record appended: it takes the sequence counter's value, and the counter rises by 1 (R149). -/
def Brc.append (b : Brc) (fromDepth toDepth : Int) (body : RecordBody) : Brc :=
  { b with fifo := b.fifo ++ [⟨b.seqCounter, fromDepth, toDepth, body⟩], seqCounter := b.seqCounter + 1 }

/-- A record counted into the gap (R155). -/
def Brc.countGap (b : Brc) (fromDepth toDepth : Int) : Brc :=
  { b with gap :=
      if b.gap.pending then { b.gap with count := min Config.maxCount (b.gap.count + 1), last := toDepth }
      else ⟨1, true, fromDepth, toDepth⟩ }

/-- A record asked for: discarded outside a session, appended, or counted into the gap (R148). -/
def Brc.ask (b : Brc) (sessionOpen : Bool) (fromDepth toDepth : Int) (body : RecordBody) : Brc :=
  if !sessionOpen then b
  else if b.fifo.length < Config.fifoCapacity && !b.gap.pending then b.append fromDepth toDepth body
  else b.countGap fromDepth toDepth

/-- A pending gap written as one GAP record, and the gap accumulator cleared (R156). -/
def Brc.writeGap (b : Brc) : Brc :=
  if b.gap.pending then
    { b.append b.gap.first b.gap.last (.gap b.gap.count) with gap := .clear }
  else b

/-- The oldest record removed, and a pending GAP record appended into the slot it frees (R156, R157). -/
def Brc.removeOldest (b : Brc) : Brc := Brc.writeGap { b with fifo := b.fifo.tail }

/-- The record a reading frame latches: the oldest, or the NONE record (R157). -/
def Brc.oldest (b : Brc) : Record := b.fifo.head?.getD .nothing

/-- The deepest step boundary at or above a depth (R153). -/
def stepBoundary (step depth : Int) : Int := step * floorDiv depth step

/-- A STEP record when bottom-hole depth is at or beyond the next step boundary (R153). -/
def Brc.stepRecord (b : Brc) (sessionOpen : Bool) (step bottomHole : Int) : Brc :=
  if bottomHole < b.nextStep then b
  else
    let to_ := stepBoundary step bottomHole
    { b.ask sessionOpen b.lastStep to_ (.step b.acc) with
      acc := .zero, turnDivider := 0, lastStep := to_, nextStep := to_ + step }

/-- A turn mark while the session is OPEN: it counts into turns and, in DRILL, into the turn divider, and a
TURN record is formed when the divider reaches D_turn (R152, R154). -/
def Brc.turnMark (b : Brc) (drilling : Bool) (dTurn bottomHole : Int) : Brc :=
  let b := { b with acc := { b.acc with turns := min 255 (b.acc.turns + 1) } }
  if !drilling then b
  else
    let b := { b with turnDivider := min 64 (b.turnDivider + 1) }
    if 0 < dTurn ∧ dTurn ≤ b.turnDivider then
      { b.ask true bottomHole bottomHole (.turn b.acc) with acc := .zero, turnDivider := 0 }
    else b

/-- The maxima of a scan taken into the step accumulators while the session is OPEN (R152). -/
def Brc.scanMaxima (b : Brc) (e : Envelope) : Brc :=
  { b with acc := { b.acc with
      tMax := min 65535 (max b.acc.tMax e.measured.tMeas)
      cMax := min 65535 (max b.acc.cMax e.measured.fC)
      wotPeak := min 65535 (max b.acc.wotPeak e.wot) } }

/-- An EVENT record asked for, at the tool depth of this instant (R150, R151). -/
def askEvent (d : EventDetail) (s : State) : State :=
  s.withBrc (s.brc.ask s.znt.sessionOpen s.stk.depth s.stk.depth (.event d))

/-- An EVENT record that names joints, asked for when it names at least one (R21). -/
def askJoints (d : Nat → EventDetail) (mask : Nat) (s : State) : State :=
  if mask = 0 then s else askEvent (d mask) s

/-- EVENT records asked for one after the other (R151). -/
def askEvents (ds : List EventDetail) (s : State) : State := ds.foldl (fun s d => askEvent d s) s

/-- The BRC's part of an event in which the STK advanced bottom-hole depth beyond `before` (R24, R153). -/
def brcDepth (before : Int) (s : State) : State :=
  if s.znt.sessionOpen ∧ before < s.stk.bottomHole then
    s.withBrc (s.brc.stepRecord true s.gst.settings.recordStep s.stk.bottomHole)
  else s

/-- The BRC's part of a turn mark (R40, R154). -/
def brcTurnMark (s : State) : State :=
  if s.znt.sessionOpen then
    s.withBrc (s.brc.turnMark (s.phc.phase = .drill) s.gst.settings.dTurn s.stk.bottomHole)
  else s

/-- The BRC's part of a scan (R36, R152). -/
def brcScan (s : State) : State :=
  if s.znt.sessionOpen then s.withBrc (s.brc.scanMaxima s.env) else s

end Sys2Proof.Machine
end

