-- ==== Sys2Proof/Machine/Zones.lean ====
section
/-! DEFINITION. The Zone Table's operations (chapter 6): containment, combination, re-evaluation with the
zone records, and the writing of an entry. -/

namespace Sys2Proof.Machine

/-- The flag NO_UNLOCK (R114). -/
def Zone.noUnlock (z : Zone) : Bool := z.flags.getLsbD 0
/-- The flag NO_REVERSE (R114). -/
def Zone.noReverse (z : Zone) : Bool := z.flags.getLsbD 1
/-- The flag MARK (R114). -/
def Zone.mark (z : Zone) : Bool := z.flags.getLsbD 2

/-- Whether a valid entry contains a depth in mm (R117). -/
def Zone.contains (z : Zone) (depth : Int) : Bool :=
  z.valid && decide (z.top * 10 ≤ depth ∧ depth < z.bottom * 10)

/-- The entry with a number; past the table, the entry POR leaves. -/
def Znt.zone (t : Znt) (i : Nat) : Zone := t.zones.toList.getD i .start

/-- The numbers of the entries a test holds of, rising. -/
def Znt.entriesWith (t : Znt) (test : Zone → Bool) : List Nat :=
  (List.range 8).filter fun i => test (t.zone i)

/-- The containment mask at a depth (R117). -/
def Znt.containing (t : Znt) (depth : Int) : List Nat := t.entriesWith fun z => z.contains depth

/-- The combined set: every valid entry under quality NONE, the containing ones otherwise (R118). -/
def Znt.combinedSet (t : Znt) (q : Quality) (depth : Int) : List Nat :=
  match q with
  | .none => t.entriesWith Zone.valid
  | .valid | .strokeOnly | .held => t.containing depth

/-- The limits of a set with one more entry: least caps, any flags (R118). -/
def Limits.with_ (l : Limits) (z : Zone) : Limits :=
  ⟨min l.zT z.tCap, min l.zC z.cCap, min l.zWot z.wotCap, min l.zV z.vCap,
   l.noUnlock || z.noUnlock, l.noReverse || z.noReverse⟩

/-- The combined limits of a set of entries (R118). -/
def Znt.combine (t : Znt) (set : List Nat) : Limits :=
  set.foldl (fun l i => l.with_ (t.zone i)) Limits.open_

/-- The lowest entry number in the combined set that carries NO_UNLOCK (R118). -/
def Znt.lowestNoUnlock (t : Znt) : Option Nat := t.combined.find? fun i => (t.zone i).noUnlock

/-- The ZONE_EXIT and then the ZONE_ENTER records of a change of the mask, each kind in rising entry number
(R120). -/
def Znt.markRecords (t : Znt) (old new : List Nat) : List EventDetail :=
  ((old.filter fun i => (t.zone i).mark && !new.contains i).map .zoneExit) ++
    ((new.filter fun i => (t.zone i).mark && !old.contains i).map .zoneEnter)

/-- The ZNT's re-evaluation from the depth and quality the STK last handed over: the mask, the combined set,
the combined limits and the zone records (R119, R120). -/
def zntReevaluate (s : State) : State :=
  let mask := s.znt.containing s.stk.depth
  let set := s.znt.combinedSet s.stk.quality s.stk.depth
  let records := s.znt.markRecords s.znt.mask mask
  askEvents records
    (s.withZnt { s.znt with mask := mask, combined := set, limits := s.znt.combine set })

/-- A zone depth brought within its range (R115). -/
def zoneDepth (x : Int) : Int := clamp (-2000) 15000 x

/-- A hoist speed cap brought within its range: 0 to 5 000, or 65 535 for none (R115). -/
def zoneSpeed (x : Int) : Int := if x = 65535 then x else min x 5000

/-- An entry whose bounds were written stays valid only while top is less than bottom (R116). -/
def Zone.checked (z : Zone) : Zone := { z with valid := z.valid && decide (z.top < z.bottom) }

/-- The value of an entry's field, by field number (R114). -/
def Zone.field (z : Zone) : Nat → Option Int
  | 0 => some (flag z.valid)
  | 1 => some z.top
  | 2 => some z.bottom
  | 3 => some z.tCap
  | 4 => some z.cCap
  | 5 => some z.wotCap
  | 6 => some z.vCap
  | 7 => some z.flags.toNat
  | _ => none

/-- B as a field reads it: top and bottom signed, the others unsigned (R115). -/
def zoneRead (field : Nat) (b : Word) : Int := if field = 1 ∨ field = 2 then b.toInt else b.toNat

/-- The value a ZONE_WRITE writes: B as read, brought within the field's range (R115). -/
def zoneBring (field : Nat) (x : Int) : Int :=
  match field with
  | 1 | 2 => zoneDepth x
  | 6 => zoneSpeed x
  | _ => x

/-- An entry with a field written, by field number (R115, R116). -/
def Zone.write (z : Zone) (field : Nat) (x : Int) : Zone :=
  match field with
  | 0 => { z with valid := x ≠ 0 }
  | 1 => Zone.checked { z with top := x }
  | 2 => Zone.checked { z with bottom := x }
  | 3 => { z with tCap := x }
  | 4 => { z with cCap := x }
  | 5 => { z with wotCap := x }
  | 6 => { z with vCap := x }
  | 7 => { z with flags := BitVec.ofInt 3 x }
  | _ => z

end Sys2Proof.Machine
end

