-- ==== Sys2Proof/Machine/EnvelopeCalc.lean ====
section
/-! DEFINITION. The Envelope Calculator's stages (chapter 4), each a function of the inputs its rule names,
and the whole record as a function of the state's inputs (R72). -/

namespace Sys2Proof.Machine

/-- The derate: 100 while theta is at or below theta_hot, 75 above it (R76). -/
def derate (t : Settings) (theta : Int) : Int := if theta ≤ t.thetaHot then 100 else 75

/-- The least of a value and the members of a list. -/
def leastOf (x : Int) (xs : List Int) : Int := xs.foldl min x

/-- T_base (R77). -/
def tBase (g : Geometry) (l : Limits) : Int := min (leastOf g.tHead g.torques) l.zT

/-- The forward torque cap of a phase; `base` is T_base (R77). -/
def forwardCap (t : Settings) (base : Int) : Phase → Int
  | .parked => 0
  | .free => t.tFree
  | .engaging => t.tSeat
  | .drill => base
  | .releasing => 0
  | .hoist => t.tHold
  | .spinOff => t.tSpin

/-- The reverse torque cap of a phase (R77). -/
def reverseCap (t : Settings) : Phase → Int
  | .parked => 0
  | .free => t.tFree
  | .engaging => 0
  | .drill => t.tFreeTool
  | .releasing => t.tRelease
  | .hoist => 0
  | .spinOff => t.tSpin

/-- A ceiling derated: floor(x DR / 100) (R78, R84). -/
def derated (x dr : Int) : Int := floorDiv (x * dr) 100

/-- The reverse budget is spent: some joint LOCKED, the phase not RELEASING, and A_r at or above the unlock
angle less the reverse margin (R80). -/
def budgetSpent (t : Settings) (ph : Phase) (js : List Joint) (aR : Nat) : Bool :=
  js.any Joint.isLocked && decide (ph ≠ .releasing) && decide (t.unlockAngle - t.reverseMargin ≤ aR)

/-- T_fwd (R78). -/
def tForward (t : Settings) (g : Geometry) (l : Limits) (ph : Phase) (dr : Int) : Int :=
  derated (min (tBase g l) (forwardCap t (tBase g l) ph)) dr

/-- T_rev, 0 in a NO_REVERSE zone in DRILL and while the reverse budget is spent (R78, R79, R80). -/
def tReverse (t : Settings) (g : Geometry) (l : Limits) (ph : Phase) (dr : Int) (spent : Bool) : Int :=
  if (l.noReverse ∧ ph = .drill) ∨ spent then 0
  else derated (min (tBase g l) (reverseCap t ph)) dr

/-- p_rot_max before it is held to the supply (R81). -/
def pRotary (g : Geometry) (tFwd tRev : Int) : Int := floorDiv (max tFwd tRev * 1000) g.kRot

/-- C_base with the chain closed: C_chain, C_wot and Z_C (R82). -/
def crowdClosed (g : Geometry) (l : Limits) (zWot lR : Int) : Int :=
  min (min (leastOf g.cHead (g.joints.map JointGeometry.crowd)) (max 0 (zWot - g.wTotal + lR))) l.zC

/-- The rated crowd of the LOCKED joints outward of j*, and the friction ceiling of j*, the lowest-numbered
joint that is not LOCKED (R83). -/
def crowdThrough (tMeas : Int) : List Joint → List JointGeometry → List Int
  | j :: js, g :: gs =>
    if j.isLocked then g.crowd :: crowdThrough tMeas js gs
    else [floorDiv (g.friction * tMeas) g.keyRadius]
  | _, _ => []

/-- C_base with the chain open (R83). -/
def crowdOpen (g : Geometry) (l : Limits) (js : List Joint) (tMeas : Int) : Int :=
  min (leastOf g.cHead (crowdThrough tMeas js g.joints)) l.zC

/-- C_base in DRILL and FREE (R82, R83). -/
def crowdBase (g : Geometry) (l : Limits) (js : List Joint) (zWot : Int) (m : Measured) : Int :=
  if chainClosed js then crowdClosed g l zWot m.lR else crowdOpen g l js m.tMeas

/-- C_down: 0 outside DRILL and FREE, limited by C_free in FREE, and derated (R82, R84). -/
def crowdDown (t : Settings) (ph : Phase) (base dr : Int) : Int :=
  match ph with
  | .drill => derated base dr
  | .free => derated (min base t.cFree) dr
  | .parked | .engaging | .releasing | .hoist | .spinOff => 0

/-- C_up: C_pull in FREE, HOIST and SPIN_OFF, 0 otherwise (R84). -/
def crowdUp (t : Settings) : Phase → Int
  | .free | .hoist | .spinOff => t.cPull
  | .parked | .engaging | .drill | .releasing => 0

/-- q, the push-side pressure that makes C_down against the pull side (R85). -/
def crowdPressure (g : Geometry) (cDown cu : Int) : Int := floorDiv (cDown * 100 + cu * g.aU) g.aD

/-- avail, the pressure the supply leaves (R85). -/
def availablePressure (t : Settings) (sp : Int) : Int := max 0 (sp - t.pMargin)

/-- L_min (R86). -/
def lineMin (t : Settings) : Phase → Int
  | .drill => t.lFollow
  | .parked | .free | .engaging | .releasing | .hoist | .spinOff => 0

/-- The room of the joint taking extension, the innermost non-locked joint below its maximum; none when there
is no such joint (R13, R88). -/
def takingRoom : List Joint → List JointGeometry → Option Int
  | j :: js, g :: gs =>
    match takingRoom js gs with
    | some room => some room
    | none => if !j.isLocked && decide (j.ext < g.eMax) then some (g.eMax - j.ext) else none
  | _, _ => none

/-- V_pay before the zone cap (R87, R88). -/
def payCap (t : Settings) (ph : Phase) (room : Option Int) : Int :=
  match ph with
  | .parked | .releasing | .hoist => 0
  | .free => if room.all fun r => decide (r < t.sSlow) then min t.vFree t.vStop else t.vFree
  | .engaging | .spinOff => t.vAlign
  | .drill => t.vFollow

/-- V_haul before the zone cap (R87). -/
def haulCap (t : Settings) : Phase → Int
  | .parked => 0
  | .free | .hoist => t.vFree
  | .engaging | .releasing | .spinOff => t.vAlign
  | .drill => t.vFollow

/-- WOT and K, which hold the same value (R89). -/
def axialLoad (m : Measured) (wTotal : Int) : Int := max 0 (m.fC + wTotal - m.lR)

/-- The eight ceilings, each clamped to 0 to 65 535 (R91). -/
def Ceilings.clamped (c : Ceilings) : Ceilings :=
  ⟨unsigned16 c.tFwd, unsigned16 c.tRev, unsigned16 c.cDown, unsigned16 c.cUp, unsigned16 c.pRotMax,
   unsigned16 c.pCdMax, unsigned16 c.vPay, unsigned16 c.vHaul⟩

/-- The ceilings with the fields of the drives a LIMIT override reaches forced to 0 (R90). -/
def Ceilings.forced (c : Ceilings) (reach : DriveSet) : Ceilings where
  tFwd := if reach.rotary then 0 else c.tFwd
  tRev := if reach.rotary then 0 else c.tRev
  cDown := if reach.crowd then 0 else c.cDown
  cUp := if reach.crowd then 0 else c.cUp
  pRotMax := if reach.rotary then 0 else c.pRotMax
  pCdMax := if reach.crowd then 0 else c.pCdMax
  vPay := if reach.hoist then 0 else c.vPay
  vHaul := if reach.hoist then 0 else c.vHaul

/-- The envelope record of an active geometry, stages 0 to 6, then forcing and clamping (R72 to R91). -/
def envelopeWith (g : Geometry) (t : Settings) (l : Limits) (ph : Phase) (js : List Joint) (aR : Nat)
    (cu sp : Int) (m : Measured) (reach : DriveSet) : Envelope :=
  let zWot := min t.wotMax l.zWot
  let dr := derate t m.theta
  let spent := budgetSpent t ph js aR
  let tFwd := tForward t g l ph dr
  let tRev := tReverse t g l ph dr spent
  let pRot := pRotary g tFwd tRev
  let cDown := crowdDown t ph (crowdBase g l js zWot m) dr
  let q := crowdPressure g cDown cu
  let avail := availablePressure t sp
  let room := takingRoom js g.joints
  let computed : Ceilings := Ceilings.clamped
    { tFwd := tFwd, tRev := tRev, cDown := cDown, cUp := crowdUp t ph
      pRotMax := min pRot avail, pCdMax := min q avail
      vPay := min (payCap t ph room) l.zV, vHaul := min (haulCap t ph) l.zV }
  { grant := computed.forced reach
    lMin := unsigned16 (lineMin t ph)
    lCeil := unsigned16 g.lRated
    computed := computed
    dr := dr
    measured := m
    wot := axialLoad m g.wTotal
    k := axialLoad m g.wTotal
    supplyShort := decide (avail < q ∨ avail < pRot)
    budgetSpent := spent
    zT := l.zT, zC := l.zC, zWot := zWot, zV := l.zV }

/-- The zeroed record while there is no active geometry (R74). -/
def envelopeWithout (t : Settings) (l : Limits) (m : Measured) : Envelope where
  grant := .zero
  lMin := 0
  lCeil := 0
  computed := .zero
  dr := derate t m.theta
  measured := m
  wot := axialLoad m 0
  k := axialLoad m 0
  supplyShort := false
  budgetSpent := false
  zT := l.zT
  zC := l.zC
  zWot := min t.wotMax l.zWot
  zV := l.zV

/-- The envelope record the inputs of a state give (R72). The measured quantities are those of the last
scan, which the record holds. -/
def State.envelope (s : State) : Envelope :=
  match s.gst.active with
  | none => envelopeWithout s.gst.settings s.znt.limits s.env.measured
  | some g => envelopeWith g s.gst.settings s.znt.limits s.phc.phase s.stk.joints s.stk.aR
      s.msu.channels.cu.value s.msu.channels.sp.value s.env.measured s.fsv.limitReach

/-- The quantities formed from a scan's channel values; areas and K_rot are 0 with no active geometry
(R37). -/
def measure (active : Option Geometry) (v : PerChannel ChannelState) : Measured where
  fC := match active with
    | none => 0
    | some g => truncDiv (v.cd.value * g.aD - v.cu.value * g.aU) 100
  tMeas := match active with
    | none => 0
    | some g => truncDiv (v.rp.value * g.kRot) 1000
  lR := v.rl.value
  theta := v.ot.value

end Sys2Proof.Machine
end

