-- ==== Sys2Proof/Machine/GrantOps.lean ====
section
/-! DEFINITION. The Grant Unit's operations (chapter 5): ceilings, the rewriting of a pending answer, moves to
NEUTRAL_WAIT, re-clamping, the permits, and the recomputation of the envelope with its re-clamp. -/

namespace Sys2Proof.Machine

/-- The grant field that bounds a drive in a direction (R95). -/
def Ceilings.bound (c : Ceilings) (d : Drive) (reverse : Bool) : Int :=
  match d, reverse with
  | .rotary, false => c.tFwd
  | .rotary, true => c.tRev
  | .crowd, false => c.cDown
  | .crowd, true => c.cUp
  | .hoist, false => c.vPay
  | .hoist, true => c.vHaul

/-- Y of a DEMAND answer: the ceiling for the direction on the rotary port, p_cd_max on the crowd port, L_ceil
on the hoist port (R95). -/
def Envelope.answerY (e : Envelope) (d : Drive) (reverse : Bool) : Int :=
  match d with
  | .rotary => e.grant.bound .rotary reverse
  | .crowd => e.grant.pCdMax
  | .hoist => e.lCeil

/-- The direction of a nonzero grant or demand: 1 when negative (R94). -/
def isReverse (v : Int) : Bool := decide (v < 0)

/-- A magnitude with the sign of `v` (R94, R103). -/
def withSignOf (v magnitude : Int) : Int := if v < 0 then -magnitude else magnitude

/-- Whether a frame has begun on a port and not ended (R104). -/
def PortState.inFrame (p : PortState) : Bool :=
  match p.frame with
  | .shifting _ => true
  | .idle | .ignored => false

/-- Whether the GRU may rewrite a port's pending answer: it answers a DEMAND taken in ACTIVE or one that moved
the record to ACTIVE, and the next frame has not begun (R104). -/
def PortState.mayRewrite (p : PortState) : Bool := p.answer.rewritable && !p.inFrame

/-- A port's pending answer rewritten where R104 allows. -/
def PortState.rewrite (p : PortState) (a : Answer) : PortState := if p.mayRewrite then { p with answer := a } else p

/-- A drive port's pending answer rewritten where R104 allows. -/
def rewriteAnswer (d : Drive) (a : Answer) (s : State) : State :=
  s.withPort d.port ((s.port d.port).rewrite a)

/-- A record moved from ACTIVE to NEUTRAL_WAIT (R99). -/
def Grant.toNeutral (g : Grant) (cause : NeutralCause) : Grant :=
  { g with state := .neutralWait cause, granted := 0, clamped := false, blocked := false, reduced := false }

/-- An ACTIVE record withdrawn: to NEUTRAL_WAIT with a cause, and the pending answer rewritten (R99, R104). -/
def withdraw (d : Drive) (cause : NeutralCause) (s : State) : State :=
  rewriteAnswer d (rewritableAnswer .neutralRequired cause.code 2)
    (s.withGrant d ((s.grant d).toNeutral cause))

/-- Entry to PARKED at one record: ACTIVE is withdrawn, NEUTRAL_WAIT takes the cause, UNACKED stays (R99). -/
def neutralEvent (cause : NeutralCause) (d : Drive) (s : State) : State :=
  match (s.grant d).state with
  | .active _ => withdraw d cause s
  | .neutralWait _ => s.withGrant d { s.grant d with state := .neutralWait cause }
  | .unacked => s

/-- Entry to PARKED at every record (R48, R99). -/
def parkGrants (s : State) : State := drivesInOrder.foldl (fun s d => neutralEvent .parked d s) s

/-- The beginning of a LATCHED DROP at one drive it reaches: the neutral event, and the hold set (R111). -/
def latchedDropBegins (s : State) (d : Drive) : State :=
  let s := neutralEvent .drop d s
  s.withGrant d { s.grant d with hold := true }

/-- The neutral hold of a drive cleared (R111, R136). -/
def clearHold (s : State) (d : Drive) : State := s.withGrant d { s.grant d with hold := false }

/-- One ACTIVE record brought within its grant field: lowered, flagged REDUCED, and its pending answer rewritten
where R104 allows, which also writes the reported ceiling (R103, R104). -/
def reclampDrive (s : State) (d : Drive) : State :=
  let g := s.grant d
  let bound := s.env.grant.bound d (isReverse g.granted)
  match g.state with
  | .active _ =>
    if bound < |g.granted| then
      let y := s.env.answerY d (isReverse g.granted)
      let ceiling := if (s.port d.port).mayRewrite then y else g.reportedCeiling
      rewriteAnswer d (rewritableAnswer .reduced bound y)
        (s.withGrant d { g with
          granted := withSignOf g.granted bound, reduced := true, reportedCeiling := ceiling })
    else s
  | .unacked | .neutralWait _ => s

/-- The re-clamp: every ACTIVE record in the order hoist, crowd, rotary (R103). -/
def reclamp (s : State) : State := drivesInOrder.foldl reclampDrive s

/-- Whether two envelope records differ in a grant field (R71, R73). -/
def Envelope.grantFieldsDiffer (e f : Envelope) : Bool :=
  decide (e.grant ≠ f.grant) || decide (e.lMin ≠ f.lMin) || decide (e.lCeil ≠ f.lCeil)

/-- A recomputation of the envelope record and, when a grant field differs, the re-clamp (R72, R73). -/
def recompute (s : State) : State :=
  let e := s.envelope
  if e.grantFieldsDiffer s.env then reclamp (s.withEnv e) else s.withEnv e

/-- Whether a record is ACTIVE. -/
def Grant.isActive (g : Grant) : Bool :=
  match g.state with
  | .active _ => true
  | .unacked | .neutralWait _ => false

/-- The level a drive's permit has: its record ACTIVE, the phase not PARKED, and no DROP override reaching the
drive (R109). -/
def State.permitLevel (s : State) (d : Drive) : Bool :=
  (s.grant d).isActive && decide (s.phc.phase ≠ .parked) && !s.fsv.dropReach.has d

/-- The permit outputs re-decided; BRAKE_RELEASE follows HOIST_PERMIT (R109, R110). -/
def State.permitLevels (s : State) : Permits :=
  ⟨s.permitLevel .hoist, s.permitLevel .crowd, s.permitLevel .rotary, s.permitLevel .hoist⟩

end Sys2Proof.Machine
end

