-- ==== Sys2Proof/Machine/Flags.lean ====
section
/-! DEFINITION. What is formed from the fault table and shown: group status (R144), warnings (R145), masks
(R147), the summary byte (R173, R178); and the settling of an event's outputs. -/

namespace Sys2Proof.Machine

/-- A group status bit: some source of the group latched or present (R144). -/
def Fsv.groupStatus (f : Fsv) (g : Group) : Bool :=
  Source.all.any fun src => decide (src.group = g) && ((f.entry src).latched || (f.entry src).condition)

/-- The mask of the sources a test of their entry holds of, bit i for source i (R147). -/
def Fsv.mask (f : Fsv) (test : FaultEntry → Bool) : Nat :=
  maskOf ((Source.all.filter fun src => test (f.entry src)).map fun src => src.idx.val)

/-- Whether any warning is set (R145). -/
def Warnings.any (w : Warnings) : Bool :=
  w.supplyShort || w.depthQuality || w.fifoFull || w.oilWarm || w.channelHolding

/-- The warnings as a mask, in the bit order of R145. -/
def Warnings.mask (w : Warnings) : Nat :=
  w.supplyShort.toNat + 2 * w.depthQuality.toNat + 4 * w.fifoFull.toNat + 8 * w.oilWarm.toNat +
    16 * w.channelHolding.toNat

/-- Whether any channel is holding (R145). -/
def anyHolding (v : PerChannel ChannelState) : Bool :=
  v.cd.holding || v.cu.holding || v.rp.holding || v.sp.holding || v.rl.holding || v.ot.holding

/-- Warnings 0 to 2, which follow the envelope, the depth quality and the FIFO at each change; 3 and 4 are
taken at scans (R145). -/
def State.followWarnings (s : State) : Warnings :=
  { s.fsv.warnings with
    supplyShort := s.env.supplyShort
    depthQuality := decide (s.stk.quality ≠ .valid)
    fifoFull := decide (s.brc.fifo.length = Config.fifoCapacity) }

/-- Warnings 3 and 4 taken from the envelope and the channels, at a scan and at the end of XRST (R145, R146). -/
def takeScanWarnings (s : State) : State :=
  s.withFsv { s.fsv with warnings := { s.fsv.warnings with
    oilWarm := decide (s.gst.settings.thetaHot < s.env.measured.theta)
    channelHolding := anyHolding s.msu.channels } }

/-- The end of an event: the permit outputs and warnings 0 to 2 stand as what the event left gives them
(R109, R110, R145; entry 24). -/
def settle (s : State) : State :=
  (s.withGru { s.gru with permits := s.permitLevels }).withFsv
    { s.fsv with warnings := s.followWarnings }

/-- The summary byte of a port (R173, R178). -/
def State.summary (s : State) (p : Port) : Byte :=
  let rst := (s.port p).rst
  let link := (s.port p).link
  let str := s.fsv.groupStatus .str
  let rot := s.fsv.groupStatus .rot
  let crw := s.fsv.groupStatus .crw
  let hst := s.fsv.groupStatus .hst
  let warn := s.fsv.warnings.any
  let clear := !(rst || link || str || rot || crw || hst || warn)
  BitVec.ofNat 8 (128 * clear.toNat + 64 * rst.toNat + 32 * link.toNat + 16 * str.toNat + 8 * rot.toNat +
    4 * crw.toNat + 2 * hst.toNat + warn.toNat)

end Sys2Proof.Machine
end

