-- ==== Sys2Proof/Machine/FaultOps.lean ====
section
/-! DEFINITION. The Fault Supervisor's operations (chapter 7): reaches, raising a source, beginning an
override, deciding a condition, the boundary. -/

namespace Sys2Proof.Machine

/-- Whether an override is a DROP that began LATCHED (R111). -/
def Override.holds (o : Override) : Bool := decide (o.action = .drop) && decide (o.startMode = .latched)

/-- The union of the reaches of the sources whose override passes a test (R129, R135). -/
def Fsv.reachOf (f : Fsv) (test : Override → Bool) : DriveSet :=
  Source.all.foldl (fun r src =>
    if (f.entry src).override.any test then r.union (src.group.reach f.groupMode) else r) .empty

/-- The LIMIT reach, formed from the overrides in force (R129). -/
def Fsv.formLimitReach (f : Fsv) : DriveSet := f.reachOf fun o => decide (o.action = .limit)

/-- The DROP reach, formed from the overrides in force (R129). -/
def Fsv.formDropReach (f : Fsv) : DriveSet := f.reachOf fun o => decide (o.action = .drop)

/-- The drives reached by LATCHED-begun DROP overrides in force (R111, R136). -/
def Fsv.heldReach (f : Fsv) : DriveSet := f.reachOf Override.holds

/-- The drives of a set, in the GRU's order. -/
def DriveSet.drives (r : DriveSet) : List Drive := drivesInOrder.filter r.has

/-- The LIMIT reach formed anew and, when it changed, handed to the ENV, which recomputes (R90, R135). -/
def handLimitReach (s : State) : State :=
  let r := s.fsv.formLimitReach
  if r = s.fsv.limitReach then s else recompute (s.withFsv { s.fsv with limitReach := r })

/-- The DROP reach formed anew (R135). -/
def handDropReach (s : State) : State := s.withFsv { s.fsv with dropReach := s.fsv.formDropReach }

/-- The beginning of an override: its action and start mode are the entry's, and its reach is handed on (R134,
R135). -/
def beginOverride (src : Source) (action : OverrideAction) (s : State) : State :=
  let e := s.entry src
  let s := s.withEntry src { e with override := some ⟨action, e.mode⟩ }
  match action with
  | .limit => handLimitReach s
  | .drop =>
    let s := handDropReach s
    if e.mode = .latched then (src.group.reach s.fsv.groupMode).drives.foldl latchedDropBegins s else s

/-- A raise: latched is set, a FAULT_RAISED record is asked for, and the override begins if the entry has an
action and no override of the source is in force. While XRST is asserted no raise is taken (R134, R146). -/
def raise (src : Source) (s : State) : State :=
  if s.lines.xrst then s
  else
    let s := s.withEntry src { s.entry src with latched := true }
    let s := askEvent (.faultRaised src) s
    match (s.entry src).override, (s.entry src).action.override with
    | none, some action => beginOverride src action s
    | some _, _ => s
    | none, none => s

/-- A condition decided: the source is raised when it passes from absent to present. While XRST is asserted no
condition is decided (R130, R134, R146). -/
def decideCondition (src : Source) (present : Bool) (s : State) : State :=
  if s.lines.xrst then s
  else
    let was := (s.entry src).condition
    let s := s.withEntry src { s.entry src with condition := present }
    if present && !was then raise src s else s

/-- Conditions decided at one event, in the order given, which is rising source number (R134). -/
def decideConditions (cs : List (Source × Bool)) (s : State) : State :=
  cs.foldl (fun s c => decideCondition c.1 c.2 s) s

/-- Sources the STK raised at one event, in rising number (R133, R134). -/
def raiseAll (srcs : List Source) (s : State) : State := srcs.foldl (fun s src => raise src s) s

/-- Step 1 of a boundary: the pending mode and action installed (R136, R141). -/
def FaultEntry.install (e : FaultEntry) : FaultEntry :=
  { e with
    mode := e.pendingMode.getD e.mode, action := e.pendingAction.getD e.action
    pendingMode := none, pendingAction := none }

/-- Whether an override in force ends at a boundary: its condition absent and the mode CYCLIC, or the latched
clear, or the action NONE (R137, R138, R141). -/
def FaultEntry.ends (e : FaultEntry) : Bool :=
  !e.condition && (decide (e.mode = .cyclic) || !e.latched || decide (e.action = .none))

/-- Step 2 of a boundary: the override ended if it passes its test (R136). -/
def FaultEntry.endStep (e : FaultEntry) : FaultEntry := if e.ends then { e with override := none } else e

/-- The override an entry begins in step 3 of a boundary: no override in force, an action, and the condition
present (R136). -/
def FaultEntry.beginning (e : FaultEntry) : Option Override :=
  match e.override, e.action.override with
  | none, some action => if e.condition then some ⟨action, e.mode⟩ else none
  | some _, _ => none
  | none, none => none

/-- Step 3 of a boundary at one entry (R136). -/
def FaultEntry.beginStep (e : FaultEntry) : FaultEntry :=
  match e.beginning with
  | some o => { e with override := some o }
  | none => e

/-- The three steps of a boundary at one entry (R136). -/
def FaultEntry.boundary (e : FaultEntry) : FaultEntry := e.install.endStep.beginStep

/-- The FSV's table and group mode after the three steps of a boundary (R136, R142). -/
def Fsv.boundary (f : Fsv) : Fsv :=
  { f with
    table := f.table.map FaultEntry.boundary
    groupMode := f.pendingGroupMode.getD f.groupMode
    pendingGroupMode := none }

/-- Whether the override of a source in force, if any, reaches a drive (R135). -/
def Fsv.reaches (f : Fsv) (src : Source) (d : Drive) : Bool :=
  (f.entry src).override.isSome && (src.group.reach f.groupMode).has d

/-- Whether some LATCHED-begun DROP in force after a boundary newly reaches a drive: it began in step 3, or the
group mode of step 1 widened it. Each override is judged by itself, so that a drive which another one holds already
is newly reached too; `f` is the FSV before the boundary (R136, R142; entry 35). -/
def Fsv.newlyHolds (f : Fsv) (d : Drive) : Bool :=
  Source.all.any fun src =>
    (f.boundary.entry src).override.any Override.holds && f.boundary.reaches src d && !f.reaches src d

/-- The neutral holds after a boundary: a drive newly reached by a LATCHED-begun DROP in force is handled as at a
beginning; a drive no longer reached has its hold cleared (R136). -/
def handHolds (newly : Drive → Bool) (s : State) (d : Drive) : State :=
  if s.fsv.heldReach.has d then
    if !(s.grant d).hold || newly d then latchedDropBegins s d else s
  else clearHold s d

/-- A boundary: install, end, begin, and what changed handed on (R136). -/
def takeBoundary (s : State) : State :=
  let newly := s.fsv.newlyHolds
  let s := handLimitReach (s.withFsv s.fsv.boundary)
  drivesInOrder.foldl (handHolds newly) (handDropReach s)

/-- The fault table as XRST leaves an entry: condition absent, latched and override cleared, pending values
installed (R146). -/
def FaultEntry.afterXrst (e : FaultEntry) : FaultEntry :=
  { e.install with condition := false, latched := false, override := none }

/-- Whether the ESTOP condition is present (R49, R133). -/
def State.estopPresent (s : State) : Bool := (s.entry .estop).condition

end Sys2Proof.Machine
end

