-- ==== Sys2Proof/Machine/PhaseOps.lean ====
section
/-! DEFINITION. The Phase Controller's operations (chapter 3): the change of phase, the automatic advance, the
counting of the op angle and the completions. -/

namespace Sys2Proof.Machine

/-- The advance arm on entry to HOIST: the tool below the spin-off level with a valid depth (R65). -/
def State.armAtEntry (s : State) : Bool :=
  decide (s.stk.quality = .valid) && decide (s.gst.settings.spinOffLevel < s.stk.depth)

/-- A change of phase (R48). On entry to HOIST the advance arm is decided; it cannot be set with the tool above
the level, so the move of R65 is not made at the entry itself. -/
def changePhase (to_ : Phase) (s : State) : State :=
  let from_ := s.phc.phase
  let s := s.withPhc { s.phc with op := none, target := none, releaseLatch := false }
  let s := askEvent (.phaseChange from_ to_) s
  let s := recompute (s.withPhc { s.phc with phase := to_ })
  let s := if to_ = .parked then parkGrants s else s
  s.withPhc { s.phc with advanceArm := decide (to_ = .hoist) && s.armAtEntry }

/-- The PHC's evaluation in HOIST: the advance arm updated, and the phase moved to SPIN_OFF when every condition
holds (R65, R66). -/
def advanceEvaluate (s : State) : State :=
  if s.phc.phase = .hoist ∧ s.stk.quality = .valid then
    let level := s.gst.settings.spinOffLevel
    let s := s.withPhc { s.phc with advanceArm := s.phc.advanceArm || decide (level < s.stk.depth) }
    if s.gst.settings.autoAdvance && s.phc.advanceArm && decide (s.stk.depth ≤ level) && allFree s.stk.joints then
      changePhase .spinOff s
    else s
  else s

/-- The PHC's part of an STK evaluation that changed D, the quality or the joint table from `old` (R65). -/
def phcAfterEvaluation (old : Stk) (s : State) : State :=
  if old.depth = s.stk.depth ∧ old.quality = s.stk.quality ∧ old.joints = s.stk.joints then s
  else advanceEvaluate s

/-- The phase a completed seating turn moves to (R55). -/
def State.engagedPhase (s : State) : Phase :=
  if chainClosed s.stk.joints ∧ s.znt.sessionOpen ∧ s.stk.quality ≠ .none then .drill else .free

/-- The phase a completed unlocking turn moves to (R59). -/
def State.releasedPhase (s : State) : Phase :=
  if allFree s.stk.joints then (s.phc.target.map ReleaseTarget.phase).getD .free else .free

/-- The op angle after a count of the operation's own direction (R54, R58). -/
def Operation.turned (o : Operation) : Operation := { o with angle := min Config.maxCount (o.angle + 1) }

/-- An angle count at the PHC, after the STK has acted on it (R16, R54, R58): the op angle counts the unbroken
turn of the operation's direction, and the operation completes on the count that reaches its angle. -/
def phcCount (forward : Bool) (s : State) : State :=
  match s.phc.op with
  | none => s
  | some o =>
    let engaging := decide (s.phc.phase = .engaging)
    if forward = engaging then
      let o := o.turned
      let s := s.withPhc { s.phc with op := some o }
      if engaging then
        if s.gst.settings.lockAngle ≤ o.angle then changePhase s.engagedPhase s else s
      else
        if s.gst.settings.unlockAngle ≤ o.angle then changePhase s.releasedPhase s else s
    else s.withPhc { s.phc with op := some { o with angle := 0 } }

/-- ENGAGING in flight, once the phase has moved to it (R53). -/
def startOperation (angle timer : Nat) (target : Option ReleaseTarget) (s : State) : State :=
  s.withPhc { s.phc with op := some ⟨angle, timer⟩, target := target }

end Sys2Proof.Machine
end

