-- ==== Sys2Proof/Machine/StringModel.lean ====
section
/-! DEFINITION. The String Tracker's operations (chapter 1): the distribution, the evaluation, the angle
accumulators, the lock and release rules, the rebuild at a commit; and the handing on of an evaluation. -/

namespace Sys2Proof.Machine

/-- The sum of the locked extensions, L (R13, step 1). -/
def lockedSum (js : List Joint) : Int := extSum (js.filter Joint.isLocked)

/-- The sum of the maximum extensions of the joints that are not LOCKED, S (R13, step 3). -/
def freeMax : List Joint → List JointGeometry → Int
  | j :: js, g :: gs => (if j.isLocked then 0 else g.eMax) + freeMax js gs
  | _, _ => 0

/-- A joint with its extension written and its alignment recomputed (R5). -/
def Joint.placed (j : Joint) (g : JointGeometry) (ext : Int) : Joint :=
  { j with ext := ext, aligned := g.aligned ext }

/-- The non-locked joints filled from the innermost outward, with what remains of `r` after them (R13,
step 4). -/
def fill : List Joint → List JointGeometry → Int → List Joint × Int
  | j :: js, g :: gs, r =>
    let inner := fill js gs r
    if j.isLocked then (j :: inner.1, inner.2)
    else
      let taken := min g.eMax inner.2
      (j.placed g taken :: inner.1, inner.2 - taken)
  | js, _, r => (js, r)

/-- The distribution of a measured extension, and the disagreement (R13, R14). -/
def Stk.distribute (k : Stk) (g : Geometry) (eMeas : Int) : Stk :=
  let residual := eMeas - lockedSum k.joints
  let taken := clamp 0 (freeMax k.joints g.joints) residual
  { k with joints := (fill k.joints g.joints taken).1, disagreement := residual - taken }

/-- Whether the rope is taut by the last scan (R9). -/
def State.ropeTaut (s : State) : Bool :=
  decide (s.gst.settings.lSlack ≤ s.msu.channels.rl.value) && !s.msu.channels.rl.holding

/-- The depth quality a string model gives (R10). -/
def Stk.decideQuality (k : Stk) : Quality :=
  if !k.datumSet then .none
  else if k.taut then .valid
  else if chainClosed k.joints then .strokeOnly
  else .held

/-- Steps 3 to 5 of an evaluation: the quality, D, and in VALID the distribution (R10, R11). `pRope` and `head`
are P_rope and H. -/
def Stk.decideDepth (k : Stk) (active : Option Geometry) (pRope head : Int) : Stk :=
  match active with
  | none => { k with quality := .none, depth := 0 }
  | some g =>
    match k.decideQuality with
    | .none => { k with quality := .none, depth := 0 }
    | .valid =>
      { k.distribute g (pRope - head - g.lCl) with quality := .valid, depth := pRope, heldDepth := pRope }
    | .strokeOnly =>
      let d := head + g.lCl + extSum k.joints
      { k with quality := .strokeOnly, depth := d, heldDepth := d }
    | .held => { k with quality := .held, depth := k.heldDepth }

/-- Whether a quality lets bottom-hole depth advance (R24). -/
def Quality.trusted : Quality → Bool
  | .valid | .strokeOnly => true
  | .none | .held => false

/-- Step 6 of an evaluation: bottom-hole depth advanced (R24). -/
def Stk.advanceBottomHole (k : Stk) (sessionOpen : Bool) : Stk :=
  if sessionOpen && k.quality.trusted && decide (k.bottomHole < k.depth) then { k with bottomHole := k.depth } else k

/-- One evaluation, tautness as last decided (R11). -/
def evaluate (s : State) : State :=
  s.withStk ((s.stk.decideDepth s.gst.active s.pRope s.headPos).advanceBottomHole s.znt.sessionOpen)

/-- Tautness re-decided, at a scan completion or a change of L_slack, and an evaluation (R9, R11). -/
def evaluateAnew (s : State) : State := evaluate (s.withStk { s.stk with taut := s.ropeTaut })

/-- Whether the DEPTH_DISAGREE condition is present (R14). -/
def State.depthDisagrees (s : State) : Bool :=
  decide (s.gst.settings.depthTolerance < |s.stk.disagreement|)

/-- What an evaluation of the STK did handed on to the ZNT, the ENV with the GRU, and the FSV, with the sources
the STK raised and DEPTH_DISAGREE decided (R11, R14, R20, R119, R134; entry 15). -/
def handOn (raised : List Source) (s : State) : State :=
  decideCondition .depthDisagree s.depthDisagrees (raiseAll raised (recompute (zntReevaluate s)))

/-- The rest of an event whose STK evaluation started from `old`: handed on, then to the PHC and the BRC. -/
def afterEvaluation (old : Stk) (raised : List Source) (s : State) : State :=
  brcDepth old.bottomHole (phcAfterEvaluation old (handOn raised s))

/-- The accumulators after a count (R15). -/
def Stk.counted (k : Stk) (forward : Bool) : Stk :=
  if forward then { k with aF := min Config.maxCount (k.aF + 1), aR := 0, reverseRun := false }
  else { k with aR := min Config.maxCount (k.aR + 1), aF := 0 }

/-- The pocket position a joint of the table takes when it locks (R17). -/
def JointGeometry.position (g : JointGeometry) (pocket : Nat) : Int := g.pockets.getD pocket 0

/-- Whether the lock rule locks a joint: not LOCKED and with an aligned pocket (R17). -/
def Joint.lockable (j : Joint) : Bool := !j.isLocked && j.aligned.isSome

/-- A joint after the lock rule: in its aligned pocket, at that pocket's position (R5, R17). -/
def Joint.lock (j : Joint) (g : JointGeometry) : Joint :=
  if j.isLocked then j
  else
    match j.aligned with
    | some p => ⟨.locked p, g.position p, some p⟩
    | none => j

/-- The table after the lock rule (R17). -/
def lockAll (js : List Joint) (gs : List JointGeometry) : List Joint :=
  List.zipWith Joint.lock js gs ++ js.drop gs.length

/-- The geometry of the joint table; no joints without an active geometry (R3, R4). -/
def State.jointGeometry (s : State) : List JointGeometry := (s.gst.active.map Geometry.joints).getD []

/-- Whether the lock rule locks a joint on a forward count (R17). -/
def State.locks (s : State) : Bool :=
  decide (s.gst.settings.lockAngle ≤ s.stk.aF) && s.stk.joints.any Joint.lockable

/-- The lock rule on a forward count that locks a joint (R17). -/
def lockRule (s : State) : State :=
  askJoints .locked (jointMask Joint.lockable s.stk.joints)
    (evaluate (s.withStk { s.stk with joints := lockAll s.stk.joints s.jointGeometry }))

/-- A joint made FREE if it is LOCKED or UNCERTAIN (R18). -/
def Joint.freed (j : Joint) : Joint := { j with state := .free }

/-- A joint made UNCERTAIN if it is LOCKED (R18, R19). -/
def Joint.doubted (j : Joint) : Joint := if j.isLocked then { j with state := .uncertain } else j

/-- Every LOCKED joint made UNCERTAIN, with the UNCERTAIN record of the joints that left LOCKED (R18, R19). -/
def doubtLocked (s : State) : State :=
  askJoints .uncertain (jointMask Joint.isLocked s.stk.joints)
    (s.withStk { s.stk with joints := s.stk.joints.map Joint.doubted })

/-- Every LOCKED joint made UNCERTAIN, and an evaluation if there was one (R26). -/
def doubtLockedIfAny (s : State) : State :=
  if s.stk.joints.any Joint.isLocked then evaluate (doubtLocked s) else s

/-- Every LOCKED and every UNCERTAIN joint made FREE (R18). -/
def freeAll (s : State) : State :=
  let mask := jointMask (fun j => !j.isFree) s.stk.joints
  evaluate (askJoints .freed mask (s.withStk { s.stk with joints := s.stk.joints.map Joint.freed }))

/-- K as the release rule computes it, from the last scan (R18, R89). -/
def State.keyLoad (s : State) : Int := axialLoad s.env.measured (wTotalOf s.gst.active)

/-- Whether the release rule fires on a reverse count (R18, R19). -/
def State.releaseFires (s : State) : Bool :=
  decide (s.gst.settings.unlockAngle ≤ s.stk.aR) && !s.stk.reverseRun

/-- The sources a firing of the release rule raises, in rising number: CHAIN_OPEN in DRILL and RELEASING, then
REVERSE_OVERRUN outside RELEASING or UNLOCK_UNDER_LOAD in it, when a joint left LOCKED (R18 to R20). -/
def State.firingRaises (s : State) : List Source :=
  if s.stk.joints.any Joint.isLocked then
    (if s.phc.phase = .drill ∨ s.phc.phase = .releasing then [.chainOpen] else []) ++
      (if s.phc.phase = .releasing then [.unlockUnderLoad] else [.reverseOverrun])
  else []

/-- A firing of the release rule; with it, where the STK evaluates after it, the sources it raises: outside
RELEASING a firing that changes no joint evaluates nothing (R18 to R20). -/
def releaseFiring (s : State) : State × Option (List Source) :=
  let s := s.withStk { s.stk with reverseRun := true }
  if s.phc.phase = .releasing then
    if s.keyLoad ≤ s.gst.settings.fRelease then (freeAll s, some [])
    else (evaluate (doubtLocked s), some s.firingRaises)
  else if s.stk.joints.any Joint.isLocked then (evaluate (doubtLocked s), some s.firingRaises)
  else (s, none)

/-- The STK's part of an angle count; with it, where the count calls for an evaluation, the sources the STK raises
(R11, R15 to R19). -/
def stkCount (forward : Bool) (s : State) : State × Option (List Source) :=
  let s := s.withStk (s.stk.counted forward)
  if forward then if s.locks then (lockRule s, some []) else (s, none)
  else if s.releaseFires then releaseFiring s
  else (s, none)

/-- What the STK hands on at an angle count: its evaluation, or, on a count without one, A_r to the ENV alone
(R15, R16, R72). -/
def handCount (evaluated : Option (List Source)) (s : State) : State :=
  match evaluated with
  | some raised => handOn raised s
  | none => recompute s

/-- Whether XRST cuts off a release whose reverse run leaves the keys in doubt (R26). -/
def State.releaseCutOff (s : State) : Bool :=
  decide (s.phc.phase = .releasing) && decide (s.gst.settings.unlockAngle < 2 * (s.stk.aR : Int))

/-- The string model of a DATUM at `depth` mm, before its evaluation (R8). -/
def Stk.datum (k : Stk) (depth lCl ropeMm strokeMm : Int) : Stk :=
  { k with
    ropeOffset := depth - ropeMm, strokeOffset := depth - lCl - extSum k.joints - strokeMm
    datumSet := true, disagreement := 0, heldDepth := depth }

/-- The joint table of a new geometry with every joint UNCERTAIN at extension 0 (R27, step 1). -/
def Geometry.freshJoints (g : Geometry) : List Joint := g.joints.map fun x => ⟨.uncertain, 0, x.aligned 0⟩

/-- Whether a commit changes the rope scale, the stroke scale or the closed length of an active geometry
(R27, step 2). -/
def scaleChanged (old : Option Geometry) (g : Geometry) : Bool :=
  old.any fun o => decide (o.ropeScale ≠ g.ropeScale ∨ o.strokeScale ≠ g.strokeScale ∨ o.lCl ≠ g.lCl)

/-- The rebuild at a commit's completion, before its evaluation (R27). `pRope` and `head` are P_rope and H
from the millimetre values of the committed scales. -/
def Stk.rebuild (k : Stk) (old : Option Geometry) (g : Geometry) (pRope head : Int) : Stk :=
  let held := extSum k.joints
  let k := { k with joints := g.freshJoints }
  if scaleChanged old g then
    { k.distribute g held with
      ropeOffset := 0, strokeOffset := 0, datumSet := false, quality := .none, depth := 0, disagreement := 0 }
  else if k.taut && k.datumSet then k.distribute g (pRope - head - g.lCl)
  else { k.distribute g held with disagreement := 0 }

end Sys2Proof.Machine
end

