-- ==== Sys2Proof/Machine/Measure.lean ====
section
/-! DEFINITION. The Measurement Unit's operations (chapter 2): the quadrature decoders, the counters and their
millimetres, the converter scan, the speed window, turn marks and rest. -/

namespace Sys2Proof.Machine

/-- A pair's place in the order of R29: both low, A high, both high, B high. -/
def quadrature (p : Pair) : Nat :=
  match p.a, p.b with
  | false, false => 0
  | true, false => 1
  | true, true => 2
  | false, true => 3

/-- The count a change of a pair makes: forward in the order in which A leads, reverse in the other; none when
both lines change, and none when neither does (R29). -/
def decodeCount (old new : Pair) : Option Bool :=
  if quadrature new = (quadrature old + 1) % 4 then some true
  else if quadrature old = (quadrature new + 1) % 4 then some false
  else none

/-- A counter after a count, wrapping at 32 bits (R29). -/
def stepCount (c : Count) (up : Bool) : Count := if up then c + 1 else c - 1

/-- The millimetres of a count at a scale (R30). -/
def millimetres (c : Count) (scale : Int) : Int := floorDiv (c.toInt * scale) 1000

/-- The MSU with both millimetre values formed afresh at the scales of a geometry (R30, R164). -/
def Msu.formMm (m : Msu) (active : Option Geometry) : Msu :=
  { m with
    ropeMm := millimetres m.rope (ropeScaleOf active)
    strokeMm := millimetres m.stroke (strokeScaleOf active) }

/-- The decoder reference of a position encoder (R29). -/
def Msu.reference (m : Msu) : PositionEncoder → Pair
  | .rope => m.ropeRef
  | .stroke => m.strokeRef

/-- The MSU with the reference of a position encoder replaced. -/
def Msu.withReference (m : Msu) (e : PositionEncoder) (p : Pair) : Msu :=
  match e with
  | .rope => { m with ropeRef := p }
  | .stroke => { m with strokeRef := p }

/-- A count of a position counter, with its millimetre value (R29, R30). -/
def Msu.countPosition (m : Msu) (e : PositionEncoder) (up : Bool) (active : Option Geometry) : Msu :=
  match e with
  | .rope =>
    let c := stepCount m.rope up
    { m with rope := c, ropeMm := millimetres c (ropeScaleOf active) }
  | .stroke =>
    let c := stepCount m.stroke up
    { m with stroke := c, strokeMm := millimetres c (strokeScaleOf active) }

/-- Whether a raw reading is a rail reading (R34). -/
def isRail (raw : Raw) : Bool := decide (raw = 0) || decide (raw = 4095)

/-- A good reading scaled (R33). -/
def scaleReading (k : Calibration) (range : Int × Int) (raw : Raw) : Int :=
  clamp range.1 range.2 (k.offset + floorDiv (raw.toNat * k.gain) 4096)

/-- A channel after a reading (R34). -/
def ChannelState.take (v : ChannelState) (k : Calibration) (range : Int × Int) (raw : Raw) : ChannelState :=
  if isRail raw then
    let run := min 3 (v.railRun + 1)
    { value := v.lastGood, lastGood := v.lastGood, raw := raw, railRun := run
      holding := v.holding || decide (run = 3) }
  else
    let x := scaleReading k range raw
    { value := x, lastGood := x, raw := raw, railRun := 0, holding := false }

/-- The six channels after a scan (R32 to R34). -/
def takeReadings (active : Option Geometry) (v : PerChannel ChannelState) (r : Readings) :
    PerChannel ChannelState where
  cd := v.cd.take (calibrationOf active .cd) (Channel.range .cd) r.cd
  cu := v.cu.take (calibrationOf active .cu) (Channel.range .cu) r.cu
  rp := v.rp.take (calibrationOf active .rp) (Channel.range .rp) r.rp
  sp := v.sp.take (calibrationOf active .sp) (Channel.range .sp) r.sp
  rl := v.rl.take (calibrationOf active .rl) (Channel.range .rl) r.rl
  ot := v.ot.take (calibrationOf active .ot) (Channel.range .ot) r.ot

/-- Run count and holding cleared, value and last good value kept (R35). -/
def ChannelState.cleared (v : ChannelState) : ChannelState := { v with railRun := 0, holding := false }

/-- Every channel's run count and holding cleared (R35). -/
def clearRuns (v : PerChannel ChannelState) : PerChannel ChannelState :=
  ⟨v.cd.cleared, v.cu.cleared, v.rp.cleared, v.sp.cleared, v.rl.cleared, v.ot.cleared⟩

/-- The speed window's expiry (R38). -/
def Msu.formSpeed (m : Msu) (active : Option Geometry) : Msu :=
  { m with
    speed := clamp (-5000) 5000 ((m.ropeMm - millimetres m.windowRef (ropeScaleOf active)) * 10)
    windowRef := m.rope
    windowTimer := Config.windowMs }

/-- Whether the angle stands one revolution or more from the mark reference (R40). -/
def Msu.atMark (m : Msu) : Bool := decide (Config.countsPerTurn ≤ |angleDiff m.angle m.markRef|)

/-- A count of the angle counter (R29). -/
def Msu.countAngle (m : Msu) (up : Bool) : Msu := { m with angle := stepCount m.angle up }

/-- An angle count at the rest state: rest cleared, the timer restarted (R42). -/
def Msu.endRest (m : Msu) : Msu := { m with rest := false, restTimer := some Config.restMs }

/-- The MSU as XRST leaves it: rail runs and holding cleared, the speed 0 and its reference here, rest cleared
with its timer stopped (R35, R39, R43). -/
def Msu.afterXrst (m : Msu) : Msu :=
  { m with
    channels := clearRuns m.channels, speed := 0, windowRef := m.rope, windowTimer := Config.windowMs
    rest := false, restTimer := none }

/-- The MSU as XRST ends: the window and the rest timer restart, the mark reference is the present angle
(R39, R41, R43). Rope that moved while XRST was asserted is in no window. -/
def Msu.xrstEnds (m : Msu) : Msu :=
  { m with
    windowTimer := Config.windowMs, windowRef := m.rope, restTimer := some Config.restMs, markRef := m.angle }

end Sys2Proof.Machine
end

