-- ==== Sys2Proof/Machine/Events.lean ====
section
/-! DEFINITION. The commands that are events of the lines, the converter and the timers: counts, scans,
expiries, the end of a commit, ESTOP. An event that cannot occur in the state it meets (the expiry of a timer
that does not run, a second assertion of ESTOP) changes nothing (entry 7). -/

namespace Sys2Proof.Machine

/-- The answer of a command whose effect is done: the outputs and levels settle, and the part goes on. -/
def done (s : State) : Host.Outcome State Fault Refusal := .next (settle s)

/-- A position count handed to the STK and on (R11, R30). -/
def positionCounted (e : PositionEncoder) (up : Bool) (s : State) : State :=
  afterEvaluation s.stk []
    (evaluate (s.withMsu (s.msu.countPosition e up s.gst.active)))

/-- POSITION_COUNT_CHANGE: the decoder's reference takes the new state; a change of one line is a count (R29,
R30). -/
def execPositionCountChange (e : PositionEncoder) (pair : Pair) (s : State) : Host.Outcome State Fault Refusal :=
  let count := decodeCount (s.msu.reference e) pair
  let s := s.withMsu (s.msu.withReference e pair)
  match count with
  | some up => done (positionCounted e up s)
  | none => done s

/-- A turn mark: the mark reference, the FSV's boundary, then the BRC (R40, R44). -/
def takeTurnMark (s : State) : State :=
  brcTurnMark (takeBoundary (s.withMsu { s.msu with markRef := s.msu.angle }))

/-- The MSU's use of an angle count once the STK and the PHC have taken it: rest, then the turn mark; neither
while XRST is asserted (R40 to R43). -/
def angleUsed (s : State) : State :=
  if s.lines.xrst then s
  else
    let s := s.withMsu s.msu.endRest
    if s.msu.atMark then takeTurnMark s else s

/-- An angle count: the counter, the STK, what the STK hands on, the PHC, the BRC, the MSU (R16, R40; entry
15). -/
def angleCounted (forward : Bool) (s : State) : State :=
  let old := s.stk
  let counted := stkCount forward (s.withMsu (s.msu.countAngle forward))
  let s := phcAfterEvaluation old (handCount counted.2 counted.1)
  angleUsed (brcDepth old.bottomHole (phcCount forward s))

/-- ANGLE_COUNT_CHANGE: the decoder's reference takes the new state; a change of one line is a count (R16,
R29). -/
def execAngleCountChange (pair : Pair) (s : State) : Host.Outcome State Fault Refusal :=
  let count := decodeCount s.msu.angleRef pair
  let s := s.withMsu { s.msu with angleRef := pair }
  match count with
  | some forward => done (angleCounted forward s)
  | none => done s

/-- A condition with a present test and an absent test: between them it keeps its value (R130). -/
def betweenTests (present absent was : Bool) : Bool := if present then true else if absent then false else was

/-- The OVERTORQUE condition; `aR` is the STK's A_r (R130). -/
def overtorque (t : Settings) (e : Envelope) (aR : Nat) (was : Bool) : Bool :=
  let c := if 0 < aR then e.computed.tRev else e.computed.tFwd
  betweenTests (decide (c * (100 + t.overTolerance) < e.measured.tMeas * 100)) (decide (e.measured.tMeas ≤ c)) was

/-- The OVERCROWD condition (R130). -/
def overcrowd (t : Settings) (e : Envelope) (was : Bool) : Bool :=
  let c := e.computed.cDown
  betweenTests
    (decide (c * (100 + t.overTolerance) < e.measured.fC * 100) || decide (e.zWot < e.wot))
    (decide (e.measured.fC ≤ c) && decide (e.wot ≤ e.zWot)) was

/-- The conditions a scan decides, DEPTH_DISAGREE of the STK's evaluation of the scan among them, in rising
source number (R130, R133, R134). -/
def State.scanConditions (s : State) : List (Source × Bool) :=
  let t := s.gst.settings
  let e := s.env
  let v := s.msu.channels
  [(.oilHot, decide (t.thetaMax < e.measured.theta)),
   (.depthDisagree, s.depthDisagrees),
   (.overtorque, overtorque t e s.stk.aR (s.entry .overtorque).condition),
   (.rotSensor, v.rp.holding),
   (.overcrowd, overcrowd t e (s.entry .overcrowd).condition),
   (.crwSensor, v.cd.holding || v.cu.holding || v.sp.holding),
   (.hstSensor, v.rl.holding),
   (.oilSensor, v.ot.holding)]

/-- The STK's, the ZNT's and the ENV's part of a scan (R36, R37, R72). -/
def scanMeasured (r : Readings) (s : State) : State :=
  let s := s.withMsu { s.msu with channels := takeReadings s.gst.active s.msu.channels r }
  let s := zntReevaluate (evaluateAnew s)
  let measured := { s.env with measured := measure s.gst.active s.msu.channels }
  recompute (s.withEnv measured)

/-- The FSV's part of a scan: the conditions, warnings 3 and 4, and the boundary when the head is at rest (R36,
R44, R130, R136). -/
def scanSupervised (s : State) : State :=
  let s := takeScanWarnings (decideConditions s.scanConditions s)
  if s.msu.rest then takeBoundary s else s

/-- A scan's delivery, whole (R36). -/
def scanTaken (r : Readings) (s : State) : State :=
  let old := s.stk
  let s := phcAfterEvaluation old (scanSupervised (scanMeasured r s))
  brcDepth old.bottomHole (brcScan s)

/-- SCAN_COMPLETION: taken but while XRST is asserted, when no scan is in flight (R32, R36). -/
def execScanCompletion (r : Readings) (s : State) : Host.Outcome State Fault Refusal :=
  if s.lines.xrst then done s else done (scanTaken r s)

/-- The ROPE_SLACK condition (R131). -/
def State.ropeSlack (s : State) : Bool :=
  (decide (s.phc.phase = .free) || decide (s.phc.phase = .hoist)) && decide (0 < s.msu.speed) &&
    decide (s.env.measured.lR < s.gst.settings.lSlack)

/-- The STOP_OVERSPEED condition (R131). -/
def State.stopOverspeed (s : State) : Bool := decide (s.env.computed.vPay * 11 < s.msu.speed * 10)

/-- WINDOW_EXPIRY: the payout speed formed, and the conditions the speed window owns decided; no window runs
while XRST is asserted (R38, R39, R131). -/
def execWindowExpiry (s : State) : Host.Outcome State Fault Refusal :=
  if s.lines.xrst then done s
  else
    let s := s.withMsu (s.msu.formSpeed s.gst.active)
    done (decideConditions [(.ropeSlack, s.ropeSlack), (.stopOverspeed, s.stopOverspeed)] s)

/-- REST_TIMER_EXPIRY: the head is at rest (R42). The start of rest is no boundary (R44). -/
def execRestTimerExpiry (s : State) : Host.Outcome State Fault Refusal :=
  match s.msu.restTimer with
  | none => done s
  | some _ => done (s.withMsu { s.msu with rest := true, restTimer := none })

/-- The STALL condition (R132). -/
def State.stalled (s : State) : Bool :=
  decide (s.phc.phase = .drill) && (s.grant .rotary).isActive && decide (0 < (s.grant .rotary).granted) &&
    decide (angleDiff s.msu.angle s.fsv.stallRef < Config.stallCounts) &&
    decide (s.env.computed.tFwd * 9 ≤ s.env.measured.tMeas * 10)

/-- The stall window started: its reference the present angle, its timer the stall time (R132). -/
def startStallWindow (s : State) : State :=
  s.withFsv { s.fsv with stallRef := s.msu.angle, stallTimer := s.gst.settings.stallTime.toNat }

/-- STALL_WINDOW_EXPIRY: STALL decided, and the window started again; no window runs while XRST is asserted
(R132, R146). -/
def execStallWindowExpiry (s : State) : Host.Outcome State Fault Refusal :=
  if s.lines.xrst then done s else done (startStallWindow (decideCondition .stall s.stalled s))

/-- The phase an operation that ends without completion returns to: FREE from ENGAGING, DRILL from RELEASING
(R56, R60, R61). -/
def State.returnPhase (s : State) : Phase := if s.phc.phase = .releasing then .drill else .free

/-- OP_TIMER_EXPIRY: OP_TIMEOUT raised, and the phase moved back; nothing without an operation in flight (R56,
R60). -/
def execOpTimerExpiry (s : State) : Host.Outcome State Fault Refusal :=
  match s.phc.op with
  | none => done s
  | some _ => done (changePhase s.returnPhase (raise .opTimeout s))

/-- GRANT_EXPIRED: an ACTIVE record whose life ends, in its last millisecond, is withdrawn. With more of its life
left the expiry does not happen: a DEMAND taken before it has renewed the life (R107, R108; entry 34). Nothing
expires in another state (R99). -/
def execGrantExpired (d : Drive) (s : State) : Host.Outcome State Fault Refusal :=
  match (s.grant d).state with
  | .active life => if life ≤ 1 then done (withdraw d .grantExpired s) else done s
  | .unacked | .neutralWait _ => done s

/-- Steps 1 and 2 of a commit's completion: the store, the active geometry, STORE_CORRUPT (R164). -/
def Gst.committed (g : Gst) : Gst :=
  { g with store := .ofGeometry g.staging, active := some g.staging, storeCorrupt := false, commit := none }

/-- A commit's completion: store and geometry, the MSU's millimetres, the STK's rebuild and evaluation, the ZNT
and the ENV (R27, R164). -/
def commitCompleted (s : State) : State :=
  let old := s.stk
  let before := s.gst.active
  let s := s.withGst s.gst.committed
  let s := s.withMsu (s.msu.formMm s.gst.active)
  let s := s.withStk (s.stk.rebuild before s.gst.staging s.pRope s.headPos)
  afterEvaluation old [] (evaluate s)

/-- COMMIT_COMPLETION: the commit in flight completes; nothing without one (R164). -/
def execCommitCompletion (s : State) : Host.Outcome State Fault Refusal :=
  if s.committing then done (commitCompleted s) else done s

/-- ESTOP decided present: source 0 raised, then the assertion handed to the PHC (R63, R143). -/
def estopRaised (s : State) : State :=
  let s := decideCondition .estop true s
  if s.phc.phase = .parked then s else changePhase .parked s

/-- ESTOP_ASSERT: the line is asserted; its change is decided at once, or when XRST ends (R143, R146). -/
def execEstopAssert (s : State) : Host.Outcome State Fault Refusal :=
  let was := s.lines.estop
  let s := s.withLines { s.lines with estop := true }
  if was || s.lines.xrst then done s else done (estopRaised s)

/-- ESTOP_RELEASE: the line is released, and the condition absent from this change (R143). -/
def execEstopRelease (s : State) : Host.Outcome State Fault Refusal :=
  let s := s.withLines { s.lines with estop := false }
  done (decideCondition .estop false s)

end Sys2Proof.Machine
end

