-- ==== Sys2Proof/Machine/Reads.lean ====
section
/-! DEFINITION. The READ items (R28, R45, R70, R93, R113, R127, R147, R160, R168, R176, R183). -/

namespace Sys2Proof.Machine

/-- What an item with an index in range, or without an index, answers; `open_` is a refusal for which the spec
states a code and no X and Y (entry 12). -/
inductive ReadResult where
  | value (x y : Int)
  | words (x y : Word)
  | open_ (code : Code)
  deriving DecidableEq, Repr

/-- A value where the index names something, BAD_ARG otherwise (R183). -/
def indexed {α : Type} (thing : Option α) (f : α → ReadResult) : ReadResult :=
  match thing with
  | some a => f a
  | none => .open_ .badArg

/-- A 32-bit count, upper half in X and lower half in Y (R183). -/
def countWords (c : Count) : ReadResult := .words (upperHalf c) (lowerHalf c)

/-- The code of a joint's state (R183). -/
def JointState.code : JointState → Int
  | .locked _ => 0
  | .free => 1
  | .uncertain => 2

/-- A joint's pocket number, absent outside LOCKED (R4). -/
def JointState.pocket : JointState → Option Nat
  | .locked p => some p
  | .free | .uncertain => none

/-- The counter with a number (R183). -/
def Msu.counter (m : Msu) : Nat → Option Count
  | 0 => some m.rope
  | 1 => some m.stroke
  | 2 => some m.angle
  | _ => none

/-- A computed ceiling by its place in the order of R71 (R183). -/
def Ceilings.inOrder (c : Ceilings) : Nat → Option Int
  | 0 => some c.tFwd
  | 1 => some c.tRev
  | 2 => some c.cDown
  | 3 => some c.cUp
  | 4 => some c.pRotMax
  | 5 => some c.pCdMax
  | 6 => some c.vPay
  | 7 => some c.vHaul
  | _ => none

/-- The code of a grant record's state (R183). -/
def GrantState.code : GrantState → Int
  | .unacked => 0
  | .neutralWait _ => 1
  | .active _ => 2

/-- The neutral cause code, 0 outside NEUTRAL_WAIT (R113). -/
def GrantState.cause : GrantState → Int
  | .neutralWait c => c.code
  | .unacked | .active _ => 0

/-- The life remaining, 0 outside ACTIVE (R113). -/
def GrantState.life : GrantState → Int
  | .active n => n
  | .unacked | .neutralWait _ => 0

/-- A signed demand or grant: magnitude, then direction; the direction of 0 is a free value (R94, R113; entry
13). -/
def magnitudeDirection (v : Int) (free : Nat) : ReadResult :=
  .value |v| (if v = 0 then flag (Config.zeroDirection free) else flag (isReverse v))

/-- The drive whose port has a number (R183; entry 22). -/
def driveOfNumber (n : Nat) : Option Drive := (Port.ofNumber n).bind Port.drive

/-- The code of the operation in flight, 0 for none (R70). -/
def Phc.operationCode (p : Phc) : Int := if p.op.isSome then p.phase.code else 0

/-- Items 1 to 7: the string model (R28). -/
def readString (s : State) (item index : Nat) : Option ReadResult :=
  match item with
  | 1 => some (.value (depth10 s.stk.depth) s.stk.quality.code)
  | 2 => some (.value (depth10 s.stk.bottomHole) 0)
  | 3 => some (.value (depth10 s.pRope) (depth10 s.headPos))
  | 4 => some (.value (signed16 s.stk.disagreement) (flag (chainClosed s.stk.joints)))
  | 5 => some (.value s.stk.aF s.stk.aR)
  | 6 => some (indexed s.stk.joints[index]? fun j => .value j.state.code (numberOr255 j.state.pocket))
  | 7 => some (indexed s.stk.joints[index]? fun j => .value j.ext (numberOr255 j.aligned))
  | _ => none

/-- Items 16 to 21: measurement (R45). -/
def readMeasurement (s : State) (item index : Nat) : Option ReadResult :=
  let m := s.msu
  match item with
  | 16 => some (indexed (m.counter index) countWords)
  | 17 => some (.value (depth10 m.ropeMm) (depth10 m.strokeMm))
  | 18 => some (indexed (Channel.ofNumber index) fun c =>
      .value (m.channels.get c).value (flag (m.channels.get c).holding))
  | 19 => some (indexed (Channel.ofNumber index) fun c =>
      .value (m.channels.get c).raw.toNat (m.channels.get c).railRun)
  | 20 => some (.value m.speed (flag m.rest))
  | 21 => some (countWords m.markRef)
  | _ => none

/-- Items 32 to 35: the PHC (R70). -/
def readPhase (s : State) (item : Nat) : Option ReadResult :=
  let p := s.phc
  match item with
  | 32 => some (.value p.phase.code p.operationCode)
  | 33 => some (.value ((p.op.map Operation.angle).getD 0) ((p.op.map Operation.timer).getD 0))
  | 34 => some (.value ((p.target.map fun t => t.phase.code).getD 0) (flag p.releaseLatch))
  | 35 => some (.value (flag p.advanceArm) (flag s.gst.settings.autoAdvance))
  | _ => none

/-- Items 48 to 59: the envelope record (R93). -/
def readEnvelope (s : State) (item index : Nat) : Option ReadResult :=
  let e := s.env
  match item with
  | 48 => some (.value e.grant.tFwd e.grant.tRev)
  | 49 => some (.value e.grant.cDown e.grant.cUp)
  | 50 => some (.value e.grant.pRotMax e.grant.pCdMax)
  | 51 => some (.value e.grant.vPay e.grant.vHaul)
  | 52 => some (.value e.lMin e.lCeil)
  | 53 => some (.value e.dr (flag e.supplyShort + 2 * flag e.budgetSpent))
  | 54 => some (.value (signed16 e.measured.fC) e.measured.tMeas)
  | 55 => some (.value e.measured.lR e.measured.theta)
  | 56 => some (.value (unsigned16 e.wot) (unsigned16 e.k))
  | 57 => some (indexed (e.computed.inOrder index) fun c => .value c 0)
  | 58 => some (.value e.zT e.zC)
  | 59 => some (.value e.zWot e.zV)
  | _ => none

/-- Items 64 to 69: grant records and permits (R113). -/
def readGrants (s : State) (item index : Nat) : Option ReadResult :=
  match item with
  | 64 => some (indexed (driveOfNumber index) fun d => .value (s.grant d).state.code (s.grant d).state.cause)
  | 65 => some (indexed (driveOfNumber index) fun d => magnitudeDirection (s.grant d).lastDemand s.freeCount)
  | 66 => some (indexed (driveOfNumber index) fun d => magnitudeDirection (s.grant d).granted s.freeCount)
  | 67 => some (indexed (driveOfNumber index) fun d =>
      .value (s.grant d).reportedCeiling (s.grant d).state.life)
  | 68 => some (indexed (driveOfNumber index) fun d =>
      .value (flag (s.grant d).clamped + 2 * flag (s.grant d).blocked + 4 * flag (s.grant d).reduced +
        8 * flag (s.grant d).hold) (s.gst.settings.life d))
  | 69 => some (.value (flag s.gru.permits.hoist + 2 * flag s.gru.permits.crowd +
      4 * flag s.gru.permits.rotary + 8 * flag s.gru.permits.brakeRelease) 0)
  | _ => none

/-- Items 80 to 83: the ZNT (R127). Index 83 is entry × 256 + field. -/
def readZones (s : State) (item index : Nat) : Option ReadResult :=
  match item with
  | 80 => some (.value (flag s.znt.sessionOpen) s.znt.pile.toNat)
  | 81 => some (.value (maskOf s.znt.mask) (maskOf s.znt.combined))
  | 82 => some (.value (numberOr255 s.znt.lowestNoUnlock) 0)
  | 83 => some (indexed s.znt.zones.toList[index / 256]? fun z =>
      indexed (z.field (index % 256)) fun x => .value x (flag z.valid))
  | _ => none

/-- The code of an override: its action + 16 × its start mode, 0 when none is in force (R147, R183). -/
def FaultEntry.overrideCode (e : FaultEntry) : Int :=
  match e.override with
  | some o => o.action.code + 16 * o.startMode.code
  | none => 0

/-- The pending values of an entry, 15 where absent (R183). -/
def FaultEntry.pendingCode (e : FaultEntry) : Int :=
  ((e.pendingMode.map Mode.code).getD 15 : Nat) + 16 * ((e.pendingAction.map Action.code).getD 15 : Nat)

/-- The group status as READ carries it: 1 HST, 2 CRW, 4 ROT, 8 STR (R183). -/
def Fsv.groupMask (f : Fsv) : Int :=
  flag (f.groupStatus .hst) + 2 * flag (f.groupStatus .crw) + 4 * flag (f.groupStatus .rot) +
    8 * flag (f.groupStatus .str)

/-- Items 96 to 104: the FSV (R147). -/
def readFaults (s : State) (item index : Nat) : Option ReadResult :=
  let f := s.fsv
  match item with
  | 96 => some (indexed (Source.ofNumber index) fun src =>
      .value (flag (f.entry src).condition + 2 * flag (f.entry src).latched +
        4 * flag (f.entry src).override.isSome) (f.entry src).overrideCode)
  | 97 => some (indexed (Source.ofNumber index) fun src =>
      .value ((f.entry src).mode.code + 16 * (f.entry src).action.code) (f.entry src).pendingCode)
  | 98 => some (.value (f.mask FaultEntry.condition) (f.mask FaultEntry.latched))
  | 99 => some (.value (f.mask fun e => e.override.isSome) 0)
  | 100 => some (.value f.limitReach.mask f.dropReach.mask)
  | 101 => some (.value f.groupMask f.warnings.mask)
  | 102 => some (.value f.groupMode.code (numberOr255 (f.pendingGroupMode.map GroupMode.code)))
  | 103 => some (.value f.stallTimer 0)
  | 104 => some (countWords f.stallRef)
  | _ => none

/-- Items 112 to 119: the BRC (R160). -/
def readRecorder (s : State) (item : Nat) : Option ReadResult :=
  let b := s.brc
  match item with
  | 112 => some (.value b.fifo.length ((b.fifo.head?.map fun r => (r.seq.toNat : Int)).getD 65535))
  | 113 => some (.value b.seqCounter.toNat (flag b.gap.pending))
  | 114 => some (.value b.gap.count 0)
  | 115 => some (.value (depth10 b.gap.first) (depth10 b.gap.last))
  | 116 => some (.value (depth10 b.lastStep) (depth10 b.nextStep))
  | 117 => some (.value b.acc.turns b.turnDivider)
  | 118 => some (.value b.acc.tMax b.acc.cMax)
  | 119 => some (.value b.acc.wotPeak 0)
  | _ => none

/-- Item 128: a setting's value and its pending value, 255 when absent (R168, R183; entry 23). -/
def readSetting (s : State) : SettingItem → ReadResult
  | .value v => .value (s.gst.settings.get v) 255
  | .groupMode => .value s.fsv.groupMode.code (numberOr255 (s.fsv.pendingGroupMode.map GroupMode.code))
  | .mode src => .value (s.entry src).mode.code (numberOr255 ((s.entry src).pendingMode.map Mode.code))
  | .action src => .value (s.entry src).action.code (numberOr255 ((s.entry src).pendingAction.map Action.code))

/-- A field of the active geometry, NO_GEOMETRY without one (R168). -/
def readActive (s : State) (i : GeomItem) : ReadResult :=
  match s.gst.active with
  | some g => .value (g.get i) 0
  | none => .open_ .noGeometry

/-- Items 128 to 133: the GST (R168). -/
def readStore (s : State) (item index : Nat) : Option ReadResult :=
  let g := s.gst
  match item with
  | 128 => some (indexed (SettingItem.ofNumber index) (readSetting s))
  | 129 => some (indexed (GeomItem.ofNumber index) fun i => .value (g.staging.get i) 0)
  | 130 => some (indexed (GeomItem.ofNumber index) (readActive s))
  | 131 => some (.value (flag g.storeCorrupt) (flag g.storeEnable))
  | 132 => some (.value (flag g.commit.isSome) (g.commit.getD 0))
  | 133 => some (.value (flag s.lines.storeWp) g.store.crc.toNat)
  | _ => none

/-- Items 144 and 145: the PIF (R176). -/
def readPorts (s : State) (item index : Nat) : Option ReadResult :=
  match item with
  | 144 => some (indexed (Port.ofNumber index) fun p => .value (flag (s.port p).rst) (flag (s.port p).link))
  | 145 => some (indexed (Port.ofNumber index) fun p => .value (s.port p).lastReason 0)
  | _ => none

/-- What an item answers at an index; none for a number of no item (R183). -/
def readItem (s : State) (item index : Nat) : Option ReadResult :=
  [readString s item index, readMeasurement s item index, readPhase s item, readEnvelope s item index,
   readGrants s item index, readZones s item index, readFaults s item index, readRecorder s item,
   readStore s item index, readPorts s item index].findSome? id

/-- Whether an item is read on the cab port alone (R183). -/
def cabOnly (item : Nat) : Bool := item = 83 || item = 128 || item = 129 || item = 130

/-- Whether an item has an index (R183). -/
def hasIndex (item : Nat) : Bool :=
  [6, 7, 16, 18, 19, 57, 64, 65, 66, 67, 68, 83, 96, 97, 128, 129, 130, 144, 145].contains item

/-- The answer a result is carried in; the open X and Y are free values (entry 12). -/
def ReadResult.answer (free : Nat) : ReadResult → Answer
  | .value x y => Sys2Proof.Machine.answer .ok x y
  | .words x y => ⟨.ok, x, y, false⟩
  | .open_ code => ⟨code, Config.unstatedX free, Config.unstatedY free, false⟩

/-- The answer of a READ: the three checks of R176, then the item. -/
def readAnswer (s : State) (p : Port) (a b : Word) : Answer :=
  match readItem s a.toNat b.toNat with
  | none => answer .badArg a.toNat 0
  | some r =>
    if cabOnly a.toNat && decide (p ≠ .cab) then answer .wrongPort a.toNat p.number
    else if !hasIndex a.toNat && decide (b ≠ 0) then answer .badArg a.toNat 0
    else r.answer s.freeCount

/-- READ as a request that reached its owner (R176). It changes nothing it reads. -/
def serveRead (p : Port) (a b : Word) (s : State) : State × Answer := (s.useFree, readAnswer s p a b)

end Sys2Proof.Machine
end

