-- ==== Sys2Proof/Machine/Demands.lean ====
section
/-! DEFINITION. Requests the GRU and the PIF own: NOP, ACK_RESET, DEMAND (R96 to R101, R175). Each answers the
state it leaves and the answer of the port's next frame. -/

namespace Sys2Proof.Machine

/-- NOP (R175). -/
def serveNop (p : Port) (s : State) : State × Answer := (s, answer .ok p.number 0)

/-- The port's RST cleared (R97, R175). -/
def clearRst (p : Port) (s : State) : State := s.withPort p { s.port p with rst := false }

/-- ACK_RESET on the cab port (R175). -/
def ackCab (s : State) : State × Answer :=
  if (s.port .cab).rst then (clearRst .cab s, answer .ok 1 0) else (s, answer .ok 0 0)

/-- ACK_RESET on a drive port (R97). -/
def ackDrive (d : Drive) (s : State) : State × Answer :=
  match (s.grant d).state with
  | .unacked =>
    (clearRst d.port (s.withGrant d { s.grant d with state := .neutralWait .ackReset }), answer .ok 1 0)
  | .neutralWait _ | .active _ => (s, answer .ok 0 0)

/-- ACK_RESET (R97, R175). -/
def serveAckReset (p : Port) (a b : Word) (s : State) : State × Answer :=
  if a = 0 ∧ b = 0 then
    match p.drive with
    | none => ackCab s
    | some d => ackDrive d s
  else refuseOpen .badArg s

/-- The direction B names: 0 or 1, none otherwise (R98, R100). -/
def demandDirection (b : Word) : Option Bool := if b = 0 then some false else if b = 1 then some true else none

/-- X of a zero demand held off, whose cause becomes DROP: the cause's code (R98; entry 14). -/
def heldCode (cause : NeutralCause) (free : Nat) : Nat :=
  if Config.heldCauseBefore free then cause.code else NeutralCause.drop.code

/-- A DEMAND in NEUTRAL_WAIT with a valid direction (R98). -/
def demandNeutral (d : Drive) (cause : NeutralCause) (a : Word) (reverse : Bool) (s : State) : State × Answer :=
  let g := { s.grant d with lastDemand := signedDemand a reverse }
  if a ≠ 0 then (s.withGrant d g, answer .neutralRequired cause.code 0)
  else if g.hold then
    ((s.withGrant d { g with state := .neutralWait .drop }).useFree,
      answer .neutralRequired (heldCode cause s.freeCount) 1)
  else
    let y := s.env.answerY d reverse
    (s.withGrant d { g with
        state := .active (s.gst.settings.life d), granted := 0, reportedCeiling := y
        clamped := false, blocked := false, reduced := false },
      rewritableAnswer .ok 0 y)

/-- The record after a DEMAND taken in ACTIVE, against the ceiling `c` (R100). -/
def Grant.demanded (g : Grant) (a : Word) (reverse : Bool) (c : Int) (life : Nat) (y : Int) : Grant :=
  let magnitude := min (a.toNat : Int) c
  { state := .active life
    lastDemand := signedDemand a reverse
    granted := if reverse then -magnitude else magnitude
    reportedCeiling := y
    clamped := decide (c < a.toNat) && decide (0 < c)
    blocked := decide (a ≠ 0) && decide (c = 0)
    reduced := false
    hold := g.hold }

/-- The CODE of a DEMAND taken in ACTIVE (R101). -/
def Grant.demandCode (g : Grant) : Code := if g.blocked then .blocked else if g.clamped then .clamped else .ok

/-- A DEMAND in ACTIVE with a valid direction (R100, R101). -/
def demandActive (d : Drive) (a : Word) (reverse : Bool) (s : State) : State × Answer :=
  let y := s.env.answerY d reverse
  let g := (s.grant d).demanded a reverse (s.env.grant.bound d reverse) (s.gst.settings.life d) y
  (s.withGrant d g, rewritableAnswer g.demandCode |g.granted| y)

/-- DEMAND at a drive's record (R96, R98, R100). -/
def demandOn (d : Drive) (a b : Word) (s : State) : State × Answer :=
  match (s.grant d).state, demandDirection b with
  | .unacked, _ => refuse .restarted 0 0 s
  | .neutralWait _, none | .active _, none => refuse .badArg 0 0 s
  | .neutralWait cause, some reverse => demandNeutral d cause a reverse s
  | .active _, some reverse => demandActive d a reverse s

/-- DEMAND; the cab port's never reaches the GRU (R95, R102). -/
def serveDemand (p : Port) (a b : Word) (s : State) : State × Answer :=
  match p.drive with
  | some d => demandOn d a b s
  | none => refuse .wrongPort Cmd.demand.code.toNat p.number s

end Sys2Proof.Machine
end

