-- ==== Sys2Proof/Machine/Phases.lean ====
section
/-! DEFINITION. Requests the PHC and the STK own: PHASE, ENGAGE, RELEASE_ENABLE, RELEASE, ABORT_OP, CONFIRM_FREE
(R23, R49 to R61). The latches a valid frame clears are cleared after the request has been acted on (R174). -/

namespace Sys2Proof.Machine

/-- The moves PHASE may ask for (R49). -/
def phaseMayMove (from_ to_ : Phase) : Bool :=
  match from_, to_ with
  | _, .parked => true
  | .parked, .free | .parked, .hoist | .parked, .spinOff => true
  | .free, .hoist | .free, .spinOff => true
  | .hoist, .free | .hoist, .spinOff => true
  | .spinOff, .free | .spinOff, .hoist => true
  | .parked, _ | .free, _ | .engaging, _ | .drill, _ | .releasing, _ | .hoist, _ | .spinOff, _ => false

/-- The code of the present phase, as X of a refusal. -/
def State.phaseCode (s : State) : Int := s.phc.phase.code

/-- Whether every joint is FREE and the tool above ground (R49, step 5). -/
def State.clearOfGround (s : State) : Bool := allFree s.stk.joints && decide (s.stk.depth < 0)

/-- The phase moved at a PHASE taken; PARKED in PARKED changes nothing (R49, R50). -/
def phaseTaken (to_ : Phase) (s : State) : State × Answer :=
  (if to_ = .parked ∧ s.phc.phase = .parked then s else changePhase to_ s,
    answer .ok to_.code s.phaseCode)

/-- PHASE with a phase code in A and B = 0 (R49, steps 3 to 5). -/
def phaseRequested (to_ : Phase) (s : State) : State × Answer :=
  if !phaseMayMove s.phc.phase to_ || (decide (to_ ≠ .parked) && s.estopPresent) then
    refuse .wrongPhase s.phaseCode to_.code s
  else if s.phc.phase = .parked ∧ to_ ≠ .parked ∧ s.gst.active = none then refuse .noGeometry 0 0 s
  else if to_ = .spinOff ∧ (s.phc.phase = .parked ∨ s.phc.phase = .free) ∧ !s.clearOfGround then
    refuse .wrongPhase s.phaseCode to_.code s
  else phaseTaken to_ s

/-- PHASE (R49). -/
def servePhase (a b : Word) (s : State) : State × Answer :=
  if s.committing then refuse .busy 0 0 s
  else
    match Phase.ofCode a.toNat with
    | none => refuse .badArg 0 0 s
    | some to_ => if b ≠ 0 then refuse .badArg 0 0 s else phaseRequested to_ s

/-- ENGAGE (R53). -/
def serveEngage (a b : Word) (s : State) : State × Answer :=
  let mask := jointMask Joint.lockable s.stk.joints
  let timeout := s.gst.settings.engageTimeout
  if s.committing then refuse .busy 0 0 s
  else if a ≠ 0 ∨ b ≠ 0 then refuse .badArg 0 0 s
  else if s.phc.phase ≠ .free then refuse .wrongPhase s.phaseCode 0 s
  else if mask = 0 then refuse .notAligned 0 0 s
  else (startOperation 0 timeout.toNat none (changePhase .engaging s), answer .ok mask timeout)

/-- RELEASE_ENABLE (R51); refused BAD_ARG it clears the latch (R52). -/
def serveReleaseEnable (a b : Word) (s : State) : State × Answer :=
  if a = 0 ∧ b = 0 then (s.withPhc { s.phc with releaseLatch := true }, answer .ok 1 0)
  else refuseOpen .badArg (s.withPhc { s.phc with releaseLatch := false })

/-- The release target A names (R57). -/
def releaseTarget (a : Word) : Option ReleaseTarget :=
  if a = 1 then some .free else if a = 5 then some .hoist else none

/-- RELEASE with a target in A and B = 0 (R57, steps 4 to 6). -/
def releaseRequested (target : ReleaseTarget) (s : State) : State × Answer :=
  let k := unsigned16 s.env.k
  let limit := s.gst.settings.fRelease
  if !s.phc.releaseLatch then refuse .notEnabled 0 0 s
  else if s.znt.limits.noUnlock then refuse .zoneForbids (numberOr255 s.znt.lowestNoUnlock) 0 s
  else if limit < s.env.k then refuse .underLoad k limit s
  else
    (startOperation s.stk.aR s.gst.settings.releaseTimeout.toNat (some target) (changePhase .releasing s),
      answer .ok k target.phase.code)

/-- RELEASE (R57). -/
def serveRelease (a b : Word) (s : State) : State × Answer :=
  if s.committing then refuse .busy 0 0 s
  else if s.phc.phase ≠ .drill then refuse .wrongPhase s.phaseCode 0 s
  else
    match releaseTarget a with
    | none => refuse .badArg 0 0 s
    | some target => if b ≠ 0 then refuse .badArg 0 0 s else releaseRequested target s

/-- ABORT_OP (R61). -/
def serveAbortOp (a b : Word) (s : State) : State × Answer :=
  if s.phc.phase ≠ .engaging ∧ s.phc.phase ≠ .releasing then refuse .wrongPhase s.phaseCode 0 s
  else if a ≠ 0 ∨ b ≠ 0 then refuse .badArg 0 0 s
  else
    let to_ := if s.phc.phase = .releasing then Phase.drill else .free
    (changePhase to_ s, answer .ok to_.code ((s.phc.op.map Operation.angle).getD 0))

/-- The joints from number `j` on, with those UNCERTAIN and named in the mask made FREE (R23). -/
def confirmNamed (mask : Word) (j : Nat) : List Joint → List Joint
  | [] => []
  | x :: xs =>
    (if mask.getLsbD j && x.isUncertain then { x with state := .free } else x) :: confirmNamed mask (j + 1) xs

/-- The mask of the joints from number `j` on that are UNCERTAIN and named in the mask (R23). -/
def confirmedMask (mask : Word) (j : Nat) : List Joint → Nat
  | [] => 0
  | x :: xs => (if mask.getLsbD j && x.isUncertain then 2 ^ j else 0) + confirmedMask mask (j + 1) xs

/-- The joints a mask names confirmed FREE, with the FREED record and an evaluation if any changed (R23). -/
def jointsConfirmed (a : Word) (s : State) : State :=
  let freed := confirmedMask a 0 s.stk.joints
  if freed = 0 then s
  else
    afterEvaluation s.stk []
      (evaluate (askEvent (.freed freed)
        (s.withStk { s.stk with joints := confirmNamed a 0 s.stk.joints })))

/-- Whether the phase lets joints be confirmed free (R23). -/
def Phase.mayConfirm : Phase → Bool
  | .parked | .hoist | .spinOff => true
  | .free | .engaging | .drill | .releasing => false

/-- CONFIRM_FREE (R23); the spec gives its refusals no X and no Y (entry 12). -/
def serveConfirmFree (a b : Word) (s : State) : State × Answer :=
  match s.gst.active with
  | none => refuseOpen .noGeometry s
  | some g =>
    if s.committing then refuseOpen .busy s
    else if !s.phc.phase.mayConfirm || decide (0 ≤ s.stk.depth) then refuseOpen .wrongPhase s
    else if a = 0 ∨ 2 ^ g.n.toNat ≤ a.toNat ∨ b ≠ 0 then refuseOpen .badArg s
    else (jointsConfirmed a s, answer .ok (confirmedMask a 0 s.stk.joints) 0)

end Sys2Proof.Machine
end

