-- ==== Sys2Proof/Machine/Piles.lean ====
section
/-! DEFINITION. Requests the ZNT owns, and the recorder's reader: DATUM, OPEN_PILE, CLOSE_PILE, ZONE_WRITE,
RECORD_READ (R115, R121, R123, R124, R157), and CLEAR_FAULTS (R140). -/

namespace Sys2Proof.Machine

/-- The pile number, as X of a refusal. -/
def State.pileNumber (s : State) : Int := s.znt.pile.toNat

/-- A DATUM taken at `d`, in 10 mm units (R8, R121). -/
def datumTaken (d : Int) (g : Geometry) (s : State) : State :=
  afterEvaluation s.stk []
    (evaluate (s.withStk (s.stk.datum (10 * d) g.lCl s.msu.ropeMm s.msu.strokeMm)))

/-- DATUM (R121). -/
def serveDatum (a b : Word) (s : State) : State × Answer :=
  let d := a.toInt
  if s.committing then refuse .busy 0 0 s
  else
    match s.gst.active with
    | none => refuse .noGeometry 0 0 s
    | some g =>
      if b ≠ 0 ∨ d < -2000 ∨ 15000 < d then refuse .badArg 0 0 s
      else if s.znt.sessionOpen then refuse .frozen s.pileNumber 0 s
      else if s.phc.phase ≠ .parked ∧ s.phc.phase ≠ .spinOff then refuse .wrongPhase s.phaseCode 0 s
      else
        let t := datumTaken d g s
        (t, answer .ok d t.stk.quality.code)

/-- The BRC's start of a session at bottom-hole depth `depth`, after its OPEN record (R123, R152, R153, R159). -/
def Brc.opened (b : Brc) (pile : Word) (depth step : Int) : Brc :=
  let last := stepBoundary step depth
  { b.ask true depth depth (.opened pile) with
    acc := .zero, turnDivider := 0, lastStep := last, nextStep := last + step }

/-- An OPEN_PILE taken (R123). -/
def pileOpened (pile : Word) (s : State) : State :=
  let d := s.stk.depth
  let s := s.withZnt { s.znt with sessionOpen := true, pile := pile }
  let s := s.withStk { s.stk with bottomHole := d }
  s.withBrc (s.brc.opened pile d s.gst.settings.recordStep)

/-- OPEN_PILE (R123). -/
def serveOpenPile (a b : Word) (s : State) : State × Answer :=
  if s.committing then refuse .busy 0 0 s
  else if s.gst.active = none then refuse .noGeometry 0 0 s
  else if b ≠ 0 then refuse .badArg 0 0 s
  else if s.znt.sessionOpen then refuse .wrongPhase s.pileNumber 0 s
  else if Config.fifoCapacity ≤ s.brc.fifo.length then refuse .fifoFull s.brc.fifo.length 0 s
  else (pileOpened a s, answer .ok a.toNat (depth10 s.stk.depth))

/-- The slots a CLOSE_PILE needs (R124, step 4). -/
def Brc.slotsToClose (b : Brc) : Nat := if b.gap.pending then 2 else 1

/-- A CLOSE_PILE taken: a pending GAP record, the CLOSE record, then the session CLOSED (R124, R156). -/
def pileClosed (s : State) : State :=
  let s := s.withBrc (s.brc.writeGap.append s.stk.bottomHole s.stk.depth (.closed s.znt.pile))
  s.withZnt { s.znt with sessionOpen := false }

/-- CLOSE_PILE (R124). -/
def serveClosePile (a b : Word) (s : State) : State × Answer :=
  let slots := Config.fifoCapacity - s.brc.fifo.length
  if a ≠ 0 ∨ b ≠ 0 then refuse .badArg 0 0 s
  else if !s.znt.sessionOpen then refuse .wrongPhase 0 0 s
  else if s.phc.phase ≠ .parked then refuse .wrongPhase s.phaseCode 0 s
  else if slots < s.brc.slotsToClose then refuse .fifoFull slots s.brc.slotsToClose s
  else (pileClosed s, answer .ok s.pileNumber (depth10 s.stk.bottomHole))

/-- Whether B is a code of a field: valid 0 or 1, flags 0 to 7 (R115, step 3). -/
def zoneCodeGood (field : Nat) (b : Word) : Bool :=
  match field with
  | 0 => decide (b.toNat ≤ 1)
  | 7 => decide (b.toNat ≤ 7)
  | _ => true

/-- A ZONE_WRITE taken, and the re-evaluation that follows it (R115, R116, R119). -/
def zoneWritten (i : Fin 8) (field : Nat) (x : Int) (s : State) : State :=
  recompute (zntReevaluate
    (s.withZnt { s.znt with zones := s.znt.zones.set i (s.znt.zones[i].write field x) }))

/-- ZONE_WRITE of an entry's field, both in range (R115, steps 2 to 4). -/
def zoneRequested (i : Fin 8) (field : Nat) (b : Word) (s : State) : State × Answer :=
  let z := s.znt.zones[i]
  let read := zoneRead field b
  let x := zoneBring field read
  if s.znt.sessionOpen then refuse .frozen s.pileNumber 0 s
  else if !zoneCodeGood field b then refuse .badArg 0 0 s
  else if field = 0 ∧ b = 1 ∧ z.bottom ≤ z.top then refuse .badArg z.top z.bottom s
  else
    (zoneWritten i field x s,
      answer (if x = read then .ok else .clamped) x (flag (z.write field x).valid))

/-- ZONE_WRITE (R115). -/
def serveZoneWrite (a b : Word) (s : State) : State × Answer :=
  if h : a.toNat / 256 < 8 then
    if a.toNat % 256 < 8 then zoneRequested ⟨a.toNat / 256, h⟩ (a.toNat % 256) b s else refuse .badArg 0 0 s
  else refuse .badArg 0 0 s

/-- The table with latched cleared for the sources a mask names (R140). -/
def Fsv.clearNamed (f : Fsv) (mask : Word) : Fsv :=
  { f with table := f.table.mapFinIdx fun i e _ => if mask.getLsbD i then { e with latched := false } else e }

/-- CLEAR_FAULTS (R140). -/
def serveClearFaults (a b : Word) (s : State) : State × Answer :=
  if b ≠ 0 then refuseOpen .badArg s
  else
    let latched := BitVec.ofNat 16 (s.fsv.mask FaultEntry.latched)
    let inForce := BitVec.ofNat 16 (s.fsv.mask fun e => e.override.isSome)
    (s.withFsv (s.fsv.clearNamed a), ⟨.ok, a &&& latched, if a = 0 then inForce else a &&& inForce, false⟩)

/-- RECORD_READ at the end of its frame: `latched` is the record of the 56th clock, `ones` whether an extension
bit was 1 (R157). -/
def serveRecordRead (a b : Word) (ones : Bool) (latched : Record) (s : State) : State × Answer :=
  let held := s.brc.fifo.length
  if a ≠ 0 ∨ b ≠ 0 ∨ ones then refuse .badArg held 65535 s
  else if latched.body = .none then (s, answer .ok held 65535)
  else
    let t := s.withBrc s.brc.removeOldest
    (t, answer .ok t.brc.fifo.length latched.seq.toNat)

end Sys2Proof.Machine
end

