-- ==== Sys2Proof/Machine/Stores.lean ====
section
/-! DEFINITION. Requests the GST owns: SET, SETTINGS_DEFAULT, GEOM_WRITE, STORE_ENABLE, STORE_COMMIT (R161 to
R167). -/

namespace Sys2Proof.Machine

/-- A change of L_slack handed to the STK, which re-decides tautness and evaluates (R9, R11). -/
def slackChanged (s : State) : State := afterEvaluation s.stk [] (evaluateAnew s)

/-- A change of the depth tolerance: DEPTH_DISAGREE decided again (R14, R133). -/
def toleranceChanged (s : State) : State := decideCondition .depthDisagree s.depthDisagrees s

/-- A change of the record step: with the session OPEN the next step boundary moves to the smallest multiple of
the new step beyond bottom-hole depth (R153). -/
def recordStepChanged (s : State) : State :=
  if s.znt.sessionOpen then
    let step := s.gst.settings.recordStep
    s.withBrc { s.brc with nextStep := stepBoundary step s.stk.bottomHole + step }
  else s

/-- A setting's change handed to the blocks that read it, but for the ENV (R166). -/
def settingChanged (v : Setting) (s : State) : State :=
  match v with
  | .lSlack => slackChanged s
  | .depthTolerance => toleranceChanged s
  | .recordStep => recordStepChanged s
  | .spinOffLevel => advanceEvaluate s
  | .autoAdvance => if s.gst.settings.autoAdvance then advanceEvaluate s else s
  | .lockAngle | .unlockAngle | .reverseMargin | .tSeat | .tRelease | .tFree | .tHold | .tSpin | .tFreeTool
  | .cFree | .cPull | .vFree | .vStop | .vAlign | .vFollow | .sSlow | .lFollow | .fRelease | .wotMax
  | .pMargin | .thetaHot | .thetaMax | .overTolerance | .stallTime | .lifeHoist | .lifeCrowd | .lifeRotary
  | .engageTimeout | .releaseTimeout | .dTurn => s

/-- The state with the settings replaced. -/
def State.withSettings (s : State) (t : Settings) : State := s.withGst { s.gst with settings := t }

/-- A SET of a value within its range, handed on when the value changed (R72, R166). -/
def settingWritten (v : Setting) (x : Int) (s : State) : State :=
  let old := s.gst.settings
  let s := recompute (s.withSettings (old.write v x))
  if old.get v = x then s else settingChanged v s

/-- Whether B is a code of a setting: auto-advance is a flag, every other setting of 1 to 35 takes any B
(R166). -/
def settingCodeGood (v : Setting) (b : Word) : Bool :=
  match v with
  | .autoAdvance => decide (b.toNat ≤ 1)
  | _ => true

/-- SET of a setting of 1 to 35 (R166). -/
def setValue (v : Setting) (b : Word) (s : State) : State × Answer :=
  let old := s.gst.settings
  let x := old.bring v (v.read b)
  if !settingCodeGood v b then refuseOpen .badArg s
  else
    let moved := decide ((old.write v x).reverseMargin ≠ old.reverseMargin) && decide (v = .unlockAngle)
    (settingWritten v x s, answer (if x ≠ v.read b ∨ moved then .clamped else .ok) x (old.get v))

/-- SET of the group mode: its pending value (R142, R166). -/
def setGroupMode (b : Word) (s : State) : State × Answer :=
  match GroupMode.ofCode b.toNat with
  | none => refuseOpen .badArg s
  | some m =>
    (s.withFsv { s.fsv with pendingGroupMode := some m }, answer .ok m.code s.fsv.groupMode.code)

/-- SET of a source's mode: its pending value (R141, R166). -/
def setMode (src : Source) (b : Word) (s : State) : State × Answer :=
  match Mode.ofCode b.toNat with
  | none => refuseOpen .badArg s
  | some m => (s.withEntry src { s.entry src with pendingMode := some m }, answer .ok m.code (s.entry src).mode.code)

/-- SET of a source's action: its pending value (R141, R166). -/
def setAction (src : Source) (b : Word) (s : State) : State × Answer :=
  match Action.ofCode b.toNat with
  | none => refuseOpen .badArg s
  | some x =>
    (s.withEntry src { s.entry src with pendingAction := some x }, answer .ok x.code (s.entry src).action.code)

/-- SET (R141, R142, R166). -/
def serveSet (a b : Word) (s : State) : State × Answer :=
  match SettingItem.ofNumber a.toNat with
  | none => refuseOpen .badArg s
  | some (.value v) => setValue v b s
  | some .groupMode => setGroupMode b s
  | some (.mode src) => setMode src b s
  | some (.action src) => setAction src b s

/-- A default made pending: none where it equals the value in force (R167). -/
def pendingDefault {α : Type} [DecidableEq α] (inForce default_ : α) : Option α :=
  if default_ = inForce then none else some default_

/-- An entry with its source's defaults made pending (R167). -/
def FaultEntry.defaulted (e : FaultEntry) (src : Source) : FaultEntry :=
  { e with
    pendingMode := pendingDefault e.mode src.defaultMode
    pendingAction := pendingDefault e.action src.defaultAction }

/-- The FSV with every default made pending (R167). -/
def Fsv.defaulted (f : Fsv) : Fsv :=
  { f with
    table := (Source.all.foldl (fun g src => g.withEntry src ((g.entry src).defaulted src)) f).table
    pendingGroupMode := pendingDefault f.groupMode .isolate }

/-- Whether a default differs from the value in force after the next boundary (R167). -/
def changesPending {α : Type} [DecidableEq α] (inForce : α) (pending : Option α) (default_ : α) : Bool :=
  decide (pending.getD inForce ≠ default_)

/-- How many settings a SETTINGS_DEFAULT changes (R167). -/
def State.defaultsChanged (s : State) : Nat :=
  (Setting.all.filter fun v => decide (s.gst.settings.get v ≠ Settings.default.get v)).length +
    (changesPending s.fsv.groupMode s.fsv.pendingGroupMode .isolate).toNat +
    (Source.all.filter fun src =>
      changesPending (s.entry src).mode (s.entry src).pendingMode src.defaultMode).length +
    (Source.all.filter fun src =>
      changesPending (s.entry src).action (s.entry src).pendingAction src.defaultAction).length

/-- Whether a SETTINGS_DEFAULT changes a setting. -/
def Settings.offDefault (t : Settings) (v : Setting) : Bool := decide (t.get v ≠ Settings.default.get v)

/-- The change of a setting handed on by a SETTINGS_DEFAULT, if it is one (R167). -/
def defaultHanded (old : Settings) (s : State) (v : Setting) : State :=
  if old.offDefault v then settingChanged v s else s

/-- The settings in the order in which a SETTINGS_DEFAULT hands their changes on, which R167 leaves open: the record
step first, so that a STEP record of a later evaluation is formed with the boundaries of the step it is formed with
(R153), then the others in rising number (DESIGN CHOICE: entry 36). -/
def handingOrder : List Setting := .recordStep :: Setting.all.filter fun v => decide (v ≠ .recordStep)

/-- A SETTINGS_DEFAULT taken: every setting at its default, the FSV's pending, one recomputation, and each change
handed on (R167; entry 36). -/
def defaultsTaken (s : State) : State :=
  let old := s.gst.settings
  let s := recompute ((s.withSettings .default).withFsv s.fsv.defaulted)
  handingOrder.foldl (defaultHanded old) s

/-- SETTINGS_DEFAULT (R167). -/
def serveSettingsDefault (a b : Word) (s : State) : State × Answer :=
  if a ≠ 0 ∨ b ≠ 0 then refuse .badArg 0 0 s
  else if s.phc.phase ≠ .parked then refuse .wrongPhase s.phaseCode 0 s
  else (defaultsTaken s, answer .ok s.defaultsChanged 0)

/-- The remaining time of a commit in flight, as X of a refusal. -/
def State.commitTime (s : State) : Int := s.gst.commit.getD 0

/-- GEOM_WRITE (R161). -/
def serveGeomWrite (a b : Word) (s : State) : State × Answer :=
  if s.committing then refuse .busy s.commitTime 0 s
  else
    match GeomItem.ofNumber a.toNat with
    | none => refuse .badArg 0 0 s
    | some i =>
      if s.znt.sessionOpen then refuse .frozen s.pileNumber 0 s
      else
        let x := i.bring (i.read b)
        (s.withGst { s.gst with staging := s.gst.staging.put i x },
          answer (if x = i.read b then .ok else .clamped) x 0)

/-- The store enable latch written. -/
def State.withStoreEnable (s : State) (on : Bool) : State := s.withGst { s.gst with storeEnable := on }

/-- STORE_ENABLE; refused BAD_ARG it leaves the latch clear (R162). -/
def serveStoreEnable (a b : Word) (s : State) : State × Answer :=
  if a = 0 ∧ b = 0 then (s.withStoreEnable true, answer .ok 1 0)
  else refuseOpen .badArg (s.withStoreEnable false)

/-- Step 6 of a STORE_COMMIT: the refusal of A or B other than 0, whose X the spec does not state (entry 12),
or of the first inconsistent pocket; otherwise the commit is in flight (R163; entry 29). -/
def commitRequested (a b : Word) (s : State) : State × Answer :=
  if a ≠ 0 ∨ b ≠ 0 then (s.useFree, ⟨.badArg, Config.unstatedX s.freeCount, 255, false⟩)
  else
    match s.gst.staging.inconsistency with
    | some (j, k) => refuse .badArg j k s
    | none =>
      (s.withGst { s.gst with commit := some Config.commitMs },
        ⟨.ok, (Store.ofGeometry s.gst.staging).crc, BitVec.ofNat 16 Config.commitMs, false⟩)

/-- STORE_COMMIT; whatever the outcome the latch is cleared once it has been acted on (R162, R163, R174). -/
def serveStoreCommit (a b : Word) (s : State) : State × Answer :=
  if !s.gst.storeEnable then refuse .notEnabled 0 0 s
  else if s.lines.storeWp then refuse .storeProtected 0 0 s
  else if s.phc.phase ≠ .parked then refuse .wrongPhase s.phaseCode 0 s
  else if s.znt.sessionOpen then refuse .frozen s.pileNumber 0 s
  else if s.committing then refuse .busy s.commitTime 0 s
  else commitRequested a b s

end Sys2Proof.Machine
end

