-- ==== Sys2Proof/Machine/Frames.lean ====
section
/-! DEFINITION. The Port Interface's operations (chapter 10): the fall of select, the clocks, the timeout, the end
of a frame with its checks, and the taking of a valid request. -/

namespace Sys2Proof.Machine

/-- A request as a valid frame carries it: the extension bits and the latched record are RECORD_READ's. -/
structure Request where
  cmd : Byte
  a : Word
  b : Word
  ones : Bool
  latched : Record
  deriving DecidableEq, Repr

/-- A command handed to its owner (R174). -/
def serve (p : Port) (c : Cmd) (q : Request) (s : State) : State × Answer :=
  match c with
  | .nop => serveNop p s
  | .read => serveRead p q.a q.b s
  | .ackReset => serveAckReset p q.a q.b s
  | .demand => serveDemand p q.a q.b s
  | .set => serveSet q.a q.b s
  | .settingsDefault => serveSettingsDefault q.a q.b s
  | .phase => servePhase q.a q.b s
  | .engage => serveEngage q.a q.b s
  | .releaseEnable => serveReleaseEnable q.a q.b s
  | .release => serveRelease q.a q.b s
  | .abortOp => serveAbortOp q.a q.b s
  | .confirmFree => serveConfirmFree q.a q.b s
  | .datum => serveDatum q.a q.b s
  | .openPile => serveOpenPile q.a q.b s
  | .closePile => serveClosePile q.a q.b s
  | .zoneWrite => serveZoneWrite q.a q.b s
  | .geomWrite => serveGeomWrite q.a q.b s
  | .storeEnable => serveStoreEnable q.a q.b s
  | .storeCommit => serveStoreCommit q.a q.b s
  | .clearFaults => serveClearFaults q.a q.b s
  | .recordRead => serveRecordRead q.a q.b q.ones q.latched s

/-- The three checks of the PIF: the refusal of the first that fails (R174). -/
def pifRefusal (p : Port) (q : Request) (s : State) : Option Answer :=
  match Cmd.ofCode q.cmd with
  | none => some (answer .badCmd q.cmd.toNat 0)
  | some c =>
    if !c.takenOn p then some (answer .wrongPort q.cmd.toNat p.number)
    else if (s.port p).rst && !c.takenUnacknowledged then some (answer .restarted 0 0)
    else none

/-- A valid request decided: refused by the PIF, or served by its owner (R174). -/
def decideRequest (p : Port) (q : Request) (s : State) : State × Answer :=
  match pifRefusal p q s, Cmd.ofCode q.cmd with
  | some ans, _ => (s, ans)
  | none, some c => serve p c q s
  | none, none => (s, answer .badCmd q.cmd.toNat 0)

/-- Whether a command leaves the release latch as it is (R52). -/
def Cmd.keepsReleaseLatch : Cmd → Bool
  | .read | .nop | .recordRead | .releaseEnable => true
  | _ => false

/-- Whether a command leaves the store enable latch as it is; STORE_ENABLE leaves it as it wrote it (R162). -/
def Cmd.keepsStoreEnable : Cmd → Bool
  | .read | .nop | .storeEnable => true
  | _ => false

/-- The latches a valid frame on the cab port clears once its request has been acted on (R52, R162, R174). -/
def clearLatches (p : Port) (q : Request) (s : State) : State :=
  if p = .cab then
    let c := Cmd.ofCode q.cmd
    let s := if c.any Cmd.keepsReleaseLatch then s else s.withPhc { s.phc with releaseLatch := false }
    if c.any Cmd.keepsStoreEnable then s else s.withStoreEnable false
  else s

/-- The port with its select high (R169). -/
def PortState.released (p : PortState) : PortState := { p with frame := .idle, dataOut := none }

/-- The port with its pending answer replaced (R172). -/
def PortState.answered (p : PortState) (a : Answer) : PortState := { p with answer := a }

/-- A valid frame ends: LINK is cleared, the request is taken or refused, its answer is pending, and the latches
see it (R170, R172, R174). -/
def takeRequest (p : Port) (q : Request) (s : State) : State :=
  let s := s.withPort p { (s.port p).released with link := false }
  let served := decideRequest p q s
  let t := served.1
  clearLatches p q (t.withPort p ((t.port p).answered served.2))

/-- A rejected frame ends: LINK is set and the answer is LINK_REJECT (R170). -/
def rejectFrame (p : Port) (clocks : Nat) (reason : Reason) (s : State) : State :=
  let x := answer .linkReject (min Config.maxCount clocks : Nat) reason.code
  s.withPort p { (s.port p).released.answered x with link := true, lastReason := reason.code }

/-- The request a shift register holds (R178). -/
def Shift.request_ (f : Shift) : Request where
  cmd := requestCmd f.request
  a := requestA f.request
  b := requestB f.request
  ones := f.extensionOnes
  latched := f.latched.getD .nothing

/-- The rise of select on a frame that was clocked in: checked, then taken or rejected (R170). -/
def endShift (p : Port) (f : Shift) (s : State) : State :=
  match frameCheck f.clocks f.request with
  | some reason => rejectFrame p f.clocks reason s
  | none => takeRequest p f.request_ s

/-- The rise of select. While XRST is asserted, and on a port whose select was ignored, it ends nothing; a frame
of which bits were clocked in is judged by them; otherwise the frame is the command's own, whole (R170, R171,
R177; entry 5). -/
def selectRises (p : Port) (whole : State → State) (s : State) : State :=
  if s.lines.xrst then s.withPort p (s.port p).released
  else
    match (s.port p).frame with
    | .ignored => s.withPort p (s.port p).released
    | .idle => whole s
    | .shifting f => if f.clocks = 0 then whole s else endShift p f s

/-- A request delivered whole; RECORD_READ carries its 160 extension bits and the record that is oldest now
(R157; entry 5). -/
def wholeRequest (p : Port) (c : Cmd) (a b : Word) (extension : BitVec 160) (s : State) : State :=
  takeRequest p ⟨c.code, a, b, decide (extension ≠ 0), s.brc.oldest⟩ s

/-- The end of the frame of a request row (R170, R174). -/
def requestEnds (p : Port) (c : Cmd) (a b : Word) (extension : BitVec 160) (s : State) : State :=
  selectRises p (wholeRequest p c a b extension) s

/-- The frame that starts at a fall of select: the response fixed, no clock counted (R169). -/
def Shift.start (response : BitVec 56) : Shift := ⟨response, 0, 0, false, none, Config.selectMs⟩

/-- The response fixed at the fall of select (R169). -/
def State.response (s : State) (p : Port) : BitVec 56 :=
  let ans := (s.port p).answer
  encodeResponse (s.summary p) (BitVec.ofNat 8 ans.code.number) ans.x ans.y

/-- The fall of select: a frame starts, its output at the first bit; while XRST is asserted it is not a frame;
on a port already in a frame there is no fall (R169, R177; entry 6). -/
def selectFalls (p : Port) (s : State) : State :=
  let port := s.port p
  if s.lines.xrst then s.withPort p { port with frame := .ignored, dataOut := none }
  else
    match port.frame with
    | .shifting _ => s
    | .idle | .ignored =>
      let r := s.response p
      s.withPort p { port with frame := .shifting (.start r), dataOut := some r.msb }

/-- The shift register after a clock (R157, R169, R170): the first 56 bits are the request, the next 160 the
extension. -/
def Shift.clock (f : Shift) (bit : Bool) (latch : Option Record) : Shift :=
  { f with
    clocks := min Config.maxCount (f.clocks + 1)
    request := if f.clocks < 56 then f.request.shiftConcat bit else f.request
    extensionOnes := f.extensionOnes || (decide (56 ≤ f.clocks) && decide (f.clocks < 216) && bit)
    latched := if f.clocks + 1 = 56 then latch else f.latched }

/-- The data output once a number of clocks has been counted (R169; entry 20). -/
def Shift.output (f : Shift) : Bool :=
  if f.clocks < 56 then f.response.getMsbD f.clocks
  else
    match f.latched with
    | some r => r.bits.getMsbD (f.clocks - 56)
    | none => false

/-- The record the BRC latches at the 56th clock of a frame on the cab port whose CMD is RECORD_READ (R157). -/
def State.recordLatched (s : State) (p : Port) (request : BitVec 56) : Option Record :=
  if p = .cab ∧ requestCmd request = Cmd.recordRead.code then some s.brc.oldest else none

/-- A clock: ignored while select is high or ignored (R169, R171, R177). -/
def clockTaken (p : Port) (bit : Bool) (s : State) : State :=
  match (s.port p).frame with
  | .idle | .ignored => s
  | .shifting f =>
    let f := f.clock bit (s.recordLatched p (f.request.shiftConcat bit))
    s.withPort p { s.port p with frame := .shifting f, dataOut := some f.output }

/-- The select timeout: a frame in flight abandoned, its port ignored until select rises (R171). -/
def selectTimesOut (p : Port) (s : State) : State :=
  match (s.port p).frame with
  | .idle | .ignored => s
  | .shifting f =>
    let x := answer .linkReject f.clocks Reason.timeout.code
    s.withPort p { (s.port p).answered x with
      link := true, lastReason := Reason.timeout.code, frame := .ignored, dataOut := none }

end Sys2Proof.Machine
end

