-- ==== Sys2Proof/Machine/Requests.lean ====
section
/-! DEFINITION. The meanings of the rows that are the end of a request's frame (R170, R174). -/

namespace Sys2Proof.Machine

/-- NOP, as `serveNop` gives it to a request that passes the PIF (R175). -/
def execNop (p : Port) (a b : Word) (s : State) : Host.Outcome State Fault Refusal :=
  done (requestEnds p .nop a b 0 s)

/-- READ, as `serveRead` gives it to a request that passes the PIF (R176). -/
def execRead (p : Port) (a b : Word) (s : State) : Host.Outcome State Fault Refusal :=
  done (requestEnds p .read a b 0 s)

/-- ACK_RESET, as `serveAckReset` gives it to a request that passes the PIF (R97, R175). -/
def execAckReset (p : Port) (a b : Word) (s : State) : Host.Outcome State Fault Refusal :=
  done (requestEnds p .ackReset a b 0 s)

/-- DEMAND, as `serveDemand` gives it to a request that passes the PIF (R95 to R101). -/
def execDemand (p : Port) (a b : Word) (s : State) : Host.Outcome State Fault Refusal :=
  done (requestEnds p .demand a b 0 s)

/-- SET, as `serveSet` gives it to a request that passes the PIF (R166). -/
def execSet (p : Port) (a b : Word) (s : State) : Host.Outcome State Fault Refusal :=
  done (requestEnds p .set a b 0 s)

/-- SETTINGS_DEFAULT, as `serveSettingsDefault` gives it to a request that passes the PIF (R167). -/
def execSettingsDefault (p : Port) (a b : Word) (s : State) : Host.Outcome State Fault Refusal :=
  done (requestEnds p .settingsDefault a b 0 s)

/-- PHASE, as `servePhase` gives it to a request that passes the PIF (R49). -/
def execPhase (p : Port) (a b : Word) (s : State) : Host.Outcome State Fault Refusal :=
  done (requestEnds p .phase a b 0 s)

/-- ENGAGE, as `serveEngage` gives it to a request that passes the PIF (R53). -/
def execEngage (p : Port) (a b : Word) (s : State) : Host.Outcome State Fault Refusal :=
  done (requestEnds p .engage a b 0 s)

/-- RELEASE_ENABLE, as `serveReleaseEnable` gives it to a request that passes the PIF (R51). -/
def execReleaseEnable (p : Port) (a b : Word) (s : State) : Host.Outcome State Fault Refusal :=
  done (requestEnds p .releaseEnable a b 0 s)

/-- RELEASE, as `serveRelease` gives it to a request that passes the PIF (R57). -/
def execRelease (p : Port) (a b : Word) (s : State) : Host.Outcome State Fault Refusal :=
  done (requestEnds p .release a b 0 s)

/-- ABORT_OP, as `serveAbortOp` gives it to a request that passes the PIF (R61). -/
def execAbortOp (p : Port) (a b : Word) (s : State) : Host.Outcome State Fault Refusal :=
  done (requestEnds p .abortOp a b 0 s)

/-- CONFIRM_FREE, as `serveConfirmFree` gives it to a request that passes the PIF (R23). -/
def execConfirmFree (p : Port) (a b : Word) (s : State) : Host.Outcome State Fault Refusal :=
  done (requestEnds p .confirmFree a b 0 s)

/-- DATUM, as `serveDatum` gives it to a request that passes the PIF (R121). -/
def execDatum (p : Port) (a b : Word) (s : State) : Host.Outcome State Fault Refusal :=
  done (requestEnds p .datum a b 0 s)

/-- OPEN_PILE, as `serveOpenPile` gives it to a request that passes the PIF (R123). -/
def execOpenPile (p : Port) (a b : Word) (s : State) : Host.Outcome State Fault Refusal :=
  done (requestEnds p .openPile a b 0 s)

/-- CLOSE_PILE, as `serveClosePile` gives it to a request that passes the PIF (R124). -/
def execClosePile (p : Port) (a b : Word) (s : State) : Host.Outcome State Fault Refusal :=
  done (requestEnds p .closePile a b 0 s)

/-- ZONE_WRITE, as `serveZoneWrite` gives it to a request that passes the PIF (R115). -/
def execZoneWrite (p : Port) (a b : Word) (s : State) : Host.Outcome State Fault Refusal :=
  done (requestEnds p .zoneWrite a b 0 s)

/-- GEOM_WRITE, as `serveGeomWrite` gives it to a request that passes the PIF (R161). -/
def execGeomWrite (p : Port) (a b : Word) (s : State) : Host.Outcome State Fault Refusal :=
  done (requestEnds p .geomWrite a b 0 s)

/-- STORE_ENABLE, as `serveStoreEnable` gives it to a request that passes the PIF (R162). -/
def execStoreEnable (p : Port) (a b : Word) (s : State) : Host.Outcome State Fault Refusal :=
  done (requestEnds p .storeEnable a b 0 s)

/-- STORE_COMMIT, as `serveStoreCommit` gives it to a request that passes the PIF (R163). -/
def execStoreCommit (p : Port) (a b : Word) (s : State) : Host.Outcome State Fault Refusal :=
  done (requestEnds p .storeCommit a b 0 s)

/-- CLEAR_FAULTS, as `serveClearFaults` gives it to a request that passes the PIF (R140). -/
def execClearFaults (p : Port) (a b : Word) (s : State) : Host.Outcome State Fault Refusal :=
  done (requestEnds p .clearFaults a b 0 s)

/-- RECORD_READ, with the bits shifted in during its extension, as `serveRecordRead` gives it (R157). -/
def execRecordRead (p : Port) (a b : Word) (extension : BitVec 160) (s : State) :
    Host.Outcome State Fault Refusal :=
  done (requestEnds p .recordRead a b extension s)

/-- BAD_CMD: a valid frame whose CMD names no command (R174). -/
def execBadCmd (p : Port) (cmd : Byte) (a b : Word) (s : State) : Host.Outcome State Fault Refusal :=
  done (selectRises p (takeRequest p ⟨cmd, a, b, false, .nothing⟩) s)

/-- A frame given by its clocks and request bits, judged (R170). -/
def judged (p : Port) (clocks : Nat) (bits : BitVec 56) (s : State) : State :=
  match frameCheck clocks bits with
  | some reason => rejectFrame p clocks reason s
  | none => takeRequest p ⟨requestCmd bits, requestA bits, requestB bits, false, s.brc.oldest⟩ s

/-- LINK_REJECT: the end of a frame that fails a check (R170). -/
def execLinkReject (p : Port) (clocks : Nat) (bits : BitVec 56) (s : State) :
    Host.Outcome State Fault Refusal :=
  done (selectRises p (judged p clocks bits) s)

/-- SELECT_FALL (R169). -/
def execSelectFall (p : Port) (s : State) : Host.Outcome State Fault Refusal := done (selectFalls p s)

/-- SHIFT_CLOCK (R169). -/
def execShiftClock (p : Port) (bit : Bool) (s : State) : Host.Outcome State Fault Refusal :=
  done (clockTaken p bit s)

/-- SELECT_TIMEOUT (R171). -/
def execSelectTimeout (p : Port) (s : State) : Host.Outcome State Fault Refusal := done (selectTimesOut p s)

end Sys2Proof.Machine
end

