-- ==== Sys2Proof/Machine/Resets.lean ====
section
/-! DEFINITION. The resets: POR, and the assertion and end of XRST (R25, R26, R67, R112, R146, R159, R165, R177). -/

namespace Sys2Proof.Machine

/-- Words a write had reached: the first `k` new, the next one torn, the others as they were (R165; entry
10). -/
def tornWords (k : Nat) (torn : Word) (new old : List Word) : List Word :=
  new.take k ++ torn :: old.drop (k + 1)

/-- The store a POR in the middle of a commit leaves: the 94 words are written in rising number, the CRC last
(R165, R181; entry 10). -/
def Store.cutOff (old new : Store) (k : Nat) (torn : Word) : Store :=
  let words := tornWords (k % 94) torn (new.data ++ [new.crc]) (old.data ++ [old.crc])
  ⟨words.take 93, words.getD 93 0⟩

/-- The store the next start-up reads (R165). -/
def State.storeAtPor (s : State) : Store :=
  if s.committing then
    s.gst.store.cutOff (.ofGeometry s.gst.staging) (Config.wordsWritten s.freeCount) (Config.tornWord s.freeCount)
  else s.gst.store

/-- A port as a reset leaves it; a select that is low waits for its rise and fall (R177; entry 11). -/
def PortState.reset (p : PortState) (restartX : Word) : PortState :=
  .start restartX (match p.frame with
    | .idle => .idle
    | .ignored | .shifting _ => .ignored)

/-- The PIF as a reset leaves it (R177). -/
def Pif.reset (f : Pif) (restartX : Word) : Pif :=
  ⟨f.cab.reset restartX, f.hoist.reset restartX, f.crowd.reset restartX, f.rotary.reset restartX⟩

/-- Every block as POR starts it from the store read, the first recomputation of the ENV made (R92, R165). The
queue and the index of the free values stay (entry 11). -/
def started (l : LineLevels) (s : State) : State :=
  let gst := Gst.start s.storeAtPor
  let t : State := { s with
    msu := .start l, stk := .start gst.active, phc := .start, znt := .start, env := .start, gru := .start
    fsv := .start, brc := .start, gst := gst, pif := s.pif.reset 1
    lines := ⟨l.estop, false, l.storeWp⟩, freeCount := s.freeCount + 1 }
  t.withEnv t.envelope

/-- ESTOP decided from its line as a reset ends (R146). -/
def decideEstop (s : State) : State := if s.lines.estop then estopRaised s else s

/-- POR (R165). -/
def execPor (l : LineLevels) (s : State) : Host.Outcome State Fault Refusal := done (decideEstop (started l s))

/-- The FSV as XRST leaves it: the table cleared with its pending values installed, the reaches empty, the stall
reference the present angle (R146; entry 17). -/
def Fsv.afterXrst (f : Fsv) (t : Settings) (angle : Count) : Fsv where
  table := f.table.map FaultEntry.afterXrst
  groupMode := f.pendingGroupMode.getD f.groupMode
  pendingGroupMode := none
  limitReach := .empty
  dropReach := .empty
  stallTimer := t.stallTime.toNat
  stallRef := angle
  warnings := f.warnings

/-- The STK's part of XRST: a cut-off release judged, then the accumulators cleared (R26). -/
def stkXrst (s : State) : State :=
  let s := if s.releaseCutOff then doubtLockedIfAny s else s
  s.withStk { s.stk with aF := 0, aR := 0, reverseRun := false }

/-- The assertion of XRST: the ports, the fault table, the XRST record, the operation cut off and what its
evaluation hands on, then the accumulators, the PHC, the GRU, the store enable latch and the MSU (R26, R67, R112,
R146, R159, R162, R177). The ENV does not recompute here, whatever the joint table, A_r and the phase become: it
recomputes once XRST ends (R72, R92; DEDUCED: entry 39). -/
def xrstAsserted (s : State) : State :=
  let old := s.stk
  let s := s.withLines { s.lines with xrst := true }
  let s := s.withPif (s.pif.reset 2)
  let s := s.withFsv (s.fsv.afterXrst s.gst.settings s.msu.angle)
  let s := stkXrst (askEvent .xrst s)
  let s := brcDepth old.bottomHole (zntReevaluate s)
  let s := (s.withPhc .start).withGru .start
  (s.withStoreEnable false).withMsu s.msu.afterXrst

/-- XRST_ASSERT; a line asserted already changes nothing (entry 7). -/
def execXrstAssert (s : State) : Host.Outcome State Fault Refusal :=
  if s.lines.xrst then done s else done (xrstAsserted s)

/-- The end of XRST: the MSU's timers, the stall window, the ZNT, the ENV, the warnings, then ESTOP (R39, R41,
R43, R92, R126, R146). -/
def xrstEnded (s : State) : State :=
  let s := s.withLines { s.lines with xrst := false }
  let s := startStallWindow (s.withMsu s.msu.xrstEnds)
  decideEstop (takeScanWarnings (recompute (zntReevaluate s)))

/-- XRST_END; a line not asserted changes nothing (entry 7). -/
def execXrstEnd (s : State) : Host.Outcome State Fault Refusal :=
  if s.lines.xrst then done (xrstEnded s) else done s

end Sys2Proof.Machine
end

