-- ==== Sys2Proof/Machine/Dispatch.lean ====
section
/-! DEFINITION. The dispatch of a command to its meaning, one arm per row of spec/opcode_table.json. -/

namespace Sys2Proof.Machine

def exec (i : Instr) (s : State) : Host.Outcome State Fault Refusal :=
  match i with
  | .por lines => Sys2Proof.Machine.execPor lines s
  | .xrstAssert => Sys2Proof.Machine.execXrstAssert s
  | .xrstEnd => Sys2Proof.Machine.execXrstEnd s
  | .estopAssert => Sys2Proof.Machine.execEstopAssert s
  | .estopRelease => Sys2Proof.Machine.execEstopRelease s
  | .positionCountChange encoder pair => Sys2Proof.Machine.execPositionCountChange encoder pair s
  | .angleCountChange pair => Sys2Proof.Machine.execAngleCountChange pair s
  | .scanCompletion readings => Sys2Proof.Machine.execScanCompletion readings s
  | .windowExpiry => Sys2Proof.Machine.execWindowExpiry s
  | .restTimerExpiry => Sys2Proof.Machine.execRestTimerExpiry s
  | .stallWindowExpiry => Sys2Proof.Machine.execStallWindowExpiry s
  | .opTimerExpiry => Sys2Proof.Machine.execOpTimerExpiry s
  | .grantExpired drive => Sys2Proof.Machine.execGrantExpired drive s
  | .commitCompletion => Sys2Proof.Machine.execCommitCompletion s
  | .selectFall port => Sys2Proof.Machine.execSelectFall port s
  | .selectTimeout port => Sys2Proof.Machine.execSelectTimeout port s
  | .linkReject port clocks bits => Sys2Proof.Machine.execLinkReject port clocks bits s
  | .badCmd port cmd a b => Sys2Proof.Machine.execBadCmd port cmd a b s
  | .nop port a b => Sys2Proof.Machine.execNop port a b s
  | .read port a b => Sys2Proof.Machine.execRead port a b s
  | .ackReset port a b => Sys2Proof.Machine.execAckReset port a b s
  | .demand port a b => Sys2Proof.Machine.execDemand port a b s
  | .set port a b => Sys2Proof.Machine.execSet port a b s
  | .settingsDefault port a b => Sys2Proof.Machine.execSettingsDefault port a b s
  | .phase port a b => Sys2Proof.Machine.execPhase port a b s
  | .engage port a b => Sys2Proof.Machine.execEngage port a b s
  | .releaseEnable port a b => Sys2Proof.Machine.execReleaseEnable port a b s
  | .release port a b => Sys2Proof.Machine.execRelease port a b s
  | .abortOp port a b => Sys2Proof.Machine.execAbortOp port a b s
  | .confirmFree port a b => Sys2Proof.Machine.execConfirmFree port a b s
  | .datum port a b => Sys2Proof.Machine.execDatum port a b s
  | .openPile port a b => Sys2Proof.Machine.execOpenPile port a b s
  | .closePile port a b => Sys2Proof.Machine.execClosePile port a b s
  | .zoneWrite port a b => Sys2Proof.Machine.execZoneWrite port a b s
  | .geomWrite port a b => Sys2Proof.Machine.execGeomWrite port a b s
  | .storeEnable port a b => Sys2Proof.Machine.execStoreEnable port a b s
  | .storeCommit port a b => Sys2Proof.Machine.execStoreCommit port a b s
  | .clearFaults port a b => Sys2Proof.Machine.execClearFaults port a b s
  | .recordRead port a b extension => Sys2Proof.Machine.execRecordRead port a b extension s
  | .shiftClock port bit => Sys2Proof.Machine.execShiftClock port bit s

end Sys2Proof.Machine
end

