-- ==== Sys2Proof/Machine/Tick.lean ====
section
/-! DEFINITION. The step of an empty queue: one millisecond passes, every timer that runs counts down by one, and
the timers that run out expire (entry 2). -/

namespace Sys2Proof.Machine

/-- The MSU's timers after a millisecond (R38, R42). -/
def Msu.tick (m : Msu) : Msu :=
  { m with windowTimer := m.windowTimer - 1, restTimer := m.restTimer.map fun n => n - 1 }

/-- A grant record after a millisecond (R106). -/
def Grant.tick (g : Grant) : Grant :=
  match g.state with
  | .active n => { g with state := .active (n - 1) }
  | .unacked | .neutralWait _ => g

/-- The GRU's lives after a millisecond (R106). -/
def Gru.tick (g : Gru) : Gru := { g with hoist := g.hoist.tick, crowd := g.crowd.tick, rotary := g.rotary.tick }

/-- A port after a millisecond (R171). -/
def PortState.tick (p : PortState) : PortState :=
  match p.frame with
  | .shifting f => { p with frame := .shifting { f with timer := f.timer - 1 } }
  | .idle | .ignored => p

/-- The PIF's select timers after a millisecond (R171). -/
def Pif.tick (f : Pif) : Pif := ⟨f.cab.tick, f.hoist.tick, f.crowd.tick, f.rotary.tick⟩

/-- The PHC's op timer after a millisecond (R46). -/
def Phc.tick (p : Phc) : Phc := { p with op := p.op.map fun o => { o with timer := o.timer - 1 } }

/-- Every running timer after a millisecond; the speed window, the rest timer and the stall window do not run
while XRST is asserted (R39, R43, R146). -/
def State.countDown (s : State) : State :=
  let xrst := s.lines.xrst
  { s with
    msu := if xrst then s.msu else s.msu.tick
    fsv := if xrst then s.fsv else { s.fsv with stallTimer := s.fsv.stallTimer - 1 }
    phc := s.phc.tick
    gru := s.gru.tick
    gst := { s.gst with commit := s.gst.commit.map fun n => n - 1 }
    pif := s.pif.tick }

/-- Whether a record's life has run out. -/
def Grant.lapsed (g : Grant) : Bool := g.state = .active 0

/-- Whether a port's select has been low for its 5 ms. -/
def PortState.lapsed (p : PortState) : Bool :=
  match p.frame with
  | .shifting f => f.timer = 0
  | .idle | .ignored => false

/-- The expiries due once the timers have counted down. -/
def State.due (s : State) : List Instr :=
  let xrst := s.lines.xrst
  (if !xrst && s.msu.windowTimer = 0 then [.windowExpiry] else []) ++
    (if !xrst && s.msu.restTimer = some 0 then [.restTimerExpiry] else []) ++
    (if !xrst && s.fsv.stallTimer = 0 then [.stallWindowExpiry] else []) ++
    (if s.phc.op.any fun o => o.timer = 0 then [.opTimerExpiry] else []) ++
    ([Drive.hoist, .crowd, .rotary].filter fun d => (s.grant d).lapsed).map .grantExpired ++
    (if s.gst.commit = some 0 then [.commitCompletion] else []) ++
    ([Port.cab, .hoist, .crowd, .rotary].filter fun p => (s.port p).lapsed).map .selectTimeout

/-- A list with an element put in at a place, at the end when the place is past it. -/
def insertAt {α : Type} (x : α) : Nat → List α → List α
  | 0, xs => x :: xs
  | _ + 1, [] => [x]
  | n + 1, y :: ys => y :: insertAt x n ys

/-- The expiries due in the order in which they are taken: each at a free place among those before it (entry
3). -/
def shuffle (slot : Nat → Nat) : List Instr → List Instr
  | [] => []
  | x :: xs => insertAt x (slot xs.length % (xs.length + 1)) (shuffle slot xs)

/-- A command's next state; the state itself if the command stopped, which none does. -/
def afterCommand (s : State) (i : Instr) : State :=
  match exec i s with
  | .next t => t
  | .fault _ => s
  | .refused _ => s

/-- One millisecond: the timers count down, the level of STORE_WP is a free value (entry 4), and the expiries due
are taken (entries 2, 3). -/
def tick (s : State) : State :=
  let free := s.freeCount
  let s := (s.countDown.useFree).withLines { s.lines with storeWp := Config.storeWpLevel free }
  (shuffle (Config.expirySlot free) s.due).foldl afterCommand s

end Sys2Proof.Machine
end

