-- ==== Sys2Proof/Safety.lean ====
section
/-! DEFINITION. The terms in which statements about the part are made: what a frame row meets, what a command
leaves as it was, and the invariants of a safe run. -/

namespace Sys2Proof.Machine

/-- The rise of select that a row stands for ends the row's own frame: XRST is released, and select is high or
low with no clock counted (R169, R170; entry 5). -/
def PortReady (p : Port) (s : State) : Prop :=
  s.lines.xrst = false ∧
    ((s.port p).frame = .idle ∨ ∃ f : Shift, (s.port p).frame = .shifting f ∧ f.clocks = 0)

/-- The port has acknowledged the last reset (R173). -/
def Acknowledged (p : Port) (s : State) : Prop := (s.port p).rst = false

/-- The state as a request taken on a port sees it: its frame ended, LINK clear (R170). -/
def State.frameEnded (s : State) (p : Port) : State := s.withPort p { (s.port p).released with link := false }

/-- A port once a valid frame on it has ended with an answer pending (R170, R172). -/
def PortState.ended (p : PortState) (a : Answer) : PortState :=
  { p with answer := a, link := false, frame := .idle, dataOut := none }

/-- The request was answered, and no port but its own changed at all. -/
def AnsweredAlone (p : Port) (a : Answer) (s t : State) : Prop :=
  t.pif = s.pif.withPort p ((s.port p).ended a)

/-- Two states of a port that differ in the pending answer at most (R104). -/
def SameButAnswer (old new : PortState) : Prop := { new with answer := old.answer } = old

/-- The request was answered, and on the other ports nothing but a pending answer changed (R104). -/
def Answered (p : Port) (a : Answer) (s t : State) : Prop :=
  t.port p = (s.port p).ended a ∧ ∀ q, q ≠ p → SameButAnswer (s.port q) (t.port q)

/-- On every port nothing but a pending answer changed (R104). -/
def OnlyAnswers (s t : State) : Prop := ∀ q, SameButAnswer (s.port q) (t.port q)

/-- The answer pending on a drive's port once its ACTIVE record has been moved to NEUTRAL_WAIT: NEUTRAL_REQUIRED with the
cause in X and Y = 2 where it answers a DEMAND taken in ACTIVE, or the one that led there, and no frame has begun; else it
stands. Nothing else of the port changes (R99, R104). -/
def AnswerWithdrawn (d : Drive) (cause : NeutralCause) (s t : State) : Prop :=
  let p := s.port d.port
  t.port d.port =
    if p.answer.rewritable && !p.inFrame then { p with answer := rewritableAnswer .neutralRequired cause.code 2 } else p

/-- The parts of the state a command may leave as they were. `grants` is the three grant records, without the
permit outputs; `faults` the FSV without its warnings. Permits and warnings follow the other parts (R109,
R145). `measured` is the measured quantities the envelope record holds, which a recomputation reads and a scan alone
forms (R37, R72): where a frame names `env` and not `measured`, the record is formed anew and they stand. In the same
way `zones` is the zone table, the session state and the pile number the ZNT holds, which a frame that names `znt` alone
keeps (R114, R122), and `stall` the stall window of the FSV, its reference and its timer (R132). -/
inductive Part where
  | msu | stk | phc | znt | zones | env | measured | grants | faults | stall | brc | gst | pif | lines
  deriving DecidableEq, Repr

/-- A part is as it was. -/
def Part.kept (s t : State) : Part → Prop
  | .msu => t.msu = s.msu
  | .stk => t.stk = s.stk
  | .phc => t.phc = s.phc
  | .znt => t.znt = s.znt
  | .zones => t.znt.zones = s.znt.zones ∧ t.znt.sessionOpen = s.znt.sessionOpen ∧ t.znt.pile = s.znt.pile
  | .env => t.env = s.env
  | .measured => t.env.measured = s.env.measured
  | .grants => t.gru.hoist = s.gru.hoist ∧ t.gru.crowd = s.gru.crowd ∧ t.gru.rotary = s.gru.rotary
  | .faults => { t.fsv with warnings := s.fsv.warnings } = s.fsv
  | .stall => t.fsv.stallRef = s.fsv.stallRef ∧ t.fsv.stallTimer = s.fsv.stallTimer
  | .brc => t.brc = s.brc
  | .gst => t.gst = s.gst
  | .pif => t.pif = s.pif
  | .lines => t.lines = s.lines

/-- Every part but those named is as it was, and the queue is. -/
def KeepsAllBut (changed : List Part) (s t : State) : Prop :=
  (∀ x : Part, x ∉ changed → x.kept s t) ∧ t.pending = s.pending

/-- The latches a cab frame clears (R52, R162), with nothing else of the PHC and the GST changed. -/
def LatchesCleared (s t : State) : Prop :=
  t.phc = { s.phc with releaseLatch := false } ∧ t.gst = { s.gst with storeEnable := false }

/-- A request on the cab port is its own frame's, and reaches its owner (R170, R174). -/
def CabReady (s : State) : Prop := PortReady .cab s ∧ Acknowledged .cab s

/-- A request on the cab port that changed nothing but its answer and the latches (R52, R162, R172). -/
def CabAnsweredOnly (a : Answer) (s t : State) : Prop :=
  AnsweredAlone .cab a s t ∧ LatchesCleared s t ∧ KeepsAllBut [.pif, .phc, .gst] s t

/-- A request on the cab port refused with a code and an X and Y the spec does not state (entry 12). -/
def CabRefusedOpen (code : Code) (s t : State) : Prop := ∃ x y, CabAnsweredOnly ⟨code, x, y, false⟩ s t

/-- Nothing of the PHC and the GST changed but the two latches. -/
def OnlyLatches (s t : State) : Prop :=
  { t.phc with releaseLatch := s.phc.releaseLatch } = s.phc ∧
    { t.gst with storeEnable := s.gst.storeEnable } = s.gst

/-- The grant records of the other drives are as they were. -/
def OtherGrantsKept (d : Drive) (s t : State) : Prop := ∀ e, e ≠ d → t.grant e = s.grant e

/-- The permit output of a drive (R109). -/
def Permits.of (o : Permits) : Drive → Bool
  | .hoist => o.hoist
  | .crowd => o.crowd
  | .rotary => o.rotary

/-- The table of R95: drive, B, the ceiling for that direction, and Y of the answer. -/
def demandTable (e : Envelope) : List (Drive × Word × Int × Int) :=
  [(.rotary, 0, e.grant.tFwd, e.grant.tFwd), (.rotary, 1, e.grant.tRev, e.grant.tRev),
   (.crowd, 0, e.grant.cDown, e.grant.pCdMax), (.crowd, 1, e.grant.cUp, e.grant.pCdMax),
   (.hoist, 0, e.grant.vPay, e.lCeil), (.hoist, 1, e.grant.vHaul, e.lCeil)]

/-- The codes PHASE may name in each phase (R49, second table). -/
def phaseTargets : Phase → List Nat
  | .parked => [0, 1, 5, 6]
  | .free => [0, 5, 6]
  | .engaging | .drill | .releasing => [0]
  | .hoist => [0, 1, 6]
  | .spinOff => [0, 1, 5]

/-- The numbers of the READ items that have no index, and of those that have one (R183). -/
def plainItems : List Nat :=
  [1, 2, 3, 4, 5, 17, 20, 21, 32, 33, 34, 35, 48, 49, 50, 51, 52, 53, 54, 55, 56, 58, 59, 69, 80, 81, 82, 98, 99,
   100, 101, 102, 103, 104, 112, 113, 114, 115, 116, 117, 118, 119, 131, 132, 133]

/-- The numbers of the READ items that have an index (R183). -/
def indexedItems : List Nat :=
  [6, 7, 16, 18, 19, 57, 64, 65, 66, 67, 68, 83, 96, 97, 128, 129, 130, 144, 145]

/-- The value X, Y of each READ item without an index (R183). A flag is 1 when set, an absent number
255. -/
def plainReads (s : State) : List (Nat × Int × Int) :=
  let op := s.phc.op
  let f := s.fsv
  let b := s.brc
  let status (g : Group) : Int :=
    flag (Source.all.any fun src => decide (src.group = g) && ((s.entry src).latched || (s.entry src).condition))
  let sources (test : FaultEntry → Bool) : Int :=
    (Source.all.map fun src => if test (s.entry src) then (2 : Int) ^ src.idx.val else 0).sum
  let drives (r : DriveSet) : Int := flag r.hoist + 2 * flag r.crowd + 4 * flag r.rotary
  let members (xs : List Nat) : Int := (xs.map fun i => (2 : Int) ^ i).sum
  let modelItems : List (Nat × Int × Int) :=
    [(1, depth10 s.stk.depth, s.stk.quality.code),
     (2, depth10 s.stk.bottomHole, 0),
     (3, depth10 (s.msu.ropeMm + s.stk.ropeOffset), depth10 (s.msu.strokeMm + s.stk.strokeOffset)),
     (4, max (-32768) (min 32767 s.stk.disagreement), flag (chainClosed s.stk.joints)),
     (5, s.stk.aF, s.stk.aR),
     (17, depth10 s.msu.ropeMm, depth10 s.msu.strokeMm),
     (20, s.msu.speed, flag s.msu.rest),
     (21, s.msu.markRef.toNat / 65536, s.msu.markRef.toNat % 65536),
     (32, s.phc.phase.code, if op.isSome then s.phc.phase.code else 0),
     (33, (op.map Operation.angle).getD 0, (op.map Operation.timer).getD 0),
     (34, (s.phc.target.map fun r => r.phase.code).getD 0, flag s.phc.releaseLatch),
     (35, flag s.phc.advanceArm, flag s.gst.settings.autoAdvance)]
  let envelopeItems : List (Nat × Int × Int) :=
    [(48, s.env.grant.tFwd, s.env.grant.tRev),
     (49, s.env.grant.cDown, s.env.grant.cUp),
     (50, s.env.grant.pRotMax, s.env.grant.pCdMax),
     (51, s.env.grant.vPay, s.env.grant.vHaul),
     (52, s.env.lMin, s.env.lCeil),
     (53, s.env.dr, flag s.env.supplyShort + 2 * flag s.env.budgetSpent),
     (54, max (-32768) (min 32767 s.env.measured.fC), s.env.measured.tMeas),
     (55, s.env.measured.lR, s.env.measured.theta),
     (56, max 0 (min 65535 s.env.wot), max 0 (min 65535 s.env.k)),
     (58, s.env.zT, s.env.zC),
     (59, s.env.zWot, s.env.zV)]
  let supervisionItems : List (Nat × Int × Int) :=
    [(69, flag s.gru.permits.hoist + 2 * flag s.gru.permits.crowd + 4 * flag s.gru.permits.rotary +
        8 * flag s.gru.permits.brakeRelease, 0),
     (80, flag s.znt.sessionOpen, s.znt.pile.toNat),
     (81, members s.znt.mask, members s.znt.combined),
     (82, numberOr255 (s.znt.combined.find? fun i => (s.znt.zone i).noUnlock), 0),
     (98, sources FaultEntry.condition, sources FaultEntry.latched),
     (99, sources fun e => e.override.isSome, 0),
     (100, drives f.limitReach, drives f.dropReach),
     (101, status .hst + 2 * status .crw + 4 * status .rot + 8 * status .str,
        flag f.warnings.supplyShort + 2 * flag f.warnings.depthQuality + 4 * flag f.warnings.fifoFull +
          8 * flag f.warnings.oilWarm + 16 * flag f.warnings.channelHolding),
     (102, f.groupMode.code, numberOr255 (f.pendingGroupMode.map GroupMode.code)),
     (103, f.stallTimer, 0),
     (104, f.stallRef.toNat / 65536, f.stallRef.toNat % 65536)]
  let recorderItems : List (Nat × Int × Int) :=
    [(112, b.fifo.length, (b.fifo.head?.map fun r => (r.seq.toNat : Int)).getD 65535),
     (113, b.seqCounter.toNat, flag b.gap.pending),
     (114, b.gap.count, 0),
     (115, depth10 b.gap.first, depth10 b.gap.last),
     (116, depth10 b.lastStep, depth10 b.nextStep),
     (117, b.acc.turns, b.turnDivider),
     (118, b.acc.tMax, b.acc.cMax),
     (119, b.acc.wotPeak, 0),
     (131, flag s.gst.storeCorrupt, flag s.gst.storeEnable),
     (132, flag s.gst.commit.isSome, s.gst.commit.getD 0),
     (133, flag s.lines.storeWp, s.gst.store.crc.toNat)]
  modelItems ++ envelopeItems ++ supervisionItems ++ recorderItems

/-- The value X, Y of each READ item with an index, at an index `k`; none where `k` is out of range (R183; the index
of a grant item is its port number: entry 22; of a setting: entry 23). Items 65, 66 and 130 apart, whose answer is
not a value at every index. -/
def indexedReads (s : State) (k : Nat) : List (Nat × Option (Int × Int)) :=
  let channel := [Channel.cd, .cu, .rp, .sp, .rl, .ot][k]?.map s.msu.channels.get
  let grant := (driveOfNumber k).map s.grant
  let source := Source.all[k]?.map s.entry
  let port := [Port.cab, .hoist, .crowd, .rotary][k]?.map s.port
  [(6, s.stk.joints[k]?.map fun j => match j.state with
      | .locked p => (0, p)
      | .free => (1, 255)
      | .uncertain => (2, 255)),
   (7, s.stk.joints[k]?.map fun j => (j.ext, numberOr255 j.aligned)),
   (16, [s.msu.rope, s.msu.stroke, s.msu.angle][k]?.map fun c => (c.toNat / 65536, c.toNat % 65536)),
   (18, channel.map fun c => (c.value, flag c.holding)),
   (19, channel.map fun c => (c.raw.toNat, c.railRun)),
   (57, [s.env.computed.tFwd, s.env.computed.tRev, s.env.computed.cDown, s.env.computed.cUp, s.env.computed.pRotMax,
      s.env.computed.pCdMax, s.env.computed.vPay, s.env.computed.vHaul][k]?.map fun c => (c, 0)),
   (64, grant.map fun g => match g.state with
      | .unacked => (0, 0)
      | .neutralWait c => (1, c.code)
      | .active _ => (2, 0)),
   (67, grant.map fun g => (g.reportedCeiling, match g.state with
      | .active life => life
      | .unacked | .neutralWait _ => 0)),
   (68, (driveOfNumber k).map fun d =>
      (flag (s.grant d).clamped + 2 * flag (s.grant d).blocked + 4 * flag (s.grant d).reduced + 8 * flag (s.grant d).hold,
        s.gst.settings.life d)),
   (83, s.znt.zones.toList[k / 256]?.bind fun z =>
      [flag z.valid, z.top, z.bottom, z.tCap, z.cCap, z.wotCap, z.vCap, z.flags.toNat][k % 256]?.map fun x =>
        (x, flag z.valid)),
   (96, source.map fun e => (flag e.condition + 2 * flag e.latched + 4 * flag e.override.isSome,
      (e.override.map fun o => (o.action.code + 16 * o.startMode.code : Int)).getD 0)),
   (97, source.map fun e => (e.mode.code + 16 * e.action.code,
      ((e.pendingMode.map Mode.code).getD 15 : Nat) + 16 * ((e.pendingAction.map Action.code).getD 15 : Nat))),
   (128, (SettingItem.ofNumber k).map fun
      | .value v => (s.gst.settings.get v, 255)
      | .groupMode => (s.fsv.groupMode.code, numberOr255 (s.fsv.pendingGroupMode.map GroupMode.code))
      | .mode src => ((s.entry src).mode.code, numberOr255 ((s.entry src).pendingMode.map Mode.code))
      | .action src => ((s.entry src).action.code, numberOr255 ((s.entry src).pendingAction.map Action.code))),
   (129, (GeomItem.ofNumber k).map fun i => (s.gst.staging.get i, 0)),
   (144, port.map fun p => (flag p.rst, flag p.link)),
   (145, port.map fun p => (p.lastReason, 0))]

/-- The outputs and levels stand as the state gives them, as every event leaves them (R109, R145). -/
def Settled (s : State) : Prop := settle s = s

/-- The state of the joints, in joint order (R4). -/
def State.jointStates (s : State) : List JointState := s.stk.joints.map Joint.state

/-- The row of a request, by its command; RECORD_READ with its extension bits. -/
def requestRow (c : Cmd) (p : Port) (a b : Word) (extension : BitVec 160) : Instr :=
  match c with
  | .nop => .nop p a b
  | .read => .read p a b
  | .ackReset => .ackReset p a b
  | .demand => .demand p a b
  | .set => .set p a b
  | .settingsDefault => .settingsDefault p a b
  | .phase => .phase p a b
  | .engage => .engage p a b
  | .releaseEnable => .releaseEnable p a b
  | .release => .release p a b
  | .abortOp => .abortOp p a b
  | .confirmFree => .confirmFree p a b
  | .datum => .datum p a b
  | .openPile => .openPile p a b
  | .closePile => .closePile p a b
  | .zoneWrite => .zoneWrite p a b
  | .geomWrite => .geomWrite p a b
  | .storeEnable => .storeEnable p a b
  | .storeCommit => .storeCommit p a b
  | .clearFaults => .clearFaults p a b
  | .recordRead => .recordRead p a b extension

/-- Commands taken one after the other, stopping at the first that stops. -/
def runs : List Instr → State → Host.Outcome State Fault Refusal
  | [], s => .next s
  | c :: cs, s =>
    match exec c s with
    | .next t => runs cs t
    | .fault e => .fault e
    | .refused e => .refused e

/-- The rows that clock bits into a port from a fall of select on (R169). -/
def clockIn (p : Port) (bits : List Bool) : List Instr := .selectFall p :: bits.map (.shiftClock p)

/-- The 56 bits of a frame in the order they are sent (R178). -/
def sentBits (frame : BitVec 56) : List Bool := (List.range 56).map fun i => frame.getMsbD i

/-- The rows that are the rise of select on a port (R170; entry 5). -/
def endsFrame (p : Port) (i : Instr) : Prop :=
  (∃ c a b extension, i = requestRow c p a b extension) ∨ (∃ cmd a b, i = .badCmd p cmd a b) ∨
    ∃ clocks bits, i = .linkReject p clocks bits

/-- The PHC after its evaluation in HOIST with the string model `k` and the settings `t`: the advance arm updated, and
the phase moved to SPIN_OFF where every condition holds; without an evaluation, outside HOIST and in a quality other
than VALID it stands (R65, R66). -/
def advancedPhc (t : Settings) (k : Stk) (evaluated : Bool) (p : Phc) : Phc :=
  if p.phase = .hoist ∧ k.quality = .valid ∧ evaluated then
    let arm := p.advanceArm || decide (t.spinOffLevel < k.depth)
    if t.autoAdvance ∧ arm ∧ k.depth ≤ t.spinOffLevel ∧ (∀ j ∈ k.joints, j.state = .free) then
      ⟨.spinOff, none, none, false, false⟩
    else { p with advanceArm := arm }
  else p

/-- Whether D, the quality or the joint table differ (R65). -/
def modelMoved (old new : Stk) : Bool :=
  decide (new.depth ≠ old.depth ∨ new.quality ≠ old.quality ∨ new.joints ≠ old.joints)

/-- The sources whose condition became present between two states, in rising number (R134). -/
def newlyPresent (s t : State) : List Source :=
  Source.all.filter fun src => (t.entry src).condition && !(s.entry src).condition

/-- The EVENT records that follow the STK's own in an event from `s` to `t`, asked for at the tool depth of `t`: ZONE_EXIT
for the MARK entries that left the mask, ZONE_ENTER for those that joined it, FAULT_RAISED for the sources raised, the
PHASE_CHANGE of a phase that moved (R120, R134, R150, R151; entry 15). -/
def Brc.eventsAsked (b : Brc) (s t : State) (raised : List Source) : Brc :=
  let marked (j : Nat) := (s.znt.zone j).flags.getLsbD 2
  let left := s.znt.mask.filter fun j => marked j && !t.znt.mask.contains j
  let entered := t.znt.mask.filter fun j => marked j && !s.znt.mask.contains j
  let moved := if t.phc.phase = s.phc.phase then [] else [EventDetail.phaseChange s.phc.phase t.phc.phase]
  let events : List EventDetail := left.map .zoneExit ++ entered.map .zoneEnter ++ raised.map .faultRaised ++ moved
  events.foldl (fun b d => b.ask s.znt.sessionOpen t.stk.depth t.stk.depth (.event d)) b

/-- The STEP record of an event from `s` to `t` that advanced bottom-hole depth to the next step boundary or beyond it, from
the last boundary to the deepest one reached, with the accumulators, which are then 0 (R153). -/
def Brc.stepAsked (b : Brc) (s t : State) : Brc :=
  let step := t.gst.settings.recordStep
  let reached := step * t.stk.bottomHole.fdiv step
  if s.znt.sessionOpen ∧ s.stk.bottomHole < t.stk.bottomHole ∧ b.nextStep ≤ t.stk.bottomHole then
    { b.ask true b.lastStep reached (.step b.acc) with
      acc := ⟨0, 0, 0, 0⟩, turnDivider := 0, lastStep := reached, nextStep := reached + step }
  else b

/-- The records and accumulators of a turn mark: it counts into turns and, in DRILL, into the turn divider, and D_turn marks,
where D_turn is not 0, form a TURN record at bottom-hole depth `d` (R152, R154). -/
def Brc.turnAsked (b : Brc) (drilling : Bool) (dTurn d : Int) : Brc :=
  let acc := { b.acc with turns := min 255 (b.acc.turns + 1) }
  let divider := min 64 (b.turnDivider + 1)
  if drilling = false then { b with acc := acc }
  else if 0 < dTurn ∧ dTurn ≤ divider then
    { b.ask true d d (.turn acc) with acc := ⟨0, 0, 0, 0⟩, turnDivider := 0 }
  else { b with acc := acc, turnDivider := divider }

/-- The events that are boundaries: a scan completion while the head is at rest, and an angle count that stands a
revolution from the mark reference; neither while XRST is asserted (R40, R44, R146). -/
def TakesBoundary (i : Instr) (s : State) : Prop :=
  s.lines.xrst = false ∧
    ((∃ r, i = .scanCompletion r ∧ s.msu.rest = true) ∨
      ∃ pair forward, i = .angleCountChange pair ∧ decodeCount s.msu.angleRef pair = some forward ∧
        1440 ≤ |((if forward then s.msu.angle + 1 else s.msu.angle - 1) - s.msu.markRef).toInt|)

/-- The operation, its timer and the release target are present exactly in the phases that have them, and the
advance arm is set only in HOIST (R46, R65). -/
structure PhaseInv (s : State) : Prop where
  operation : s.phc.op.isSome ↔ s.phc.phase = .engaging ∨ s.phc.phase = .releasing
  target : s.phc.target.isSome ↔ s.phc.phase = .releasing
  arm : s.phc.advanceArm = true → s.phc.phase = .hoist

/-- Without an active geometry the part is PARKED with no session, no joints and no depth, and STORE_CORRUPT tells
so; a commit in flight finds the phase PARKED and the session CLOSED (R3, R68, R164, R165). -/
structure ParkedInv (s : State) : Prop where
  phases : PhaseInv s
  corrupt : s.gst.storeCorrupt = s.gst.active.isNone
  noGeometry : s.gst.active = none →
    s.phc.phase = .parked ∧ s.znt.sessionOpen = false ∧ s.stk.joints = [] ∧ s.stk.quality = .none ∧
      s.stk.depth = 0
  commit : s.gst.commit.isSome → s.phc.phase = .parked ∧ s.znt.sessionOpen = false

/-- The release latch and the store enable latch are not set together (R162). -/
def LatchInv (s : State) : Prop := ¬(s.phc.releaseLatch = true ∧ s.gst.storeEnable = true)

/-- Every ceiling and cap lies between 0 and 65 535 (R91). -/
structure Ceilings.InRange (c : Ceilings) : Prop where
  tFwd : 0 ≤ c.tFwd ∧ c.tFwd ≤ 65535
  tRev : 0 ≤ c.tRev ∧ c.tRev ≤ 65535
  cDown : 0 ≤ c.cDown ∧ c.cDown ≤ 65535
  cUp : 0 ≤ c.cUp ∧ c.cUp ≤ 65535
  pRotMax : 0 ≤ c.pRotMax ∧ c.pRotMax ≤ 65535
  pCdMax : 0 ≤ c.pCdMax ∧ c.pCdMax ≤ 65535
  vPay : 0 ≤ c.vPay ∧ c.vPay ≤ 65535
  vHaul : 0 ≤ c.vHaul ∧ c.vHaul ≤ 65535

/-- Every grant is within the envelope, 0 outside ACTIVE, and RST is set exactly while the record is UNACKED
(R91, R94, R96, R103). -/
structure GrantInv (s : State) : Prop where
  envelope : s.env.grant.InRange
  within : ∀ d, |(s.grant d).granted| ≤ s.env.grant.bound d (isReverse (s.grant d).granted)
  inactive : ∀ d, (s.grant d).isActive = false → (s.grant d).granted = 0
  rst : ∀ d, (s.port d.port).rst = true ↔ (s.grant d).state = .unacked

/-- Whether an override with an action, of a source whose group reaches a drive, is in force (R129, R135). -/
def State.reached (s : State) (action : OverrideAction) (d : Drive) : Prop :=
  ∃ src ∈ Source.all, ∃ o, (s.entry src).override = some o ∧ o.action = action ∧
    (src.group.reach s.fsv.groupMode).has d = true

/-- Whether the override of a source in force is a DROP that began LATCHED and reaches a drive (R111). -/
def State.holdsBack (s : State) (src : Source) (d : Drive) : Prop :=
  (s.entry src).override = some ⟨.drop, .latched⟩ ∧ (src.group.reach s.fsv.groupMode).has d = true

/-- A DROP that begins LATCHED newly reaches a drive in an event from `s` to `t`: it is in force after it and was not
before, or did not reach the drive before; or, at a boundary, which may end it again, a source was raised whose action is
DROP and whose mode is LATCHED (R111, R134, R136). -/
def DropBegins (i : Instr) (s t : State) (d : Drive) : Prop :=
  ∃ src : Source, (t.holdsBack src d ∧
      ((s.entry src).override = none ∨ (src.group.reach s.fsv.groupMode).has d = false)) ∨
    (TakesBoundary i s ∧ (s.entry src).override = none ∧ (s.entry src).action = .drop ∧
      (s.entry src).mode = .latched ∧ (src.group.reach s.fsv.groupMode).has d = true ∧ (t.entry src).latched = true)

/-- The reaches are those of the overrides in force, a neutral hold is set exactly while a DROP that began LATCHED
reaches its drive, and a permit is high exactly while its record is ACTIVE, the phase is not PARKED and no DROP override
reaches its drive; BRAKE_RELEASE follows HOIST_PERMIT (R94, R109 to R111, R129). -/
structure PermitInv (s : State) : Prop where
  limits : ∀ d, s.fsv.limitReach.has d = true ↔ s.reached .limit d
  drops : ∀ d, s.fsv.dropReach.has d = true ↔ s.reached .drop d
  holds : ∀ d, (s.grant d).hold = true ↔ ∃ src, s.holdsBack src d
  hoist : s.gru.permits.hoist = true ↔
    (s.grant .hoist).isActive = true ∧ s.phc.phase ≠ .parked ∧ ¬s.reached .drop .hoist
  crowd : s.gru.permits.crowd = true ↔
    (s.grant .crowd).isActive = true ∧ s.phc.phase ≠ .parked ∧ ¬s.reached .drop .crowd
  rotary : s.gru.permits.rotary = true ↔
    (s.grant .rotary).isActive = true ∧ s.phc.phase ≠ .parked ∧ ¬s.reached .drop .rotary
  brake : s.gru.permits.brakeRelease = s.gru.permits.hoist

/-- ESTOP is LATCHED and DROP with nothing pending, always (R128, R141). -/
def EstopFixed (s : State) : Prop :=
  (s.entry .estop).mode = .latched ∧ (s.entry .estop).action = .drop ∧
    (s.entry .estop).pendingMode = none ∧ (s.entry .estop).pendingAction = none

/-- The step accumulators lie in the ranges of R152. -/
def Accumulators.InRange (a : Accumulators) : Prop :=
  a.turns ≤ 255 ∧ (0 ≤ a.tMax ∧ a.tMax ≤ 65535) ∧ (0 ≤ a.cMax ∧ a.cMax ≤ 65535) ∧ (0 ≤ a.wotPeak ∧ a.wotPeak ≤ 65535)

/-- The sequence numbers run consecutively up to the counter (R148, R149). -/
def Consecutive (fifo : List Record) (counter : Word) : Prop :=
  ∀ i r, fifo[i]? = some r → r.seq = counter - BitVec.ofNat 16 (fifo.length - i)

/-- The FIFO holds at most 512 records, numbered consecutively, none of kind NONE; a gap is pending only while
the session is OPEN (R123, R148, R149). -/
structure RecordInv (s : State) : Prop where
  size : s.brc.fifo.length ≤ 512
  numbers : Consecutive s.brc.fifo s.brc.seqCounter
  kinds : ∀ r ∈ s.brc.fifo, r.body ≠ .none
  gap : s.brc.gap.pending = true → s.znt.sessionOpen = true

/-- Every item of a geometry record lies in its range (R1, R161). -/
def Geometry.InRange (g : Geometry) : Prop := ∀ i ∈ GeomItem.all, i.range.1 ≤ g.get i ∧ g.get i ≤ i.range.2

/-- A joint agrees with its geometry: its extension lies between 0 and its maximum, its aligned pocket is the one
that captures its extension, and while LOCKED it stands at the pocket named (R4, R5). -/
structure Joint.Agrees (j : Joint) (g : JointGeometry) : Prop where
  range : 0 ≤ j.ext ∧ j.ext ≤ g.eMax
  aligned : j.aligned = g.aligned j.ext
  locked : ∀ p, j.state = .locked p → g.pockets[p]? = some j.ext

/-- A joint agrees with its geometry where the pocket list meets the constraints of R2. -/
def Joint.AgreesIfSound (j : Joint) (g : JointGeometry) : Prop :=
  g.brokenFrom none 0 g.pockets = none → j.Agrees g

/-- The joint table has one entry for each joint of the active geometry, in agreement with it, and every geometry
the part holds has its items in range (R1, R4, R161). -/
structure TableInv (s : State) : Prop where
  staging : s.gst.staging.InRange
  active : ∀ g, s.gst.active = some g → g.InRange
  table : List.Forall₂ Joint.AgreesIfSound s.stk.joints s.jointGeometry

/-- Outside XRST the envelope record is the function of its inputs the stages give (R72; from the assertion of XRST on the
record stands: entry 39). -/
def EnvelopeInv (s : State) : Prop := s.lines.xrst = false → s.env = s.envelope

/-- A zone entry as a ZONE_WRITE can leave it: every field in its range, valid only with its top above its bottom
(R114 to R116). -/
structure Zone.Sound (z : Zone) : Prop where
  top : -2000 ≤ z.top ∧ z.top ≤ 15000
  bottom : -2000 ≤ z.bottom ∧ z.bottom ≤ 15000
  caps : (0 ≤ z.tCap ∧ z.tCap ≤ 65535) ∧ (0 ≤ z.cCap ∧ z.cCap ≤ 65535) ∧ (0 ≤ z.wotCap ∧ z.wotCap ≤ 65535)
  speed : (0 ≤ z.vCap ∧ z.vCap ≤ 5000) ∨ z.vCap = 65535
  valid : z.valid = true → z.top < z.bottom

/-- The containment mask, the combined set and the limits are those of the table at the depth and quality the STK
holds, and every entry is one a ZONE_WRITE can leave (R115 to R119). -/
structure ZoneInv (s : State) : Prop where
  mask : s.znt.mask = s.znt.containing s.stk.depth
  combined : s.znt.combined = s.znt.combinedSet s.stk.quality s.stk.depth
  limits : s.znt.limits = s.znt.combine s.znt.combined
  entries : ∀ i : Fin 8, (s.znt.zones[i]).Sound

/-- The depth quality and the tool depth are those of the table of R10 for the datum, the rope and the joints as they
stand. -/
structure DepthInv (s : State) : Prop where
  none : s.gst.active = none ∨ s.stk.datumSet = false → s.stk.quality = .none ∧ s.stk.depth = 0
  valid : ∀ g, s.gst.active = some g → s.stk.datumSet = true → s.stk.taut = true →
    s.stk.quality = .valid ∧ s.stk.depth = s.pRope
  strokeOnly : ∀ g, s.gst.active = some g → s.stk.datumSet = true → s.stk.taut = false →
    chainClosed s.stk.joints = true →
    s.stk.quality = .strokeOnly ∧ s.stk.depth = s.headPos + g.lCl + extSum s.stk.joints
  held : ∀ g, s.gst.active = some g → s.stk.datumSet = true → s.stk.taut = false →
    chainClosed s.stk.joints = false → s.stk.quality = .held ∧ s.stk.depth = s.stk.heldDepth

/-- What an evaluation leaves in an event from `s` to `t`, from the string model `k` that it meets (the joints as the
rules have made them, the datum, the offsets, the tautness and the accumulators as decided): the quality and D are those of
R10 and no joint changes its state; in VALID the LOCKED joints stand, and outside it the extensions and the disagreement
(R12 to R14); the held value of D follows D while the depth is trusted; bottom-hole depth advances to a deeper D with the
session OPEN and the depth trusted, and stands otherwise (R24); nothing else of the string model changes. -/
structure Evaluated (k : Stk) (s t : State) : Prop where
  rest : { t.stk with
      joints := k.joints, quality := k.quality, depth := k.depth, heldDepth := k.heldDepth
      disagreement := k.disagreement, bottomHole := k.bottomHole } = k
  depth : DepthInv t
  states : t.jointStates = k.joints.map Joint.state
  lockedStand : ∀ (j : Nat) (x : Joint), k.joints[j]? = some x → x.isLocked = true → t.stk.joints[j]? = some x
  outside : t.stk.quality ≠ .valid → t.stk.joints = k.joints ∧ t.stk.disagreement = k.disagreement
  held : t.stk.heldDepth =
    if t.stk.quality = .valid ∨ t.stk.quality = .strokeOnly then t.stk.depth else k.heldDepth
  bottomHole : t.stk.bottomHole =
    if s.znt.sessionOpen = true ∧ (t.stk.quality = .valid ∨ t.stk.quality = .strokeOnly) then
      max k.bottomHole t.stk.depth
    else k.bottomHole

/-- DEPTH_DISAGREE as an evaluation of the STK decides it: present where the disagreement is greater than the depth
tolerance, latched where it became present; while XRST is asserted it is not decided (R14, R133, R134, R146). -/
def DisagreementDecided (s t : State) : Prop :=
  (t.entry .depthDisagree).condition = (if s.lines.xrst then (s.entry .depthDisagree).condition
    else decide (t.gst.settings.depthTolerance < |t.stk.disagreement|)) ∧
  ((s.entry .depthDisagree).condition = false → (t.entry .depthDisagree).condition = true →
    (t.entry .depthDisagree).latched = true)

/-- No entry of the fault table changed but that of DEPTH_DISAGREE. -/
def OnlyDisagreement (s t : State) : Prop := ∀ src, src ≠ .depthDisagree → t.entry src = s.entry src

/-- In VALID the joints hold what was measured, but for the disagreement: the extensions and the disagreement add up
to P_rope - H - L_cl (R13, R14). -/
def Conserved (s : State) : Prop :=
  ∀ g, s.gst.active = some g → s.stk.quality = .valid →
    extSum s.stk.joints + s.stk.disagreement = s.pRope - s.headPos - g.lCl

/-- What a fill of `r` places: `r` clamped to 0 and the sum of the maxima of the non-locked joints (R13, step 3). -/
def fillTaken (js : List Joint) (gs : List JointGeometry) (r : Int) : Int := max 0 (min (freeMax js gs) r)

/-- The non-locked joints hold `r` as the fill of R13 places it, from the innermost outward: every one takes what the
non-locked joints inside it leave, up to its own maximum. -/
def Filled (js : List Joint) (gs : List JointGeometry) (r : Int) : Prop :=
  ∀ (j : Nat) (x : Joint) (y : JointGeometry), js[j]? = some x → gs[j]? = some y → x.isLocked = false →
    x.ext = max 0 (min y.eMax (fillTaken js gs r - freeMax (js.drop (j + 1)) (gs.drop (j + 1))))

/-- In VALID the joints hold what the measured extension leaves beside the locked extensions as R13 fills them, and the
disagreement is what the clamp takes away (R13, R14). -/
def Distributed (s : State) : Prop :=
  ∀ g, s.gst.active = some g → s.stk.quality = .valid →
    let r := s.pRope - s.headPos - g.lCl - lockedSum s.stk.joints
    s.stk.disagreement = r - fillTaken s.stk.joints g.joints r ∧ Filled s.stk.joints g.joints r

/-- Warnings 0 to 2 stand as their causes do: the envelope's SUPPLY_SHORT, a quality other than VALID, 512 records held
(R145). -/
structure WarningsInv (s : State) : Prop where
  supplyShort : s.fsv.warnings.supplyShort = s.env.supplyShort
  depthQuality : s.fsv.warnings.depthQuality = true ↔ s.stk.quality ≠ .valid
  fifoFull : s.fsv.warnings.fifoFull = true ↔ s.brc.fifo.length = 512

/-- Every setting lies in its range, and the reverse margin below the unlock angle (R166). -/
structure SettingsInv (s : State) : Prop where
  range : ∀ v ∈ Setting.all, v.range.1 ≤ s.gst.settings.get v ∧ s.gst.settings.get v ≤ v.range.2
  margin : s.gst.settings.reverseMargin < s.gst.settings.unlockAngle

end Sys2Proof.Machine
end

