-- ==== Sys2Proof/WellFormed.lean ====
section
/-! DEFINITION. Which terms of `Instr` are commands the part can meet. The types bound every operand but
three: the content of a LINK_REJECT, the code of a BAD_CMD, and the new state of an encoder pair, which the
present state decides and not the syntax. -/

namespace Sys2Proof

/-- The bits received fit the clocks counted: at most the first 56 (R170). -/
def bitsFit (clocks : Nat) (bits : BitVec 56) : Bool := bits.toNat < 2 ^ min clocks 56

/-- A LINK_REJECT carries a frame that fails a check (R170), a BAD_CMD a code of no command (R174). -/
def Instr.wellFormed : Instr → Bool
  | .linkReject _ clocks bits => bitsFit clocks bits && (frameCheck clocks bits).isSome
  | .badCmd _ cmd _ _ => (Cmd.ofCode cmd).isNone
  | .por _ | .xrstAssert | .xrstEnd | .estopAssert | .estopRelease => true
  | .positionCountChange _ _ | .angleCountChange _ | .scanCompletion _ => true
  | .windowExpiry | .restTimerExpiry | .stallWindowExpiry | .opTimerExpiry => true
  | .grantExpired _ | .commitCompletion | .selectFall _ | .selectTimeout _ => true
  | .nop _ _ _ | .read _ _ _ | .ackReset _ _ _ | .demand _ _ _ | .set _ _ _ => true
  | .settingsDefault _ _ _ | .phase _ _ _ | .engage _ _ _ | .releaseEnable _ _ _ => true
  | .release _ _ _ | .abortOp _ _ _ | .confirmFree _ _ _ | .datum _ _ _ => true
  | .openPile _ _ _ | .closePile _ _ _ | .zoneWrite _ _ _ | .geomWrite _ _ _ => true
  | .storeEnable _ _ _ | .storeCommit _ _ _ | .clearFaults _ _ _ => true
  | .recordRead _ _ _ _ | .shiftClock _ _ => true

end Sys2Proof
end

