-- ==== Sys2Proof/Certificates/Slice0/Obligations.lean ====
section
/-! DEFINITION. The statements about the KC540 for the provers. The vocabulary (PortReady, AnsweredAlone, KeepsAllBut,
the invariants, Evaluated) is that of Sys2Proof/Safety.lean. In every frame, permit outputs and warnings are left out: they are
levels that follow the other parts (R109, R145), stated on their own. -/

open Sys2Proof Sys2Proof.Machine

/-! ## The machine -/

/-- A step takes the command at the front of the queue and runs `exec` on the state with the rest of it; on an empty
queue a millisecond passes (the model's queue and tick: entries 1 and 2). -/
def Obligations.StepTakesTheFrontCommand : Prop :=
  (∀ (s : State) (c : Instr) (rest : List Instr), s.pending = c :: rest → step s = exec c (s.withPending rest)) ∧
    ∀ s : State, s.pending = [] → step s = .next (tick s)

/-- No command stops the part, in any state: one whose event cannot occur in the state it meets is answered too (the
model's choice: entry 7). None, POR included, touches the queue of the commands that wait (the queue is the model's own:
entries 1 and 11). -/
def Obligations.EveryCommandAnswersANextState : Prop :=
  ∀ (i : Instr) (s : State), ∃ t, exec i s = .next t ∧ t.pending = s.pending

/-- A step on an empty queue is a millisecond (the model's tick: entry 2): every running timer counts down by one and the
level of STORE_WP is free (entry 4); the speed window, the rest timer and the stall window do not run while XRST is
asserted (R39, R43, R146), the others do (R46, R106, R164, R171). Then the expiry row of every timer that has run out is
taken, each once, in some order (entry 3); with none the millisecond does nothing else. -/
def Obligations.AMillisecondRunsTheTimers : Prop :=
  ∀ s : State, s.pending = [] → ∃ (m t : State) (order : List Instr), step s = .next t ∧ runs order m = .next t ∧
    m.msu = (if s.lines.xrst then s.msu else
      { s.msu with windowTimer := s.msu.windowTimer - 1, restTimer := s.msu.restTimer.map fun n => n - 1 }) ∧
    m.fsv = (if s.lines.xrst then s.fsv else { s.fsv with stallTimer := s.fsv.stallTimer - 1 }) ∧
    m.phc = { s.phc with op := s.phc.op.map fun o => { o with timer := o.timer - 1 } } ∧
    m.gst = { s.gst with commit := s.gst.commit.map fun n => n - 1 } ∧
    (∀ d n, (s.grant d).state = .active n → m.grant d = { s.grant d with state := .active (n - 1) }) ∧
    (∀ d, (s.grant d).isActive = false → m.grant d = s.grant d) ∧
    (∀ p f, (s.port p).frame = .shifting f →
      m.port p = { s.port p with frame := .shifting { f with timer := f.timer - 1 } }) ∧
    (∀ p, (s.port p).inFrame = false → m.port p = s.port p) ∧
    m.lines = { s.lines with storeWp := m.lines.storeWp } ∧ m.gru.permits = s.gru.permits ∧
    KeepsAllBut [.msu, .faults, .stall, .phc, .gst, .grants, .pif, .lines] s m ∧
    order.Nodup ∧ ∀ i, i ∈ order ↔
      (s.lines.xrst = false ∧
        ((i = .windowExpiry ∧ s.msu.windowTimer ≤ 1) ∨ (i = .restTimerExpiry ∧ ∃ n ≤ 1, s.msu.restTimer = some n) ∨
          (i = .stallWindowExpiry ∧ s.fsv.stallTimer ≤ 1))) ∨
      (i = .opTimerExpiry ∧ ∃ o, s.phc.op = some o ∧ o.timer ≤ 1) ∨
      (∃ d, ∃ life ≤ 1, i = .grantExpired d ∧ (s.grant d).state = .active life) ∨
      (i = .commitCompletion ∧ ∃ n ≤ 1, s.gst.commit = some n) ∨
      ∃ p f, i = .selectTimeout p ∧ (s.port p).frame = .shifting f ∧ f.timer ≤ 1

/-- The machine right after POR, with the store as entry 8 says and the lines as entry 9 says, so that every select is high
and every frame idle (the model's choice): counters, channels and speed at 0 (R31, R35, R39),
PARKED with nothing in flight (R46), no table and quality NONE (R3, R25), no valid zone and no session (R114, R126),
the zeroed envelope (R74), every record UNACKED with the permits low (R94, R112), the fault table of R146, an empty
FIFO (R159), the default settings (R166) and RESTART pending on every port (R172, R177). -/
def Obligations.ResetLeavesTheStartUpState : Prop :=
  let s := State.reset
  (s.msu.rope = 0 ∧ s.msu.stroke = 0 ∧ s.msu.angle = 0 ∧ s.msu.speed = 0 ∧ s.msu.rest = false ∧
    s.msu.windowTimer = 100 ∧ s.msu.restTimer = some 200 ∧ ∀ c, s.msu.channels.get c = ⟨0, 0, 0, 0, false⟩) ∧
  s.phc = ⟨.parked, none, none, false, false⟩ ∧
  (s.gst.active = none ∧ s.gst.storeCorrupt = true ∧ s.gst.storeEnable = false ∧ s.gst.commit = none ∧
    s.gst.settings = Settings.default) ∧
  (s.stk.joints = [] ∧ s.stk.quality = .none ∧ s.stk.depth = 0 ∧ s.stk.aF = 0 ∧ s.stk.aR = 0) ∧
  ((∀ i : Fin 8, s.znt.zones[i] = ⟨false, 0, 0, 65535, 65535, 65535, 65535, 0⟩) ∧ s.znt.sessionOpen = false ∧
    s.znt.pile = 0) ∧
  (s.env.grant = Ceilings.zero ∧ s.env.computed = Ceilings.zero ∧ s.env.lMin = 0 ∧ s.env.lCeil = 0 ∧ s.env.dr = 100 ∧
    s.env.measured = ⟨0, 0, 0, 0⟩ ∧ s.env.wot = 0 ∧ s.env.k = 0 ∧ s.env.supplyShort = false ∧
    s.env.budgetSpent = false) ∧
  ((∀ d, s.grant d = ⟨.unacked, 0, 0, 0, false, false, false, false⟩) ∧ s.gru.permits = Permits.low) ∧
  ((∀ src, s.entry src = ⟨false, false, src.defaultMode, src.defaultAction, none, none, none⟩) ∧
    s.fsv.groupMode = .isolate ∧ s.fsv.warnings = ⟨false, true, false, false, false⟩) ∧
  (s.brc.fifo = [] ∧ s.brc.seqCounter = 0 ∧ s.brc.gap.pending = false) ∧
  (∀ p, s.port p = ⟨⟨.restart, 1, 0, false⟩, true, false, 0, .idle, none⟩) ∧ s.pending = []

/-- The invariants hold right after reset. -/
def Obligations.InvariantsHoldAtReset : Prop :=
  ParkedInv .reset ∧ LatchInv .reset ∧ GrantInv .reset ∧ PermitInv .reset ∧ EstopFixed .reset ∧ RecordInv .reset ∧
    TableInv .reset ∧ EnvelopeInv .reset ∧ ZoneInv .reset ∧ DepthInv .reset ∧ Conserved .reset ∧ Distributed .reset ∧
    WarningsInv .reset ∧ SettingsInv .reset

/-! ## Requests of every port -/

/-- NOP is answered OK with the port number on every port and in every state, and changes nothing beyond its port's
answer and LINK; ACK_RESET on the cab port clears RST, answered OK with X = 1, or 0 where RST was clear, and is
refused BAD_ARG with A or B other than 0 (R175). Like every cab frame that is neither READ nor NOP it clears the two
latches (R52, R162). -/
def Obligations.NopAndCabAcknowledgement : Prop :=
  (∀ (p : Port) (a b : Word) (s : State), PortReady p s → ∃ t, exec (.nop p a b) s = .next t ∧
    AnsweredAlone p (answer .ok p.number 0) s t ∧ KeepsAllBut [.pif] s t ∧
    (Settled s → t.gru = s.gru ∧ t.fsv = s.fsv)) ∧
  ∀ (a b : Word) (s : State), PortReady .cab s → ∃ t, exec (.ackReset .cab a b) s = .next t ∧
    LatchesCleared s t ∧ KeepsAllBut [.pif, .phc, .gst] s t ∧
    if a = 0 ∧ b = 0 then
      t.pif = s.pif.withPort .cab
        { (s.port .cab).ended (answer .ok (if (s.port .cab).rst then 1 else 0) 0) with rst := false }
    else ∃ x y, AnsweredAlone .cab ⟨.badArg, x, y, false⟩ s t

/-- ACK_RESET on a drive port: UNACKED goes to NEUTRAL_WAIT with cause ACK_RESET and RST is cleared; in NEUTRAL_WAIT
and ACTIVE nothing changes, the life not renewed; with A or B other than 0 it is refused BAD_ARG and changes nothing,
in every state (R97). -/
def Obligations.DriveAcknowledgement : Prop :=
  ∀ (d : Drive) (a b : Word) (s : State), PortReady d.port s → ∃ t, exec (.ackReset d.port a b) s = .next t ∧
    KeepsAllBut [.pif, .grants] s t ∧ OtherGrantsKept d s t ∧
    if a ≠ 0 ∨ b ≠ 0 then
      t.grant d = s.grant d ∧ ∃ x y, AnsweredAlone d.port ⟨.badArg, x, y, false⟩ s t
    else match (s.grant d).state with
      | .unacked => t.grant d = { s.grant d with state := .neutralWait .ackReset } ∧
          t.pif = s.pif.withPort d.port { (s.port d.port).ended (answer .ok 1 0) with rst := false }
      | .neutralWait _ | .active _ => t.grant d = s.grant d ∧ AnsweredAlone d.port (answer .ok 0 0) s t

/-- READ changes nothing it reads. A number of no item is refused BAD_ARG, a cab item on a drive port WRONG_PORT, an
item without an index BAD_ARG unless B is 0 (R176); every other READ answers the value R183 gives the item, with an
index out of range refused BAD_ARG and a field of an absent active geometry NO_GEOMETRY (R168); the valid frame has
cleared its own port's LINK before it (R170). The index of a grant item is its drive's port number (entry 22),
settings 64 and 80 are none (entry 23), the direction of a demand or a grant of 0 is open (entry 13), and X and Y of
BAD_ARG for an index and of NO_GEOMETRY are not stated (entry 12). A value below 0 is carried as its low 16 bits,
two's complement, also where no rule says so: items 18, 20, 128, 129, 130 (entry 38). -/
def Obligations.ReadAnswersItsItem : Prop :=
  ∀ (p : Port) (a b : Word) (s : State), PortReady p s → ∃ t x, exec (.read p a b) s = .next t ∧
    AnsweredAlone p x s t ∧ KeepsAllBut [.pif] s t ∧
    (a.toNat ∉ plainItems → a.toNat ∉ indexedItems → x = answer .badArg a.toNat 0) ∧
    (a.toNat ∈ [83, 128, 129, 130] → p ≠ .cab → x = answer .wrongPort a.toNat p.number) ∧
    (a.toNat ∈ plainItems → b ≠ 0 → x = answer .badArg a.toNat 0) ∧
    (b = 0 → ∀ item v w, (item, v, w) ∈ plainReads s → a.toNat = item → x = answer .ok v w) ∧
    (∀ item value, (item, value) ∈ indexedReads (s.frameEnded p) b.toNat → a.toNat = item →
      (a.toNat ∈ [83, 128, 129] → p = .cab) →
      match value with
      | some (v, w) => x = answer .ok v w
      | none => x.code = .badArg) ∧
    (a = 65 ∨ a = 66 → match driveOfNumber b.toNat with
      | none => x.code = .badArg
      | some d =>
        let v := if a = 65 then (s.grant d).lastDemand else (s.grant d).granted
        ∃ direction, x = answer .ok |v| direction ∧ (v ≠ 0 → direction = if v < 0 then 1 else 0)) ∧
    (a = 130 → p = .cab → match GeomItem.ofNumber b.toNat, s.gst.active with
      | none, _ => x.code = .badArg
      | some _, none => x.code = .noGeometry
      | some i, some g => x = answer .ok (g.get i) 0)

/-- DEMAND outside ACTIVE: RESTARTED in UNACKED (R96); in NEUTRAL_WAIT the checks of R98 in order, and with all of
them passed the record moves to ACTIVE with a grant of 0, its permit rising if R109 allows. X of a zero demand held
off is the cause before it or DROP, which the spec leaves open (entry 14). -/
def Obligations.DemandOutsideActive : Prop :=
  ∀ (d : Drive) (a b : Word) (s : State), PortReady d.port s → (s.grant d).isActive = false →
    ∃ t, exec (.demand d.port a b) s = .next t ∧ KeepsAllBut [.pif, .grants] s t ∧ OtherGrantsKept d s t ∧
    match (s.grant d).state with
    | .active _ => False
    | .unacked => t.grant d = s.grant d ∧ AnsweredAlone d.port (answer .restarted 0 0) s t
    | .neutralWait cause =>
      if b ≠ 0 ∧ b ≠ 1 then t.grant d = s.grant d ∧ AnsweredAlone d.port (answer .badArg 0 0) s t
      else if a ≠ 0 then
        t.grant d = { s.grant d with lastDemand := if b = 0 then (a.toNat : Int) else -(a.toNat : Int) } ∧
          AnsweredAlone d.port (answer .neutralRequired cause.code 0) s t
      else if (s.grant d).hold then
        t.grant d = { s.grant d with lastDemand := 0, state := .neutralWait .drop } ∧
          ∃ x : Int, (x = cause.code ∨ x = 4) ∧ AnsweredAlone d.port (answer .neutralRequired x 1) s t
      else ∃ c y, (d, b, c, y) ∈ demandTable s.env ∧
        t.grant d = ⟨.active (s.gst.settings.life d), 0, 0, y, false, false, false, false⟩ ∧
        AnsweredAlone d.port (rewritableAnswer .ok 0 y) s t ∧
        (t.gru.permits.of d = true ↔ s.phc.phase ≠ .parked ∧ s.fsv.dropReach.has d = false)

/-- DEMAND in ACTIVE is granted the less of its magnitude and the ceiling of R95, keeps the direction, sets BLOCKED
and CLAMPED as R100 gives, renews the life, and is answered with the magnitude granted (R100, R101); with B neither 0
nor 1 it is refused BAD_ARG and nothing changes. The ceilings' range is an invariant (GrantInv). -/
def Obligations.DemandInActive : Prop :=
  ∀ (d : Drive) (a b : Word) (s : State) (life : Nat), PortReady d.port s → s.env.grant.InRange →
    (s.grant d).state = .active life → ∃ t, exec (.demand d.port a b) s = .next t ∧
    KeepsAllBut [.pif, .grants] s t ∧ OtherGrantsKept d s t ∧
    (b ≠ 0 → b ≠ 1 → t.grant d = s.grant d ∧ AnsweredAlone d.port (answer .badArg 0 0) s t) ∧
    ∀ c y, (d, b, c, y) ∈ demandTable s.env →
      t.grant d = {
        state := .active (s.gst.settings.life d)
        lastDemand := if b = 0 then (a.toNat : Int) else -(a.toNat : Int)
        granted := if b = 0 then min (a.toNat : Int) c else -min (a.toNat : Int) c
        reportedCeiling := y
        clamped := decide (c < a.toNat ∧ 0 < c)
        blocked := decide (0 < a.toNat ∧ c = 0)
        reduced := false
        hold := (s.grant d).hold } ∧
      AnsweredAlone d.port
        (rewritableAnswer (if 0 < a.toNat ∧ c = 0 then .blocked else if c < a.toNat then .clamped else .ok)
          (min (a.toNat : Int) c) y) s t

/-- The PIF's checks, in order: a CMD of no command is refused BAD_CMD, a cab command on a drive port or a DEMAND on
the cab port WRONG_PORT, a cab command on a port that has not acknowledged the last reset RESTARTED; none has any
effect but its answer and, on the cab port, the clearing of the two latches (R52, R162, R174). -/
def Obligations.RequestsRefusedByThePort : Prop :=
  (∀ (p : Port) (cmd : Byte) (a b : Word) (s : State), PortReady p s → cmd ∉ Cmd.all.map Cmd.code →
    ∃ t, exec (.badCmd p cmd a b) s = .next t ∧ AnsweredAlone p (answer .badCmd cmd.toNat 0) s t ∧
      KeepsAllBut [.pif, .phc, .gst] s t ∧
      if p = .cab then LatchesCleared s t else t.phc = s.phc ∧ t.gst = s.gst) ∧
  ∀ (c : Cmd) (p : Port) (a b : Word) (e : BitVec 160) (s : State), PortReady p s →
    (p ≠ .cab → c ∉ [.nop, .read, .ackReset, .demand] →
      ∃ t, exec (requestRow c p a b e) s = .next t ∧
        AnsweredAlone p (answer .wrongPort c.code.toNat p.number) s t ∧ KeepsAllBut [.pif] s t) ∧
    (p = .cab → c = .demand →
      ∃ t, exec (requestRow c .cab a b e) s = .next t ∧
        CabAnsweredOnly (answer .wrongPort c.code.toNat Port.cab.number) s t) ∧
    (p = .cab → c ∉ [.nop, .read, .ackReset, .demand] → (s.port .cab).rst = true →
      ∃ t, exec (requestRow c .cab a b e) s = .next t ∧ AnsweredAlone .cab (answer .restarted 0 0) s t ∧
        KeepsAllBut [.pif, .phc, .gst] s t ∧ OnlyLatches s t ∧
        (c ∉ [.recordRead, .releaseEnable] → t.phc.releaseLatch = false) ∧
        (c ≠ .storeEnable → t.gst.storeEnable = false))

/-! ## Requests of the cab port -/

/-- SET of a setting of 1 to 35 writes B as the setting reads it, brought within its range (the reverse margin below
the unlock angle too), and no other setting but a reverse margin that a lower unlock angle moves; it is answered
CLAMPED when the value written differs from B as read or another setting moved, with X the value written and Y the
value before (R166; of a value below 0 the low 16 bits: entry 38), and the store enable latch is clear (R162). A
setting that only the ENV or a later event reads changes nothing else but the envelope and the grants within it. A
changed L_slack re-decides tautness and evaluates (R9, R11), which decides DEPTH_DISAGREE, as does a changed depth
tolerance (R14); a changed record step moves the next step boundary of an open session beyond bottom-hole depth
(R153); a changed spin-off level, or auto-advance turned on, is evaluated in HOIST (R66). A SET of the value held
hands nothing on, whatever the setting: the string model, the zones, the sources, the records and, but for the latch,
the PHC stand (the model's reading: entry 32). -/
def Obligations.SetWritesTheSetting : Prop :=
  ∀ (v : Setting) (a b : Word) (s : State), CabReady s → 1 ≤ a.toNat → Setting.all[a.toNat - 1]? = some v →
    (v = .autoAdvance → b.toNat ≤ 1) →
    let old := s.gst.settings
    let read : Int := if v.range.1 < 0 then b.toInt else b.toNat
    let inRange := max v.range.1 (min v.range.2 read)
    let x := if v = .reverseMargin then min inRange (old.unlockAngle - 1) else inRange
    let moved := v = .unlockAngle ∧ x - 1 < old.reverseMargin
    ∃ t, exec (.set .cab a b) s = .next t ∧
      Answered .cab (answer (if x ≠ read ∨ moved then .clamped else .ok) x (old.get v)) s t ∧
      (∀ w ∈ Setting.all, t.gst.settings.get w =
        if w = v then x else if w = .reverseMargin ∧ moved then x - 1 else old.get w) ∧
      { t.gst with settings := old } = { s.gst with storeEnable := false } ∧
      t.msu = s.msu ∧ t.lines = s.lines ∧
      (x = old.get v →
        t.phc = { s.phc with releaseLatch := false } ∧ KeepsAllBut [.phc, .env, .grants, .gst, .pif] s t) ∧
      (v ∉ [.lSlack, .depthTolerance, .recordStep, .spinOffLevel, .autoAdvance] →
        t.phc = { s.phc with releaseLatch := false } ∧ KeepsAllBut [.phc, .env, .grants, .gst, .pif] s t) ∧
      (v = .lSlack → x ≠ old.lSlack →
        Evaluated { s.stk with taut := decide (x ≤ s.msu.channels.rl.value) && !s.msu.channels.rl.holding } s t ∧
        DisagreementDecided s t ∧ OnlyDisagreement s t ∧
        t.brc = (s.brc.eventsAsked s t (newlyPresent s t)).stepAsked s t ∧
        KeepsAllBut [.stk, .phc, .znt, .env, .grants, .faults, .brc, .gst, .pif] s t ∧
        t.phc = { advancedPhc old t.stk (modelMoved s.stk t.stk) s.phc with releaseLatch := false }) ∧
      (v = .depthTolerance → x ≠ old.depthTolerance →
        (t.entry .depthDisagree).condition = decide (x < |s.stk.disagreement|) ∧
        ((s.entry .depthDisagree).condition = false → x < |s.stk.disagreement| →
          (t.entry .depthDisagree).latched = true) ∧
        OnlyDisagreement s t ∧ t.brc = s.brc.eventsAsked s t (newlyPresent s t) ∧
        t.phc = { s.phc with releaseLatch := false } ∧
        KeepsAllBut [.phc, .env, .grants, .faults, .brc, .gst, .pif] s t) ∧
      (v = .recordStep → x ≠ old.recordStep →
        t.brc = (if s.znt.sessionOpen then { s.brc with nextStep := x * s.stk.bottomHole.fdiv x + x } else s.brc) ∧
        t.phc = { s.phc with releaseLatch := false } ∧ KeepsAllBut [.phc, .env, .grants, .brc, .gst, .pif] s t) ∧
      (v = .spinOffLevel ∨ v = .autoAdvance →
        t.phc = { advancedPhc t.gst.settings s.stk (decide (x ≠ old.get v ∧ (v = .autoAdvance → x = 1))) s.phc with
          releaseLatch := false } ∧
        t.brc = s.brc.eventsAsked s t [] ∧ KeepsAllBut [.phc, .env, .grants, .brc, .gst, .pif] s t)

/-- SET of a source's mode (64 + its number) or action (80 + its number), or of the group mode (36), writes the
pending value alone, answered with the pending value and the value in force; source 0, a number of no setting and a B
that is no code are refused BAD_ARG (R141, R142, R166). -/
def Obligations.SetOfFaultSettingsIsPending : Prop :=
  ∀ (b : Word) (s : State), CabReady s →
    (∀ (src : Source) (m : Mode), src ≠ .estop → b.toNat = m.code →
      ∃ t, exec (.set .cab (BitVec.ofNat 16 (64 + src.idx.val)) b) s = .next t ∧
        AnsweredAlone .cab (answer .ok m.code (s.entry src).mode.code) s t ∧
        t.entry src = { s.entry src with pendingMode := some m } ∧ (∀ other, other ≠ src → t.entry other = s.entry other) ∧
        { t.fsv with table := s.fsv.table, warnings := s.fsv.warnings } = s.fsv ∧
        LatchesCleared s t ∧ KeepsAllBut [.faults, .phc, .gst, .pif] s t) ∧
    (∀ (src : Source) (x : Action), src ≠ .estop → b.toNat = x.code →
      ∃ t, exec (.set .cab (BitVec.ofNat 16 (80 + src.idx.val)) b) s = .next t ∧
        AnsweredAlone .cab (answer .ok x.code (s.entry src).action.code) s t ∧
        t.entry src = { s.entry src with pendingAction := some x } ∧
        (∀ other, other ≠ src → t.entry other = s.entry other) ∧
        { t.fsv with table := s.fsv.table, warnings := s.fsv.warnings } = s.fsv ∧
        LatchesCleared s t ∧ KeepsAllBut [.faults, .phc, .gst, .pif] s t) ∧
    (∀ m : GroupMode, b.toNat = m.code → ∃ t, exec (.set .cab 36 b) s = .next t ∧
      AnsweredAlone .cab (answer .ok m.code s.fsv.groupMode.code) s t ∧
      { t.fsv with warnings := s.fsv.warnings } = { s.fsv with pendingGroupMode := some m } ∧
      LatchesCleared s t ∧ KeepsAllBut [.faults, .phc, .gst, .pif] s t) ∧
    ∀ a : Word, (36 < a.toNat ∧ a.toNat < 65) ∨ a.toNat = 0 ∨ a.toNat = 80 ∨ 95 < a.toNat ∨
        ((a = 35 ∨ a = 36 ∨ (65 ≤ a.toNat ∧ a.toNat < 80)) ∧ 1 < b.toNat) ∨
        (81 ≤ a.toNat ∧ a.toNat ≤ 95 ∧ 2 < b.toNat) →
      ∃ t, exec (.set .cab a b) s = .next t ∧ CabRefusedOpen .badArg s t

/-- SETTINGS_DEFAULT, in PARKED with A and B at 0, writes every default at once and makes those of the modes, the
actions and the group mode pending where they differ from the values in force; otherwise it is refused (R167). The
modes and actions in force stand. The changes are handed on as for a SET of each: a changed L_slack re-decides tautness and
evaluates (R9, R11), a changed depth tolerance or an evaluation decides DEPTH_DISAGREE (R14), a changed record step moves the
next step boundary (R153); the record step is handed on first, so that a STEP record of that evaluation is formed with the
new step (the order is the model's choice: entry 36). What is not changed is not handed on (entry 32). -/
def Obligations.SettingsDefaultRestores : Prop :=
  ∀ (a b : Word) (s : State), CabReady s → ∃ t, exec (.settingsDefault .cab a b) s = .next t ∧
    if a ≠ 0 ∨ b ≠ 0 then CabAnsweredOnly (answer .badArg 0 0) s t
    else if s.phc.phase ≠ .parked then CabAnsweredOnly (answer .wrongPhase s.phc.phase.code 0) s t
    else
      Answered .cab (answer .ok s.defaultsChanged 0) s t ∧
      t.gst = { s.gst with settings := Settings.default, storeEnable := false } ∧
      t.phc = { s.phc with releaseLatch := false } ∧
      (let old := s.gst.settings
       let new := Settings.default
       let judged := old.lSlack ≠ new.lSlack ∨ old.depthTolerance ≠ new.depthTolerance
       let disagrees := decide (new.depthTolerance < |t.stk.disagreement|)
       let moved := if s.znt.sessionOpen ∧ old.recordStep ≠ new.recordStep then
           { s.brc with nextStep := new.recordStep * s.stk.bottomHole.fdiv new.recordStep + new.recordStep }
         else s.brc
       (if old.lSlack = new.lSlack then t.stk = s.stk ∧ t.znt = s.znt
        else Evaluated
          { s.stk with taut := decide (new.lSlack ≤ s.msu.channels.rl.value) && !s.msu.channels.rl.holding } s t) ∧
       (t.entry .depthDisagree).condition = (if judged then disagrees else (s.entry .depthDisagree).condition) ∧
       ((s.entry .depthDisagree).condition = false → (t.entry .depthDisagree).condition = true →
         (t.entry .depthDisagree).latched = true) ∧
       (∀ src, src ≠ .depthDisagree → (t.entry src).condition = (s.entry src).condition ∧
         (t.entry src).latched = (s.entry src).latched ∧ (t.entry src).override = (s.entry src).override) ∧
       t.brc = (moved.eventsAsked s t (newlyPresent s t)).stepAsked s t ∧ t.env = t.envelope) ∧
      KeepsAllBut [.stk, .phc, .znt, .env, .grants, .faults, .brc, .gst, .pif] s t ∧
      t.fsv.groupMode = s.fsv.groupMode ∧
      t.fsv.pendingGroupMode = (if s.fsv.groupMode = .isolate then none else some .isolate) ∧
      ∀ src, (t.entry src).mode = (s.entry src).mode ∧ (t.entry src).action = (s.entry src).action ∧
        (t.entry src).pendingMode =
          (if src.defaultMode = (s.entry src).mode then none else some src.defaultMode) ∧
        (t.entry src).pendingAction =
          (if src.defaultAction = (s.entry src).action then none else some src.defaultAction)

/-- PHASE is checked in the order of R49 and, when every check passes, moves to the phase A names, answered OK with
the new code and the old one. A PHASE that moves the phase (R48) removes the operation and the release latch, asks for
one PHASE_CHANGE record and leaves the envelope of the new phase; the advance arm is decided on entry to HOIST and
clear elsewhere (R65), and nothing else changes but grants within the new envelope. On entry to PARKED every record
that is not UNACKED stands in NEUTRAL_WAIT with cause PARKED, an ACTIVE one with its grant taken (R99) and its port's
pending answer rewritten to NEUTRAL_REQUIRED, X that cause and Y = 2, where R104 allows; the answer of a drive without
an ACTIVE record stands, and every permit is low (R109). -/
def Obligations.PhaseMovesAsAsked : Prop :=
  (∀ (a b : Word) (s : State), CabReady s →
     let present := s.phc.phase
     ∃ t, exec (.phase .cab a b) s = .next t ∧
     if s.gst.commit.isSome then CabAnsweredOnly (answer .busy 0 0) s t
     else if 6 < a.toNat ∨ b ≠ 0 then CabAnsweredOnly (answer .badArg 0 0) s t
     else if a.toNat ∉ phaseTargets present ∨ (a ≠ 0 ∧ (s.entry .estop).condition = true) then
       CabAnsweredOnly (answer .wrongPhase present.code a.toNat) s t
     else if present = .parked ∧ a ≠ 0 ∧ s.gst.active = none then CabAnsweredOnly (answer .noGeometry 0 0) s t
     else if a = 6 ∧ (present = .parked ∨ present = .free) ∧ ¬(allFree s.stk.joints = true ∧ s.stk.depth < 0) then
       CabAnsweredOnly (answer .wrongPhase present.code a.toNat) s t
     else if present = .parked ∧ a = 0 then CabAnsweredOnly (answer .ok 0 0) s t
     else Answered .cab (answer .ok a.toNat present.code) s t ∧ t.phc.phase.code = a.toNat) ∧
  ∀ (a b : Word) (s t : State), CabReady s → exec (.phase .cab a b) s = .next t → t.phc.phase ≠ s.phc.phase →
    t.phc = ⟨t.phc.phase, none, none, false,
      decide (t.phc.phase = .hoist ∧ s.stk.quality = .valid ∧ s.gst.settings.spinOffLevel < s.stk.depth)⟩ ∧
    t.brc = s.brc.ask s.znt.sessionOpen s.stk.depth s.stk.depth (.event (.phaseChange s.phc.phase t.phc.phase)) ∧
    t.env = t.envelope ∧ t.gst = { s.gst with storeEnable := false } ∧
    KeepsAllBut [.phc, .brc, .env, .grants, .gst, .pif] s t ∧
    (t.phc.phase = .parked →
      t.gru.permits = Permits.low ∧
      ∀ d, ((s.grant d).state ≠ .unacked → (t.grant d).state = .neutralWait .parked) ∧
        ((s.grant d).isActive = true → (t.grant d).granted = 0 ∧ AnswerWithdrawn d .parked s t) ∧
        ((s.grant d).isActive = false → t.port d.port = s.port d.port))

/-- ENGAGE is checked in the order of R53; taken, it moves to ENGAGING with the op angle at 0 and the op timer at the
engage timeout, answered with the mask of the aligned joints that are not LOCKED. -/
def Obligations.EngageStartsTheSeatingTurn : Prop :=
  ∀ (a b : Word) (s : State), CabReady s →
    let mask := jointMask (fun j => !j.isLocked && j.aligned.isSome) s.stk.joints
    let timeout := s.gst.settings.engageTimeout
    ∃ t, exec (.engage .cab a b) s = .next t ∧
    if s.gst.commit.isSome then CabAnsweredOnly (answer .busy 0 0) s t
    else if a ≠ 0 ∨ b ≠ 0 then CabAnsweredOnly (answer .badArg 0 0) s t
    else if s.phc.phase ≠ .free then CabAnsweredOnly (answer .wrongPhase s.phc.phase.code 0) s t
    else if mask = 0 then CabAnsweredOnly (answer .notAligned 0 0) s t
    else
      Answered .cab (answer .ok mask timeout) s t ∧
      t.phc = ⟨.engaging, some ⟨0, timeout.toNat⟩, none, false, false⟩ ∧
      t.brc = s.brc.ask s.znt.sessionOpen s.stk.depth s.stk.depth (.event (.phaseChange .free .engaging)) ∧
      t.env = t.envelope ∧ t.gst = { s.gst with storeEnable := false } ∧
      KeepsAllBut [.phc, .brc, .env, .grants, .gst, .pif] s t

/-- RELEASE_ENABLE sets the release latch in every phase and with a commit in flight, answered OK with X = 1; with A or
B other than 0 it is refused BAD_ARG and clears the latch. Neither touches the phase, the envelope or the grants
(R51). -/
def Obligations.ReleaseEnableSetsTheLatch : Prop :=
  ∀ (a b : Word) (s : State), CabReady s → ∃ t, exec (.releaseEnable .cab a b) s = .next t ∧
    t.phc = { s.phc with releaseLatch := decide (a = 0 ∧ b = 0) } ∧
    t.gst = { s.gst with storeEnable := false } ∧ KeepsAllBut [.phc, .gst, .pif] s t ∧
    if a = 0 ∧ b = 0 then AnsweredAlone .cab (answer .ok 1 0) s t
    else ∃ x y, AnsweredAlone .cab ⟨.badArg, x, y, false⟩ s t

/-- RELEASE is checked in the order of R57 and clears the release latch whatever the outcome; taken, it moves from DRILL
to RELEASING with the op angle at A_r, the op timer at the release timeout and the target A names, answered with K. -/
def Obligations.ReleaseStartsTheUnlockingTurn : Prop :=
  ∀ (a b : Word) (s : State), CabReady s →
    let k := max 0 (min 65535 s.env.k)
    let limit := s.gst.settings.fRelease
    ∃ t, exec (.release .cab a b) s = .next t ∧
    if s.gst.commit.isSome then CabAnsweredOnly (answer .busy 0 0) s t
    else if s.phc.phase ≠ .drill then CabAnsweredOnly (answer .wrongPhase s.phc.phase.code 0) s t
    else if (a ≠ 1 ∧ a ≠ 5) ∨ b ≠ 0 then CabAnsweredOnly (answer .badArg 0 0) s t
    else if s.phc.releaseLatch = false then CabAnsweredOnly (answer .notEnabled 0 0) s t
    else if s.znt.limits.noUnlock then
      CabAnsweredOnly (answer .zoneForbids (numberOr255 s.znt.lowestNoUnlock) 0) s t
    else if limit < s.env.k then CabAnsweredOnly (answer .underLoad k limit) s t
    else
      Answered .cab (answer .ok k a.toNat) s t ∧
      t.phc = ⟨.releasing, some ⟨s.stk.aR, s.gst.settings.releaseTimeout.toNat⟩,
        some (if a = 1 then .free else .hoist), false, false⟩ ∧
      t.brc = s.brc.ask s.znt.sessionOpen s.stk.depth s.stk.depth (.event (.phaseChange .drill .releasing)) ∧
      t.env = t.envelope ∧ t.gst = { s.gst with storeEnable := false } ∧
      KeepsAllBut [.phc, .brc, .env, .grants, .gst, .pif] s t

/-- ABORT_OP is checked in the order of R61; taken, ENGAGING goes to FREE and RELEASING to DRILL without OP_TIMEOUT and
with the joints as they are, answered with the new phase and the op angle. -/
def Obligations.AbortOpEndsTheOperation : Prop :=
  ∀ (a b : Word) (s : State), CabReady s →
    let target : Phase := if s.phc.phase = .releasing then .drill else .free
    ∃ t, exec (.abortOp .cab a b) s = .next t ∧
    if s.phc.phase ≠ .engaging ∧ s.phc.phase ≠ .releasing then
      CabAnsweredOnly (answer .wrongPhase s.phc.phase.code 0) s t
    else if a ≠ 0 ∨ b ≠ 0 then CabAnsweredOnly (answer .badArg 0 0) s t
    else
      Answered .cab (answer .ok target.code ((s.phc.op.map Operation.angle).getD 0)) s t ∧
      t.phc = ⟨target, none, none, false, false⟩ ∧
      t.brc = s.brc.ask s.znt.sessionOpen s.stk.depth s.stk.depth (.event (.phaseChange s.phc.phase target)) ∧
      t.env = t.envelope ∧ t.gst = { s.gst with storeEnable := false } ∧
      KeepsAllBut [.phc, .brc, .env, .grants, .gst, .pif] s t

/-- CONFIRM_FREE is checked in the order of R23; taken, it makes FREE every joint it names that is UNCERTAIN and no
other, answered with their mask, asks for one FREED record that names them, at the tool depth before the evaluation it
then makes, and for the records of that evaluation (R11, R23). The evaluation decides DEPTH_DISAGREE and no other
source (R14), and in HOIST the PHC evaluates after it (R66); in PARKED and SPIN_OFF the PHC stands but for its latch.
With none named it changes nothing. -/
def Obligations.ConfirmFreeFreesUncertainJoints : Prop :=
  ∀ (a b : Word) (s : State), CabReady s → ∃ t, exec (.confirmFree .cab a b) s = .next t ∧
    match s.gst.active with
    | none => CabRefusedOpen .noGeometry s t
    | some g =>
      if s.gst.commit.isSome then CabRefusedOpen .busy s t
      else if s.phc.phase ∉ [.parked, .hoist, .spinOff] ∨ 0 ≤ s.stk.depth then CabRefusedOpen .wrongPhase s t
      else if a = 0 ∨ 2 ^ g.n.toNat ≤ a.toNat ∨ b ≠ 0 then CabRefusedOpen .badArg s t
      else
        let freed := s.stk.joints.mapIdx fun j x => a.getLsbD j && x.isUncertain
        Answered .cab (answer .ok (confirmedMask a 0 s.stk.joints) 0) s t ∧
        t.jointStates = List.zipWith (fun (f : Bool) (x : Joint) => if f then .free else x.state) freed s.stk.joints ∧
        t.gst = { s.gst with storeEnable := false } ∧
        KeepsAllBut [.stk, .phc, .znt, .env, .grants, .faults, .brc, .gst, .pif] s t ∧
        (freed.all (fun f => !f) = false →
          let d := s.stk.depth
          let freedRecord := s.brc.ask s.znt.sessionOpen d d (.event (.freed (confirmedMask a 0 s.stk.joints)))
          Evaluated { s.stk with
            joints := List.zipWith (fun (f : Bool) (x : Joint) => if f then { x with state := .free } else x)
              freed s.stk.joints } s t ∧
          DisagreementDecided s t ∧ OnlyDisagreement s t ∧
          t.phc = { advancedPhc s.gst.settings t.stk (modelMoved s.stk t.stk) s.phc with releaseLatch := false } ∧
          t.brc = (freedRecord.eventsAsked s t (newlyPresent s t)).stepAsked s t) ∧
        (freed.all (fun f => !f) = true → CabAnsweredOnly (answer .ok 0 0) s t)

/-- DATUM is checked in the order of R121; taken at d, P_rope and the tool depth read 10 d, H reads 10 d less the
closed length and the extensions, the quality leaves NONE by the rule of R10, the disagreement is 0 (in VALID where every
non-locked joint stands within its range), no joint's state changes, and the answer carries d and the quality (R8). Its
evaluation moves bottom-hole depth nowhere and decides DEPTH_DISAGREE and no other source (R11, R14, R24). -/
def Obligations.DatumSetsTheDepth : Prop :=
  ∀ (a b : Word) (s : State), CabReady s →
    let d := a.toInt
    ∃ t, exec (.datum .cab a b) s = .next t ∧
    if s.gst.commit.isSome then CabAnsweredOnly (answer .busy 0 0) s t
    else if s.gst.active = none then CabAnsweredOnly (answer .noGeometry 0 0) s t
    else if b ≠ 0 ∨ d < -2000 ∨ 15000 < d then CabAnsweredOnly (answer .badArg 0 0) s t
    else if s.znt.sessionOpen then CabAnsweredOnly (answer .frozen s.znt.pile.toNat 0) s t
    else if s.phc.phase ≠ .parked ∧ s.phc.phase ≠ .spinOff then
      CabAnsweredOnly (answer .wrongPhase s.phc.phase.code 0) s t
    else
      Answered .cab (answer .ok d t.stk.quality.code) s t ∧
      t.stk.quality =
        (if s.stk.taut then .valid else if chainClosed s.stk.joints then .strokeOnly else .held) ∧
      t.stk.depth = 10 * d ∧ t.stk.ropeOffset + s.msu.ropeMm = 10 * d ∧ t.stk.datumSet = true ∧
      (∀ g, s.gst.active = some g →
        t.stk.strokeOffset + s.msu.strokeMm = 10 * d - g.lCl - extSum s.stk.joints ∧
        Evaluated { s.stk with
          ropeOffset := t.stk.ropeOffset, strokeOffset := t.stk.strokeOffset, datumSet := true, disagreement := 0
          heldDepth := 10 * d } s t ∧
        (t.stk.quality ≠ .valid ∨
            List.Forall₂ (fun j y => j.isLocked = true ∨ (0 ≤ j.ext ∧ j.ext ≤ y.eMax)) s.stk.joints g.joints →
          t.stk.disagreement = 0)) ∧
      t.stk.bottomHole = s.stk.bottomHole ∧ t.jointStates = s.jointStates ∧
      DisagreementDecided s t ∧ OnlyDisagreement s t ∧
      t.phc = { s.phc with releaseLatch := false } ∧ t.gst = { s.gst with storeEnable := false } ∧
      KeepsAllBut [.stk, .phc, .znt, .env, .grants, .faults, .gst, .pif] s t

/-- OPEN_PILE is checked in the order of R123; taken, the session is OPEN with pile number A, bottom-hole depth is the
present D, the OPEN record is the newest, the step accumulators and the turn divider are 0, and the step boundaries
are those of bottom-hole depth (R152, R153). CLOSE_PILE is checked in the order of R124; taken, a pending gap is
written as a GAP record and the CLOSE record follows it as the newest, then the session is CLOSED with its pile number
and bottom-hole depth kept (R156). -/
def Obligations.PilesOpenAndClose : Prop :=
  (∀ (a b : Word) (s : State), CabReady s → RecordInv s → ∃ t, exec (.openPile .cab a b) s = .next t ∧
     if s.gst.commit.isSome then CabAnsweredOnly (answer .busy 0 0) s t
     else if s.gst.active = none then CabAnsweredOnly (answer .noGeometry 0 0) s t
     else if b ≠ 0 then CabAnsweredOnly (answer .badArg 0 0) s t
     else if s.znt.sessionOpen then CabAnsweredOnly (answer .wrongPhase s.znt.pile.toNat 0) s t
     else if 512 ≤ s.brc.fifo.length then CabAnsweredOnly (answer .fifoFull s.brc.fifo.length 0) s t
     else
       let d := s.stk.depth
       let step := s.gst.settings.recordStep
       AnsweredAlone .cab (answer .ok a.toNat (depth10 d)) s t ∧ LatchesCleared s t ∧
       t.znt = { s.znt with sessionOpen := true, pile := a } ∧ t.stk = { s.stk with bottomHole := d } ∧
       t.brc = { fifo := s.brc.fifo ++ [⟨s.brc.seqCounter, d, d, .opened a⟩], seqCounter := s.brc.seqCounter + 1
                 gap := s.brc.gap, acc := ⟨0, 0, 0, 0⟩, turnDivider := 0, lastStep := step * d.fdiv step
                 nextStep := step * d.fdiv step + step } ∧
       KeepsAllBut [.stk, .phc, .znt, .zones, .brc, .gst, .pif] s t) ∧
  ∀ (a b : Word) (s : State), CabReady s → ∃ t, exec (.closePile .cab a b) s = .next t ∧
    let slots := 512 - s.brc.fifo.length
    let needed := if s.brc.gap.pending then 2 else 1
    if a ≠ 0 ∨ b ≠ 0 then CabAnsweredOnly (answer .badArg 0 0) s t
    else if s.znt.sessionOpen = false then CabAnsweredOnly (answer .wrongPhase 0 0) s t
    else if s.phc.phase ≠ .parked then CabAnsweredOnly (answer .wrongPhase s.phc.phase.code 0) s t
    else if slots < needed then CabAnsweredOnly (answer .fifoFull slots needed) s t
    else
      let gap := s.brc.gap
      let n := s.brc.seqCounter
      let close (seq : Word) : Record := ⟨seq, s.stk.bottomHole, s.stk.depth, .closed s.znt.pile⟩
      AnsweredAlone .cab (answer .ok s.znt.pile.toNat (depth10 s.stk.bottomHole)) s t ∧ LatchesCleared s t ∧
      t.znt = { s.znt with sessionOpen := false } ∧
      t.brc = (if gap.pending then
          { s.brc with fifo := s.brc.fifo ++ [⟨n, gap.first, gap.last, .gap gap.count⟩, close (n + 1)]
                       seqCounter := n + 2, gap := ⟨0, false, 0, 0⟩ }
        else { s.brc with fifo := s.brc.fifo ++ [close n], seqCounter := n + 1 }) ∧
      KeepsAllBut [.phc, .znt, .zones, .brc, .gst, .pif] s t

/-- ZONE_WRITE is checked in the order of R115, an entry or a field number above 7 refused first; taken, it writes B as
the field reads it, brought within the field's range, a write of top or bottom that leaves top at or above bottom clears
valid (R116), no other entry changes, and the containment mask, the combined set and the limits are formed anew (R119).
-/
def Obligations.ZoneWriteWritesOneField : Prop :=
  (∀ (a b : Word) (s : State), CabReady s → 8 ≤ a.toNat / 256 ∨ 8 ≤ a.toNat % 256 →
    ∃ t, exec (.zoneWrite .cab a b) s = .next t ∧ CabAnsweredOnly (answer .badArg 0 0) s t) ∧
  ∀ (i : Fin 8) (field : Nat) (b : Word) (s : State), CabReady s → field < 8 →
    let a : Word := BitVec.ofNat 16 (i.val * 256 + field)
    let z := s.znt.zones[i]
    let read : Int := if field = 1 ∨ field = 2 then b.toInt else b.toNat
    let x : Int :=
      if field = 1 ∨ field = 2 then max (-2000) (min 15000 read)
      else if field = 6 ∧ read ≠ 65535 then min read 5000 else read
    let written : Zone := match field with
      | 0 => { z with valid := b ≠ 0 }
      | 1 => { z with top := x, valid := z.valid && decide (x < z.bottom) }
      | 2 => { z with bottom := x, valid := z.valid && decide (z.top < x) }
      | 3 => { z with tCap := x }
      | 4 => { z with cCap := x }
      | 5 => { z with wotCap := x }
      | 6 => { z with vCap := x }
      | _ => { z with flags := b.extractLsb' 0 3 }
    ∃ t, exec (.zoneWrite .cab a b) s = .next t ∧
    if s.znt.sessionOpen then CabAnsweredOnly (answer .frozen s.znt.pile.toNat 0) s t
    else if (field = 0 ∧ 1 < b.toNat) ∨ (field = 7 ∧ 7 < b.toNat) then CabAnsweredOnly (answer .badArg 0 0) s t
    else if field = 0 ∧ b = 1 ∧ z.bottom ≤ z.top then CabAnsweredOnly (answer .badArg z.top z.bottom) s t
    else
      Answered .cab (answer (if x = read then .ok else .clamped) x (if written.valid then 1 else 0)) s t ∧
      t.znt.zones = s.znt.zones.set i written ∧ t.znt.sessionOpen = false ∧ t.znt.pile = s.znt.pile ∧
      t.znt.mask = t.znt.containing s.stk.depth ∧
      t.znt.combined = t.znt.combinedSet s.stk.quality s.stk.depth ∧
      t.znt.limits = t.znt.combine t.znt.combined ∧ t.env = t.envelope ∧ LatchesCleared s t ∧
      KeepsAllBut [.znt, .zones, .env, .grants, .phc, .gst, .pif] s t

/-- GEOM_WRITE is checked in the order of R161; taken, it writes B as the item reads it, brought within the item's
range, into the staging record alone, and every other item of it stands. -/
def Obligations.GeomWriteWritesTheStagingRecord : Prop :=
  ∀ (a b : Word) (s : State), CabReady s → ∃ t, exec (.geomWrite .cab a b) s = .next t ∧
    if s.gst.commit.isSome then CabAnsweredOnly (answer .busy (s.gst.commit.getD 0) 0) s t
    else match GeomItem.ofNumber a.toNat with
      | none => CabAnsweredOnly (answer .badArg 0 0) s t
      | some i =>
        if s.znt.sessionOpen then CabAnsweredOnly (answer .frozen s.znt.pile.toNat 0) s t
        else
          let read : Int := if i.range.1 < 0 then b.toInt else b.toNat
          let x := max i.range.1 (min i.range.2 read)
          AnsweredAlone .cab (answer (if x = read then .ok else .clamped) x 0) s t ∧
          (∀ j, t.gst.staging.get j = if j = i then x else s.gst.staging.get j) ∧
          t.gst = { s.gst with staging := t.gst.staging, storeEnable := false } ∧
          t.phc = { s.phc with releaseLatch := false } ∧ KeepsAllBut [.phc, .gst, .pif] s t

/-- STORE_ENABLE sets the store enable latch in every phase, with a session OPEN and with a commit in flight, answered
OK with X = 1, and clears the release latch; with A or B other than 0 it is refused BAD_ARG and the latch is clear
(R162). STORE_COMMIT is checked in the order of R163 and clears the store enable latch whatever the outcome; taken, a
commit is in flight for 80 ms, answered with the CRC-16 the record will carry. A or B other than 0
is refused before the staging record is looked at (the model's choice: entry 29), and X of that refusal is not stated
(entry 12). -/
def Obligations.StoreCommandsStartTheWrite : Prop :=
  (∀ (a b : Word) (s : State), CabReady s → ∃ t, exec (.storeEnable .cab a b) s = .next t ∧
     t.phc = { s.phc with releaseLatch := false } ∧
     t.gst = { s.gst with storeEnable := decide (a = 0 ∧ b = 0) } ∧ KeepsAllBut [.phc, .gst, .pif] s t ∧
     if a = 0 ∧ b = 0 then AnsweredAlone .cab (answer .ok 1 0) s t
     else ∃ x y, AnsweredAlone .cab ⟨.badArg, x, y, false⟩ s t) ∧
  ∀ (a b : Word) (s : State), CabReady s → ∃ t, exec (.storeCommit .cab a b) s = .next t ∧
    if s.gst.storeEnable = false then CabAnsweredOnly (answer .notEnabled 0 0) s t
    else if s.lines.storeWp then CabAnsweredOnly (answer .storeProtected 0 0) s t
    else if s.phc.phase ≠ .parked then CabAnsweredOnly (answer .wrongPhase s.phc.phase.code 0) s t
    else if s.znt.sessionOpen then CabAnsweredOnly (answer .frozen s.znt.pile.toNat 0) s t
    else if s.gst.commit.isSome then CabAnsweredOnly (answer .busy (s.gst.commit.getD 0) 0) s t
    else if a ≠ 0 ∨ b ≠ 0 then ∃ x, CabAnsweredOnly ⟨.badArg, x, 255, false⟩ s t
    else match s.gst.staging.inconsistency with
      | some (j, k) => CabAnsweredOnly (answer .badArg j k) s t
      | none =>
        AnsweredAlone .cab ⟨.ok, crc16 s.gst.staging.words, 80, false⟩ s t ∧
        t.gst = { s.gst with commit := some 80, storeEnable := false } ∧
        t.phc = { s.phc with releaseLatch := false } ∧ KeepsAllBut [.phc, .gst, .pif] s t

/-- CLEAR_FAULTS clears latched for the sources named and changes nothing else of the table, whatever their conditions
or overrides; X names those that were latched, Y those whose override is still in force, and for A = 0 every override
in force. With B other than 0 it is refused BAD_ARG and the table does not change (R140). -/
def Obligations.ClearFaultsClearsLatched : Prop :=
  ∀ (a b : Word) (s : State), CabReady s → ∃ t, exec (.clearFaults .cab a b) s = .next t ∧
    if b ≠ 0 then CabRefusedOpen .badArg s t
    else
      (∃ x y, AnsweredAlone .cab ⟨.ok, x, y, false⟩ s t ∧
        ∀ src : Source,
          x.getLsbD src.idx = (a.getLsbD src.idx && (s.entry src).latched) ∧
          y.getLsbD src.idx = ((decide (a = 0) || a.getLsbD src.idx) && (s.entry src).override.isSome)) ∧
      (∀ src : Source, t.entry src =
        { s.entry src with latched := (s.entry src).latched && !a.getLsbD src.idx }) ∧
      { t.fsv with table := s.fsv.table, warnings := s.fsv.warnings } = s.fsv ∧
      LatchesCleared s t ∧ KeepsAllBut [.faults, .phc, .gst, .pif] s t

/-- RECORD_READ at the end of its frame: with A, B or an extension bit other than 0 it is refused BAD_ARG and the record
stays; on an empty FIFO it removes nothing; otherwise the oldest record is removed, a pending gap is written into the
slot it frees, and the answer names the record removed (R156, R157). It keeps the release latch (R52). -/
def Obligations.RecordReadRemovesTheOldest : Prop :=
  ∀ (a b : Word) (e : BitVec 160) (s : State), CabReady s → RecordInv s →
    ∃ t, exec (.recordRead .cab a b e) s = .next t ∧
    t.phc = s.phc ∧ t.gst = { s.gst with storeEnable := false } ∧ KeepsAllBut [.brc, .gst, .pif] s t ∧
    if a ≠ 0 ∨ b ≠ 0 ∨ e ≠ 0 then
      t.brc = s.brc ∧ AnsweredAlone .cab (answer .badArg s.brc.fifo.length 65535) s t
    else match s.brc.fifo with
      | [] => t.brc = s.brc ∧ AnsweredAlone .cab (answer .ok 0 65535) s t
      | oldest :: rest =>
        AnsweredAlone .cab (answer .ok t.brc.fifo.length oldest.seq.toNat) s t ∧
        t.brc = if s.brc.gap.pending then
            { s.brc with
              fifo := rest ++ [⟨s.brc.seqCounter, s.brc.gap.first, s.brc.gap.last, .gap s.brc.gap.count⟩]
              seqCounter := s.brc.seqCounter + 1, gap := ⟨0, false, 0, 0⟩ }
          else { s.brc with fifo := rest }

/-- A position count and a scan ask for their records in one order: ZONE_EXIT for the MARK entries that left the mask,
ZONE_ENTER for those that joined it, both in rising entry number (R120), FAULT_RAISED for the sources whose condition
became present, in rising number (R134), the PHASE_CHANGE of an automatic advance, each an EVENT at the tool depth
(R150, R151; the order of the blocks: entry 15). A scan takes its maxima into the step accumulators (R152), and an
advanced bottom-hole depth that reaches the next step boundary forms one STEP record, from the last boundary to the
deepest one reached, with the accumulators, which are then 0 (R153). An angle count short of the lock and unlock angles,
with no operation in flight, makes no record but where it is a turn mark: it counts into turns and, in DRILL, into the
divider, and D_turn marks form a TURN record unless D_turn is 0 (R154). -/
def Obligations.CountsAndScansMakeTheirRecords : Prop :=
  (∀ (i : Instr) (s : State), (∃ e pair, i = .positionCountChange e pair ∧ decodeCount (s.msu.reference e) pair ≠ none) ∨
      (s.lines.xrst = false ∧ ∃ r, i = .scanCompletion r) → ∃ t, exec i s = .next t ∧
    let asked := s.brc.eventsAsked s t (newlyPresent s t)
    let m := t.env.measured
    let acc := s.brc.acc
    let taken := match i with
      | .scanCompletion _ => if s.znt.sessionOpen then { asked with acc := ⟨acc.turns, min 65535 (max acc.tMax m.tMeas),
          min 65535 (max acc.cMax m.fC), min 65535 (max acc.wotPeak t.env.wot)⟩ } else asked
      | _ => asked
    t.brc = taken.stepAsked s t) ∧
  ∀ (pair : Pair) (forward : Bool) (s : State), decodeCount s.msu.angleRef pair = some forward → s.phc.op = none →
    (forward = true → min 65535 (s.stk.aF + 1) < s.gst.settings.lockAngle) →
    (forward = false → min 65535 (s.stk.aR + 1) < s.gst.settings.unlockAngle) →
    ∃ t, exec (.angleCountChange pair) s = .next t ∧ t.stk.joints = s.stk.joints ∧
    let angle := if forward then s.msu.angle + 1 else s.msu.angle - 1
    t.brc =
      if s.znt.sessionOpen = false ∨ s.lines.xrst = true ∨ |(angle - s.msu.markRef).toInt| < 1440 then s.brc
      else s.brc.turnAsked (decide (s.phc.phase = .drill)) s.gst.settings.dTurn s.stk.bottomHole

/-- A record asked for outside a session leaves no trace; in one it is appended with the counter's number while there is
room and no gap pending, and otherwise counted into the gap, which keeps the first lost record's from depth and the last
one's to depth and stays at 65 535 (R148, R149, R155). RECORD_READ shifts out a record's five words, laid out as R180 gives
them: the kind, the event code and the sequence number, the depths, then the contents of the kind, every bit not named 0. -/
def Obligations.RecordsAreHeldAndLaidOut : Prop :=
  (∀ (b : Brc) (isOpen : Bool) (x y : Int) (body : RecordBody), b.ask isOpen x y body =
    if isOpen = false then b
    else if b.fifo.length < 512 ∧ b.gap.pending = false then
      { b with fifo := b.fifo ++ [⟨b.seqCounter, x, y, body⟩], seqCounter := b.seqCounter + 1 }
    else { b with gap := if b.gap.pending then { b.gap with count := min 65535 (b.gap.count + 1), last := y }
      else ⟨1, true, x, y⟩ }) ∧
  ∀ r : Record,
    let word (k : Nat) : BitVec 32 := r.bits.extractLsb' (128 - 32 * k) 32
    let packed (a b c d : Nat) : BitVec 32 := BitVec.ofNat 8 a ++ BitVec.ofNat 8 b ++ BitVec.ofNat 8 c ++ BitVec.ofNat 8 d
    let halves (a b : Int) : BitVec 32 := BitVec.ofInt 16 a ++ BitVec.ofInt 16 b
    (word 0).extractLsb' 0 16 = r.seq ∧ word 1 = BitVec.ofInt 32 r.fromDepth ∧ word 2 = BitVec.ofInt 32 r.toDepth ∧
    match r.body with
    | .none => word 0 = packed 0 0 0 0 ||| (0 : BitVec 16) ++ r.seq ∧ word 3 = 0 ∧ word 4 = 0
    | .opened pile => word 0 = packed 1 0 0 0 ||| (0 : BitVec 16) ++ r.seq ∧ word 3 = (0 : BitVec 16) ++ pile ∧ word 4 = 0
    | .closed pile => word 0 = packed 2 0 0 0 ||| (0 : BitVec 16) ++ r.seq ∧ word 3 = (0 : BitVec 16) ++ pile ∧ word 4 = 0
    | .step a => word 0 = packed 3 0 0 0 ||| (0 : BitVec 16) ++ r.seq ∧ (a.InRange →
        word 3 = packed a.turns 0 0 0 ||| halves 0 a.tMax ∧ word 4 = halves a.cMax a.wotPeak)
    | .turn a => word 0 = packed 4 0 0 0 ||| (0 : BitVec 16) ++ r.seq ∧ (a.InRange →
        word 3 = packed a.turns 0 0 0 ||| halves 0 a.tMax ∧ word 4 = halves a.cMax a.wotPeak)
    | .gap n => word 0 = packed 6 0 0 0 ||| (0 : BitVec 16) ++ r.seq ∧ word 3 = BitVec.ofNat 32 n ∧ word 4 = 0
    | .event d =>
      (word 0).extractLsb' 24 8 = 5 ∧
      match d with
      | .phaseChange x y => (word 0).extractLsb' 16 8 = 1 ∧ word 3 = packed 0x03 x.code y.code 0 ∧ word 4 = 0
      | .locked m => (word 0).extractLsb' 16 8 = 2 ∧ (m < 256 → word 3 = packed 0x04 0 0 m) ∧ word 4 = 0
      | .freed m => (word 0).extractLsb' 16 8 = 3 ∧ (m < 256 → word 3 = packed 0x04 0 0 m) ∧ word 4 = 0
      | .uncertain m => (word 0).extractLsb' 16 8 = 4 ∧ (m < 256 → word 3 = packed 0x04 0 0 m) ∧ word 4 = 0
      | .faultRaised src => (word 0).extractLsb' 16 8 = 5 ∧ word 3 = packed 0x08 0 0 0 ∧ word 4 = packed src.idx.val 0 0 0
      | .xrst => (word 0).extractLsb' 16 8 = 7 ∧ word 3 = 0 ∧ word 4 = 0
      | .zoneEnter z => (word 0).extractLsb' 16 8 = 8 ∧ word 3 = packed 0x10 0 0 0 ∧ word 4 = BitVec.ofNat 32 z
      | .zoneExit z => (word 0).extractLsb' 16 8 = 9 ∧ word 3 = packed 0x10 0 0 0 ∧ word 4 = BitVec.ofNat 32 z

/-! ## Frames -/

/-- A fall of select fixes the response from the summary byte and the pending answer as they stand and drives its first
bit; the clocks then shift out the rest, most significant bit first, then, in a RECORD_READ frame on the cab port, the
160 bits of the oldest record, and 0 after them (R157, R169; entry 20). Nothing but the port changes. -/
def Obligations.ResponseIsShiftedOut : Prop :=
  ∀ (p : Port) (bits : List Bool) (s : State), s.lines.xrst = false → (s.port p).frame = .idle →
    let x := (s.port p).answer
    let response := encodeResponse (s.summary p) (BitVec.ofNat 8 x.code.number) x.x x.y
    let reading := p = .cab ∧ bits.take 8 = [false, true, true, true, false, false, false, false]
    let n := bits.length
    ∃ t, runs (clockIn p bits) s = .next t ∧ KeepsAllBut [.pif] s t ∧ (∀ q, q ≠ p → t.port q = s.port q) ∧
      { t.port p with frame := .idle, dataOut := none } = { s.port p with dataOut := none } ∧
      (t.port p).dataOut = some
        (if n < 56 then response.getMsbD n
         else if n < 216 ∧ reading then s.brc.oldest.bits.getMsbD (n - 56) else false)

/-- A request clocked in bit by bit is the request the rise of select takes: whatever row ends the frame (the bits clocked
in are judged and the ending row's own content is not looked at: the model's choice, entry 5), its effect is that of the
row of the command whose encoding was clocked in (R169, R170, R178, R179). A RECORD_READ frame carries 160 bits more, and
reads the record that was oldest at its 56th clock (R157). -/
def Obligations.ClockedFrameIsTheRequest : Prop :=
  (∀ (c : Cmd) (p : Port) (a b : Word) (s : State), c ≠ .recordRead → s.lines.xrst = false → (s.port p).frame = .idle →
    ∃ t, runs (clockIn p (sentBits (encodeRequest c.code a b))) s = .next t ∧ ∀ i, endsFrame p i →
      exec i t = exec (requestRow c p a b 0) (t.withPort p { t.port p with frame := .idle, dataOut := none })) ∧
  ∀ (p : Port) (a b : Word) (extension : BitVec 160) (s : State), s.lines.xrst = false → (s.port p).frame = .idle →
    ∃ t, runs (clockIn p (sentBits (encodeRequest 0x70 a b) ++ (List.range 160).map extension.getMsbD)) s = .next t ∧
      ∀ i, endsFrame p i →
        exec i t = exec (.recordRead p a b extension) (t.withPort p { t.port p with frame := .idle, dataOut := none })

/-- A fall of select starts a frame: the response is fixed, no clock is counted, 5 ms are left, and the data output
carries its first bit (R169, R171). A clock shifts its bit into the request for the first 56 clocks and is counted up to
65 535, the 56th of a RECORD_READ frame on the cab port latches the oldest record, and the output moves on (R157, R169;
entry 20). Nothing but the port changes. With select high or ignored a clock has no effect; a fall while XRST is asserted starts
nothing, and the end of a frame while XRST is asserted or on an ignored port, whatever row it is, has no effect but to
release the port (R171, R177). -/
def Obligations.FallsAndClocksMoveTheFrame : Prop :=
  (∀ (p : Port) (s : State), s.lines.xrst = false → (s.port p).inFrame = false →
    let x := (s.port p).answer
    let response := encodeResponse (s.summary p) (BitVec.ofNat 8 x.code.number) x.x x.y
    ∃ t, exec (.selectFall p) s = .next t ∧ KeepsAllBut [.pif] s t ∧
      t.pif = s.pif.withPort p { s.port p with
        frame := .shifting ⟨response, 0, 0, false, none, 5⟩, dataOut := some (response.getMsbD 0) }) ∧
  (∀ (p : Port) (bit : Bool) (f : Shift) (s : State), (s.port p).frame = .shifting f →
    let n := min 65535 (f.clocks + 1)
    let request := if f.clocks < 56 then f.request <<< 1 ||| BitVec.ofNat 56 bit.toNat else f.request
    let latched := if f.clocks = 55 then
        (if p = .cab ∧ requestCmd request = 0x70 then some s.brc.oldest else none) else f.latched
    ∃ t, exec (.shiftClock p bit) s = .next t ∧ KeepsAllBut [.pif] s t ∧
      t.pif = s.pif.withPort p { s.port p with
        frame := .shifting { f with
          clocks := n, request := request, latched := latched
          extensionOnes := f.extensionOnes || (decide (56 ≤ f.clocks ∧ f.clocks < 216) && bit) }
        dataOut := some (if n < 56 then f.response.getMsbD n
          else (latched.map fun r => r.bits.getMsbD (n - 56)).getD false) }) ∧
  (∀ (p : Port) (bit : Bool) (s : State), (s.port p).inFrame = false →
    ∃ t, exec (.shiftClock p bit) s = .next t ∧ KeepsAllBut [] s t) ∧
  (∀ (p : Port) (s : State), s.lines.xrst = true → ∃ t, exec (.selectFall p) s = .next t ∧
    t.pif = s.pif.withPort p { s.port p with frame := .ignored, dataOut := none } ∧ KeepsAllBut [.pif] s t) ∧
  ∀ (i : Instr) (p : Port) (s : State), endsFrame p i → s.lines.xrst = true ∨ (s.port p).frame = .ignored →
    ∃ t, exec i s = .next t ∧
      t.pif = s.pif.withPort p { s.port p with frame := .idle, dataOut := none } ∧ KeepsAllBut [.pif] s t

/-- The end of a frame that fails a check: the first that fails, in the order of R170, names the reason; LINK is set and
LINK_REJECT is pending with the clock count, held at 65 535, and the reason, and nothing acts on the request. The same holds
of a frame clocked in bit by bit, judged by the clocks counted and the bits received, whatever row ends it (entry 5). A select
held low for its 5 ms abandons the frame: LINK is set, LINK_REJECT is pending with the clock count and TIMEOUT (6), and
the port takes nothing until select rises and falls again (R171), with TIMEOUT as its last rejection reason (R176;
entry 19); on a port without a frame it has no effect (entry 7). -/
def Obligations.RejectedFramesHaveNoEffect : Prop :=
  (∀ (p : Port) (clocks : Nat) (bits : BitVec 56) (i : Instr) (s : State), s.lines.xrst = false →
     (PortReady p s ∧ i = .linkReject p clocks bits) ∨
       (endsFrame p i ∧ ∃ f, (s.port p).frame = .shifting f ∧ f.clocks ≠ 0 ∧ f.clocks = clocks ∧ f.request = bits) →
     let reason : Nat :=
       if 8 ≤ clocks ∧ bits = 0 then 4
       else if 8 ≤ clocks ∧ bits.toNat = 2 ^ min clocks 56 - 1 then 5
       else if clocks < 56 ∨ clocks ≠ (if requestCmd bits = 0x70 then 216 else 56) then 1
       else if crc8 (bits.extractLsb' 8 48) ≠ bits.extractLsb' 0 8 then 2
       else if requestRsv bits ≠ 0 then 3 else 0
     reason ≠ 0 → ∃ t, exec i s = .next t ∧
       t.pif = s.pif.withPort p ⟨answer .linkReject (min 65535 clocks : Nat) reason, (s.port p).rst, true, reason,
         .idle, none⟩ ∧ KeepsAllBut [.pif] s t) ∧
  (∀ (p : Port) (f : Shift) (s : State), (s.port p).frame = .shifting f →
    ∃ t, exec (.selectTimeout p) s = .next t ∧
      t.pif = s.pif.withPort p ⟨answer .linkReject f.clocks 6, (s.port p).rst, true, 6, .ignored, none⟩ ∧
      KeepsAllBut [.pif] s t) ∧
  ∀ (p : Port) (s : State), (s.port p).inFrame = false →
    ∃ t, exec (.selectTimeout p) s = .next t ∧ KeepsAllBut [] s t

/-- The summary byte is never all 0 and never all 1; its bits are those of R178, CLEAR set while every other is clear
(R173). -/
def Obligations.SummaryByteIsNeverStuck : Prop :=
  ∀ (s : State) (p : Port),
    let sum := s.summary p
    sum ≠ 0x00 ∧ sum ≠ 0xFF ∧
    sum.getLsbD 6 = (s.port p).rst ∧ sum.getLsbD 5 = (s.port p).link ∧
    (∀ group bit, (group, bit) ∈ [(Group.str, 4), (.rot, 3), (.crw, 2), (.hst, 1)] →
      (sum.getLsbD bit = true ↔
        ∃ src : Source, src.group = group ∧ ((s.entry src).latched = true ∨ (s.entry src).condition = true))) ∧
    sum.getLsbD 0 = (s.fsv.warnings.supplyShort || s.fsv.warnings.depthQuality || s.fsv.warnings.fifoFull ||
      s.fsv.warnings.oilWarm || s.fsv.warnings.channelHolding) ∧
    (sum.getLsbD 7 = true ↔ sum &&& 0x7F = 0)

/-! ## Events -/

/-- A rope or stroke encoder change of one line is one count, +1 in the order in which A leads and -1 in the other; it
moves that counter and its millimetres, which floor at the scale, and the STK evaluates: the tool depth follows by R10, no
joint changes its state, the datum, the offsets, the tautness and the accumulators stand, bottom-hole depth advances by R24
(R11), and DEPTH_DISAGREE is decided and no other source (R14). The phase moves by the automatic advance alone (R65). A
change of both lines moves the reference alone (R29, R30). -/
def Obligations.PositionCountMovesTheDepth : Prop :=
  ∀ (e : PositionEncoder) (pair : Pair) (s : State), ∃ t, exec (.positionCountChange e pair) s = .next t ∧
    let ref := s.msu.reference e
    let forward := [((false, false), (true, false)), ((true, false), (true, true)), ((true, true), (false, true)),
      ((false, true), (false, false))]
    let oneLine := ((ref.a, ref.b), (pair.a, pair.b)) ∈ forward ∨ ((pair.a, pair.b), (ref.a, ref.b)) ∈ forward
    let count : BitVec 32 := if ((ref.a, ref.b), (pair.a, pair.b)) ∈ forward then 1 else -1
    if oneLine then
      t.msu = (match e with
        | .rope => { s.msu with ropeRef := pair, rope := s.msu.rope + count
                                ropeMm := ((s.msu.rope + count).toInt * ropeScaleOf s.gst.active).fdiv 1000 }
        | .stroke => { s.msu with strokeRef := pair, stroke := s.msu.stroke + count
                                  strokeMm := ((s.msu.stroke + count).toInt * strokeScaleOf s.gst.active).fdiv 1000 }) ∧
      Evaluated s.stk s t ∧ DisagreementDecided s t ∧ OnlyDisagreement s t ∧
      t.phc = advancedPhc s.gst.settings t.stk (modelMoved s.stk t.stk) s.phc ∧
      KeepsAllBut [.msu, .stk, .phc, .znt, .env, .grants, .faults, .brc, .pif] s t ∧ OnlyAnswers s t
    else
      t.msu = (match e with
        | .rope => { s.msu with ropeRef := pair }
        | .stroke => { s.msu with strokeRef := pair }) ∧
      KeepsAllBut [.msu] s t

/-- An angle count moves the counter, A_f and A_r (R15), ends rest and restarts its timer outside XRST (R42), and moves
the mark reference when the angle stands a revolution from it (R40). In ENGAGING and RELEASING the op angle counts the
unbroken turn of the operation's direction and returns to 0 on the other; on the count that reaches the lock or the unlock
angle the operation completes, into the phase R55 and R59 give for the joints as the count leaves them (R54, R58); without
an operation the phase moves by the automatic advance alone (R65). The records of the count, in the order of R151: LOCKED
at the depth after the evaluation (R17), FREED or UNCERTAIN at the depth before it (R18, R19), naming the joints that
changed; the zones'; FAULT_RAISED for the sources of the firing (R18 to R20) and DEPTH_DISAGREE; the PHASE_CHANGE of a
completed operation or of the automatic advance; then STEP and, at a turn mark, TURN (R153, R154). The STK evaluates where
the lock rule locks a joint and where a firing of the release rule changes the table or stands in RELEASING (R16 to R19):
there bottom-hole depth advances and DEPTH_DISAGREE is decided (R14, R24). Elsewhere nothing of the string model changes
but the accumulators, and no source's condition is decided. A change of both lines moves the reference alone: it is no
count and no motion for rest (R29, R42). -/
def Obligations.AngleCountsAreCounted : Prop :=
  (∀ (pair : Pair) (s : State), decodeCount s.msu.angleRef pair = none →
    ∃ t, exec (.angleCountChange pair) s = .next t ∧ t.msu = { s.msu with angleRef := pair } ∧
      KeepsAllBut [.msu] s t) ∧
  ∀ (pair : Pair) (forward : Bool) (s : State), decodeCount s.msu.angleRef pair = some forward →
    ∃ t, exec (.angleCountChange pair) s = .next t ∧
    let angle := if forward then s.msu.angle + 1 else s.msu.angle - 1
    let marks := s.lines.xrst = false ∧ 1440 ≤ |(angle - s.msu.markRef).toInt|
    let locks := forward = true ∧ s.gst.settings.lockAngle ≤ (t.stk.aF : Int)
    let fires := forward = false ∧ s.gst.settings.unlockAngle ≤ (t.stk.aR : Int) ∧ s.stk.reverseRun = false
    let lost := s.stk.joints.any Joint.isLocked = true
    let evaluates := (locks ∧ s.stk.joints.any (fun j => !j.isLocked && j.aligned.isSome) = true) ∨
      (fires ∧ (s.phc.phase = .releasing ∨ lost))
    let counted := { s.stk with
      aF := t.stk.aF, aR := t.stk.aR, reverseRun := !forward && (s.stk.reverseRun || decide fires) }
    t.msu = { s.msu with
      angle := angle, angleRef := pair
      rest := s.lines.xrst && s.msu.rest
      restTimer := if s.lines.xrst then s.msu.restTimer else some 200
      markRef := if marks then angle else s.msu.markRef } ∧
    t.stk.aF = (if forward then min 65535 (s.stk.aF + 1) else 0) ∧
    t.stk.aR = (if forward then 0 else min 65535 (s.stk.aR + 1)) ∧
    (forward = true → t.stk.reverseRun = false) ∧
    (evaluates → Evaluated { counted with joints := t.stk.joints } s t ∧ DisagreementDecided s t) ∧
    (¬evaluates → t.stk = counted ∧ (t.entry .depthDisagree).condition = (s.entry .depthDisagree).condition) ∧
    (∀ src, src ≠ .depthDisagree → (t.entry src).condition = (s.entry src).condition) ∧
    (¬marks → ∀ src, src ∉ [.depthDisagree, .chainOpen, .reverseOverrun, .unlockUnderLoad] →
      t.entry src = s.entry src) ∧
    (s.phc.op = none → t.phc = advancedPhc s.gst.settings t.stk (modelMoved s.stk t.stk) s.phc) ∧
    OnlyAnswers s t ∧ KeepsAllBut [.msu, .stk, .phc, .znt, .env, .grants, .faults, .brc, .pif] s t ∧
    (PhaseInv s →
      let k := max 0 (s.env.measured.fC + wTotalOf s.gst.active - s.env.measured.lR)
      let frees := s.phc.phase = .releasing ∧ k ≤ s.gst.settings.fRelease
      let asked (mask : Nat) (d : Int) (event : Nat → EventDetail) :=
        if mask = 0 then s.brc else s.brc.ask s.znt.sessionOpen d d (.event (event mask))
      let joints :=
        if locks then asked (jointMask (fun j => !j.isLocked && j.aligned.isSome) s.stk.joints) t.stk.depth .locked
        else if fires ∧ frees then asked (jointMask (fun j => !j.isFree) s.stk.joints) s.stk.depth .freed
        else if fires then asked (jointMask Joint.isLocked s.stk.joints) s.stk.depth .uncertain
        else s.brc
      let raised : List Source :=
        if fires ∧ ¬frees ∧ lost ∧ s.lines.xrst = false then
          (if s.phc.phase = .drill ∨ s.phc.phase = .releasing then [.chainOpen] else []) ++
            [if s.phc.phase = .releasing then .unlockUnderLoad else .reverseOverrun]
        else []
      let evaluated := (joints.eventsAsked s t (raised ++ newlyPresent s t)).stepAsked s t
      t.brc = if s.znt.sessionOpen = true ∧ marks then
          evaluated.turnAsked (decide (t.phc.phase = .drill)) s.gst.settings.dTurn t.stk.bottomHole
        else evaluated) ∧
    (s.phc.phase = .engaging → ∀ o, s.phc.op = some o →
      let n := min 65535 (o.angle + 1)
      if forward = false then t.phc = { s.phc with op := some { o with angle := 0 } }
      else if (n : Int) < s.gst.settings.lockAngle then t.phc = { s.phc with op := some { o with angle := n } }
      else t.phc = ⟨if chainClosed t.stk.joints = true ∧ s.znt.sessionOpen = true ∧ t.stk.quality ≠ .none then .drill
        else .free, none, none, false, false⟩) ∧
    (s.phc.phase = .releasing → ∀ o r, s.phc.op = some o → s.phc.target = some r →
      let n := min 65535 (o.angle + 1)
      if forward = true then t.phc = { s.phc with op := some { o with angle := 0 } }
      else if (n : Int) < s.gst.settings.unlockAngle then t.phc = { s.phc with op := some { o with angle := n } }
      else
        let hoists := allFree t.stk.joints = true ∧ r = .hoist
        t.phc = ⟨if hoists then .hoist else .free, none, none, false,
          decide (hoists ∧ t.stk.quality = .valid ∧ s.gst.settings.spinOffLevel < t.stk.depth)⟩)

/-- On a forward count after which A_f is at or above the lock angle, every joint that is not LOCKED and has an aligned
pocket becomes LOCKED in it, with the LOCKED record first among the event's; the others keep their states. Short of the
angle no joint changes its state (R17). The release rule fires once in a reverse run, on the count after which A_r is at
or above the unlock angle. In RELEASING with the key load at or below F_release every joint becomes FREE; with the load
above it, and in every other phase, every LOCKED joint becomes UNCERTAIN and the others keep their states, and, if a
joint left LOCKED, the sources of R18 to R20 are raised (no raise is taken while XRST is asserted, R146). The FREED
record names the joints made FREE, the UNCERTAIN record those that left LOCKED, first among the event's, at the depth
before the evaluation (R18, R19). A joint locked stands at its pocket's position, and the STK evaluates from the table
so changed, in RELEASING after every firing; on a count that changes no joint outside it the string model but for the
accumulators stands (R16 to R19). -/
def Obligations.LockAndReleaseRules : Prop :=
  (∀ (pair : Pair) (s : State), TableInv s → decodeCount s.msu.angleRef pair = some true →
     ∃ t, exec (.angleCountChange pair) s = .next t ∧
     let mask := jointMask (fun j => !j.isLocked && j.aligned.isSome) s.stk.joints
     let counted := { s.stk with aF := min 65535 (s.stk.aF + 1), aR := 0, reverseRun := false }
     let seated := List.zipWith (fun (j : Joint) (y : JointGeometry) =>
       if j.isLocked then j else match j.aligned with
         | some p => ⟨.locked p, y.pockets.getD p 0, some p⟩
         | none => j) s.stk.joints s.jointGeometry
     if s.gst.settings.lockAngle ≤ min 65535 (s.stk.aF + 1) then
       t.jointStates = s.stk.joints.map (fun j =>
         if j.isLocked then j.state else match j.aligned with | some p => .locked p | none => j.state) ∧
       (mask ≠ 0 → s.znt.sessionOpen = true → s.brc.fifo.length < 512 → s.brc.gap.pending = false →
         ∃ more, t.brc.fifo = s.brc.fifo ++
           ⟨s.brc.seqCounter, t.stk.depth, t.stk.depth, .event (.locked mask)⟩ :: more) ∧
       (if mask = 0 then t.stk = counted else Evaluated { counted with joints := seated } s t)
     else t.jointStates = s.jointStates ∧ t.stk = counted) ∧
  ∀ (pair : Pair) (s : State), decodeCount s.msu.angleRef pair = some false →
    ∃ t, exec (.angleCountChange pair) s = .next t ∧
    let aR := min 65535 (s.stk.aR + 1)
    let k := max 0 (s.env.measured.fC + wTotalOf s.gst.active - s.env.measured.lR)
    let lost := s.stk.joints.any Joint.isLocked
    let recorded (mask : Nat) (event : Nat → EventDetail) : Prop :=
      mask ≠ 0 → s.znt.sessionOpen = true → s.brc.fifo.length < 512 → s.brc.gap.pending = false →
        ∃ more, t.brc.fifo = s.brc.fifo ++ ⟨s.brc.seqCounter, s.stk.depth, s.stk.depth, .event (event mask)⟩ :: more
    let counted := { s.stk with aF := 0, aR := aR }
    if (aR : Int) < s.gst.settings.unlockAngle ∨ s.stk.reverseRun = true then
      t.jointStates = s.jointStates ∧ t.stk = counted
    else
      let fired := { counted with reverseRun := true }
      t.stk.reverseRun = true ∧
      if s.phc.phase = .releasing ∧ k ≤ s.gst.settings.fRelease then
        t.jointStates = s.stk.joints.map (fun _ => .free) ∧
        recorded (jointMask (fun j => !j.isFree) s.stk.joints) .freed ∧
        Evaluated { fired with joints := s.stk.joints.map fun j => { j with state := .free } } s t
      else
        t.jointStates = s.stk.joints.map (fun j => if j.isLocked then .uncertain else j.state) ∧
        recorded (jointMask Joint.isLocked s.stk.joints) .uncertain ∧
        (if s.phc.phase = .releasing ∨ lost = true then
          Evaluated { fired with
            joints := s.stk.joints.map fun j => if j.isLocked then { j with state := .uncertain } else j } s t
         else t.stk = fired) ∧
        (lost = true → s.lines.xrst = false →
          (t.entry (if s.phc.phase = .releasing then .unlockUnderLoad else .reverseOverrun)).latched = true ∧
          (s.phc.phase = .drill ∨ s.phc.phase = .releasing → (t.entry .chainOpen).latched = true))

/-- A scan forms every channel's value from its reading (R33, R34), the measured quantities from the values (R37), the
tautness of the rope (R9) and the conditions of the scan (R130), and the STK evaluates: the depth follows by R10, no joint
changes its state, the datum, the offsets and the accumulators stand, bottom-hole depth advances by R24 (R11), and
DEPTH_DISAGREE is decided with the scan's conditions (R14); the sources of the other blocks and windows keep their
conditions, and the phase moves by the automatic advance alone (R65). Outside HOIST, where no
automatic advance moves the ceilings afterwards, OVERTORQUE is judged against the computed ceiling of the direction the
head last turned and OVERCROWD against the computed C_down and Z_WOT; between the two tests of a row the condition
stands (R130). While XRST is asserted no scan is in flight, and none is taken (R32). -/
def Obligations.ScanIsTaken : Prop :=
  (∀ (r : Readings) (s : State), s.lines.xrst = false → ∃ t, exec (.scanCompletion r) s = .next t ∧
     (∀ c raw, (c, raw) ∈ [(Channel.cd, r.cd), (.cu, r.cu), (.rp, r.rp), (.sp, r.sp), (.rl, r.rl), (.ot, r.ot)] →
       let old := s.msu.channels.get c
       let new := t.msu.channels.get c
       let cal := calibrationOf s.gst.active c
       new.raw = raw ∧
       if raw = 0 ∨ raw = 4095 then
         new.value = old.lastGood ∧ new.lastGood = old.lastGood ∧ new.railRun = min 3 (old.railRun + 1) ∧
           new.holding = (old.holding || decide (3 ≤ old.railRun + 1))
       else
         new.value = max c.range.1 (min c.range.2 (cal.offset + (raw.toNat * cal.gain).fdiv 4096)) ∧
           new.lastGood = new.value ∧ new.railRun = 0 ∧ new.holding = false) ∧
     { t.msu with channels := s.msu.channels } = s.msu ∧
     (let v := t.msu.channels
      t.env.measured = (match s.gst.active with
       | none => ⟨0, 0, v.rl.value, v.ot.value⟩
       | some g => ⟨(v.cd.value * g.aD - v.cu.value * g.aU).tdiv 100, (v.rp.value * g.kRot).tdiv 1000, v.rl.value,
           v.ot.value⟩) ∧
      t.stk.taut = (decide (s.gst.settings.lSlack ≤ v.rl.value) && !v.rl.holding) ∧
      (t.entry .oilHot).condition = decide (s.gst.settings.thetaMax < v.ot.value) ∧
      (t.entry .rotSensor).condition = v.rp.holding ∧
      (t.entry .crwSensor).condition = (v.cd.holding || v.cu.holding || v.sp.holding) ∧
      (t.entry .hstSensor).condition = v.rl.holding ∧ (t.entry .oilSensor).condition = v.ot.holding ∧
      t.fsv.warnings.oilWarm = decide (s.gst.settings.thetaHot < v.ot.value) ∧
      t.fsv.warnings.channelHolding =
       (v.cd.holding || v.cu.holding || v.rp.holding || v.sp.holding || v.rl.holding || v.ot.holding)) ∧
     (s.phc.phase ≠ .hoist →
       let m := t.env.measured
       let c := if 0 < s.stk.aR then t.env.computed.tRev else t.env.computed.tFwd
       let tol := 100 + s.gst.settings.overTolerance
       (t.entry .overtorque).condition =
         (if c * tol < m.tMeas * 100 then true else if m.tMeas ≤ c then false else (s.entry .overtorque).condition) ∧
       (t.entry .overcrowd).condition =
         (if t.env.computed.cDown * tol < m.fC * 100 ∨ t.env.zWot < t.env.wot then true
          else if m.fC ≤ t.env.computed.cDown ∧ t.env.wot ≤ t.env.zWot then false
          else (s.entry .overcrowd).condition)) ∧
     Evaluated { s.stk with taut := t.stk.taut } s t ∧ DisagreementDecided s t ∧
     (∀ src, src ∈ [.estop, .chainOpen, .reverseOverrun, .unlockUnderLoad, .stall, .ropeSlack, .stopOverspeed,
       .opTimeout] → (t.entry src).condition = (s.entry src).condition ∧ (t.entry src).latched = (s.entry src).latched) ∧
     t.phc = advancedPhc s.gst.settings t.stk (modelMoved s.stk t.stk) s.phc ∧ OnlyAnswers s t ∧
     KeepsAllBut [.msu, .stk, .phc, .znt, .env, .measured, .grants, .faults, .brc, .pif] s t) ∧
  ∀ (r : Readings) (s : State), s.lines.xrst = true → ∃ t, exec (.scanCompletion r) s = .next t ∧ KeepsAllBut [] s t

/-- In HOIST the PHC evaluates at every scan and at every count that changes D, the quality or the joint table: in quality
VALID the advance arm is set where D is greater than the spin-off level, and with auto-advance on, the arm set, D at or above
the level and every joint FREE the phase moves to SPIN_OFF by itself, with its envelope (R65); joints confirmed free do the
same (R66). In another quality, and where nothing changed, the PHC stands. -/
def Obligations.HoistAdvancesByItself : Prop :=
  (∀ (i : Instr) (s : State), PhaseInv s → s.phc.phase = .hoist →
    (∃ r, i = .scanCompletion r) ∨ (∃ e pair, i = .positionCountChange e pair) ∨ (∃ pair, i = .angleCountChange pair) →
    ∃ t, exec i s = .next t ∧
      t.phc = advancedPhc s.gst.settings t.stk (modelMoved s.stk t.stk) s.phc ∧
      (t.phc.phase ≠ .hoist → t.env = t.envelope)) ∧
  ∀ (a b : Word) (s : State), CabReady s → PhaseInv s → s.phc.phase = .hoist →
    ∃ t, exec (.confirmFree .cab a b) s = .next t ∧
      t.phc = { advancedPhc s.gst.settings t.stk (modelMoved s.stk t.stk) s.phc with releaseLatch := false } ∧
      (t.phc.phase ≠ .hoist → t.env = t.envelope)

/-- The speed window's expiry forms the payout speed from the rope it paid out in the window, at the scale of this
instant, restarts the window here (R38), and decides ROPE_SLACK and STOP_OVERSPEED (R131), with the records of those
that became present (R134), as the stall window's does. The rest timer's expiry puts the head at rest and stops the
timer (R42). The stall window's expiry decides STALL by the four tests of R132 and starts the window again at the
present angle. Neither window runs while XRST is asserted (R39, R146; entry 28), and the expiry of a timer that does not
run changes nothing (entry 7). -/
def Obligations.WindowsAndRestExpire : Prop :=
  (∀ s : State, ∃ t, exec .windowExpiry s = .next t ∧
     if s.lines.xrst then KeepsAllBut [] s t
     else
       let scale := ropeScaleOf s.gst.active
       let moved := s.msu.ropeMm - (s.msu.windowRef.toInt * scale).fdiv 1000
       let speed := max (-5000) (min 5000 (moved * 10))
       t.msu = { s.msu with speed := speed, windowRef := s.msu.rope, windowTimer := 100 } ∧
       (t.entry .ropeSlack).condition = decide ((s.phc.phase = .free ∨ s.phc.phase = .hoist) ∧ 0 < speed ∧
         s.env.measured.lR < s.gst.settings.lSlack) ∧
       (t.entry .stopOverspeed).condition = decide (s.env.computed.vPay * 11 < speed * 10) ∧
       (∀ src, src ≠ .ropeSlack → src ≠ .stopOverspeed → t.entry src = s.entry src) ∧ OnlyAnswers s t ∧
       t.brc = s.brc.eventsAsked s t (newlyPresent s t) ∧
       KeepsAllBut [.msu, .env, .grants, .faults, .brc, .pif] s t) ∧
  (∀ s : State, ∃ t, exec .restTimerExpiry s = .next t ∧ KeepsAllBut [.msu] s t ∧
    t.msu = (if s.msu.restTimer = none then s.msu else { s.msu with rest := true, restTimer := none })) ∧
  ∀ s : State, ∃ t, exec .stallWindowExpiry s = .next t ∧
    if s.lines.xrst then KeepsAllBut [] s t
    else
      (t.entry .stall).condition = decide (s.phc.phase = .drill ∧ (s.grant .rotary).isActive = true ∧
        0 < (s.grant .rotary).granted ∧ (s.msu.angle - s.fsv.stallRef).toInt < 36 ∧
        s.env.computed.tFwd * 9 ≤ s.env.measured.tMeas * 10) ∧
      t.fsv.stallRef = s.msu.angle ∧ t.fsv.stallTimer = s.gst.settings.stallTime.toNat ∧
      (∀ src, src ≠ .stall → t.entry src = s.entry src) ∧ OnlyAnswers s t ∧
      t.brc = s.brc.eventsAsked s t (newlyPresent s t) ∧
      KeepsAllBut [.env, .grants, .faults, .stall, .brc, .pif] s t

/-- The op timer's expiry raises OP_TIMEOUT and moves ENGAGING to FREE and RELEASING to DRILL, the FAULT_RAISED record
before the PHASE_CHANGE record; the joints and the accumulators stay (R56, R60). Without an operation in flight it
changes nothing (entry 7). The expiry of a grant's life, in its last millisecond, moves an ACTIVE record to
NEUTRAL_WAIT with cause GRANT_EXPIRED, its grant 0 and its permit low, BRAKE_RELEASE with the hoist's; the pending answer
becomes NEUTRAL_REQUIRED with X = 2 and Y = 2 where R104 allows. It makes no record and raises no source (R99, R107). With
more of its life left, renewed by a DEMAND taken first, the expiry does not happen (R108; entry 34), nor in a record that
is not ACTIVE (entry 7). -/
def Obligations.ExpiriesEndOperationsAndGrants : Prop :=
  (∀ s : State, PhaseInv s → s.lines.xrst = false → ∃ t, exec .opTimerExpiry s = .next t ∧
     if s.phc.op = none then KeepsAllBut [] s t
     else
       let target : Phase := if s.phc.phase = .engaging then .free else .drill
       t.phc = ⟨target, none, none, false, false⟩ ∧ (t.entry .opTimeout).latched = true ∧
       (∀ src, src ≠ .opTimeout → t.entry src = s.entry src) ∧
       t.brc = (s.brc.ask s.znt.sessionOpen s.stk.depth s.stk.depth (.event (.faultRaised .opTimeout))).ask
         s.znt.sessionOpen s.stk.depth s.stk.depth (.event (.phaseChange s.phc.phase target)) ∧
       t.env = t.envelope ∧ OnlyAnswers s t ∧ KeepsAllBut [.phc, .env, .grants, .faults, .brc, .pif] s t) ∧
  ∀ (d : Drive) (s : State), ∃ t, exec (.grantExpired d) s = .next t ∧ OtherGrantsKept d s t ∧
    KeepsAllBut [.grants, .pif] s t ∧ (∀ q, q ≠ d.port → t.port q = s.port q) ∧
    match (s.grant d).state with
    | .unacked | .neutralWait _ => t.grant d = s.grant d ∧ t.port d.port = s.port d.port
    | .active life =>
      if 1 < life then t.grant d = s.grant d ∧ t.port d.port = s.port d.port
      else
        t.grant d = ⟨.neutralWait .grantExpired, (s.grant d).lastDemand, 0, (s.grant d).reportedCeiling, false, false,
          false, (s.grant d).hold⟩ ∧
        t.gru.permits.of d = false ∧ (d = .hoist → t.gru.permits.brakeRelease = false) ∧
        t.port d.port = (if (s.port d.port).answer.rewritable && !(s.port d.port).inFrame then
          { s.port d.port with answer := rewritableAnswer .neutralRequired 2 2 } else s.port d.port)

/-- The completion of a commit writes the staging record with its CRC-16 to the store and makes it the active geometry,
clears STORE_CORRUPT, forms the millimetres at the new scales (R164), and rebuilds the joint table with every joint
UNCERTAIN; a changed scale or closed length clears the datum, with quality NONE and D at 0 (R27). The extensions are placed
by the fill of R13 over the joints: from the measured extension where the rope is taut and the datum stands, with the
disagreement it leaves, and otherwise from the sum of the extensions the old table held, with a disagreement of 0; each
joint's aligned pocket is that of its extension (R5, R27). A commit that changes neither scale nor closed length leaves the
datum and both offsets, and every commit the tautness and the accumulators (R15, R27). DEPTH_DISAGREE is decided, and is
absent where the datum is cleared; no other source changes. It makes no bore
record. Without a commit in flight it changes nothing (entry 7). -/
def Obligations.CommitCompletionInstallsTheGeometry : Prop :=
  ∀ s : State, ParkedInv s → ∃ t, exec .commitCompletion s = .next t ∧
    if s.gst.commit = none then KeepsAllBut [] s t
    else
      let g := s.gst.staging
      t.gst = { s.gst with
        store := ⟨g.words, crc16 g.words⟩, active := some g, storeCorrupt := false, commit := none } ∧
      t.msu = { s.msu with
        ropeMm := (s.msu.rope.toInt * g.ropeScale).fdiv 1000
        strokeMm := (s.msu.stroke.toInt * g.strokeScale).fdiv 1000 } ∧
      t.jointStates = g.joints.map (fun _ => .uncertain) ∧
      (∀ old, s.gst.active = some old →
        (old.ropeScale ≠ g.ropeScale ∨ old.strokeScale ≠ g.strokeScale ∨ old.lCl ≠ g.lCl) →
        t.stk.datumSet = false ∧ t.stk.quality = .none ∧ t.stk.depth = 0 ∧ t.stk.disagreement = 0 ∧
          t.stk.ropeOffset = 0 ∧ t.stk.strokeOffset = 0 ∧
          (s.lines.xrst = false → 0 ≤ s.gst.settings.depthTolerance →
            (t.entry .depthDisagree).condition = false)) ∧
      ((∀ old, s.gst.active = some old →
          old.ropeScale = g.ropeScale ∧ old.strokeScale = g.strokeScale ∧ old.lCl = g.lCl) →
        t.stk.datumSet = s.stk.datumSet ∧ t.stk.ropeOffset = s.stk.ropeOffset ∧
          t.stk.strokeOffset = s.stk.strokeOffset) ∧
      (t.stk.taut = s.stk.taut ∧ t.stk.aF = s.stk.aF ∧ t.stk.aR = s.stk.aR ∧ t.stk.reverseRun = s.stk.reverseRun ∧
        t.stk.heldDepth = if t.stk.quality = .valid ∨ t.stk.quality = .strokeOnly then t.stk.depth
          else s.stk.heldDepth) ∧
      DisagreementDecided s t ∧ OnlyDisagreement s t ∧
      (g.InRange →
        let r := if t.stk.quality = .valid then t.pRope - t.headPos - g.lCl else extSum s.stk.joints
        Filled t.stk.joints g.joints r ∧
        t.stk.disagreement = (if t.stk.quality = .valid then r - fillTaken t.stk.joints g.joints r else 0) ∧
        List.Forall₂ (fun x y => x.aligned = y.aligned x.ext) t.stk.joints g.joints) ∧
      t.stk.bottomHole = s.stk.bottomHole ∧ t.phc = s.phc ∧ DepthInv t ∧ t.env = t.envelope ∧ OnlyAnswers s t ∧
      KeepsAllBut [.msu, .stk, .znt, .env, .grants, .faults, .gst, .pif] s t

/-- ESTOP asserted raises source 0: latched, a FAULT_RAISED record, and, unless its override is in force and goes on,
a LATCHED DROP over all three drives, every neutral hold set and no record ACTIVE; every permit is low, and the phase
moves to PARKED with its PHASE_CHANGE record after the other, without OP_TIMEOUT: no other source changes, and the
string model, the measured quantities, the zones and the settings stay (R63, R134, R143). The pending answer of a
drive whose record was ACTIVE becomes NEUTRAL_REQUIRED with Y = 2 where R104 allows, X the cause of the first
withdrawal: DROP where the override begins, else PARKED; every other port stands. The line released makes the
condition absent and leaves latched, the override and the phase (R143). A line that changes while XRST is asserted is
decided when XRST ends (R146); an assertion of a line already asserted is none (entry 7). -/
def Obligations.EstopDropsEveryDrive : Prop :=
  (∀ s : State, EstopFixed s → s.lines.estop = false → ∃ t, exec .estopAssert s = .next t ∧
    t.lines = { s.lines with estop := true } ∧
    if s.lines.xrst then KeepsAllBut [.lines] s t
    else
      let e := s.entry .estop
      let recorded (b : Brc) (d : EventDetail) := b.ask s.znt.sessionOpen s.stk.depth s.stk.depth (.event d)
      let raised := if e.condition then s.brc else recorded s.brc (.faultRaised .estop)
      t.entry .estop = { e with
        condition := true, latched := e.latched || !e.condition
        override := if e.condition ∨ e.override.isSome then e.override else some ⟨.drop, .latched⟩ } ∧
      (∀ src, src ≠ .estop → t.entry src = s.entry src) ∧
      { t.fsv with table := s.fsv.table, dropReach := s.fsv.dropReach, warnings := s.fsv.warnings } = s.fsv ∧
      (e.condition = false → e.override = none →
        t.fsv.dropReach = ⟨true, true, true⟩ ∧ ∀ d, (t.grant d).hold = true ∧ (t.grant d).isActive = false) ∧
      (e.condition = true ∨ e.override.isSome = true → t.fsv.dropReach = s.fsv.dropReach ∧
        ∀ d, (t.grant d).hold = (s.grant d).hold) ∧
      t.gru.permits = Permits.low ∧
      (if s.phc.phase = .parked then t.phc = s.phc ∧ t.brc = raised ∧ t.env = s.env
       else t.phc = ⟨.parked, none, none, false, false⟩ ∧ t.brc = recorded raised (.phaseChange s.phc.phase .parked) ∧
         t.env = t.envelope ∧
         ∀ d, (s.grant d).state ≠ .unacked → (t.grant d).state = .neutralWait .parked ∧
           ((s.grant d).isActive = true → (t.grant d).granted = 0)) ∧
      (∀ d, (s.grant d).isActive = true →
        if e.condition = false ∧ e.override = none then AnswerWithdrawn d .drop s t
        else if s.phc.phase ≠ .parked then AnswerWithdrawn d .parked s t
        else t.port d.port = s.port d.port) ∧
      (∀ d, (s.grant d).isActive = false → t.port d.port = s.port d.port) ∧ t.port .cab = s.port .cab ∧
      KeepsAllBut [.phc, .env, .grants, .faults, .brc, .pif, .lines] s t) ∧
  (∀ s : State, s.lines.estop = true → ∃ t, exec .estopAssert s = .next t ∧ KeepsAllBut [] s t) ∧
  ∀ s : State, ∃ t, exec .estopRelease s = .next t ∧ t.lines = { s.lines with estop := false } ∧
    (t.entry .estop) = (if s.lines.xrst then s.entry .estop else { s.entry .estop with condition := false }) ∧
    (∀ src, src ≠ .estop → t.entry src = s.entry src) ∧ KeepsAllBut [.lines, .faults] s t

/-! ## Resets -/

/-- POR starts every block from the store it reads. GST: the geometry is loaded when the CRC-16 is good and absent
with STORE_CORRUPT otherwise, every setting at its default (R165, R167). MSU: counters, millimetres, speed, references
of the window and of the turn mark and channels 0, the decoders' references at the lines, the speed window at 100 ms
and the rest timer at 200 ms (R31, R35, R39, R41, R43). STK: every joint UNCERTAIN at extension 0 with the pocket
aligned there, offsets, accumulators, disagreement and bottom-hole depth 0, not taut, quality NONE (R25; the held
value of D: entry 30). PHC: PARKED with nothing in flight (R68). ZNT: every entry as R114 gives, the mask empty, no
cap, the session CLOSED (R126). GRU: every record UNACKED and the permits low (R112). FSV: every entry absent, clear
and at its default, group mode ISOLATE, the stall window at its default, warning 1 alone set (R146). BRC: empty, its
counter, gap, accumulators, divider and boundaries 0 (R159). PIF: RESTART with X = 1 pending on every port (R177).
ENV: recomputed from these, measured quantities 0 (R92). An ESTOP line asserted is raised at once: a LATCHED DROP over
all three drives, every neutral hold set (R146). With a commit in flight the store read is what its write had reached:
of the 94 words of the staging record and its CRC, in rising number, some number k written, the next one torn and the
rest as they were (R165, R181; k and the torn word are free: the model's choice, entry 10). The lines stand as the row
says, XRST released (the model's choice: entry 11); a word out of its item's range is brought within it in the active
geometry as in the staging record (the model's choice: entry 37). -/
def Obligations.PorStartsFromTheStore : Prop :=
  ∀ (l : LineLevels) (s : State), ∃ t, exec (.por l) s = .next t ∧ ∃ (k : Nat) (torn : Word), k < 94 ∧
    let store := if s.gst.commit.isSome then s.gst.store.cutOff (.ofGeometry s.gst.staging) k torn else s.gst.store
    let good := crc16 store.data = store.crc
    let g := Geometry.ofWords store.data
    t.gst = ⟨store, if good then some g else none, !decide good, g, false, none, Settings.default⟩ ∧
    t.msu = {
      rope := 0, stroke := 0, angle := 0, ropeRef := l.rope, strokeRef := l.stroke, angleRef := l.angle
      ropeMm := 0, strokeMm := 0, channels := .all ⟨0, 0, 0, 0, false⟩
      windowTimer := 100, windowRef := 0, speed := 0, markRef := 0, rest := false, restTimer := some 200 } ∧
    t.stk = {
      joints := if good then g.joints.map (fun j => ⟨.uncertain, 0, j.aligned 0⟩) else []
      ropeOffset := 0, strokeOffset := 0, datumSet := false, quality := .none, depth := 0, heldDepth := 0
      taut := false, disagreement := 0, bottomHole := 0, aF := 0, aR := 0, reverseRun := false } ∧
    t.phc = ⟨.parked, none, none, false, false⟩ ∧
    ((∀ i : Fin 8, t.znt.zones[i] = ⟨false, 0, 0, 65535, 65535, 65535, 65535, 0⟩) ∧ t.znt.mask = [] ∧
      t.znt.combined = [] ∧ t.znt.limits = ⟨65535, 65535, 65535, 65535, false, false⟩ ∧
      t.znt.sessionOpen = false ∧ t.znt.pile = 0) ∧
    t.env = t.envelope ∧ t.env.measured = ⟨0, 0, 0, 0⟩ ∧
    t.gru.permits = Permits.low ∧
    (∀ d, t.grant d = ⟨.unacked, 0, 0, 0, false, false, false, l.estop⟩) ∧
    (∀ src : Source, src ≠ .estop →
      t.entry src = ⟨false, false, src.defaultMode, src.defaultAction, none, none, none⟩) ∧
    t.entry .estop = ⟨l.estop, l.estop, .latched, .drop, none, none,
      if l.estop then some ⟨.drop, .latched⟩ else none⟩ ∧
    (t.fsv.groupMode = .isolate ∧ t.fsv.pendingGroupMode = none ∧ t.fsv.limitReach = DriveSet.empty ∧
      t.fsv.dropReach = ⟨l.estop, l.estop, l.estop⟩ ∧ t.fsv.stallTimer = 1500 ∧ t.fsv.stallRef = 0 ∧
      t.fsv.warnings = ⟨false, true, false, false, false⟩) ∧
    t.brc = ⟨[], 0, ⟨0, false, 0, 0⟩, ⟨0, 0, 0, 0⟩, 0, 0, 0⟩ ∧
    (∀ p, (t.port p).answer = ⟨.restart, 1, 0, false⟩ ∧ (t.port p).rst = true ∧ (t.port p).link = false ∧
      (t.port p).lastReason = 0 ∧ (t.port p).inFrame = false ∧ (t.port p).dataOut = none) ∧
    t.lines = ⟨l.estop, false, l.storeWp⟩

/-- XRST asserted keeps the counters, the decoders' references and the mark reference, the zones, the session, the
FIFO's records and the settings (R31, R41), puts the phase to PARKED (R67), every record to UNACKED with the permits
low (R112), the fault table to no condition, no latched, no override and the pending values installed (R146), A_f and
A_r to 0 (R26), the store enable latch clear (R162), the channels to no hold (R35), and every port to RESTART with X =
2 (R177). The envelope record stands until XRST ends (entry 39). The string model stands but for the accumulators, and
the XRST record is the event's only one, unless a release with 2 A_r above the unlock angle is cut off and a joint is
LOCKED: then every LOCKED joint is UNCERTAIN, every other keeps its state, the UNCERTAIN record follows the XRST
record, and the depth is evaluated (R26, R151). XRST ended restarts the speed window, the rest timer and the stall
window at the present counts (R39, R43, R146; that they take their references here: entry 28), takes the mark
reference here (R41), recomputes the envelope (R92) and takes the warnings afresh (R146); an ESTOP still asserted is
raised at once: latched, a LATCHED DROP over all three drives, every neutral hold set, and its record (R112, R143,
R146). The joints, the counters, the settings, the zone table, the session state, the pile number and the ports stay
(R122, R126). An end of a line that is not asserted changes nothing, nor does a second assertion (entry 7). -/
def Obligations.XrstResetsAndRestarts : Prop :=
  (∀ s : State, s.lines.xrst = false → ∃ t, exec .xrstAssert s = .next t ∧
    t.lines = { s.lines with xrst := true } ∧
    t.msu = { s.msu with
      channels := t.msu.channels, speed := 0, windowRef := s.msu.rope, windowTimer := 100, rest := false
      restTimer := none } ∧
    (∀ c, t.msu.channels.get c = { s.msu.channels.get c with railRun := 0, holding := false }) ∧
    (let cleared := { s.stk with aF := 0, aR := 0, reverseRun := false }
     let asked (b : Brc) (depth : Int) (d : EventDetail) := b.ask s.znt.sessionOpen depth depth (.event d)
     let xrst := asked s.brc s.stk.depth .xrst
     if s.phc.phase = .releasing ∧ s.gst.settings.unlockAngle < 2 * (s.stk.aR : Int) ∧
         s.stk.joints.any Joint.isLocked = true then
       t.jointStates = s.stk.joints.map (fun j => if j.isLocked then .uncertain else j.state) ∧
       Evaluated { cleared with
         joints := s.stk.joints.map fun j => if j.isLocked then { j with state := .uncertain } else j } s t ∧
       (s.znt.sessionOpen = true → s.brc.fifo.length < 511 → s.brc.gap.pending = false → ∃ more,
         t.brc.fifo = s.brc.fifo ++ ⟨s.brc.seqCounter, s.stk.depth, s.stk.depth, .event .xrst⟩ ::
           ⟨s.brc.seqCounter + 1, s.stk.depth, s.stk.depth, .event (.uncertain (jointMask Joint.isLocked s.stk.joints))⟩ ::
           more)
     else t.stk = cleared ∧ (ZoneInv s → t.brc = xrst ∧ t.znt = s.znt)) ∧
    t.phc = ⟨.parked, none, none, false, false⟩ ∧ t.gst = { s.gst with storeEnable := false } ∧
    t.znt.zones = s.znt.zones ∧ t.znt.sessionOpen = s.znt.sessionOpen ∧ t.znt.pile = s.znt.pile ∧
    (∀ d, t.grant d = ⟨.unacked, 0, 0, 0, false, false, false, false⟩) ∧ t.gru.permits = Permits.low ∧
    (∀ src, t.entry src = ⟨false, false, (s.entry src).pendingMode.getD (s.entry src).mode,
      (s.entry src).pendingAction.getD (s.entry src).action, none, none, none⟩) ∧
    t.fsv.limitReach = DriveSet.empty ∧ t.fsv.dropReach = DriveSet.empty ∧
    (∃ more, t.brc.fifo = s.brc.fifo ++ more) ∧ t.env = s.env ∧
    ∀ p, (t.port p).answer = ⟨.restart, 2, 0, false⟩ ∧ (t.port p).rst = true ∧ (t.port p).link = false ∧
      (t.port p).lastReason = 0 ∧ (t.port p).inFrame = false ∧ (t.port p).dataOut = none) ∧
  (∀ s : State, s.lines.xrst = true → s.phc.phase = .parked → ∃ t, exec .xrstEnd s = .next t ∧
    t.lines = { s.lines with xrst := false } ∧
    t.msu = { s.msu with
      windowTimer := 100, windowRef := s.msu.rope, restTimer := some 200, markRef := s.msu.angle } ∧
    t.fsv.stallRef = s.msu.angle ∧ t.fsv.stallTimer = s.gst.settings.stallTime.toNat ∧
    t.fsv.warnings.oilWarm = decide (s.gst.settings.thetaHot < s.env.measured.theta) ∧
    (t.fsv.warnings.channelHolding = true ↔ ∃ c, (s.msu.channels.get c).holding = true) ∧
    (∀ src, src ≠ .estop → t.entry src = s.entry src) ∧
    (s.lines.estop = false → t.entry .estop = s.entry .estop ∧ (ZoneInv s → t.brc = s.brc)) ∧
    (s.lines.estop = true → EstopFixed s → (s.entry .estop).condition = false → (s.entry .estop).override = none →
      t.entry .estop = { s.entry .estop with
        condition := true, latched := true, override := some ⟨.drop, .latched⟩ } ∧
      t.fsv.dropReach = ⟨true, true, true⟩ ∧ t.gru.permits = Permits.low ∧
      (∀ d, (t.grant d).hold = true ∧ (t.grant d).isActive = false ∧
        ((s.grant d).state = .unacked → (t.grant d).state = .unacked)) ∧
      (ZoneInv s → t.brc =
        s.brc.ask s.znt.sessionOpen s.stk.depth s.stk.depth (.event (.faultRaised .estop)))) ∧
    t.znt.zones = s.znt.zones ∧ t.znt.sessionOpen = s.znt.sessionOpen ∧ t.znt.pile = s.znt.pile ∧
    t.env = t.envelope ∧ OnlyAnswers s t ∧
    KeepsAllBut [.msu, .znt, .env, .grants, .faults, .stall, .brc, .pif, .lines] s t) ∧
  (∀ s : State, s.lines.xrst = false → ∃ t, exec .xrstEnd s = .next t ∧ KeepsAllBut [] s t) ∧
  ∀ s : State, s.lines.xrst = true → ∃ t, exec .xrstAssert s = .next t ∧ KeepsAllBut [] s t

/-! ## The envelope, the overrides, the grants -/

/-- The envelope record is what the stages give (R76 to R90). The derate; T_base and the torque ceilings of the phase,
derated, with reverse torque 0 in a NO_REVERSE zone in DRILL and while the budget is spent (R76 to R80); crowd down in
DRILL and FREE from the closed chain or, with the chain open, from the LOCKED joints outward of j* and j*'s friction,
derated, and crowd up (R82 to R84); the two pressure ceilings and SUPPLY_SHORT (R81, R85); the speed caps of the
phase, payout in FREE slowed where the joint taking extension has little room or there is none, both within the zones'
cap (R87, R88); L_ceil and L_min (R86); WOT and K, the axial load of the scan, not clamped above (R89); the combined
limits as the ENV used them, the zones' weight-on-tool cap brought down to WOT_max (R75, R93); a drive a LIMIT
override reaches has its fields forced to 0 and no other differs from the computed one (R90). So no torque ceiling
exceeds the head's rated torque, a configured bar's or the zones' cap, and crowd down neither the head's rated crowd
nor the zones' cap (R78, R82). The premises are ranges the invariants give. While there is no active geometry the
record is zeroed: every ceiling 0, the derate that of theta, W_total 0 in WOT and K, SUPPLY_SHORT and the budget flag
clear (R74), the limits as before. The measured quantities stand through every recomputation. -/
def Obligations.EnvelopeFollowsTheStages : Prop :=
  (∀ (s : State) (g : Geometry), s.gst.active = some g → g.InRange → SettingsInv s →
    s.stk.joints.length = g.joints.length → 0 ≤ s.env.measured.tMeas →
    0 ≤ s.znt.limits.zT → 0 ≤ s.znt.limits.zC → 0 ≤ s.znt.limits.zV →
    let e := s.envelope
    let c := e.computed
    let t := s.gst.settings
    let z := s.znt.limits
    let m := s.env.measured
    let phase := s.phc.phase
    let locked := s.stk.joints.takeWhile Joint.isLocked
    let base := min (g.torques.foldl min g.tHead) z.zT
    let forward : Int := match phase with
      | .parked | .releasing => 0
      | .free => t.tFree
      | .engaging => t.tSeat
      | .drill => base
      | .hoist => t.tHold
      | .spinOff => t.tSpin
    let reverse : Int := match phase with
      | .parked | .engaging | .hoist => 0
      | .free => t.tFree
      | .drill => t.tFreeTool
      | .releasing => t.tRelease
      | .spinOff => t.tSpin
    let spent := s.stk.joints.any Joint.isLocked = true ∧ phase ≠ .releasing ∧
      t.unlockAngle - t.reverseMargin ≤ s.stk.aR
    let through := ((g.joints.take locked.length).map JointGeometry.crowd).foldl min g.cHead
    let crowd := match g.joints[locked.length]? with
      | none => min (min through (max 0 (min t.wotMax z.zWot - g.wTotal + m.lR))) z.zC
      | some j => min (min through ((j.friction * m.tMeas).fdiv j.keyRadius)) z.zC
    let q := (c.cDown * 100 + s.msu.channels.cu.value * g.aU).fdiv g.aD
    let pRot := (max c.tFwd c.tRev * 1000).fdiv g.kRot
    let avail := max 0 (s.msu.channels.sp.value - t.pMargin)
    let slow := match takingRoom s.stk.joints g.joints with
      | some room => decide (room < t.sSlow)
      | none => true
    let reach := s.fsv.limitReach
    (e.dr = if m.theta ≤ t.thetaHot then 100 else 75) ∧
    c.tFwd = (min base forward * e.dr).fdiv 100 ∧ e.budgetSpent = decide spent ∧
    c.tRev = (if (z.noReverse = true ∧ phase = .drill) ∨ spent then 0 else (min base reverse * e.dr).fdiv 100) ∧
    c.cDown = (match phase with
      | .drill => (crowd * e.dr).fdiv 100
      | .free => (min crowd t.cFree * e.dr).fdiv 100
      | .parked | .engaging | .releasing | .hoist | .spinOff => 0) ∧
    c.cUp = (match phase with
      | .free | .hoist | .spinOff => t.cPull
      | .parked | .engaging | .drill | .releasing => 0) ∧
    c.pRotMax = max 0 (min 65535 (min pRot avail)) ∧ c.pCdMax = max 0 (min 65535 (min q avail)) ∧
    e.supplyShort = decide (avail < q ∨ avail < pRot) ∧
    c.vPay = (match phase with
      | .parked | .releasing | .hoist => 0
      | .free => min (if slow then min t.vFree t.vStop else t.vFree) z.zV
      | .engaging | .spinOff => min t.vAlign z.zV
      | .drill => min t.vFollow z.zV) ∧
    c.vHaul = (match phase with
      | .parked => 0
      | .free | .hoist => min t.vFree z.zV
      | .engaging | .releasing | .spinOff => min t.vAlign z.zV
      | .drill => min t.vFollow z.zV) ∧
    e.lCeil = g.lRated ∧ e.lMin = (if phase = .drill then t.lFollow else 0) ∧
    e.wot = max 0 (m.fC + g.wTotal - m.lR) ∧ e.k = e.wot ∧
    e.zT = z.zT ∧ e.zC = z.zC ∧ e.zWot = min t.wotMax z.zWot ∧ e.zV = z.zV ∧
    e.grant = ⟨if reach.rotary then 0 else c.tFwd, if reach.rotary then 0 else c.tRev,
      if reach.crowd then 0 else c.cDown, if reach.crowd then 0 else c.cUp,
      if reach.rotary then 0 else c.pRotMax, if reach.crowd then 0 else c.pCdMax,
      if reach.hoist then 0 else c.vPay, if reach.hoist then 0 else c.vHaul⟩ ∧
    (∀ x ∈ [c.tFwd, c.tRev], 0 ≤ x ∧ x ≤ g.tHead ∧ x ≤ z.zT ∧ ∀ bar ∈ g.torques, x ≤ bar) ∧
    0 ≤ c.cDown ∧ c.cDown ≤ g.cHead ∧ c.cDown ≤ z.zC ∧ e.measured = m) ∧
  ∀ s : State, s.gst.active = none →
    let e := s.envelope
    let m := s.env.measured
    e.grant = Ceilings.zero ∧ e.computed = Ceilings.zero ∧ e.lMin = 0 ∧ e.lCeil = 0 ∧
    e.dr = (if m.theta ≤ s.gst.settings.thetaHot then 100 else 75) ∧ e.measured = m ∧ e.wot = max 0 (m.fC - m.lR) ∧
    e.k = e.wot ∧ e.supplyShort = false ∧ e.budgetSpent = false ∧
    e.zT = s.znt.limits.zT ∧ e.zC = s.znt.limits.zC ∧ e.zWot = min s.gst.settings.wotMax s.znt.limits.zWot ∧
    e.zV = s.znt.limits.zV

/-- A raise sets latched and asks for one FAULT_RAISED record, and, when the entry has an action and no override of
the source is in force, begins the override with the entry's action and mode; an override in force goes on as it is,
and no other entry changes (R134). A LATCHED DROP that begins puts every ACTIVE record it reaches into NEUTRAL_WAIT
with cause DROP and its grant taken, and sets the neutral hold (R111); the pending answer of such a drive becomes
NEUTRAL_REQUIRED with X the cause DROP and Y = 2 where R104 allows, and every other port stands. A command other than
a reset that makes a condition present raises its source: latched is set, and, a boundary apart, the override in force
after it is the one before it or the one that begins here (R134). -/
def Obligations.RaiseLatchesAndBegins : Prop :=
  (∀ (i : Instr) (s t : State), (∀ l, i ≠ .por l) → i ≠ .xrstAssert → exec i s = .next t → ∀ src,
    (s.entry src).condition = false → (t.entry src).condition = true →
    (t.entry src).latched = true ∧
    (¬TakesBoundary i s → (t.entry src).override =
      if (s.entry src).override.isSome then (s.entry src).override
      else match (s.entry src).action with
        | .none => none
        | .limit => some ⟨.limit, (s.entry src).mode⟩
        | .drop => some ⟨.drop, (s.entry src).mode⟩)) ∧
  ∀ (src : Source) (s : State), s.lines.xrst = false →
    let t := raise src s
    let e := s.entry src
    (t.entry src).latched = true ∧ (t.entry src).condition = e.condition ∧
    (t.entry src).override = (if e.override.isSome then e.override
      else match e.action with
        | .none => none
        | .limit => some ⟨.limit, e.mode⟩
        | .drop => some ⟨.drop, e.mode⟩) ∧
    (∀ other, other ≠ src → t.entry other = s.entry other) ∧
    t.brc = s.brc.ask s.znt.sessionOpen s.stk.depth s.stk.depth (.event (.faultRaised src)) ∧
    (e.override = none → e.action = .drop → e.mode = .latched → ∀ d,
      (src.group.reach s.fsv.groupMode).has d = true →
        (t.grant d).hold = true ∧ (t.grant d).isActive = false ∧
        ((s.grant d).isActive = true → t.grant d =
          ⟨.neutralWait .drop, (s.grant d).lastDemand, 0, (s.grant d).reportedCeiling, false, false, false, true⟩)) ∧
    (e.override = none → e.action = .drop → e.mode = .latched → t.port .cab = s.port .cab ∧ ∀ d,
      if (src.group.reach s.fsv.groupMode).has d = true ∧ (s.grant d).isActive = true then AnswerWithdrawn d .drop s t
      else t.port d.port = s.port d.port)

/-- A boundary installs the pending values, ends every override whose condition is absent and whose mode is CYCLIC,
whose latched is clear, or whose action is NONE, and begins one for every source without one whose action is LIMIT or
DROP and whose condition is present (R136 to R138, R141); conditions and latched stand, and a drive's neutral hold is
set exactly while a DROP that began LATCHED reaches it (R111). A drive that such a DROP newly reaches is handled as at
a beginning: an ACTIVE record and one in NEUTRAL_WAIT stand in NEUTRAL_WAIT with cause DROP, the pending answer of the
ACTIVE one rewritten so where R104 allows, and one in UNACKED stays (R99, R136); each override is judged by itself,
whatever else holds the drive (the model's choice: entry 35). A drive held before and reached by no new one keeps its
record's state. -/
def Obligations.BoundaryReconsidersOverrides : Prop :=
  ∀ s : State,
    let t := takeBoundary s
    (∀ src : Source,
      let e := s.entry src
      let mode := e.pendingMode.getD e.mode
      let action := e.pendingAction.getD e.action
      let ends := e.condition = false ∧ (mode = .cyclic ∨ e.latched = false ∨ action = .none)
      t.entry src = {
        condition := e.condition, latched := e.latched, mode := mode, action := action
        pendingMode := none, pendingAction := none
        override := if e.override.isSome ∧ ¬ends then e.override
          else if e.condition then
            match action with
            | .none => none
            | .limit => some ⟨.limit, mode⟩
            | .drop => some ⟨.drop, mode⟩
          else none }) ∧
    t.fsv.groupMode = s.fsv.pendingGroupMode.getD s.fsv.groupMode ∧ t.fsv.pendingGroupMode = none ∧
    (∀ d, (t.grant d).hold = true ↔ ∃ src o, (t.entry src).override = some o ∧ o.action = .drop ∧
      o.startMode = .latched ∧ (src.group.reach t.fsv.groupMode).has d = true) ∧
    (∀ d,
      let newly := ∃ src o, (t.entry src).override = some o ∧ o.action = .drop ∧ o.startMode = .latched ∧
        (src.group.reach t.fsv.groupMode).has d = true ∧
        ((s.entry src).override = none ∨ (src.group.reach s.fsv.groupMode).has d = false)
      (newly → (t.grant d).isActive = false ∧
        ((s.grant d).state ≠ .unacked → (t.grant d).state = .neutralWait .drop) ∧
        ((s.grant d).isActive = true → AnswerWithdrawn d .drop s t)) ∧
      (¬newly → (s.grant d).hold = true ∨ (t.grant d).hold = false → (t.grant d).state = (s.grant d).state)) ∧
    KeepsAllBut [.faults, .env, .grants, .pif] s t

/-- A turn mark, and a scan while the head is at rest, takes a boundary (R44): the pending values are installed, an
override whose condition is absent by then and whose mode is CYCLIC, whose latched is clear, or whose action is NONE has
ended, every other goes on, and a source whose condition is present has one if its action asks for it (R136). No other
command takes one: whatever it does, resets apart, every override in force goes on, and the modes, the actions and the
group mode in force stand. -/
def Obligations.BoundariesComeFromMarksAndScans : Prop :=
  (∀ (i : Instr) (s : State), TakesBoundary i s → ∃ t, exec i s = .next t ∧
    t.fsv.groupMode = s.fsv.pendingGroupMode.getD s.fsv.groupMode ∧ t.fsv.pendingGroupMode = none ∧
    ∀ src : Source,
      let e := s.entry src
      let x := t.entry src
      let ends := x.condition = false ∧ (x.mode = .cyclic ∨ x.latched = false ∨ x.action = .none)
      x.mode = e.pendingMode.getD e.mode ∧ x.action = e.pendingAction.getD e.action ∧
      x.pendingMode = none ∧ x.pendingAction = none ∧ (ends → x.override = none) ∧
      (∀ o, e.override = some o → ¬ends → x.override = some o) ∧
      (x.condition = true → x.action ≠ .none → x.override.isSome = true)) ∧
  ∀ (i : Instr) (s t : State), ¬TakesBoundary i s → (∀ l, i ≠ .por l) → i ≠ .xrstAssert → exec i s = .next t →
    t.fsv.groupMode = s.fsv.groupMode ∧
    ∀ src : Source, (t.entry src).mode = (s.entry src).mode ∧ (t.entry src).action = (s.entry src).action ∧
      ∀ o, (s.entry src).override = some o → (t.entry src).override = some o

/-- A re-clamp lowers every ACTIVE grant above its field to the field, keeping its sign and flagging it REDUCED, leaves
the others, and never raises one; the pending answer becomes REDUCED with the new magnitude and the Y of R95, and the
reported ceiling takes that Y, where R104 allows (R103). -/
def Obligations.ReclampLowersGrants : Prop :=
  ∀ (s : State) (d : Drive) (life : Nat) (v : Int) (b : Word) (c y : Int), s.env.grant.InRange →
    (s.grant d).state = .active life → (s.grant d).granted = v →
    (d, b, c, y) ∈ demandTable s.env → (b = 1 ↔ v < 0) →
    let t := reclamp s
    let rewritten := (s.port d.port).answer.rewritable && !(s.port d.port).inFrame
    if c < |v| then
      t.grant d = { s.grant d with
        granted := if v < 0 then -c else c, reduced := true
        reportedCeiling := if rewritten then y else (s.grant d).reportedCeiling } ∧
      t.port d.port = (if rewritten then { s.port d.port with answer := rewritableAnswer .reduced c y }
        else s.port d.port)
    else t.grant d = s.grant d ∧ t.port d.port = s.port d.port

/-! ## What every step keeps -/

/-- Whatever a command does while a pile session is OPEN, bottom-hole depth does not decrease (R24), and neither the
active geometry nor the zone table changes (R125); POR, which ends the session, apart. ParkedInv rules out a commit in
flight with a session OPEN. -/
def Obligations.OpenSessionFreezesTheTables : Prop :=
  ∀ (i : Instr) (s t : State), ParkedInv s → s.znt.sessionOpen = true → exec i s = .next t → (∀ l, i ≠ .por l) →
    s.stk.bottomHole ≤ t.stk.bottomHole ∧ t.gst.active = s.gst.active ∧ t.gst.staging = s.gst.staging ∧
      t.znt.zones = s.znt.zones ∧ (t.znt.sessionOpen = true → t.znt.pile = s.znt.pile)

/-- RELEASING is entered only from DRILL with the release latch set (R57), DRILL only from ENGAGING or RELEASING,
ENGAGING only from FREE; a joint passes from LOCKED to FREE only in RELEASING with the key load at or
below F_release (R18). Every change of phase clears the release latch (R48, step 2). -/
def Obligations.PhasesAndJointsMoveByTheRules : Prop :=
  ∀ (i : Instr) (s t : State), PhaseInv s → exec i s = .next t →
    (t.phc.phase = .releasing → s.phc.phase ≠ .releasing → s.phc.phase = .drill ∧ s.phc.releaseLatch = true) ∧
    (t.phc.phase = .drill → s.phc.phase ≠ .drill → s.phc.phase = .engaging ∨ s.phc.phase = .releasing) ∧
    (t.phc.phase ≠ s.phc.phase → t.phc.releaseLatch = false) ∧
    (t.phc.phase = .engaging → s.phc.phase ≠ .engaging → s.phc.phase = .free) ∧
    ∀ (j : Nat) (x y : Joint), s.stk.joints[j]? = some x → t.stk.joints[j]? = some y → x.isLocked = true →
      y.isFree = true → s.phc.phase = .releasing ∧
        max 0 (s.env.measured.fC + wTotalOf s.gst.active - s.env.measured.lR) ≤ s.gst.settings.fRelease

/-- No step leaves a state in which the operation, its timer, the release target or the advance arm stands in a phase
without it, a session or a phase other than PARKED without an active geometry, or a commit in flight outside PARKED (R46,
R68, R164). -/
def Obligations.PhasesStayConsistent : Prop :=
  ∀ s t : State, ParkedInv s → step s = .next t → ParkedInv t

/-- The release latch and the store enable latch are never set together (R162); the mode and action of ESTOP are LATCHED
and DROP for ever (R128, R141); every setting stays in its range and the reverse margin below the unlock angle (R166). -/
def Obligations.LatchesEstopAndSettingsStay : Prop :=
  (∀ s t : State, LatchInv s → step s = .next t → LatchInv t) ∧
  (∀ s t : State, EstopFixed s → step s = .next t → EstopFixed t) ∧
  ∀ s t : State, SettingsInv s → step s = .next t → SettingsInv t

/-- No granted magnitude exceeds the ceiling the envelope gives for that drive and direction, a drive without an
ACTIVE record is granted 0, and RST is set exactly while the record is UNACKED (R96, R103). Under every well-formed
command but DEMAND and ACK_RESET on the drive's port and the resets, the last demand stands (R94), no magnitude
granted rises, and a lowered one keeps its sign and is flagged REDUCED (R103); a record comes out of UNACKED and into
ACTIVE by none of them; and one leaves ACTIVE only by the expiry of its life (R107), an entry to PARKED, or a LATCHED
DROP that newly reaches it (R99, R111), its grant 0 and its flags clear. A pending answer, at any command that does
not end or time out a frame on its port and is no reset, stands, and the reported ceiling with it, where it is not
rewritable, where the next frame has begun, and where the grant is not lowered and not withdrawn; else it becomes
REDUCED with the new magnitude and the reported ceiling, or NEUTRAL_REQUIRED with X the cause of the withdrawal and Y
= 2 (R104, R172); on the cab port it stands always. An ESTOP withdraws with cause DROP and then enters PARKED. A row
that ends a frame clocked in is the request clocked in (entry 5). -/
def Obligations.GrantsStayWithinTheEnvelope : Prop :=
  (∀ s t : State, GrantInv s → step s = .next t → GrantInv t) ∧
  (∀ (i : Instr) (d : Drive) (s t : State), i.wellFormed = true → PermitInv s → (∀ a b, i ≠ .demand d.port a b) →
    (∀ a b, i ≠ .ackReset d.port a b) → (∀ l, i ≠ .por l) → i ≠ .xrstAssert →
    (∀ f, endsFrame d.port i → (s.port d.port).frame = .shifting f → f.clocks = 0) → exec i s = .next t →
    let g := s.grant d
    let h := t.grant d
    h.lastDemand = g.lastDemand ∧ |h.granted| ≤ |g.granted| ∧ (g.state = .unacked ↔ h.state = .unacked) ∧
    (h.isActive = true → g.isActive = true ∧
      h = { g with
        granted := h.granted, reduced := g.reduced || decide (h.granted ≠ g.granted)
        reportedCeiling := h.reportedCeiling, hold := h.hold } ∧
      (h.granted = 0 ∨ (h.granted < 0 ↔ g.granted < 0))) ∧
    (g.isActive = true → h.isActive = false →
      (h.granted = 0 ∧ h.clamped = false ∧ h.blocked = false ∧ h.reduced = false) ∧
      ((i = .grantExpired d ∧ h.state = .neutralWait .grantExpired ∧ ∃ life ≤ 1, g.state = .active life) ∨
        (t.phc.phase = .parked ∧ s.phc.phase ≠ .parked ∧ h.state = .neutralWait .parked) ∨
        (h.state = .neutralWait .drop ∧ DropBegins i s t d)))) ∧
  (∀ (i : Instr) (d : Drive) (s t : State), ¬endsFrame d.port i → i ≠ .selectTimeout d.port → (∀ l, i ≠ .por l) →
    i ≠ .xrstAssert → exec i s = .next t →
    let p := s.port d.port
    let q := t.port d.port
    let g := s.grant d
    let h := t.grant d
    if (p.answer.rewritable && !p.inFrame) = false ∨ (h.isActive = g.isActive ∧ h.granted = g.granted) then
      q.answer = p.answer ∧ h.reportedCeiling = g.reportedCeiling
    else if h.isActive then q.answer = rewritableAnswer .reduced |h.granted| h.reportedCeiling
    else ∃ cause : NeutralCause, q.answer = rewritableAnswer .neutralRequired cause.code 2 ∧
      (h.state = .neutralWait cause ∨
        (cause = .drop ∧ h.state = .neutralWait .parked ∧ t.phc.phase = .parked ∧ s.phc.phase ≠ .parked))) ∧
  ∀ (i : Instr) (s t : State), ¬endsFrame .cab i → i ≠ .selectTimeout .cab → (∀ l, i ≠ .por l) → i ≠ .xrstAssert →
    exec i s = .next t → (t.port .cab).answer = (s.port .cab).answer

/-- A permit is high only and exactly while its record is ACTIVE, the phase is not PARKED and no DROP override reaches
its drive, and BRAKE_RELEASE follows HOIST_PERMIT (R109, R110); the reaches are those of the overrides in force
(R129), and a neutral hold is set exactly while a DROP that began LATCHED reaches its drive (R111). The warnings
SUPPLY_SHORT, depth quality and FIFO full stand exactly while their causes hold; oil warm and channel holding are
taken at a scan completion and as XRST ends, and every other command, POR apart, leaves them (R145, R146). -/
def Obligations.PermitsAndWarningsFollowTheirInputs : Prop :=
  (∀ s t : State, PermitInv s → step s = .next t → PermitInv t) ∧
  (∀ s t : State, WarningsInv s → step s = .next t → WarningsInv t) ∧
  ∀ (i : Instr) (s t : State), (∀ l, i ≠ .por l) → (∀ r, i = .scanCompletion r → s.lines.xrst = true) →
    (i = .xrstEnd → s.lines.xrst = false) → exec i s = .next t →
    t.fsv.warnings.oilWarm = s.fsv.warnings.oilWarm ∧ t.fsv.warnings.channelHolding = s.fsv.warnings.channelHolding

/-- The FIFO never holds more than 512 records and no NONE record, the sequence numbers of its records run consecutively
modulo 65 536, and a gap is pending only while the session is OPEN (R148, R149, R155). -/
def Obligations.RecordsStayNumbered : Prop :=
  ∀ s t : State, RecordInv s → step s = .next t → RecordInv t

/-- The joint table has one entry for each joint of the active geometry; every extension lies between 0 and its maximum, a
LOCKED joint stands at its pocket and the aligned pocket is the one that captures the extension, where the pocket list
meets R2; every geometry held has its items in range (R1, R4, R5, R161). -/
def Obligations.JointTableStaysSound : Prop :=
  ∀ s t : State, TableInv s → step s = .next t → TableInv t

/-- Outside XRST the envelope record is always the function of its inputs that the stages give: no input moves without a
recomputation (R72). The containment mask, the combined set and the limits are always those of the zone table at the
present depth and quality, and every entry keeps its ranges (R114 to R119). -/
def Obligations.EnvelopeAndZonesStayCurrent : Prop :=
  (∀ s t : State, EnvelopeInv s → step s = .next t → EnvelopeInv t) ∧
  ∀ s t : State, ZoneInv s → step s = .next t → ZoneInv t

/-- The depth quality and the tool depth are always those of R10 for the datum, the rope and the joints as they stand, and
in VALID the joints hold the measured extension as R13 distributes it, from the innermost non-locked joint outward, with the
disagreement of R14: what the clamp takes away, so that the extensions and the disagreement add up to it. -/
def Obligations.DepthFollowsTheModel : Prop :=
  ∀ s t : State, DepthInv s → TableInv s → Conserved s → Distributed s → step s = .next t →
    DepthInv t ∧ Conserved t ∧ Distributed t
end

