-- ==== Sys2Proof/Laws/State.lean ====
section
/-! SUPPORT. The small lemmas of the state: one per field per update, and the reading of one grant record, one port
or one fault entry after another was written. -/

namespace Sys2Proof.Machine

variable (s : State)

@[simp] theorem State.withMsu_msu (x : Msu) : (s.withMsu x).msu = x := rfl
@[simp] theorem State.withMsu_stk (x : Msu) : (s.withMsu x).stk = s.stk := rfl
@[simp] theorem State.withMsu_phc (x : Msu) : (s.withMsu x).phc = s.phc := rfl
@[simp] theorem State.withMsu_znt (x : Msu) : (s.withMsu x).znt = s.znt := rfl
@[simp] theorem State.withMsu_env (x : Msu) : (s.withMsu x).env = s.env := rfl
@[simp] theorem State.withMsu_gru (x : Msu) : (s.withMsu x).gru = s.gru := rfl
@[simp] theorem State.withMsu_fsv (x : Msu) : (s.withMsu x).fsv = s.fsv := rfl
@[simp] theorem State.withMsu_brc (x : Msu) : (s.withMsu x).brc = s.brc := rfl
@[simp] theorem State.withMsu_gst (x : Msu) : (s.withMsu x).gst = s.gst := rfl
@[simp] theorem State.withMsu_pif (x : Msu) : (s.withMsu x).pif = s.pif := rfl
@[simp] theorem State.withMsu_lines (x : Msu) : (s.withMsu x).lines = s.lines := rfl
@[simp] theorem State.withMsu_freeCount (x : Msu) : (s.withMsu x).freeCount = s.freeCount := rfl
@[simp] theorem State.withMsu_pending (x : Msu) : (s.withMsu x).pending = s.pending := rfl

@[simp] theorem State.withStk_msu (x : Stk) : (s.withStk x).msu = s.msu := rfl
@[simp] theorem State.withStk_stk (x : Stk) : (s.withStk x).stk = x := rfl
@[simp] theorem State.withStk_phc (x : Stk) : (s.withStk x).phc = s.phc := rfl
@[simp] theorem State.withStk_znt (x : Stk) : (s.withStk x).znt = s.znt := rfl
@[simp] theorem State.withStk_env (x : Stk) : (s.withStk x).env = s.env := rfl
@[simp] theorem State.withStk_gru (x : Stk) : (s.withStk x).gru = s.gru := rfl
@[simp] theorem State.withStk_fsv (x : Stk) : (s.withStk x).fsv = s.fsv := rfl
@[simp] theorem State.withStk_brc (x : Stk) : (s.withStk x).brc = s.brc := rfl
@[simp] theorem State.withStk_gst (x : Stk) : (s.withStk x).gst = s.gst := rfl
@[simp] theorem State.withStk_pif (x : Stk) : (s.withStk x).pif = s.pif := rfl
@[simp] theorem State.withStk_lines (x : Stk) : (s.withStk x).lines = s.lines := rfl
@[simp] theorem State.withStk_freeCount (x : Stk) : (s.withStk x).freeCount = s.freeCount := rfl
@[simp] theorem State.withStk_pending (x : Stk) : (s.withStk x).pending = s.pending := rfl

@[simp] theorem State.withPhc_msu (x : Phc) : (s.withPhc x).msu = s.msu := rfl
@[simp] theorem State.withPhc_stk (x : Phc) : (s.withPhc x).stk = s.stk := rfl
@[simp] theorem State.withPhc_phc (x : Phc) : (s.withPhc x).phc = x := rfl
@[simp] theorem State.withPhc_znt (x : Phc) : (s.withPhc x).znt = s.znt := rfl
@[simp] theorem State.withPhc_env (x : Phc) : (s.withPhc x).env = s.env := rfl
@[simp] theorem State.withPhc_gru (x : Phc) : (s.withPhc x).gru = s.gru := rfl
@[simp] theorem State.withPhc_fsv (x : Phc) : (s.withPhc x).fsv = s.fsv := rfl
@[simp] theorem State.withPhc_brc (x : Phc) : (s.withPhc x).brc = s.brc := rfl
@[simp] theorem State.withPhc_gst (x : Phc) : (s.withPhc x).gst = s.gst := rfl
@[simp] theorem State.withPhc_pif (x : Phc) : (s.withPhc x).pif = s.pif := rfl
@[simp] theorem State.withPhc_lines (x : Phc) : (s.withPhc x).lines = s.lines := rfl
@[simp] theorem State.withPhc_freeCount (x : Phc) : (s.withPhc x).freeCount = s.freeCount := rfl
@[simp] theorem State.withPhc_pending (x : Phc) : (s.withPhc x).pending = s.pending := rfl

@[simp] theorem State.withZnt_msu (x : Znt) : (s.withZnt x).msu = s.msu := rfl
@[simp] theorem State.withZnt_stk (x : Znt) : (s.withZnt x).stk = s.stk := rfl
@[simp] theorem State.withZnt_phc (x : Znt) : (s.withZnt x).phc = s.phc := rfl
@[simp] theorem State.withZnt_znt (x : Znt) : (s.withZnt x).znt = x := rfl
@[simp] theorem State.withZnt_env (x : Znt) : (s.withZnt x).env = s.env := rfl
@[simp] theorem State.withZnt_gru (x : Znt) : (s.withZnt x).gru = s.gru := rfl
@[simp] theorem State.withZnt_fsv (x : Znt) : (s.withZnt x).fsv = s.fsv := rfl
@[simp] theorem State.withZnt_brc (x : Znt) : (s.withZnt x).brc = s.brc := rfl
@[simp] theorem State.withZnt_gst (x : Znt) : (s.withZnt x).gst = s.gst := rfl
@[simp] theorem State.withZnt_pif (x : Znt) : (s.withZnt x).pif = s.pif := rfl
@[simp] theorem State.withZnt_lines (x : Znt) : (s.withZnt x).lines = s.lines := rfl
@[simp] theorem State.withZnt_freeCount (x : Znt) : (s.withZnt x).freeCount = s.freeCount := rfl
@[simp] theorem State.withZnt_pending (x : Znt) : (s.withZnt x).pending = s.pending := rfl

@[simp] theorem State.withEnv_msu (x : Envelope) : (s.withEnv x).msu = s.msu := rfl
@[simp] theorem State.withEnv_stk (x : Envelope) : (s.withEnv x).stk = s.stk := rfl
@[simp] theorem State.withEnv_phc (x : Envelope) : (s.withEnv x).phc = s.phc := rfl
@[simp] theorem State.withEnv_znt (x : Envelope) : (s.withEnv x).znt = s.znt := rfl
@[simp] theorem State.withEnv_env (x : Envelope) : (s.withEnv x).env = x := rfl
@[simp] theorem State.withEnv_gru (x : Envelope) : (s.withEnv x).gru = s.gru := rfl
@[simp] theorem State.withEnv_fsv (x : Envelope) : (s.withEnv x).fsv = s.fsv := rfl
@[simp] theorem State.withEnv_brc (x : Envelope) : (s.withEnv x).brc = s.brc := rfl
@[simp] theorem State.withEnv_gst (x : Envelope) : (s.withEnv x).gst = s.gst := rfl
@[simp] theorem State.withEnv_pif (x : Envelope) : (s.withEnv x).pif = s.pif := rfl
@[simp] theorem State.withEnv_lines (x : Envelope) : (s.withEnv x).lines = s.lines := rfl
@[simp] theorem State.withEnv_freeCount (x : Envelope) : (s.withEnv x).freeCount = s.freeCount := rfl
@[simp] theorem State.withEnv_pending (x : Envelope) : (s.withEnv x).pending = s.pending := rfl

@[simp] theorem State.withGru_msu (x : Gru) : (s.withGru x).msu = s.msu := rfl
@[simp] theorem State.withGru_stk (x : Gru) : (s.withGru x).stk = s.stk := rfl
@[simp] theorem State.withGru_phc (x : Gru) : (s.withGru x).phc = s.phc := rfl
@[simp] theorem State.withGru_znt (x : Gru) : (s.withGru x).znt = s.znt := rfl
@[simp] theorem State.withGru_env (x : Gru) : (s.withGru x).env = s.env := rfl
@[simp] theorem State.withGru_gru (x : Gru) : (s.withGru x).gru = x := rfl
@[simp] theorem State.withGru_fsv (x : Gru) : (s.withGru x).fsv = s.fsv := rfl
@[simp] theorem State.withGru_brc (x : Gru) : (s.withGru x).brc = s.brc := rfl
@[simp] theorem State.withGru_gst (x : Gru) : (s.withGru x).gst = s.gst := rfl
@[simp] theorem State.withGru_pif (x : Gru) : (s.withGru x).pif = s.pif := rfl
@[simp] theorem State.withGru_lines (x : Gru) : (s.withGru x).lines = s.lines := rfl
@[simp] theorem State.withGru_freeCount (x : Gru) : (s.withGru x).freeCount = s.freeCount := rfl
@[simp] theorem State.withGru_pending (x : Gru) : (s.withGru x).pending = s.pending := rfl

@[simp] theorem State.withFsv_msu (x : Fsv) : (s.withFsv x).msu = s.msu := rfl
@[simp] theorem State.withFsv_stk (x : Fsv) : (s.withFsv x).stk = s.stk := rfl
@[simp] theorem State.withFsv_phc (x : Fsv) : (s.withFsv x).phc = s.phc := rfl
@[simp] theorem State.withFsv_znt (x : Fsv) : (s.withFsv x).znt = s.znt := rfl
@[simp] theorem State.withFsv_env (x : Fsv) : (s.withFsv x).env = s.env := rfl
@[simp] theorem State.withFsv_gru (x : Fsv) : (s.withFsv x).gru = s.gru := rfl
@[simp] theorem State.withFsv_fsv (x : Fsv) : (s.withFsv x).fsv = x := rfl
@[simp] theorem State.withFsv_brc (x : Fsv) : (s.withFsv x).brc = s.brc := rfl
@[simp] theorem State.withFsv_gst (x : Fsv) : (s.withFsv x).gst = s.gst := rfl
@[simp] theorem State.withFsv_pif (x : Fsv) : (s.withFsv x).pif = s.pif := rfl
@[simp] theorem State.withFsv_lines (x : Fsv) : (s.withFsv x).lines = s.lines := rfl
@[simp] theorem State.withFsv_freeCount (x : Fsv) : (s.withFsv x).freeCount = s.freeCount := rfl
@[simp] theorem State.withFsv_pending (x : Fsv) : (s.withFsv x).pending = s.pending := rfl

@[simp] theorem State.withBrc_msu (x : Brc) : (s.withBrc x).msu = s.msu := rfl
@[simp] theorem State.withBrc_stk (x : Brc) : (s.withBrc x).stk = s.stk := rfl
@[simp] theorem State.withBrc_phc (x : Brc) : (s.withBrc x).phc = s.phc := rfl
@[simp] theorem State.withBrc_znt (x : Brc) : (s.withBrc x).znt = s.znt := rfl
@[simp] theorem State.withBrc_env (x : Brc) : (s.withBrc x).env = s.env := rfl
@[simp] theorem State.withBrc_gru (x : Brc) : (s.withBrc x).gru = s.gru := rfl
@[simp] theorem State.withBrc_fsv (x : Brc) : (s.withBrc x).fsv = s.fsv := rfl
@[simp] theorem State.withBrc_brc (x : Brc) : (s.withBrc x).brc = x := rfl
@[simp] theorem State.withBrc_gst (x : Brc) : (s.withBrc x).gst = s.gst := rfl
@[simp] theorem State.withBrc_pif (x : Brc) : (s.withBrc x).pif = s.pif := rfl
@[simp] theorem State.withBrc_lines (x : Brc) : (s.withBrc x).lines = s.lines := rfl
@[simp] theorem State.withBrc_freeCount (x : Brc) : (s.withBrc x).freeCount = s.freeCount := rfl
@[simp] theorem State.withBrc_pending (x : Brc) : (s.withBrc x).pending = s.pending := rfl

@[simp] theorem State.withGst_msu (x : Gst) : (s.withGst x).msu = s.msu := rfl
@[simp] theorem State.withGst_stk (x : Gst) : (s.withGst x).stk = s.stk := rfl
@[simp] theorem State.withGst_phc (x : Gst) : (s.withGst x).phc = s.phc := rfl
@[simp] theorem State.withGst_znt (x : Gst) : (s.withGst x).znt = s.znt := rfl
@[simp] theorem State.withGst_env (x : Gst) : (s.withGst x).env = s.env := rfl
@[simp] theorem State.withGst_gru (x : Gst) : (s.withGst x).gru = s.gru := rfl
@[simp] theorem State.withGst_fsv (x : Gst) : (s.withGst x).fsv = s.fsv := rfl
@[simp] theorem State.withGst_brc (x : Gst) : (s.withGst x).brc = s.brc := rfl
@[simp] theorem State.withGst_gst (x : Gst) : (s.withGst x).gst = x := rfl
@[simp] theorem State.withGst_pif (x : Gst) : (s.withGst x).pif = s.pif := rfl
@[simp] theorem State.withGst_lines (x : Gst) : (s.withGst x).lines = s.lines := rfl
@[simp] theorem State.withGst_freeCount (x : Gst) : (s.withGst x).freeCount = s.freeCount := rfl
@[simp] theorem State.withGst_pending (x : Gst) : (s.withGst x).pending = s.pending := rfl

@[simp] theorem State.withPif_msu (x : Pif) : (s.withPif x).msu = s.msu := rfl
@[simp] theorem State.withPif_stk (x : Pif) : (s.withPif x).stk = s.stk := rfl
@[simp] theorem State.withPif_phc (x : Pif) : (s.withPif x).phc = s.phc := rfl
@[simp] theorem State.withPif_znt (x : Pif) : (s.withPif x).znt = s.znt := rfl
@[simp] theorem State.withPif_env (x : Pif) : (s.withPif x).env = s.env := rfl
@[simp] theorem State.withPif_gru (x : Pif) : (s.withPif x).gru = s.gru := rfl
@[simp] theorem State.withPif_fsv (x : Pif) : (s.withPif x).fsv = s.fsv := rfl
@[simp] theorem State.withPif_brc (x : Pif) : (s.withPif x).brc = s.brc := rfl
@[simp] theorem State.withPif_gst (x : Pif) : (s.withPif x).gst = s.gst := rfl
@[simp] theorem State.withPif_pif (x : Pif) : (s.withPif x).pif = x := rfl
@[simp] theorem State.withPif_lines (x : Pif) : (s.withPif x).lines = s.lines := rfl
@[simp] theorem State.withPif_freeCount (x : Pif) : (s.withPif x).freeCount = s.freeCount := rfl
@[simp] theorem State.withPif_pending (x : Pif) : (s.withPif x).pending = s.pending := rfl

@[simp] theorem State.withLines_msu (x : Lines) : (s.withLines x).msu = s.msu := rfl
@[simp] theorem State.withLines_stk (x : Lines) : (s.withLines x).stk = s.stk := rfl
@[simp] theorem State.withLines_phc (x : Lines) : (s.withLines x).phc = s.phc := rfl
@[simp] theorem State.withLines_znt (x : Lines) : (s.withLines x).znt = s.znt := rfl
@[simp] theorem State.withLines_env (x : Lines) : (s.withLines x).env = s.env := rfl
@[simp] theorem State.withLines_gru (x : Lines) : (s.withLines x).gru = s.gru := rfl
@[simp] theorem State.withLines_fsv (x : Lines) : (s.withLines x).fsv = s.fsv := rfl
@[simp] theorem State.withLines_brc (x : Lines) : (s.withLines x).brc = s.brc := rfl
@[simp] theorem State.withLines_gst (x : Lines) : (s.withLines x).gst = s.gst := rfl
@[simp] theorem State.withLines_pif (x : Lines) : (s.withLines x).pif = s.pif := rfl
@[simp] theorem State.withLines_lines (x : Lines) : (s.withLines x).lines = x := rfl
@[simp] theorem State.withLines_freeCount (x : Lines) : (s.withLines x).freeCount = s.freeCount := rfl
@[simp] theorem State.withLines_pending (x : Lines) : (s.withLines x).pending = s.pending := rfl

@[simp] theorem State.withFreeCount_msu (x : Nat) : (s.withFreeCount x).msu = s.msu := rfl
@[simp] theorem State.withFreeCount_stk (x : Nat) : (s.withFreeCount x).stk = s.stk := rfl
@[simp] theorem State.withFreeCount_phc (x : Nat) : (s.withFreeCount x).phc = s.phc := rfl
@[simp] theorem State.withFreeCount_znt (x : Nat) : (s.withFreeCount x).znt = s.znt := rfl
@[simp] theorem State.withFreeCount_env (x : Nat) : (s.withFreeCount x).env = s.env := rfl
@[simp] theorem State.withFreeCount_gru (x : Nat) : (s.withFreeCount x).gru = s.gru := rfl
@[simp] theorem State.withFreeCount_fsv (x : Nat) : (s.withFreeCount x).fsv = s.fsv := rfl
@[simp] theorem State.withFreeCount_brc (x : Nat) : (s.withFreeCount x).brc = s.brc := rfl
@[simp] theorem State.withFreeCount_gst (x : Nat) : (s.withFreeCount x).gst = s.gst := rfl
@[simp] theorem State.withFreeCount_pif (x : Nat) : (s.withFreeCount x).pif = s.pif := rfl
@[simp] theorem State.withFreeCount_lines (x : Nat) : (s.withFreeCount x).lines = s.lines := rfl
@[simp] theorem State.withFreeCount_freeCount (x : Nat) : (s.withFreeCount x).freeCount = x := rfl
@[simp] theorem State.withFreeCount_pending (x : Nat) : (s.withFreeCount x).pending = s.pending := rfl

@[simp] theorem State.withPending_msu (x : List Instr) : (s.withPending x).msu = s.msu := rfl
@[simp] theorem State.withPending_stk (x : List Instr) : (s.withPending x).stk = s.stk := rfl
@[simp] theorem State.withPending_phc (x : List Instr) : (s.withPending x).phc = s.phc := rfl
@[simp] theorem State.withPending_znt (x : List Instr) : (s.withPending x).znt = s.znt := rfl
@[simp] theorem State.withPending_env (x : List Instr) : (s.withPending x).env = s.env := rfl
@[simp] theorem State.withPending_gru (x : List Instr) : (s.withPending x).gru = s.gru := rfl
@[simp] theorem State.withPending_fsv (x : List Instr) : (s.withPending x).fsv = s.fsv := rfl
@[simp] theorem State.withPending_brc (x : List Instr) : (s.withPending x).brc = s.brc := rfl
@[simp] theorem State.withPending_gst (x : List Instr) : (s.withPending x).gst = s.gst := rfl
@[simp] theorem State.withPending_pif (x : List Instr) : (s.withPending x).pif = s.pif := rfl
@[simp] theorem State.withPending_lines (x : List Instr) : (s.withPending x).lines = s.lines := rfl
@[simp] theorem State.withPending_freeCount (x : List Instr) : (s.withPending x).freeCount = s.freeCount := rfl
@[simp] theorem State.withPending_pending (x : List Instr) : (s.withPending x).pending = x := rfl

@[simp] theorem State.withGrant_msu (d : Drive) (x : Grant) : (s.withGrant d x).msu = s.msu := rfl
@[simp] theorem State.withGrant_stk (d : Drive) (x : Grant) : (s.withGrant d x).stk = s.stk := rfl
@[simp] theorem State.withGrant_phc (d : Drive) (x : Grant) : (s.withGrant d x).phc = s.phc := rfl
@[simp] theorem State.withGrant_znt (d : Drive) (x : Grant) : (s.withGrant d x).znt = s.znt := rfl
@[simp] theorem State.withGrant_env (d : Drive) (x : Grant) : (s.withGrant d x).env = s.env := rfl
@[simp] theorem State.withGrant_gru (d : Drive) (x : Grant) : (s.withGrant d x).gru = s.gru.withGrant d x := rfl
@[simp] theorem State.withGrant_fsv (d : Drive) (x : Grant) : (s.withGrant d x).fsv = s.fsv := rfl
@[simp] theorem State.withGrant_brc (d : Drive) (x : Grant) : (s.withGrant d x).brc = s.brc := rfl
@[simp] theorem State.withGrant_gst (d : Drive) (x : Grant) : (s.withGrant d x).gst = s.gst := rfl
@[simp] theorem State.withGrant_pif (d : Drive) (x : Grant) : (s.withGrant d x).pif = s.pif := rfl
@[simp] theorem State.withGrant_lines (d : Drive) (x : Grant) : (s.withGrant d x).lines = s.lines := rfl
@[simp] theorem State.withGrant_freeCount (d : Drive) (x : Grant) : (s.withGrant d x).freeCount = s.freeCount := rfl
@[simp] theorem State.withGrant_pending (d : Drive) (x : Grant) : (s.withGrant d x).pending = s.pending := rfl

@[simp] theorem State.withPort_msu (p : Port) (x : PortState) : (s.withPort p x).msu = s.msu := rfl
@[simp] theorem State.withPort_stk (p : Port) (x : PortState) : (s.withPort p x).stk = s.stk := rfl
@[simp] theorem State.withPort_phc (p : Port) (x : PortState) : (s.withPort p x).phc = s.phc := rfl
@[simp] theorem State.withPort_znt (p : Port) (x : PortState) : (s.withPort p x).znt = s.znt := rfl
@[simp] theorem State.withPort_env (p : Port) (x : PortState) : (s.withPort p x).env = s.env := rfl
@[simp] theorem State.withPort_gru (p : Port) (x : PortState) : (s.withPort p x).gru = s.gru := rfl
@[simp] theorem State.withPort_fsv (p : Port) (x : PortState) : (s.withPort p x).fsv = s.fsv := rfl
@[simp] theorem State.withPort_brc (p : Port) (x : PortState) : (s.withPort p x).brc = s.brc := rfl
@[simp] theorem State.withPort_gst (p : Port) (x : PortState) : (s.withPort p x).gst = s.gst := rfl
@[simp] theorem State.withPort_pif (p : Port) (x : PortState) : (s.withPort p x).pif = s.pif.withPort p x := rfl
@[simp] theorem State.withPort_lines (p : Port) (x : PortState) : (s.withPort p x).lines = s.lines := rfl
@[simp] theorem State.withPort_freeCount (p : Port) (x : PortState) : (s.withPort p x).freeCount = s.freeCount := rfl
@[simp] theorem State.withPort_pending (p : Port) (x : PortState) : (s.withPort p x).pending = s.pending := rfl

@[simp] theorem State.withEntry_msu (src : Source) (x : FaultEntry) : (s.withEntry src x).msu = s.msu := rfl
@[simp] theorem State.withEntry_stk (src : Source) (x : FaultEntry) : (s.withEntry src x).stk = s.stk := rfl
@[simp] theorem State.withEntry_phc (src : Source) (x : FaultEntry) : (s.withEntry src x).phc = s.phc := rfl
@[simp] theorem State.withEntry_znt (src : Source) (x : FaultEntry) : (s.withEntry src x).znt = s.znt := rfl
@[simp] theorem State.withEntry_env (src : Source) (x : FaultEntry) : (s.withEntry src x).env = s.env := rfl
@[simp] theorem State.withEntry_gru (src : Source) (x : FaultEntry) : (s.withEntry src x).gru = s.gru := rfl
@[simp] theorem State.withEntry_fsv (src : Source) (x : FaultEntry) : (s.withEntry src x).fsv = s.fsv.withEntry src x := rfl
@[simp] theorem State.withEntry_brc (src : Source) (x : FaultEntry) : (s.withEntry src x).brc = s.brc := rfl
@[simp] theorem State.withEntry_gst (src : Source) (x : FaultEntry) : (s.withEntry src x).gst = s.gst := rfl
@[simp] theorem State.withEntry_pif (src : Source) (x : FaultEntry) : (s.withEntry src x).pif = s.pif := rfl
@[simp] theorem State.withEntry_lines (src : Source) (x : FaultEntry) : (s.withEntry src x).lines = s.lines := rfl
@[simp] theorem State.withEntry_freeCount (src : Source) (x : FaultEntry) : (s.withEntry src x).freeCount = s.freeCount := rfl
@[simp] theorem State.withEntry_pending (src : Source) (x : FaultEntry) : (s.withEntry src x).pending = s.pending := rfl

@[simp] theorem State.useFree_msu : s.useFree.msu = s.msu := rfl
@[simp] theorem State.useFree_stk : s.useFree.stk = s.stk := rfl
@[simp] theorem State.useFree_phc : s.useFree.phc = s.phc := rfl
@[simp] theorem State.useFree_znt : s.useFree.znt = s.znt := rfl
@[simp] theorem State.useFree_env : s.useFree.env = s.env := rfl
@[simp] theorem State.useFree_gru : s.useFree.gru = s.gru := rfl
@[simp] theorem State.useFree_fsv : s.useFree.fsv = s.fsv := rfl
@[simp] theorem State.useFree_brc : s.useFree.brc = s.brc := rfl
@[simp] theorem State.useFree_gst : s.useFree.gst = s.gst := rfl
@[simp] theorem State.useFree_pif : s.useFree.pif = s.pif := rfl
@[simp] theorem State.useFree_lines : s.useFree.lines = s.lines := rfl
@[simp] theorem State.useFree_freeCount : s.useFree.freeCount = s.freeCount + 1 := rfl
@[simp] theorem State.useFree_pending : s.useFree.pending = s.pending := rfl

@[simp] theorem Gru.withGrant_permits (g : Gru) (d : Drive) (x : Grant) : (g.withGrant d x).permits = g.permits := by
  cases d <;> rfl

@[simp] theorem Gru.grant_withGrant_self (g : Gru) (d : Drive) (x : Grant) : (g.withGrant d x).grant d = x := by
  cases d <;> rfl

theorem Gru.grant_withGrant_of_ne (g : Gru) {d e : Drive} (x : Grant) (h : e ≠ d) :
    (g.withGrant d x).grant e = g.grant e := by
  cases d <;> cases e <;> first | rfl | exact absurd rfl h

theorem Gru.grant_withGrant (g : Gru) (d e : Drive) (x : Grant) :
    (g.withGrant d x).grant e = if e = d then x else g.grant e := by
  cases d <;> cases e <;> rfl

/-- The three grant records and the permits are all of the GRU. -/
theorem Gru.ext_grants {g h : Gru} (hp : g.permits = h.permits) (hg : ∀ d, g.grant d = h.grant d) : g = h := by
  cases g
  cases h
  have h1 := hg .hoist
  have h2 := hg .crowd
  have h3 := hg .rotary
  simp only [Gru.grant] at h1 h2 h3 hp
  subst h1 h2 h3 hp
  rfl

@[simp] theorem Pif.port_withPort_self (f : Pif) (p : Port) (x : PortState) : (f.withPort p x).port p = x := by
  cases p <;> rfl

theorem Pif.port_withPort_of_ne (f : Pif) {p q : Port} (x : PortState) (h : q ≠ p) :
    (f.withPort p x).port q = f.port q := by
  cases p <;> cases q <;> first | rfl | exact absurd rfl h

theorem Pif.port_withPort (f : Pif) (p q : Port) (x : PortState) :
    (f.withPort p x).port q = if q = p then x else f.port q := by
  cases p <;> cases q <;> rfl

@[simp] theorem Pif.withPort_withPort (f : Pif) (p : Port) (x y : PortState) :
    (f.withPort p x).withPort p y = f.withPort p y := by
  cases p <;> rfl

@[simp] theorem Pif.withPort_port (f : Pif) (p : Port) : f.withPort p (f.port p) = f := by
  cases p <;> rfl

/-- The four ports are all of the PIF. -/
theorem Pif.ext_ports {f g : Pif} (h : ∀ p, f.port p = g.port p) : f = g := by
  cases f
  cases g
  have h0 := h .cab
  have h1 := h .hoist
  have h2 := h .crowd
  have h3 := h .rotary
  simp only [Pif.port] at h0 h1 h2 h3
  subst h0 h1 h2 h3
  rfl

/-- The number of a source tells the source. -/
theorem Source.idx_injective {a b : Source} (h : a.idx = b.idx) : a = b := by
  cases a <;> cases b <;> first | rfl | exact absurd h (by decide)

@[simp] theorem Fsv.entry_withEntry_self (f : Fsv) (src : Source) (x : FaultEntry) :
    (f.withEntry src x).entry src = x := by
  simp [Fsv.entry, Fsv.withEntry]

theorem Fsv.entry_withEntry_of_ne (f : Fsv) {a b : Source} (x : FaultEntry) (h : b ≠ a) :
    (f.withEntry a x).entry b = f.entry b := by
  have hn : a.idx.val ≠ b.idx.val := fun e => h (Source.idx_injective (Fin.ext e)).symm
  simp [Fsv.entry, Fsv.withEntry, Vector.getElem_set_ne, hn]

@[simp] theorem Fsv.withEntry_groupMode (f : Fsv) (src : Source) (x : FaultEntry) :
    (f.withEntry src x).groupMode = f.groupMode := rfl
@[simp] theorem Fsv.withEntry_pendingGroupMode (f : Fsv) (src : Source) (x : FaultEntry) :
    (f.withEntry src x).pendingGroupMode = f.pendingGroupMode := rfl
@[simp] theorem Fsv.withEntry_limitReach (f : Fsv) (src : Source) (x : FaultEntry) :
    (f.withEntry src x).limitReach = f.limitReach := rfl
@[simp] theorem Fsv.withEntry_dropReach (f : Fsv) (src : Source) (x : FaultEntry) :
    (f.withEntry src x).dropReach = f.dropReach := rfl
@[simp] theorem Fsv.withEntry_stallTimer (f : Fsv) (src : Source) (x : FaultEntry) :
    (f.withEntry src x).stallTimer = f.stallTimer := rfl
@[simp] theorem Fsv.withEntry_stallRef (f : Fsv) (src : Source) (x : FaultEntry) :
    (f.withEntry src x).stallRef = f.stallRef := rfl
@[simp] theorem Fsv.withEntry_warnings (f : Fsv) (src : Source) (x : FaultEntry) :
    (f.withEntry src x).warnings = f.warnings := rfl

@[simp] theorem State.grant_withGrant_self (d : Drive) (x : Grant) : (s.withGrant d x).grant d = x := by
  simp [State.grant]

theorem State.grant_withGrant_of_ne {d e : Drive} (x : Grant) (h : e ≠ d) :
    (s.withGrant d x).grant e = s.grant e := Gru.grant_withGrant_of_ne _ x h

@[simp] theorem State.port_withPort_self (p : Port) (x : PortState) : (s.withPort p x).port p = x := by
  simp [State.port]

theorem State.port_withPort_of_ne {p q : Port} (x : PortState) (h : q ≠ p) :
    (s.withPort p x).port q = s.port q := Pif.port_withPort_of_ne _ x h

@[simp] theorem State.entry_withEntry_self (src : Source) (x : FaultEntry) : (s.withEntry src x).entry src = x := by
  simp [State.entry]

theorem State.entry_withEntry_of_ne {a b : Source} (x : FaultEntry) (h : b ≠ a) :
    (s.withEntry a x).entry b = s.entry b := Fsv.entry_withEntry_of_ne _ x h

end Sys2Proof.Machine
end

