-- ==== Sys2Proof/Laws/Effects.lean ====
section
/-! SUPPORT. What each shared operation can change, once for each: the parts it may write (`Effect`), with every other
part, the queue and all of the ports but their pending answers as they were. Effects compose, so the frame of a
command is the union of those of the operations it is made of. -/

namespace Sys2Proof.Machine

/-- From `s` to `t` nothing changed but the parts named and, on the ports, pending answers; the ports at all only
where `pif` is named. -/
structure Effect (changed : List Part) (s t : State) : Prop where
  keeps : KeepsAllBut changed s t
  answers : OnlyAnswers s t

theorem SameButAnswer.refl (p : PortState) : SameButAnswer p p := rfl

theorem SameButAnswer.trans {p q r : PortState} (h : SameButAnswer p q) (k : SameButAnswer q r) :
    SameButAnswer p r := by
  unfold SameButAnswer at *
  rw [← h, ← k]

theorem Part.kept_trans {s t u : State} {x : Part} (h : x.kept s t) (k : x.kept t u) : x.kept s u := by
  cases x <;> simp only [Part.kept] at *
  case grants => exact ⟨k.1.trans h.1, k.2.1.trans h.2.1, k.2.2.trans h.2.2⟩
  case faults => rw [← h, ← k]
  case zones => exact ⟨k.1.trans h.1, k.2.1.trans h.2.1, k.2.2.trans h.2.2⟩
  case stall => exact ⟨k.1.trans h.1, k.2.trans h.2⟩
  all_goals exact k.trans h

theorem Effect.refl {c : List Part} (s : State) : Effect c s s :=
  ⟨⟨fun x _ => by cases x <;> simp [Part.kept], rfl⟩, fun _ => rfl⟩

theorem Effect.trans {c : List Part} {s t u : State} (h : Effect c s t) (k : Effect c t u) : Effect c s u :=
  ⟨⟨fun x hx => Part.kept_trans (h.keeps.1 x hx) (k.keeps.1 x hx), k.keeps.2.trans h.keeps.2⟩,
   fun q => (h.answers q).trans (k.answers q)⟩

theorem Effect.mono {c d : List Part} {s t : State} (h : Effect c s t) (hs : c ⊆ d) : Effect d s t :=
  ⟨⟨fun x hx => h.keeps.1 x fun hc => hx (hs hc), h.keeps.2⟩, h.answers⟩

theorem Effect.ite {c : List Part} {s t u : State} {p : Prop} [Decidable p] (h : Effect c s t) (k : Effect c s u) :
    Effect c s (if p then t else u) := by
  split
  · exact h
  · exact k

theorem Effect.foldl {c : List Part} {α : Type} {f : State → α → State} (h : ∀ s a, Effect c s (f s a))
    (xs : List α) (s : State) : Effect c s (xs.foldl f s) := by
  induction xs generalizing s with
  | nil => exact .refl s
  | cons x xs ih => exact (h s x).trans (ih _)

theorem withMsu_effect (s : State) (x : Msu) : Effect [.msu] s (s.withMsu x) :=
  ⟨⟨fun p hp => by cases p <;> simp_all [Part.kept], rfl⟩, fun _ => rfl⟩

theorem withStk_effect (s : State) (x : Stk) : Effect [.stk] s (s.withStk x) :=
  ⟨⟨fun p hp => by cases p <;> simp_all [Part.kept], rfl⟩, fun _ => rfl⟩

theorem withPhc_effect (s : State) (x : Phc) : Effect [.phc] s (s.withPhc x) :=
  ⟨⟨fun p hp => by cases p <;> simp_all [Part.kept], rfl⟩, fun _ => rfl⟩

theorem withZnt_effect (s : State) (x : Znt) : Effect [.znt, .zones] s (s.withZnt x) :=
  ⟨⟨fun p hp => by cases p <;> simp_all [Part.kept], rfl⟩, fun _ => rfl⟩

/-- A ZNT with the same zone table and session (R114, R122). -/
theorem withZntLimits_effect (s : State) (mask set : List Nat) (limits : Limits) :
    Effect [.znt] s (s.withZnt { s.znt with mask := mask, combined := set, limits := limits }) :=
  ⟨⟨fun p hp => by cases p <;> simp_all [Part.kept], rfl⟩, fun _ => rfl⟩

/-- The envelope formed from a state keeps the measured quantities it reads (R72). -/
@[simp] theorem State.envelope_measured (s : State) : s.envelope.measured = s.env.measured := by
  unfold State.envelope
  split <;> rfl

theorem withEnv_effect (s : State) (x : Envelope) : Effect [.env, .measured] s (s.withEnv x) :=
  ⟨⟨fun p hp => by cases p <;> simp_all [Part.kept], rfl⟩, fun _ => rfl⟩

theorem withEnvelope_effect (s : State) : Effect [.env] s (s.withEnv s.envelope) :=
  ⟨⟨fun p hp => by cases p <;> simp_all [Part.kept], rfl⟩, fun _ => rfl⟩

theorem withGru_effect (s : State) (x : Gru) : Effect [.grants] s (s.withGru x) :=
  ⟨⟨fun p hp => by cases p <;> simp_all [Part.kept], rfl⟩, fun _ => rfl⟩

theorem withFsv_effect (s : State) (x : Fsv) : Effect [.faults, .stall] s (s.withFsv x) :=
  ⟨⟨fun p hp => by cases p <;> simp_all [Part.kept], rfl⟩, fun _ => rfl⟩

/-- An FSV with the same stall window (R132). -/
theorem withFsvSameStall_effect (s : State) (x : Fsv) (ref : x.stallRef = s.fsv.stallRef)
    (timer : x.stallTimer = s.fsv.stallTimer) : Effect [.faults] s (s.withFsv x) :=
  ⟨⟨fun p hp => by cases p <;> simp_all [Part.kept], rfl⟩, fun _ => rfl⟩

theorem withBrc_effect (s : State) (x : Brc) : Effect [.brc] s (s.withBrc x) :=
  ⟨⟨fun p hp => by cases p <;> simp_all [Part.kept], rfl⟩, fun _ => rfl⟩

theorem withGst_effect (s : State) (x : Gst) : Effect [.gst] s (s.withGst x) :=
  ⟨⟨fun p hp => by cases p <;> simp_all [Part.kept], rfl⟩, fun _ => rfl⟩

theorem withLines_effect (s : State) (x : Lines) : Effect [.lines] s (s.withLines x) :=
  ⟨⟨fun p hp => by cases p <;> simp_all [Part.kept], rfl⟩, fun _ => rfl⟩

theorem useFree_effect (s : State) : Effect [] s s.useFree :=
  ⟨⟨fun p hp => by cases p <;> simp_all [Part.kept], rfl⟩, fun _ => rfl⟩

theorem withGrant_effect (s : State) (d : Drive) (x : Grant) : Effect [.grants] s (s.withGrant d x) :=
  withGru_effect s _

theorem withEntry_effect (s : State) (src : Source) (x : FaultEntry) : Effect [.faults] s (s.withEntry src x) :=
  withFsvSameStall_effect s _ rfl rfl

/-- The end of an event writes the permit outputs and warnings 0 to 2 alone. -/
theorem settle_effect (s : State) : Effect [] s (settle s) :=
  ⟨⟨fun p hp => by cases p <;> simp_all [settle, Part.kept], rfl⟩, fun _ => rfl⟩

theorem takeScanWarnings_effect (s : State) : Effect [] s (takeScanWarnings s) :=
  ⟨⟨fun p hp => by cases p <;> simp_all [takeScanWarnings, Part.kept], rfl⟩, fun _ => rfl⟩

/-! The recorder. -/

theorem askEvent_effect (d : EventDetail) (s : State) : Effect [.brc] s (askEvent d s) := withBrc_effect s _

theorem askJoints_effect (d : Nat → EventDetail) (m : Nat) (s : State) : Effect [.brc] s (askJoints d m s) :=
  .ite (.refl s) (askEvent_effect _ s)

theorem askEvents_effect (ds : List EventDetail) (s : State) : Effect [.brc] s (askEvents ds s) :=
  Effect.foldl (f := fun s d => askEvent d s) (fun s d => askEvent_effect d s) ds s

theorem brcDepth_effect (before : Int) (s : State) : Effect [.brc] s (brcDepth before s) :=
  .ite (withBrc_effect s _) (.refl s)

theorem brcTurnMark_effect (s : State) : Effect [.brc] s (brcTurnMark s) := .ite (withBrc_effect s _) (.refl s)

theorem brcScan_effect (s : State) : Effect [.brc] s (brcScan s) := .ite (withBrc_effect s _) (.refl s)

theorem zntReevaluate_effect (s : State) : Effect [.znt, .brc] s (zntReevaluate s) :=
  ((withZntLimits_effect s _ _ _).mono (by simp)).trans ((askEvents_effect _ _).mono (by simp))

/-! The envelope and the grants. -/

/-- The rewriting of a pending answer writes that answer alone (R104). -/
theorem rewriteAnswer_effect (d : Drive) (a : Answer) (s : State) : Effect [.pif] s (rewriteAnswer d a s) := by
  refine ⟨⟨fun p hp => by cases p <;> simp_all [rewriteAnswer, Part.kept], rfl⟩, fun q => ?_⟩
  show SameButAnswer (s.pif.port q) ((s.pif.withPort d.port ((s.port d.port).rewrite a)).port q)
  rw [Pif.port_withPort]
  split
  · next h =>
    subst h
    unfold PortState.rewrite
    by_cases hm : (s.port d.port).mayRewrite <;> simp only [hm] <;> rfl
  · rfl

theorem withdraw_effect (d : Drive) (c : NeutralCause) (s : State) : Effect [.grants, .pif] s (withdraw d c s) :=
  ((withGrant_effect s d _).mono (by simp)).trans ((rewriteAnswer_effect d _ _).mono (by simp))

/-- A withdrawal rewrites its drive's pending answer where R104 allows and touches no other port. -/
theorem withdraw_answer (d : Drive) (c : NeutralCause) (s : State) :
    AnswerWithdrawn d c s (withdraw d c s) ∧ ∀ q, q ≠ d.port → (withdraw d c s).port q = s.port q :=
  have ports : ∀ (g : Grant) (q : Port), (s.withGrant d g).port q = s.port q := fun g q => by cases d <;> rfl
  ⟨by simp [AnswerWithdrawn, withdraw, rewriteAnswer, PortState.rewrite, PortState.mayRewrite, ports],
    fun q h => by rw [withdraw, rewriteAnswer, State.port_withPort_of_ne (h := h), ports]⟩

theorem neutralEvent_effect (c : NeutralCause) (d : Drive) (s : State) :
    Effect [.grants, .pif] s (neutralEvent c d s) := by
  unfold neutralEvent
  split
  · exact withdraw_effect d c s
  · exact (withGrant_effect s d _).mono (by simp)
  · exact .refl s

theorem parkGrants_effect (s : State) : Effect [.grants, .pif] s (parkGrants s) :=
  Effect.foldl (f := fun s d => neutralEvent .parked d s) (fun s d => neutralEvent_effect .parked d s) _ s

theorem latchedDropBegins_effect (s : State) (d : Drive) : Effect [.grants, .pif] s (latchedDropBegins s d) :=
  (neutralEvent_effect .drop d s).trans ((withGrant_effect _ d _).mono (by simp))

theorem clearHold_effect (s : State) (d : Drive) : Effect [.grants] s (clearHold s d) := withGrant_effect s d _

theorem reclampDrive_effect (s : State) (d : Drive) : Effect [.grants, .pif] s (reclampDrive s d) := by
  unfold reclampDrive
  dsimp only
  generalize (if (s.port d.port).mayRewrite then s.env.answerY d (isReverse (s.grant d).granted)
    else (s.grant d).reportedCeiling) = ceiling
  split
  · split
    · exact ((withGrant_effect s d _).mono (by simp)).trans ((rewriteAnswer_effect d _ _).mono (by simp))
    · exact .refl s
  · exact .refl s
  · exact .refl s

theorem reclamp_effect (s : State) : Effect [.grants, .pif] s (reclamp s) := .foldl reclampDrive_effect _ s

theorem recompute_effect (s : State) : Effect [.env, .grants, .pif] s (recompute s) :=
  .ite (((withEnvelope_effect s).mono (by simp)).trans ((reclamp_effect _).mono (by simp)))
    ((withEnvelope_effect s).mono (by simp))

/-! The fault table. -/

theorem handLimitReach_effect (s : State) : Effect [.faults, .env, .grants, .pif] s (handLimitReach s) :=
  .ite (.refl s)
    (((withFsvSameStall_effect s { s.fsv with limitReach := s.fsv.formLimitReach } rfl rfl).mono (by simp)).trans
      ((recompute_effect _).mono (by simp)))

theorem handDropReach_effect (s : State) : Effect [.faults] s (handDropReach s) :=
  withFsvSameStall_effect s _ rfl rfl

theorem beginOverride_effect (src : Source) (a : OverrideAction) (s : State) :
    Effect [.faults, .env, .grants, .pif] s (beginOverride src a s) := by
  cases a with
  | limit => exact ((withEntry_effect s src _).mono (by simp)).trans (handLimitReach_effect _)
  | drop =>
    refine ((withEntry_effect s src { s.entry src with override := some ⟨.drop, (s.entry src).mode⟩ }).mono
      (by simp)).trans (((handDropReach_effect _).mono (by simp)).trans ?_)
    exact .ite ((Effect.foldl latchedDropBegins_effect _ _).mono (by simp)) (.refl _)

theorem raise_effect (src : Source) (s : State) :
    Effect [.faults, .brc, .env, .grants, .pif] s (raise src s) := by
  unfold raise
  split
  · exact .refl s
  · dsimp only
    refine Effect.trans (t := askEvent (.faultRaised src) (s.withEntry src { s.entry src with latched := true }))
      (((withEntry_effect s src _).mono (by simp)).trans ((askEvent_effect _ _).mono (by simp))) ?_
    split
    · exact (beginOverride_effect src _ _).mono (by simp)
    · exact .refl _
    · exact .refl _

theorem decideCondition_effect (src : Source) (b : Bool) (s : State) :
    Effect [.faults, .brc, .env, .grants, .pif] s (decideCondition src b s) := by
  unfold decideCondition
  split
  · exact .refl s
  · refine ((withEntry_effect s src { s.entry src with condition := b }).mono (by simp)).trans ?_
    exact .ite (raise_effect src _) (.refl _)

theorem decideConditions_effect (cs : List (Source × Bool)) (s : State) :
    Effect [.faults, .brc, .env, .grants, .pif] s (decideConditions cs s) :=
  Effect.foldl (f := fun s c => decideCondition c.1 c.2 s) (fun s c => decideCondition_effect c.1 c.2 s) cs s

theorem raiseAll_effect (srcs : List Source) (s : State) :
    Effect [.faults, .brc, .env, .grants, .pif] s (raiseAll srcs s) :=
  Effect.foldl (f := fun s src => raise src s) (fun s src => raise_effect src s) srcs s

theorem handHolds_effect (r : Drive → Bool) (s : State) (d : Drive) : Effect [.grants, .pif] s (handHolds r s d) :=
  .ite (.ite (latchedDropBegins_effect s d) (.refl s)) ((clearHold_effect s d).mono (by simp))

theorem takeBoundary_effect (s : State) : Effect [.faults, .env, .grants, .pif] s (takeBoundary s) :=
  (((withFsvSameStall_effect s s.fsv.boundary rfl rfl).mono (by simp)).trans (handLimitReach_effect _)).trans
    (((handDropReach_effect _).mono (by simp)).trans ((Effect.foldl (handHolds_effect _) _ _).mono (by simp)))

/-! The phase controller. -/

theorem changePhase_effect (p : Phase) (s : State) :
    Effect [.phc, .brc, .env, .grants, .pif] s (changePhase p s) := by
  have recomputed : ∀ x d y, Effect [.phc, .brc, .env, .grants, .pif] s
      (recompute ((askEvent d (s.withPhc x)).withPhc y)) := fun x d y =>
    ((withPhc_effect s x).mono (by simp)).trans (((askEvent_effect d _).mono (by simp)).trans
      (((withPhc_effect _ y).mono (by simp)).trans ((recompute_effect _).mono (by simp))))
  unfold changePhase
  dsimp only
  split
  · exact ((recomputed _ _ _).trans ((parkGrants_effect _).mono (by simp))).trans
      ((withPhc_effect _ _).mono (by simp))
  · exact (recomputed _ _ _).trans ((withPhc_effect _ _).mono (by simp))

theorem advanceEvaluate_effect (s : State) : Effect [.phc, .brc, .env, .grants, .pif] s (advanceEvaluate s) :=
  .ite (((withPhc_effect s _).mono (by simp)).trans (t := s.withPhc { s.phc with
      advanceArm := s.phc.advanceArm || decide (s.gst.settings.spinOffLevel < s.stk.depth) })
    (.ite (changePhase_effect _ _) (.refl _))) (.refl s)

theorem phcAfterEvaluation_effect (old : Stk) (s : State) :
    Effect [.phc, .brc, .env, .grants, .pif] s (phcAfterEvaluation old s) :=
  .ite (.refl s) (advanceEvaluate_effect s)

theorem phcCount_effect (forward : Bool) (s : State) :
    Effect [.phc, .brc, .env, .grants, .pif] s (phcCount forward s) := by
  unfold phcCount
  split
  · exact .refl s
  · next o _ =>
    refine .ite (((withPhc_effect s { s.phc with op := some o.turned }).mono (by simp)).trans ?_)
      ((withPhc_effect s _).mono (by simp))
    exact .ite (.ite (changePhase_effect _ _) (.refl _)) (.ite (changePhase_effect _ _) (.refl _))

theorem startOperation_effect (a t : Nat) (r : Option ReleaseTarget) (s : State) :
    Effect [.phc] s (startOperation a t r s) := withPhc_effect s _

/-! The string tracker. -/

theorem evaluate_effect (s : State) : Effect [.stk] s (evaluate s) := withStk_effect s _

theorem evaluateAnew_effect (s : State) : Effect [.stk] s (evaluateAnew s) :=
  (withStk_effect s _).trans (evaluate_effect _)

theorem lockRule_effect (s : State) : Effect [.stk, .brc] s (lockRule s) :=
  (((withStk_effect s _).trans (evaluate_effect _)).mono (by simp)).trans ((askJoints_effect _ _ _).mono (by simp))

theorem doubtLocked_effect (s : State) : Effect [.stk, .brc] s (doubtLocked s) :=
  ((withStk_effect s _).mono (by simp)).trans ((askJoints_effect _ _ _).mono (by simp))

theorem doubtLockedIfAny_effect (s : State) : Effect [.stk, .brc] s (doubtLockedIfAny s) :=
  .ite ((doubtLocked_effect s).trans ((evaluate_effect _).mono (by simp))) (.refl s)

theorem freeAll_effect (s : State) : Effect [.stk, .brc] s (freeAll s) :=
  ((withStk_effect s _).mono (by simp)).trans
    (((askJoints_effect _ _ _).mono (by simp)).trans ((evaluate_effect _).mono (by simp)))

theorem releaseFiring_effect (s : State) : Effect [.stk, .brc] s (releaseFiring s).1 := by
  refine ((withStk_effect s { s.stk with reverseRun := true }).mono (by simp)).trans ?_
  unfold releaseFiring
  dsimp only
  split
  · split
    · exact freeAll_effect _
    · exact (doubtLocked_effect _).trans ((evaluate_effect _).mono (by simp))
  · split
    · exact (doubtLocked_effect _).trans ((evaluate_effect _).mono (by simp))
    · exact .refl _

theorem stkCount_effect (forward : Bool) (s : State) : Effect [.stk, .brc] s (stkCount forward s).1 := by
  refine ((withStk_effect s (s.stk.counted forward)).mono (by simp)).trans ?_
  unfold stkCount
  dsimp only
  split
  · split
    · exact lockRule_effect _
    · exact .refl _
  · split
    · exact releaseFiring_effect _
    · exact .refl _

theorem handOn_effect (raised : List Source) (s : State) :
    Effect [.znt, .faults, .brc, .env, .grants, .pif] s (handOn raised s) :=
  ((zntReevaluate_effect s).mono (by simp)).trans (((recompute_effect _).mono (by simp)).trans
    (((raiseAll_effect raised _).mono (by simp)).trans ((decideCondition_effect _ _ _).mono (by simp))))

theorem handCount_effect (evaluated : Option (List Source)) (s : State) :
    Effect [.znt, .faults, .brc, .env, .grants, .pif] s (handCount evaluated s) := by
  unfold handCount
  split
  · exact handOn_effect _ s
  · exact (recompute_effect s).mono (by simp)

theorem afterEvaluation_effect (old : Stk) (raised : List Source) (s : State) :
    Effect [.phc, .znt, .faults, .brc, .env, .grants, .pif] s (afterEvaluation old raised s) :=
  ((handOn_effect raised s).mono (by simp)).trans
    (((phcAfterEvaluation_effect old _).mono (by simp)).trans ((brcDepth_effect _ _).mono (by simp)))

end Sys2Proof.Machine
end

