-- ==== Sys2Proof/Laws/Evaluation.lean ====
section
/-! SUPPORT. What one evaluation of the STK can do, said once (`evaluate_evaluated`), and the two shared operations it
is made of: the fill of R13 and the decision of the quality and D of R10. -/

namespace Sys2Proof.Machine

@[simp] theorem fill_state (js : List Joint) (gs : List JointGeometry) (r : Int) :
    (fill js gs r).1.map Joint.state = js.map Joint.state := by
  induction js generalizing gs with
  | nil => cases gs <;> rfl
  | cons j js ih =>
    cases gs with
    | nil => rfl
    | cons g gs => by_cases h : j.isLocked <;> simp [fill, h, ih, Joint.placed]

/-- A fill leaves every LOCKED joint as it is (R13). -/
theorem fill_locked (js : List Joint) (gs : List JointGeometry) (r : Int) (j : Nat) (x : Joint) (h : js[j]? = some x)
    (l : x.isLocked = true) : (fill js gs r).1[j]? = some x := by
  induction js generalizing gs j with
  | nil => simp at h
  | cons y js ih =>
    cases gs with
    | nil => exact h
    | cons g gs =>
      cases j with
      | zero =>
        obtain rfl : y = x := by simpa using h
        simp [fill, l]
      | succ j =>
        have := ih gs j (by simpa using h)
        by_cases hy : y.isLocked <;> simp [fill, hy, this]

/-- What the decision of the quality and D leaves: what `Evaluated` says but for the advance of bottom-hole depth (R10 to R14). -/
theorem Stk.decideDepth_spec (k : Stk) (a : Option Geometry) (pRope head : Int) :
    let t := k.decideDepth a pRope head
    { t with
      joints := k.joints, quality := k.quality, depth := k.depth, heldDepth := k.heldDepth
      disagreement := k.disagreement, bottomHole := k.bottomHole } = k ∧
    t.bottomHole = k.bottomHole ∧
    t.joints.map Joint.state = k.joints.map Joint.state ∧
    (∀ (j : Nat) (x : Joint), k.joints[j]? = some x → x.isLocked = true → t.joints[j]? = some x) ∧
    (t.quality ≠ .valid → t.joints = k.joints ∧ t.disagreement = k.disagreement) ∧
    t.heldDepth = (if t.quality = .valid ∨ t.quality = .strokeOnly then t.depth else k.heldDepth) := by
  unfold Stk.decideDepth
  split
  · exact ⟨rfl, rfl, rfl, fun _ _ h _ => h, fun _ => ⟨rfl, rfl⟩, by simp⟩
  · split
    · exact ⟨rfl, rfl, rfl, fun _ _ h _ => h, fun _ => ⟨rfl, rfl⟩, by simp⟩
    · exact ⟨rfl, rfl, fill_state _ _ _, fun j x => fill_locked _ _ _ j x, fun h => absurd rfl h, by simp⟩
    · exact ⟨rfl, rfl, rfl, fun _ _ h _ => h, fun _ => ⟨rfl, rfl⟩, by simp⟩
    · exact ⟨rfl, rfl, rfl, fun _ _ h _ => h, fun _ => ⟨rfl, rfl⟩, by simp⟩

/-- The advance of bottom-hole depth moves nothing else (R24). -/
theorem Stk.advanceBottomHole_spec (k : Stk) (b : Bool) :
    k.advanceBottomHole b = { k with
      bottomHole := if b = true ∧ (k.quality = .valid ∨ k.quality = .strokeOnly) then max k.bottomHole k.depth
        else k.bottomHole } := by
  have trusted : k.quality.trusted = true ↔ k.quality = .valid ∨ k.quality = .strokeOnly := by
    cases k.quality <;> simp [Quality.trusted]
  simp only [← trusted]
  unfold Stk.advanceBottomHole
  rcases lt_or_ge k.bottomHole k.depth with d | d
  · cases b <;> cases h : k.quality.trusted <;> simp [d, d.le]
  · cases b <;> cases h : k.quality.trusted <;> simp [d, d.not_gt]

/-- An evaluation leaves the quality and D of R10. -/
theorem evaluate_depthInv (s : State) : DepthInv (evaluate s) := by
  have stk : (evaluate s).stk = _ :=
    (s.stk.decideDepth s.gst.active s.pRope s.headPos).advanceBottomHole_spec s.znt.sessionOpen
  have gst : (evaluate s).gst = s.gst := rfl
  have msu : (evaluate s).msu = s.msu := rfl
  rcases ha : s.gst.active with _ | g
  · constructor <;> simp [gst, stk, ha, Stk.decideDepth]
  cases hd : s.stk.datumSet
  · constructor <;> simp [gst, stk, ha, hd, Stk.decideDepth, Stk.decideQuality]
  cases ht : s.stk.taut
  · cases hc : chainClosed s.stk.joints <;>
      constructor <;>
      simp [gst, msu, stk, ha, hd, ht, hc, Stk.decideDepth, Stk.decideQuality, State.headPos]
  · constructor <;>
      simp [gst, msu, stk, ha, hd, ht, Stk.decideDepth, Stk.decideQuality, Stk.distribute, State.pRope]

/-- One evaluation, whole (R11). -/
theorem evaluate_evaluated (s : State) : Evaluated s.stk s (evaluate s) := by
  obtain ⟨rest, bottomHole, states, locked, outside, held⟩ := s.stk.decideDepth_spec s.gst.active s.pRope s.headPos
  have stk : (evaluate s).stk = _ :=
    (s.stk.decideDepth s.gst.active s.pRope s.headPos).advanceBottomHole_spec s.znt.sessionOpen
  have depth := evaluate_depthInv s
  generalize s.stk.decideDepth s.gst.active s.pRope s.headPos = t at *
  refine ⟨?_, depth, ?_, ?_, ?_, ?_, ?_⟩
  all_goals simp only [State.jointStates, stk]
  · exact rest
  · exact states
  · exact locked
  · exact outside
  · exact held
  · rw [bottomHole]

end Sys2Proof.Machine
end

