-- ==== Sys2Proof/Laws/Requests.lean ====
section
/-! SUPPORT. The life of a request: the rise of select on a ready port, the checks of the PIF, the owner's handler,
the pending answer and the latches. One lemma per stage, so that a statement about a row unfolds its owner alone. -/

namespace Sys2Proof.Machine

/-- A command's code names the command (R174). -/
@[simp] theorem Cmd.ofCode_code (c : Cmd) : Cmd.ofCode c.code = some c := by cases c <;> decide

/-- On a ready port the row's own frame ends (R170). -/
theorem selectRises_of_ready {p : Port} {s : State} (h : PortReady p s) (whole : State → State) :
    selectRises p whole s = whole s := by
  obtain ⟨hx, hf⟩ := h
  unfold selectRises
  rw [hx]
  rcases hf with hf | ⟨f, hf, h0⟩
  · simp [hf]
  · simp [hf, h0]

/-- While XRST is asserted the rise of select ends nothing: the port is released (R177). -/
theorem selectRises_of_xrst {p : Port} {s : State} (h : s.lines.xrst = true) (whole : State → State) :
    selectRises p whole s = s.withPort p (s.port p).released := by
  simp [selectRises, h]

/-- On a port whose select was ignored the rise of select ends nothing (R171, R177). -/
theorem selectRises_of_ignored {p : Port} {s : State} (h : (s.port p).frame = .ignored) (whole : State → State) :
    selectRises p whole s = s.withPort p (s.port p).released := by
  unfold selectRises
  split
  · rfl
  · simp [h]

/-- The state a request row leaves on a ready port, by its command. -/
theorem exec_requestRow {c : Cmd} {p : Port} {s : State} (h : PortReady p s) (a b : Word) (e : BitVec 160) :
    exec (requestRow c p a b e) s = .next (settle (takeRequest p
      ⟨c.code, a, b, decide ((if c = .recordRead then e else 0) ≠ 0), s.brc.oldest⟩ s)) := by
  cases c <;>
    exact congrArg (fun t => Host.Outcome.next (settle t)) (selectRises_of_ready h _)

/-- A command taken on the port passes the PIF unless its port has not acknowledged a reset (R174). -/
theorem pifRefusal_of_passes {c : Cmd} {p : Port} {s : State} (hp : c.takenOn p = true)
    (hr : (s.port p).rst = false ∨ c.takenUnacknowledged = true) (a b : Word) (o : Bool) (l : Record) :
    pifRefusal p ⟨c.code, a, b, o, l⟩ s = none := by
  unfold pifRefusal
  rcases hr with hr | hr <;> simp [hp, hr]

/-- A request that passes the PIF is served by its owner (R174). -/
theorem decideRequest_of_passes {c : Cmd} {p : Port} {s : State} (hp : c.takenOn p = true)
    (hr : (s.port p).rst = false ∨ c.takenUnacknowledged = true) (a b : Word) (o : Bool) (l : Record) :
    decideRequest p ⟨c.code, a, b, o, l⟩ s = serve p c ⟨c.code, a, b, o, l⟩ s := by
  simp [decideRequest, pifRefusal_of_passes hp hr a b o l]

@[simp] theorem State.frameEnded_rst (s : State) (p : Port) : ((s.frameEnded p).port p).rst = (s.port p).rst := by
  simp [State.frameEnded, PortState.released]

/-- A request taken on a port: served, its answer pending, the latches cleared (R170, R172, R174). -/
theorem takeRequest_of_passes {c : Cmd} {p : Port} {s : State} (hp : c.takenOn p = true)
    (hr : (s.port p).rst = false ∨ c.takenUnacknowledged = true) (a b : Word) (o : Bool) (l : Record) :
    takeRequest p ⟨c.code, a, b, o, l⟩ s =
      (let r := serve p c ⟨c.code, a, b, o, l⟩ (s.frameEnded p)
       clearLatches p ⟨c.code, a, b, o, l⟩ (r.1.withPort p ((r.1.port p).answered r.2))) := by
  have h : decideRequest p ⟨c.code, a, b, o, l⟩ (s.frameEnded p) = serve p c ⟨c.code, a, b, o, l⟩ (s.frameEnded p) :=
    decideRequest_of_passes hp (by simpa using hr) a b o l
  simp only [takeRequest]
  rw [show (s.withPort p { (s.port p).released with link := false }) = s.frameEnded p from rfl, h]

/-- A frame on a drive port clears no latch (R174). -/
theorem clearLatches_of_drive {p : Port} (h : p ≠ .cab) (q : Request) (s : State) : clearLatches p q s = s := by
  simp [clearLatches, h]

/-- The latches a frame on the cab port clears, by its command (R52, R162). -/
theorem clearLatches_cab (c : Cmd) (a b : Word) (o : Bool) (l : Record) (s : State) :
    clearLatches .cab ⟨c.code, a, b, o, l⟩ s =
      (let t := if Cmd.keepsReleaseLatch c then s else s.withPhc { s.phc with releaseLatch := false }
       if Cmd.keepsStoreEnable c then t else t.withStoreEnable false) := by
  simp [clearLatches]

/-- Clearing the latches writes the latches alone. -/
theorem clearLatches_effect (p : Port) (q : Request) (s : State) : Effect [.phc, .gst] s (clearLatches p q s) := by
  have phc : Effect [.phc, .gst] s (s.withPhc { s.phc with releaseLatch := false }) :=
    (withPhc_effect s _).mono (by simp)
  have gst : ∀ t : State, Effect [.phc, .gst] t (t.withStoreEnable false) := fun t =>
    (withGst_effect t _).mono (by simp)
  unfold clearLatches
  dsimp only
  repeat' split
  all_goals first
    | exact .refl s
    | exact phc
    | exact gst s
    | exact phc.trans (gst _)

end Sys2Proof.Machine
end

