-- ==== Sys2Proof/Laws/Values.lean ====
section
/-! SUPPORT. What the shared operations leave in the parts they write: the envelope after a recomputation, the
PHC after a change of phase, the ranges of the ceilings, the FIFO's numbering. -/

namespace Sys2Proof.Machine

/-- What a part not named keeps, read off an effect. -/
theorem Effect.kept {c : List Part} {s t : State} (h : Effect c s t) (x : Part) (hx : x ∉ c) : x.kept s t :=
  h.keeps.1 x hx

theorem Effect.pending {c : List Part} {s t : State} (h : Effect c s t) : t.pending = s.pending := h.keeps.2

/-- A recomputation leaves the record its inputs give (R72). -/
theorem recompute_env (s : State) : (recompute s).env = s.envelope := by
  unfold recompute
  dsimp only
  split
  · exact (reclamp_effect _).kept .env (by simp)
  · rfl

/-- After a change of phase the phase is the one moved to, nothing is in flight and the release latch is clear
(R48). -/
theorem changePhase_phc (p : Phase) (s : State) :
    (changePhase p s).phc =
      ⟨p, none, none, false, decide (p = .hoist) && s.armAtEntry⟩ := by
  have h : ∀ t : State, Effect [.grants, .pif] t (if p = .parked then parkGrants t else t) := fun t =>
    .ite (parkGrants_effect t) (.refl t)
  unfold changePhase
  dsimp only
  generalize ht : recompute _ = t
  have kept : Effect [.env, .grants, .pif] _ t := ht ▸ recompute_effect _
  have phc := kept.kept .phc (by simp)
  have stk := kept.kept .stk (by simp)
  have gst := kept.kept .gst (by simp)
  have phc' := (h t).kept .phc (by simp)
  have stk' := (h t).kept .stk (by simp)
  have gst' := (h t).kept .gst (by simp)
  simp only [Part.kept] at phc stk gst phc' stk' gst'
  simp only [State.withPhc_phc, State.armAtEntry, phc', stk', gst', phc, stk, gst]
  rfl

/-- Every clamped ceiling lies in the range the ports carry (R91). -/
theorem unsigned16_range (x : Int) : 0 ≤ unsigned16 x ∧ unsigned16 x ≤ 65535 := by
  unfold unsigned16 clamp
  omega

theorem Ceilings.clamped_inRange (c : Ceilings) : c.clamped.InRange := by
  constructor <;> exact unsigned16_range _

theorem Ceilings.zero_inRange : Ceilings.zero.InRange := by
  constructor <;> simp [Ceilings.zero]

theorem Ceilings.InRange.forced {c : Ceilings} (h : c.InRange) (r : DriveSet) : (c.forced r).InRange := by
  constructor <;> simp only [Ceilings.forced] <;> split
  all_goals first
    | exact ⟨le_refl 0, by decide⟩
    | exact h.tFwd
    | exact h.tRev
    | exact h.cDown
    | exact h.cUp
    | exact h.pRotMax
    | exact h.pCdMax
    | exact h.vPay
    | exact h.vHaul

/-- Every grant field of a recomputed record lies in the range the ports carry (R91). -/
theorem State.envelope_inRange (s : State) : s.envelope.grant.InRange := by
  unfold State.envelope
  split
  · exact Ceilings.zero_inRange
  · exact (Ceilings.clamped_inRange _).forced _

/-- A grant field that bounds a drive lies in that range too. -/
theorem Ceilings.InRange.bound {c : Ceilings} (h : c.InRange) (d : Drive) (r : Bool) :
    0 ≤ c.bound d r ∧ c.bound d r ≤ 65535 := by
  cases d <;> cases r <;> simp only [Ceilings.bound]
  · exact h.vPay
  · exact h.vHaul
  · exact h.cDown
  · exact h.cUp
  · exact h.tFwd
  · exact h.tRev

/-- An appended record carries on the numbering (R149). -/
theorem Consecutive.append {fifo : List Record} {n : Word} (h : Consecutive fifo n) (f t : Int) (b : RecordBody) :
    Consecutive (fifo ++ [⟨n, f, t, b⟩]) (n + 1) := by
  intro i r hr
  rcases Nat.lt_or_ge i fifo.length with hi | hi
  · rw [List.getElem?_append_left hi] at hr
    rw [h i r hr, List.length_append, List.length_singleton, Nat.succ_sub (le_of_lt hi), ← Nat.add_one,
      BitVec.ofNat_add]
    generalize BitVec.ofNat 16 (fifo.length - i) = k
    bv_omega
  · rw [List.getElem?_append_right hi] at hr
    obtain rfl | hk : i = fifo.length ∨ fifo.length < i := by omega
    · simp only [Nat.sub_self, List.getElem?_cons_zero, Option.some.injEq] at hr
      subst hr
      simp
    · rw [List.getElem?_eq_none (by simp; omega)] at hr
      exact absurd hr (by simp)

/-- Removing the oldest record carries on the numbering (R148). -/
theorem Consecutive.tail {fifo : List Record} {n : Word} (h : Consecutive fifo n) : Consecutive fifo.tail n := by
  cases fifo with
  | nil => exact h
  | cons x xs =>
    intro i r hr
    rw [h (i + 1) r (by simpa using hr), List.length_cons]
    congr 2
    simp only [List.tail_cons]
    omega

/-- A record asked for is appended, counted into the gap, or leaves no trace (R148). -/
theorem Brc.ask_cases (b : Brc) (o : Bool) (f t : Int) (d : RecordBody) :
    (o = false ∧ b.ask o f t d = b) ∨
      (o = true ∧ b.fifo.length < 512 ∧ b.gap.pending = false ∧ b.ask o f t d = b.append f t d) ∨
      (o = true ∧ (512 ≤ b.fifo.length ∨ b.gap.pending = true) ∧ b.ask o f t d = b.countGap f t) := by
  unfold Brc.ask Config.fifoCapacity
  cases o
  · exact .inl ⟨rfl, rfl⟩
  · by_cases h : b.fifo.length < 512 <;> cases b.gap.pending <;> simp [h]
    all_goals omega

end Sys2Proof.Machine
end

