-- ==== Sys2Proof/Tests/Slice0.lean ====
section
/-! SUPPORT. Tests of single steps, with expected values from the spec's text, and witnesses: concrete states and
operands that meet the hypotheses of the statements. -/

namespace Sys2Proof.Tests

open Sys2Proof Sys2Proof.Machine

-- One theorem after the other: each thread of the compiler reserves memory of its own.
set_option Elab.async false

/-! ## Small states -/

/-- A joint with pockets at 2 000 and 6 000 mm. -/
def bar : JointGeometry := ⟨10000, 3000, 40, 120, 300, 2, #v[2000, 6000, 0, 0, 0, 0]⟩

/-- A string of two bars. -/
def small : Geometry :=
  { Geometry.least with
    tHead := 4000, cHead := 3000, lRated := 4800, ropeScale := 1000, strokeScale := 1000, lCl := 17000
    barTorque := #v[3800, 3600, 100, 100, 100], joint := Vector.replicate 5 bar }

/-- A port that has acknowledged the last reset. -/
def quietPort : PortState := { PortState.start 1 .idle with rst := false }

/-- The part after POR with a blank store and an ACK_RESET on every port. -/
def acked : State :=
  let g : Grant := { Grant.start with state := .neutralWait .ackReset }
  { State.reset with pif := ⟨quietPort, quietPort, quietPort, quietPort⟩, gru := ⟨g, g, g, .low⟩ }

/-- The same with two bars as active geometry, every joint FREE at extension 2 000, and a datum at -10 000 mm. -/
def fitted : State :=
  { acked with
    gst := { acked.gst with active := some small, storeCorrupt := false, staging := small }
    stk := { acked.stk with
      joints := [⟨.free, 2000, some 0⟩, ⟨.free, 2000, some 0⟩], datumSet := true, ropeOffset := -10000
      quality := .held, depth := -10000, heldDepth := -10000 } }

/-- The part in a phase, with no operation. -/
def inPhase (p : Phase) (s : State) : State := { s with phc := { s.phc with phase := p } }

/-- The part in RELEASING at an op angle, bound for FREE. -/
def releasing (angle : Nat) : State :=
  { fitted with phc := ⟨.releasing, some ⟨angle, 5000⟩, some .free, false, false⟩ }

/-- The part with a pile session OPEN. -/
def opened (s : State) : State := { s with znt := { s.znt with sessionOpen := true, pile := 7 } }

/-- The part with a commit in flight. -/
def committing (s : State) : State := { s with gst := { s.gst with commit := some 80 } }

/-- The part with both joints LOCKED in their first pockets. -/
def locked (s : State) : State :=
  { s with stk := { s.stk with joints := [⟨.locked 0, 2000, some 0⟩, ⟨.locked 0, 2000, some 0⟩] } }

/-- The part with a record of every drive ACTIVE with a life of 40 ms, granted 0. -/
def active (s : State) : State :=
  let g : Grant := ⟨.active 40, 0, 0, 0, false, false, false, false⟩
  { s with gru := { s.gru with hoist := g, crowd := g, rotary := g } }

/-- The part with every record ACTIVE, and the answer to a DEMAND taken in ACTIVE pending on every drive port. -/
def answering (s : State) : State :=
  let p : PortState := { quietPort with answer := rewritableAnswer .ok 0 0 }
  { active s with pif := { s.pif with hoist := p, crowd := p, rotary := p } }

/-- The part with the XRST line asserted. -/
def inXrst (s : State) : State := s.withLines { s.lines with xrst := true }

/-- The part in a frame on a port, with so many clocks counted. -/
def inFrame (p : Port) (clocks : Nat) (s : State) : State :=
  s.withPort p { s.port p with frame := .shifting ⟨0, clocks, 0, false, none, 5⟩ }

/-- The answer pending on the cab port after a command. -/
def cabAnswer (i : Instr) (s : State) : Answer := ((afterCommand s i).port .cab).answer

/-! ## Well-formedness and frames -/

/-- A LINK_REJECT whose content passes every check is ill-formed: this is the NOP frame of R179. -/
theorem test_valid_frame_is_no_reject :
    Instr.wellFormed (.linkReject .cab 56 (encodeRequest 0x01 0 0)) = false := by decide +kernel

/-- A LINK_REJECT with more bits than clocks is ill-formed. -/
theorem test_bits_fit_clocks : Instr.wellFormed (.linkReject .cab 3 8) = false := by decide +kernel

/-- A LINK_REJECT of a frame cut short is well-formed. -/
theorem test_short_frame_is_reject : Instr.wellFormed (.linkReject .cab 3 5) = true := by decide +kernel

/-- A BAD_CMD that names a command is ill-formed. -/
theorem test_known_cmd_is_no_bad_cmd : Instr.wellFormed (.badCmd .cab 0x70 0 0) = false := by decide +kernel

/-- A BAD_CMD that names none is well-formed. -/
theorem test_unknown_cmd_is_bad_cmd : Instr.wellFormed (.badCmd .cab 0x71 0 0) = true := by decide +kernel

/-- The CRC-8 of the NOP frame is 0x4F (R179). -/
theorem test_nop_crc : crc8 (0x010000000000 : BitVec 48) = 0x4F := by decide +kernel

/-- CMD, A and B stand where R178 puts them. -/
theorem test_request_fields : (encodeRequest 0x10 0x1234 0x0001).extractLsb' 8 48 = 0x101234000100 := by
  decide +kernel

/-- No table word spells a command. -/
theorem test_no_table_word : decodeTableWord 56 0x4F = none := rfl

/-! ## One step of each command -/

/-- POR with ESTOP asserted starts with source 0 latched and every hold set (R143, R146). -/
theorem test_por_estop :
    let t := afterCommand State.reset (.por ⟨⟨true, false⟩, ⟨false, false⟩, ⟨true, true⟩, true, false⟩)
    (t.entry .estop).latched = true ∧ (t.grant .crowd).hold = true ∧ t.msu.ropeRef = ⟨true, false⟩ ∧
      t.msu.angleRef = ⟨true, true⟩ := by decide +kernel

/-- XRST in the middle of a release past half the unlock angle of 120 leaves the LOCKED joints in doubt (R26). -/
theorem test_xrst_cuts_release :
    let s := locked (releasing 61)
    let t := afterCommand { s with stk := { s.stk with aR := 61 } } .xrstAssert
    t.jointStates = [.uncertain, .uncertain] ∧ t.phc.phase = .parked ∧ (t.port .cab).answer.x = 2 := by decide +kernel

/-- At half the unlock angle exactly the joints stay LOCKED (R26). -/
theorem test_xrst_spares_release :
    let s := locked (releasing 60)
    (afterCommand { s with stk := { s.stk with aR := 60 } } .xrstAssert).jointStates = [.locked 0, .locked 0] := by
  decide +kernel

/-- The end of XRST takes the present angle as mark reference (R41). -/
theorem test_xrst_end_mark :
    let s := inXrst { fitted with msu := { fitted.msu with angle := 77, restTimer := none } }
    let t := afterCommand s .xrstEnd
    t.msu.markRef = 77 ∧ t.msu.restTimer = some 200 ∧ t.lines.xrst = false := by decide +kernel

/-- ESTOP asserted withdraws an ACTIVE record, and the entry to PARKED gives it that cause (R99, R143). -/
theorem test_estop_assert :
    let t := afterCommand (active (inPhase .free fitted)) .estopAssert
    (t.grant .rotary).state = .neutralWait .parked ∧ (t.grant .rotary).hold = true ∧ t.phc.phase = .parked := by
  decide +kernel

/-- ESTOP released leaves latched and the override (R143). -/
theorem test_estop_release :
    let t := afterCommand (afterCommand fitted .estopAssert) .estopRelease
    (t.entry .estop).condition = false ∧ (t.entry .estop).latched = true ∧
      (t.entry .estop).override = some ⟨.drop, .latched⟩ := by decide +kernel

/-- One stroke count in the order in which B leads is -1, and -1 mm at scale 1 000 (R29, R30). -/
theorem test_stroke_count_down :
    let t := afterCommand fitted (.positionCountChange .stroke ⟨false, true⟩)
    t.msu.stroke = -1 ∧ t.msu.strokeMm = -1 := by decide +kernel

/-- A change of both lines of a pair is no count (R29). -/
theorem test_both_lines :
    let t := afterCommand fitted (.positionCountChange .rope ⟨true, true⟩)
    t.msu.rope = 0 ∧ t.msu.ropeRef = ⟨true, true⟩ := by decide +kernel

/-- The 120th unbroken forward count locks the aligned joints; the count before it evaluates nothing and decides no
DEPTH_DISAGREE (R14, R17, R146). -/
theorem test_lock_angle :
    let s := { fitted with stk := { fitted.stk with aF := 118, disagreement := 500 } }
    let t := afterCommand s (.angleCountChange ⟨true, false⟩)
    let u := afterCommand t (.angleCountChange ⟨true, true⟩)
    (t.entry .depthDisagree).condition = false ∧ t.jointStates = s.jointStates ∧
      (u.entry .depthDisagree).condition = true ∧ u.jointStates = [.locked 0, .locked 0] := by decide +kernel

/-- The 120th unbroken reverse count of an unlocking turn frees the joints and completes into FREE (R18, R59). -/
theorem test_unlock_angle :
    let s := locked (releasing 119)
    let t := afterCommand { s with stk := { s.stk with aR := 119 } } (.angleCountChange ⟨false, true⟩)
    t.jointStates = [.free, .free] ∧ t.phc.phase = .free ∧ t.phc.op = none := by decide +kernel

/-- A rail reading keeps the last good value, and the third in a row sets holding (R34). -/
theorem test_third_rail :
    let v := acked.msu.channels
    let s := { acked with msu := { acked.msu with channels := { v with ot := ⟨60, 60, 100, 2, false⟩ } } }
    let t := afterCommand s (.scanCompletion ⟨1, 1, 1, 1, 1, 4095⟩)
    t.msu.channels.ot = ⟨60, 60, 4095, 3, true⟩ ∧ (t.entry .oilSensor).condition = true := by decide +kernel

/-- The boundary that widens a hoist DROP gives the crowd's record, which an oil DROP holds already, cause DROP (R111,
R136). -/
theorem test_boundary_newly_reached :
    let dropping (src : Source) (f : Fsv) : Fsv :=
      { f with table := f.table.set src.idx { f.entry src with condition := true, override := some ⟨.drop, .latched⟩ } }
    let s := { fitted with fsv := { dropping .hstSensor (dropping .oilHot fitted.fsv) with pendingGroupMode := some .whole } }
    (s.grant .crowd).state = .neutralWait .ackReset ∧ ((takeBoundary s).grant .crowd).state = .neutralWait .drop := by
  decide +kernel

/-- No scan is taken while XRST is asserted (R32). -/
theorem test_scan_in_xrst :
    afterCommand (inXrst acked) (.scanCompletion ⟨9, 9, 9, 9, 9, 9⟩) = inXrst acked := by decide +kernel

/-- A rope that paid out 37 mm in the window gives 370 mm/s (R38). -/
theorem test_window_speed :
    let s := { fitted with msu := { fitted.msu with rope := 37, ropeMm := 37 } }
    (afterCommand s .windowExpiry).msu.speed = 370 := by decide +kernel

/-- A rope that moved 600 mm in the window is clamped to 5 000 mm/s (R38). -/
theorem test_window_clamp :
    let s := { fitted with msu := { fitted.msu with rope := 600, ropeMm := 600 } }
    (afterCommand s .windowExpiry).msu.speed = 5000 := by decide +kernel

/-- The rest timer's expiry sets rest and does not restart (R42). -/
theorem test_rest :
    let t := afterCommand fitted .restTimerExpiry
    t.msu.rest = true ∧ t.msu.restTimer = none := by decide +kernel

/-- A head that does not turn in DRILL with a forward grant and torque at 9/10 of its ceiling stalls (R132). -/
theorem test_stall :
    let s := active (inPhase .drill fitted)
    let s := { s with gru := { s.gru with rotary := { s.gru.rotary with granted := 5 } } }
    (afterCommand s .stallWindowExpiry).fsv.groupStatus .rot = true := by decide +kernel

/-- The op timer's expiry in RELEASING returns to DRILL with OP_TIMEOUT latched (R60). -/
theorem test_op_timeout :
    let t := afterCommand (releasing 5) .opTimerExpiry
    t.phc.phase = .drill ∧ (t.entry .opTimeout).latched = true := by decide +kernel

/-- The part with the hoist's record ACTIVE in the last millisecond of its life. -/
def lapsing (s : State) : State :=
  { s with gru := { s.gru with hoist := { s.gru.hoist with state := .active 1 } } }

/-- An expired hoist grant drops its permit and the brake release with it (R107, R110). -/
theorem test_grant_expired :
    let s := lapsing (active (inPhase .free fitted))
    let t := afterCommand { s with gru := { s.gru with permits := ⟨true, true, true, true⟩ } } (.grantExpired .hoist)
    t.gru.permits = ⟨false, true, true, false⟩ ∧ (t.grant .hoist).state = .neutralWait .grantExpired := by
  decide +kernel

/-- An expiry behind the DEMAND that renewed the life does not happen (R108). -/
theorem test_grant_renewed :
    let s := afterCommand (lapsing (active fitted)) (.demand .hoist 0 0)
    (s.grant .hoist).state = .active 40 ∧ ((afterCommand s (.grantExpired .hoist)).grant .hoist).state = .active 40 := by
  decide +kernel

/-- A commit's completion makes every joint UNCERTAIN (R27, R164). -/
theorem test_commit_completion :
    let t := afterCommand (committing fitted) .commitCompletion
    t.jointStates = [.uncertain, .uncertain] ∧ t.gst.commit = none ∧ t.gst.active = some small := by decide +kernel

/-- The response after POR: RST and the depth-quality warning set, RESTART, X = 1 (R172, R178). -/
theorem test_select_fall :
    let t := afterCommand State.reset (.selectFall .hoist)
    (t.port .hoist).frame = .shifting (.start (encodeResponse 0x41 4 1 0)) ∧ (t.port .hoist).dataOut = some false := by
  decide +kernel

/-- The seventh clock drives the eighth bit of SUM, which is WARN (R169, R178). -/
theorem test_shift_clock :
    let s := State.reset.withPort .cab
      { State.reset.port .cab with frame := .shifting ⟨encodeResponse 0x41 4 1 0, 6, 0, false, none, 5⟩ }
    ((afterCommand s (.shiftClock .cab true)).port .cab).dataOut = some true := by decide +kernel

/-- A select timeout is answered with the clock count and reason 6 (R171). -/
theorem test_select_timeout :
    ((afterCommand (inFrame .crowd 9 acked) (.selectTimeout .crowd)).port .crowd).answer = answer .linkReject 9 6 := by
  decide +kernel

/-- Eight clocks of zeros are a line stuck low (R170). -/
theorem test_stuck_low :
    ((afterCommand acked (.linkReject .rotary 8 0)).port .rotary).answer = answer .linkReject 8 4 := by decide +kernel

/-- Five clocks are too few (R170). -/
theorem test_short_frame :
    ((afterCommand acked (.linkReject .rotary 5 0)).port .rotary).answer = answer .linkReject 5 1 := by decide +kernel

/-- A CMD of no command carries the CMD in X (R174). -/
theorem test_bad_cmd : cabAnswer (.badCmd .cab 0x7F 1 2) acked = answer .badCmd 0x7F 0 := by decide +kernel

/-- NOP is answered with the port number (R175). -/
theorem test_nop : ((afterCommand State.reset (.nop .rotary 7 9)).port .rotary).answer = answer .ok 3 0 := by
  decide +kernel

/-- READ of item 1 gives the depth in 10 mm units and the quality (R183). -/
theorem test_read_depth : cabAnswer (.read .cab 1 0) fitted = answer .ok (-1000) 3 := by decide +kernel

/-- READ of an item that is none is refused with the number (R176). -/
theorem test_read_no_item : cabAnswer (.read .cab 200 0) fitted = answer .badArg 200 0 := by decide +kernel

/-- ACK_RESET after POR moves the record to NEUTRAL_WAIT, answered X = 1 (R97). -/
theorem test_ack_reset :
    let t := afterCommand State.reset (.ackReset .crowd 0 0)
    (t.grant .crowd).state = .neutralWait .ackReset ∧ (t.port .crowd).answer = answer .ok 1 0 := by decide +kernel

/-- A zero demand in NEUTRAL_WAIT takes the life of 40 ms (R98, R106). -/
theorem test_zero_demand :
    ((afterCommand fitted (.demand .rotary 0 0)).grant .rotary).state = .active 40 := by decide +kernel

/-- A demand against a ceiling of 0 is BLOCKED (R100). -/
theorem test_blocked_demand :
    ((afterCommand (active fitted) (.demand .rotary 50 0)).port .rotary).answer = rewritableAnswer .blocked 0 0 := by
  decide +kernel

/-- SET of the unlock angle to 45 leaves the reverse margin of 40 below it (R166). -/
theorem test_set_unlock_angle : cabAnswer (.set .cab 2 45) fitted = answer .ok 45 120 := by decide +kernel

/-- SET of the unlock angle to 40 lowers the reverse margin to 39 (R166). -/
theorem test_set_moves_margin :
    let t := afterCommand fitted (.set .cab 2 40)
    t.gst.settings.reverseMargin = 39 ∧ (t.port .cab).answer = answer .clamped 40 120 := by decide +kernel

/-- SETTINGS_DEFAULT counts the settings it changes (R167). -/
theorem test_settings_default :
    cabAnswer (.settingsDefault .cab 0 0) (afterCommand fitted (.set .cab 1 50)) = answer .ok 1 0 := by decide +kernel

/-- SETTINGS_DEFAULT with bottom hole at 55 650 and a step of 100: the next boundary is that of the default step of
250 (R153, R167). -/
theorem test_default_step :
    let s := opened { fitted with
      stk := { fitted.stk with bottomHole := 55650 }, brc := { fitted.brc with lastStep := 55600, nextStep := 55700 }
      gst := { fitted.gst with settings := { fitted.gst.settings with recordStep := 100 } } }
    (afterCommand s (.settingsDefault .cab 0 0)).brc.nextStep = 55750 := by decide +kernel

/-- PHASE HOIST from PARKED (R49). -/
theorem test_phase : cabAnswer (.phase .cab 5 0) fitted = answer .ok 5 0 := by decide +kernel

/-- ENGAGE in FREE with both joints aligned: mask 3, 5 000 ms (R53). -/
theorem test_engage : cabAnswer (.engage .cab 0 0) (inPhase .free fitted) = answer .ok 3 5000 := by decide +kernel

/-- RELEASE_ENABLE sets the latch (R51). -/
theorem test_release_enable : (afterCommand fitted (.releaseEnable .cab 0 0)).phc.releaseLatch = true := by
  decide +kernel

/-- RELEASE without the latch is refused (R57). -/
theorem test_release_not_enabled :
    cabAnswer (.release .cab 1 0) (inPhase .drill fitted) = answer .notEnabled 0 0 := by decide +kernel

/-- ABORT_OP of an unlocking turn returns to DRILL with the op angle in Y (R61). -/
theorem test_abort : cabAnswer (.abortOp .cab 0 0) (releasing 33) = answer .ok 3 33 := by decide +kernel

/-- CONFIRM_FREE frees the UNCERTAIN joint named and leaves the LOCKED one (R23). -/
theorem test_confirm_free :
    let s := { fitted with stk := { fitted.stk with joints := [⟨.uncertain, 0, none⟩, ⟨.locked 0, 2000, some 0⟩] } }
    let t := afterCommand s (.confirmFree .cab 3 0)
    t.jointStates = [.free, .locked 0] ∧ (t.port .cab).answer = answer .ok 1 0 := by decide +kernel

/-- DATUM at -500 (10 mm units) with the rope slack and the chain open is HELD at -5 000 mm (R121). -/
theorem test_datum :
    let t := afterCommand fitted (.datum .cab (-500) 0)
    t.stk.depth = -5000 ∧ (t.port .cab).answer = answer .ok (-500) 3 := by decide +kernel

/-- OPEN_PILE makes the OPEN record the first of an empty FIFO (R123). -/
theorem test_open_pile :
    (afterCommand fitted (.openPile .cab 7 0)).brc.fifo = [⟨0, -10000, -10000, .opened 7⟩] := by decide +kernel

/-- CLOSE_PILE answers with the pile number (R124). -/
theorem test_close_pile : cabAnswer (.closePile .cab 0 0) (opened fitted) = answer .ok 7 0 := by decide +kernel

/-- A speed cap above 5 000 and below 65 535 is clamped (R114, R115). -/
theorem test_zone_write : cabAnswer (.zoneWrite .cab 0x0206 6000) fitted = answer .clamped 5000 0 := by decide +kernel

/-- GEOM_WRITE of n = 9 is clamped to 5 in the staging record (R1, R161). -/
theorem test_geom_write :
    let t := afterCommand fitted (.geomWrite .cab 0 9)
    t.gst.staging.n = 5 ∧ (t.port .cab).answer = answer .clamped 5 0 := by decide +kernel

/-- STORE_ENABLE sets its latch and clears the release latch (R162). -/
theorem test_store_enable :
    let t := afterCommand (afterCommand fitted (.releaseEnable .cab 0 0)) (.storeEnable .cab 0 0)
    t.gst.storeEnable = true ∧ t.phc.releaseLatch = false := by decide +kernel

/-- STORE_COMMIT after STORE_ENABLE is in flight for 80 ms (R163). -/
theorem test_store_commit :
    let t := afterCommand { fitted with gst := { fitted.gst with storeEnable := true } } (.storeCommit .cab 0 0)
    t.gst.commit = some 80 ∧ (t.port .cab).answer.y = 80 := by decide +kernel

/-- CLEAR_FAULTS of source 14 clears its latched and names it in X (R140). -/
theorem test_clear_faults :
    let t := afterCommand (afterCommand (releasing 5) .opTimerExpiry) (.clearFaults .cab 0x4000 0)
    (t.entry .opTimeout).latched = false ∧ (t.port .cab).answer = answer .ok 0x4000 0 := by decide +kernel

/-- RECORD_READ removes the oldest record and names it (R157). -/
theorem test_record_read :
    let s := afterCommand fitted (.openPile .cab 7 0)
    cabAnswer (.recordRead .cab 0 0 0) s = answer .ok 0 0 ∧
      (afterCommand s (.recordRead .cab 0 0 0)).brc.fifo = [] := by decide +kernel

/-- RECORD_READ with an extension bit set removes nothing (R157). -/
theorem test_record_read_ones :
    cabAnswer (.recordRead .cab 0 0 1) (afterCommand fitted (.openPile .cab 7 0)) = answer .badArg 1 65535 := by
  decide +kernel

/-! ## Witnesses: states and operands that meet the hypotheses of the statements -/

/-- A cab request on `fitted` reaches its owner; so does one on every state below built from it. -/
theorem witness_cab_ready : CabReady fitted := ⟨⟨rfl, .inl rfl⟩, rfl⟩

/-- Every port of `fitted` is ready with select high, and with select low and no clock counted. -/
theorem witness_port_ready (p : Port) : PortReady p fitted ∧ PortReady p (inFrame p 0 fitted) := by
  cases p <;> exact ⟨⟨rfl, .inl rfl⟩, ⟨rfl, .inr ⟨_, rfl, rfl⟩⟩⟩

theorem witness_StepTakesTheFrontCommand :
    (fitted.withPending [.xrstEnd, .windowExpiry]).pending = .xrstEnd :: [.windowExpiry] ∧ fitted.pending = [] :=
  ⟨rfl, rfl⟩

/-- Timers with more than a millisecond left, in and out of XRST, with a record ACTIVE and a frame in flight, and timers
that run out. -/
theorem witness_AMillisecondRunsTheTimers :
    let s := inFrame .cab 3 (active (committing fitted))
    (s.pending = [] ∧ s.countDown.due = [] ∧ (s.grant .hoist).state = .active 40 ∧ (s.port .cab).inFrame = true ∧
      (s.port .hoist).inFrame = false) ∧
    ((inXrst s).pending = [] ∧ (inXrst s).countDown.due = [] ∧ (inXrst s).lines.xrst = true) ∧
    (fitted.countDown.due = [] ∧ (fitted.grant .crowd).isActive = false) ∧
    ((lapsing (active fitted)).pending = [] ∧ (lapsing (active fitted)).countDown.due = [.grantExpired .hoist]) := by
  decide +kernel

theorem witness_NopAndCabAcknowledgement :
    PortReady .cab fitted ∧ PortReady .rotary fitted ∧ Settled (settle fitted) ∧ (State.reset.port .cab).rst = true ∧
      PortReady .cab State.reset :=
  ⟨⟨rfl, .inl rfl⟩, ⟨rfl, .inl rfl⟩, by unfold Settled; decide +kernel, rfl, ⟨rfl, .inl rfl⟩⟩

/-- A record of each state on a ready port. -/
theorem witness_DriveAcknowledgement :
    (PortReady .hoist State.reset ∧ (State.reset.grant .hoist).state = .unacked) ∧
    (PortReady .crowd fitted ∧ (fitted.grant .crowd).state = .neutralWait .ackReset) ∧
    (PortReady .rotary (active fitted) ∧ ((active fitted).grant .rotary).state = .active 40) :=
  ⟨⟨⟨rfl, .inl rfl⟩, rfl⟩, ⟨⟨rfl, .inl rfl⟩, rfl⟩, ⟨⟨rfl, .inl rfl⟩, rfl⟩⟩

/-- Numbers at the ends of the items without an index, of those with one, and of neither: each has its value in the
lists, items 65, 66 and 130 apart, once, with the last index of the joints and the first past them. -/
theorem witness_ReadAnswersItsItem :
    (1 ∈ plainItems ∧ 133 ∈ plainItems ∧ 6 ∈ indexedItems ∧ 145 ∈ indexedItems) ∧
    (0 ∉ plainItems ∧ 0 ∉ indexedItems ∧ 146 ∉ plainItems ∧ 146 ∉ indexedItems) ∧
    ((∀ n ∈ plainItems, n ∉ indexedItems) ∧ plainItems.Nodup ∧ indexedItems.Nodup ∧
      (plainReads fitted).map (fun x => x.1) = plainItems ∧
      (indexedReads fitted 0).map (fun x => x.1) = indexedItems.filter fun n => n ∉ [65, 66, 130]) ∧
    ((6, some (1, 255)) ∈ indexedReads fitted 1 ∧ (6, none) ∈ indexedReads fitted 2 ∧
      driveOfNumber 3 = some .rotary ∧ driveOfNumber 0 = none ∧ GeomItem.ofNumber 0 = some .n ∧
      fitted.gst.active = some small ∧ acked.gst.active = none) ∧
    PortReady .hoist fitted ∧ PortReady .cab acked :=
  ⟨by decide, by decide, by decide +kernel, by decide +kernel, ⟨rfl, .inl rfl⟩, ⟨rfl, .inl rfl⟩⟩

/-- Each arm of a DEMAND outside ACTIVE: UNACKED, held, and free to become ACTIVE. -/
theorem witness_DemandOutsideActive :
    let held := { fitted with gru := { fitted.gru with crowd := { fitted.gru.crowd with hold := true } } }
    (PortReady .crowd State.reset ∧ (State.reset.grant .crowd).isActive = false) ∧
    (PortReady .crowd held ∧ (held.grant .crowd).isActive = false ∧ (held.grant .crowd).hold = true) ∧
    (PortReady .crowd fitted ∧ (fitted.grant .crowd).isActive = false ∧ (fitted.grant .crowd).hold = false) :=
  ⟨⟨⟨rfl, .inl rfl⟩, rfl⟩, ⟨⟨rfl, .inl rfl⟩, rfl, rfl⟩, ⟨⟨rfl, .inl rfl⟩, rfl, rfl⟩⟩

/-- A ceiling of 0 and one of 800: a magnitude below, at and above it. -/
theorem witness_DemandInActive :
    let s := active { fitted with env := { fitted.env with grant := { Ceilings.zero with tFwd := 800 } } }
    PortReady .rotary s ∧ s.env.grant.InRange ∧ (s.grant .rotary).state = .active 40 ∧
      (Drive.rotary, (0 : Word), (800 : Int), (800 : Int)) ∈ demandTable s.env ∧
      (Drive.rotary, (1 : Word), (0 : Int), (0 : Int)) ∈ demandTable s.env :=
  ⟨⟨rfl, .inl rfl⟩, by constructor <;> decide, rfl, by decide, by decide⟩

theorem witness_RequestsRefusedByThePort :
    (0x00 : Byte) ∉ Cmd.all.map Cmd.code ∧ (0xFF : Byte) ∉ Cmd.all.map Cmd.code ∧
      Cmd.set ∉ [.nop, .read, .ackReset, .demand] ∧ PortReady .crowd fitted ∧ PortReady .cab State.reset ∧
      (State.reset.port .cab).rst = true :=
  ⟨by decide, by decide, by decide, ⟨rfl, .inl rfl⟩, ⟨rfl, .inl rfl⟩, rfl⟩

/-- The first and the last setting, the unlock angle that moves the margin, and a change of each setting that is handed
on: one to a tautness regained, a disagreement above the tolerance, a boundary moved and an advance from HOIST; a SET of
the L_slack held, which does not regain the tautness. -/
theorem witness_SetWritesTheSetting :
    (let raised := afterCommand fitted (.set .cab 18 0)
     let slack := { raised with stk := { raised.stk with taut := false } }
     slack.gst.settings.lSlack = 0 ∧ CabReady slack ∧ (afterCommand slack (.set .cab 18 0)).stk.taut = false) ∧
    (let t := afterCommand fitted (.set .cab 18 0)
     Setting.all[(18 : Word).toNat - 1]? = some .lSlack ∧ (0 : Int) ≠ fitted.gst.settings.lSlack ∧ t.stk.taut = true) ∧
    (Setting.all[(26 : Word).toNat - 1]? = some .depthTolerance ∧ (20 : Int) ≠ fitted.gst.settings.depthTolerance) ∧
    (Setting.all[(32 : Word).toNat - 1]? = some .recordStep ∧
      (afterCommand (opened fitted) (.set .cab 32 100)).brc.nextStep = 100) ∧
    (let s := inPhase .hoist fitted
     let s := { s with stk := { s.stk with quality := .valid }, phc := { s.phc with advanceArm := true } }
     Setting.all[(34 : Word).toNat - 1]? = some .spinOffLevel ∧
       (afterCommand s (.set .cab 34 (-1000))).phc.phase = .spinOff) ∧
    CabReady fitted ∧ Setting.all[(1 : Word).toNat - 1]? = some .lockAngle ∧
      Setting.all[(35 : Word).toNat - 1]? = some .autoAdvance ∧ (1 : Word).toNat ≤ 1 ∧
      Setting.all[(2 : Word).toNat - 1]? = some .unlockAngle ∧ fitted.gst.settings.reverseMargin = 40 :=
  ⟨⟨by decide +kernel, ⟨⟨by decide +kernel, .inl (by decide +kernel)⟩, by unfold Acknowledged; decide +kernel⟩,
    by decide +kernel⟩, by decide +kernel, by decide, by decide +kernel, by decide +kernel, ⟨⟨rfl, .inl rfl⟩, rfl⟩,
    by decide, by decide, by decide, by decide, rfl⟩

/-- The numbers on both sides of each range: 65 to 79 are modes, 81 to 95 actions, 36 the group mode. -/
theorem witness_SetOfFaultSettingsIsPending :
    CabReady fitted ∧
    ((1 : Word).toNat = Mode.cyclic.code ∧ (2 : Word).toNat = Action.drop.code ∧
      (1 : Word).toNat = GroupMode.whole.code) ∧
    (BitVec.ofNat 16 (64 + Source.oilHot.idx.val) = (65 : Word) ∧
      BitVec.ofNat 16 (64 + Source.oilSensor.idx.val) = (79 : Word) ∧
      BitVec.ofNat 16 (80 + Source.oilHot.idx.val) = (81 : Word) ∧
      BitVec.ofNat 16 (80 + Source.oilSensor.idx.val) = (95 : Word)) ∧
    (36 < (37 : Word).toNat ∧ (64 : Word).toNat < 65 ∧ 95 < (96 : Word).toNat ∧ 1 < (2 : Word).toNat ∧
      2 < (3 : Word).toNat) :=
  ⟨⟨⟨rfl, .inl rfl⟩, rfl⟩, by decide, by decide, by decide⟩

/-- A part in PARKED and one in FREE; an OPEN session whose L_slack and record step are not the defaults. -/
theorem witness_SettingsDefaultRestores :
    (let s := opened { fitted with gst := { fitted.gst with
       settings := { fitted.gst.settings with lSlack := 0, recordStep := 100 } } }
     CabReady s ∧ s.phc.phase = .parked ∧ s.gst.settings.lSlack ≠ Settings.default.lSlack ∧
       s.gst.settings.recordStep ≠ Settings.default.recordStep ∧ s.znt.sessionOpen = true) ∧
    CabReady fitted ∧ fitted.phc.phase = .parked ∧ CabReady (inPhase .free fitted) ∧
      (inPhase .free fitted).phc.phase ≠ .parked :=
  ⟨⟨⟨⟨rfl, .inl rfl⟩, rfl⟩, rfl, by decide, by decide, rfl⟩, ⟨⟨rfl, .inl rfl⟩, rfl⟩, rfl, ⟨⟨rfl, .inl rfl⟩, rfl⟩,
    by decide⟩

/-- A PHASE that each check of R49 meets in turn, and one that is taken. -/
theorem witness_PhaseMovesAsAsked :
    (CabReady (committing fitted) ∧ (committing fitted).gst.commit.isSome = true) ∧
    (CabReady acked ∧ acked.gst.active = none) ∧
    (CabReady fitted ∧ (5 : Word).toNat ∈ phaseTargets .parked ∧ (3 : Word).toNat ∉ phaseTargets .parked ∧
      allFree fitted.stk.joints = true ∧ fitted.stk.depth < 0) ∧
    ((afterCommand fitted (.phase .cab 5 0)).phc.phase = .hoist ∧
      (afterCommand (inPhase .free fitted) (.phase .cab 0 0)).phc.phase = .parked) ∧
    (let s := inPhase .free (answering fitted)
     let t := afterCommand s (.phase .cab 0 0)
     CabReady s ∧ (s.grant .crowd).isActive = true ∧ t.phc.phase = .parked ∧
       (t.port .crowd).answer = rewritableAnswer .neutralRequired 3 2) :=
  ⟨⟨⟨⟨rfl, .inl rfl⟩, rfl⟩, rfl⟩, ⟨⟨⟨rfl, .inl rfl⟩, rfl⟩, rfl⟩,
    ⟨⟨⟨rfl, .inl rfl⟩, rfl⟩, by decide, by decide, by decide, by decide⟩, by decide +kernel,
    ⟨⟨rfl, .inl rfl⟩, rfl⟩, by decide +kernel⟩

theorem witness_EngageStartsTheSeatingTurn :
    CabReady (inPhase .free fitted) ∧ (inPhase .free fitted).gst.commit.isSome = false ∧
      jointMask (fun j => !j.isLocked && j.aligned.isSome) (inPhase .free fitted).stk.joints = 3 :=
  ⟨⟨⟨rfl, .inl rfl⟩, rfl⟩, rfl, by decide⟩

theorem witness_ReleaseStartsTheUnlockingTurn :
    let s := { fitted with phc := { fitted.phc with phase := .drill, releaseLatch := true } }
    CabReady s ∧ s.gst.commit.isSome = false ∧ s.phc.releaseLatch = true ∧ s.znt.limits.noUnlock = false ∧
      s.env.k ≤ s.gst.settings.fRelease :=
  ⟨⟨⟨rfl, .inl rfl⟩, rfl⟩, rfl, rfl, rfl, by decide⟩

theorem witness_AbortOpEndsTheOperation : CabReady (releasing 3) ∧ (releasing 3).phc.phase = .releasing :=
  ⟨⟨⟨rfl, .inl rfl⟩, rfl⟩, rfl⟩

/-- The greatest mask of two joints is taken, the next is not; a joint freed in an OPEN session, with its record. -/
theorem witness_ConfirmFreeFreesUncertainJoints :
    (let s := opened { fitted with stk := { fitted.stk with joints := [⟨.uncertain, 0, none⟩, ⟨.locked 0, 2000, some 0⟩] } }
     CabReady s ∧ (s.stk.joints.mapIdx fun j x => (3 : Word).getLsbD j && x.isUncertain).all (fun f => !f) = false ∧
       (afterCommand s (.confirmFree .cab 3 0)).brc.fifo.head? = some ⟨0, -10000, -10000, .event (.freed 1)⟩) ∧
    CabReady fitted ∧ fitted.gst.active = some small ∧ fitted.phc.phase = .parked ∧ fitted.stk.depth < 0 ∧
      (3 : Word).toNat < 2 ^ small.n.toNat ∧ 2 ^ small.n.toNat ≤ (4 : Word).toNat ∧ CabReady acked ∧
      acked.gst.active = none :=
  ⟨⟨⟨⟨rfl, .inl rfl⟩, rfl⟩, by decide, by decide +kernel⟩, ⟨⟨rfl, .inl rfl⟩, rfl⟩, rfl, rfl, by decide, by decide,
    by decide, ⟨⟨rfl, .inl rfl⟩, rfl⟩, rfl⟩

/-- The ends of the range of a datum, and the values beyond them. -/
theorem witness_DatumSetsTheDepth :
    CabReady fitted ∧ fitted.gst.active ≠ none ∧ fitted.znt.sessionOpen = false ∧ fitted.phc.phase = .parked ∧
      (BitVec.ofInt 16 (-2000)).toInt = -2000 ∧ (BitVec.ofInt 16 (-2001)).toInt < -2000 ∧
      (15000 : Word).toInt = 15000 ∧ 15000 < (15001 : Word).toInt ∧
      List.Forall₂ (fun j y => j.isLocked = true ∨ (0 ≤ j.ext ∧ j.ext ≤ y.eMax)) fitted.stk.joints small.joints :=
  ⟨⟨⟨rfl, .inl rfl⟩, rfl⟩, by decide, rfl, rfl, by decide, by decide, by decide, by decide,
    .cons (by decide) (.cons (by decide) .nil)⟩

theorem witness_PilesOpenAndClose :
    (CabReady fitted ∧ RecordInv fitted ∧ fitted.gst.active ≠ none ∧ fitted.znt.sessionOpen = false) ∧
    (CabReady (opened fitted) ∧ (opened fitted).znt.sessionOpen = true ∧ (opened fitted).phc.phase = .parked) :=
  ⟨⟨⟨⟨rfl, .inl rfl⟩, rfl⟩, ⟨by decide, fun i r h => by simp [fitted, acked, State.reset, Brc.start] at h,
      fun r h => by simp [fitted, acked, State.reset, Brc.start] at h, by decide⟩, by decide, rfl⟩,
    ⟨⟨⟨rfl, .inl rfl⟩, rfl⟩, rfl, rfl⟩⟩

/-- The last entry and the last field, and the first number past each; a CLOSED and an OPEN session. -/
theorem witness_ZoneWriteWritesOneField :
    CabReady fitted ∧ fitted.znt.sessionOpen = false ∧ 7 < 8 ∧ ¬8 ≤ (0x0707 : Word).toNat / 256 ∧
      ¬8 ≤ (0x0707 : Word).toNat % 256 ∧ 8 ≤ (0x0800 : Word).toNat / 256 ∧ 8 ≤ (0x0008 : Word).toNat % 256 ∧
      CabReady (opened fitted) :=
  ⟨⟨⟨rfl, .inl rfl⟩, rfl⟩, rfl, by decide, by decide, by decide, by decide, by decide, ⟨⟨rfl, .inl rfl⟩, rfl⟩⟩

/-- The first and the last item, and the first number past them. -/
theorem witness_GeomWriteWritesTheStagingRecord :
    CabReady fitted ∧ fitted.gst.commit = none ∧ GeomItem.ofNumber 0 = some .n ∧
      GeomItem.ofNumber 123 = some (.offset .ot) ∧ GeomItem.ofNumber 124 = none :=
  ⟨⟨⟨rfl, .inl rfl⟩, rfl⟩, rfl, by decide, by decide, by decide⟩

theorem witness_StoreCommandsStartTheWrite :
    let s := { fitted with gst := { fitted.gst with storeEnable := true } }
    CabReady s ∧ s.lines.storeWp = false ∧ s.phc.phase = .parked ∧ s.znt.sessionOpen = false ∧ s.gst.commit = none ∧
      s.gst.staging.inconsistency = none :=
  ⟨⟨⟨rfl, .inl rfl⟩, rfl⟩, rfl, rfl, rfl, rfl, by decide⟩

/-- A FIFO with one record, and an empty one. -/
theorem witness_RecordReadRemovesTheOldest :
    let r : Record := ⟨0, 0, 0, .opened 7⟩
    let s := opened { fitted with brc := { fitted.brc with fifo := [r], seqCounter := 1 } }
    CabReady s ∧ RecordInv s ∧ s.brc.fifo = [r] ∧ CabReady fitted ∧ fitted.brc.fifo = [] := by
  refine ⟨⟨⟨rfl, .inl rfl⟩, rfl⟩, ⟨by decide, fun i r h => ?_, fun r h => ?_, fun _ => rfl⟩, rfl,
    ⟨⟨rfl, .inl rfl⟩, rfl⟩, rfl⟩
  · rcases i with _ | i
    · simp [opened] at h; subst h; rfl
    · simp [opened] at h
  · simp [opened] at h; subst h; simp

theorem witness_ResponseIsShiftedOut : fitted.lines.xrst = false ∧ (fitted.port .cab).frame = .idle := ⟨rfl, rfl⟩

/-- A frame on a drive port and one on the cab port, and a row of each kind that ends one. -/
theorem witness_ClockedFrameIsTheRequest :
    Cmd.demand ≠ .recordRead ∧ fitted.lines.xrst = false ∧ (fitted.port .rotary).frame = .idle ∧
      (fitted.port .cab).frame = .idle ∧ endsFrame .cab (.nop .cab 7 9) ∧ endsFrame .cab (.badCmd .cab 0x7F 0 0) ∧
      endsFrame .cab (.linkReject .cab 5 0) :=
  ⟨by decide, rfl, rfl, rfl, .inl ⟨.nop, 7, 9, 0, rfl⟩, .inr (.inl ⟨_, _, _, rfl⟩), .inr (.inr ⟨_, _, rfl⟩)⟩

/-- A port in each of its three frames, and the clocks around the 56th and the 216th. -/
theorem witness_FallsAndClocksMoveTheFrame :
    (fitted.lines.xrst = false ∧ (fitted.port .cab).inFrame = false) ∧
    (∀ n ∈ [55, 56, 215, 216], ((inFrame .cab n fitted).port .cab).frame = .shifting ⟨0, n, 0, false, none, 5⟩) ∧
    (inXrst fitted).lines.xrst = true ∧
    (((fitted.withPort .cab { quietPort with frame := .ignored }).port .cab).frame = .ignored) ∧
    endsFrame .cab (.set .cab 1 50) ∧ endsFrame .cab (.badCmd .cab 0x7F 0 0) ∧ endsFrame .cab (.linkReject .cab 5 0) :=
  ⟨⟨rfl, rfl⟩, fun _ _ => rfl, rfl, rfl, .inl ⟨.set, 1, 50, 0, rfl⟩, .inr (.inl ⟨_, _, _, rfl⟩),
    .inr (.inr ⟨_, _, rfl⟩)⟩

/-- A frame for each reason, at the clock counts where they meet; a frame of nine clocks, and a row of each kind to end it. -/
theorem witness_RejectedFramesHaveNoEffect :
    PortReady .hoist fitted ∧
    (frameCheck 8 0 = some .stuckLow ∧ frameCheck 7 0 = some .length ∧ frameCheck 8 0xFF = some .stuckHigh ∧
      frameCheck 7 0x7F = some .length ∧ frameCheck 57 (encodeRequest 0x01 0 0) = some .length ∧
      frameCheck 56 (encodeRequest 0x01 0 0 ^^^ 1) = some .crc ∧ frameCheck 56 (encodeRequest 0x01 0 0) = none) ∧
    ((inFrame .hoist 9 fitted).port .hoist).frame = .shifting ⟨0, 9, 0, false, none, 5⟩ ∧
    endsFrame .hoist (.nop .hoist 0 0) ∧ endsFrame .hoist (.badCmd .hoist 0x7F 0 0) ∧
    endsFrame .hoist (.linkReject .hoist 5 0) ∧
    ((afterCommand (inFrame .hoist 9 fitted) (.nop .hoist 0 0)).port .hoist).answer = answer .linkReject 9 4 :=
  ⟨⟨rfl, .inl rfl⟩, by decide +kernel, rfl, .inl ⟨.nop, 0, 0, 0, rfl⟩, .inr (.inl ⟨_, _, _, rfl⟩),
    .inr (.inr ⟨_, _, rfl⟩), by decide +kernel⟩

/-- A count of each direction, and a change of both lines; in an OPEN session the counts on which a joint locks, on which
every joint is freed by a completed release, and on which a joint is in doubt. -/
theorem witness_AngleCountsAreCounted :
    (let turning := opened (locked (releasing 119))
     let turning := { turning with stk := { turning.stk with aR := 119 } }
     let doubt := inPhase .drill { turning with phc := .start }
     let seating := opened { fitted with stk := { fitted.stk with aF := 119, strokeOffset := -31000 } }
     (PhaseInv turning ∧ PhaseInv doubt ∧ PhaseInv seating) ∧
     (afterCommand turning (.angleCountChange ⟨false, true⟩)).brc.fifo.map Record.body =
       [.event (.freed 3), .event (.phaseChange .releasing .free)] ∧
     (afterCommand doubt (.angleCountChange ⟨false, true⟩)).brc.fifo.map Record.body =
       [.event (.uncertain 3), .event (.faultRaised .chainOpen), .event (.faultRaised .reverseOverrun)] ∧
     (afterCommand seating (.angleCountChange ⟨true, false⟩)).brc.fifo.map Record.body = [.event (.locked 3)]) ∧
    decodeCount fitted.msu.angleRef ⟨true, false⟩ = some true ∧
      decodeCount fitted.msu.angleRef ⟨false, true⟩ = some false ∧
      decodeCount fitted.msu.angleRef ⟨true, true⟩ = none ∧ (releasing 9).phc.op = some ⟨9, 5000⟩ ∧
      (releasing 9).phc.target = some .free :=
  ⟨⟨⟨⟨by decide, by decide, by decide⟩, ⟨by decide, by decide, by decide⟩, by decide, by decide, by decide⟩,
    by decide +kernel, by decide +kernel, by decide +kernel⟩, by decide +kernel⟩

/-- The joint table of `fitted` agrees with its geometry, and so the lock rule's hypotheses are met; a reverse count on
which the release rule fires; an OPEN session with room for the record, in RELEASING and in DRILL. -/
theorem witness_LockAndReleaseRules :
    (let s := opened (locked (releasing 119))
     jointMask (fun j => !j.isFree) s.stk.joints = 3 ∧ jointMask Joint.isLocked s.stk.joints = 3 ∧
       s.znt.sessionOpen = true ∧ s.brc.fifo.length < 512 ∧ s.brc.gap.pending = false ∧ (inPhase .drill s).phc.phase = .drill) ∧
    (TableInv fitted ∧ decodeCount fitted.msu.angleRef ⟨true, false⟩ = some true) ∧
      decodeCount (locked (releasing 119)).msu.angleRef ⟨false, true⟩ = some false ∧
      (locked (releasing 119)).stk.reverseRun = false := by
  have range : ∀ i ∈ GeomItem.all, i.range.1 ≤ small.get i ∧ small.get i ≤ i.range.2 := by decide +kernel
  refine ⟨by decide, ⟨⟨range, fun g h => ?_, ?_⟩, by decide⟩, by decide, rfl⟩
  · have : g = small := by simpa [fitted] using h.symm
    exact this ▸ range
  · have soundJoint : Joint.AgreesIfSound ⟨.free, 2000, some 0⟩ bar :=
      fun _ => ⟨by decide, by decide, fun _ h => by cases h⟩
    exact .cons soundJoint (.cons soundJoint .nil)

theorem witness_ScanIsTaken :
    fitted.lines.xrst = false ∧ fitted.phc.phase ≠ .hoist ∧ (inXrst fitted).lines.xrst = true := ⟨rfl, by decide, rfl⟩

/-- An operation in flight, and none; a record in the last millisecond of its life, one with more left, and one that is
not ACTIVE. -/
theorem witness_ExpiriesEndOperationsAndGrants :
    (PhaseInv (releasing 3) ∧ (releasing 3).lines.xrst = false ∧ (releasing 3).phc.op ≠ none) ∧
    (PhaseInv fitted ∧ fitted.phc.op = none) ∧
    (((lapsing (active fitted)).grant .hoist).state = .active 1 ∧ ((active fitted).grant .hoist).state = .active 40 ∧
      (fitted.grant .hoist).state = .neutralWait .ackReset) :=
  ⟨⟨⟨by decide, by decide, by decide⟩, rfl, by decide⟩, ⟨⟨by decide, by decide, by decide⟩, rfl⟩, rfl, rfl, rfl⟩

/-- A commit that changes neither scale nor closed length, and one that changes the closed length. -/
theorem witness_CommitCompletionInstallsTheGeometry :
    (let s := committing fitted
     let longer := { s with gst := { s.gst with staging := { small with lCl := 17001 } } }
     (s.gst.active = some small ∧ s.gst.staging = small) ∧
       (longer.gst.active = some small ∧ small.lCl ≠ longer.gst.staging.lCl ∧ longer.lines.xrst = false ∧
         0 ≤ longer.gst.settings.depthTolerance)) ∧
    (committing fitted).gst.staging.InRange ∧ ParkedInv (committing fitted) ∧ (committing fitted).gst.commit ≠ none :=
  ⟨by decide +kernel, by unfold Geometry.InRange; decide +kernel, ⟨⟨by decide, by decide, by decide⟩, by decide, fun h => by simp [committing, fitted] at h, by decide⟩, by decide⟩

/-- A line that may be asserted, with no override in force and with one that stands after a release, and with every record
ACTIVE. -/
theorem witness_EstopDropsEveryDrive :
    let again := afterCommand (afterCommand fitted .estopAssert) .estopRelease
    (EstopFixed fitted ∧ fitted.lines.estop = false ∧ fitted.lines.xrst = false ∧
      (fitted.entry .estop).condition = false ∧ (fitted.entry .estop).override = none) ∧
    (EstopFixed again ∧ again.lines.estop = false ∧ (again.entry .estop).override = some ⟨.drop, .latched⟩) ∧
    (afterCommand fitted .estopAssert).lines.estop = true ∧
    (let s := inPhase .free (answering fitted)
     let t := afterCommand s .estopAssert
     EstopFixed s ∧ s.lines.estop = false ∧ s.lines.xrst = false ∧ (s.grant .hoist).isActive = true ∧
       (t.port .hoist).answer = rewritableAnswer .neutralRequired 4 2) := by
  unfold EstopFixed; decide +kernel

/-- A store whose CRC is good and one whose CRC is not, and a commit in flight. -/
theorem witness_PorStartsFromTheStore :
    let with_ (t : Store) : State := { fitted with gst := { fitted.gst with store := t } }
    ((with_ ⟨[], 0xFFFF⟩).gst.commit = none ∧ crc16 (with_ ⟨[], 0xFFFF⟩).gst.store.data = 0xFFFF) ∧
      ((with_ ⟨[], 0⟩).gst.commit = none ∧ crc16 (with_ ⟨[], 0⟩).gst.store.data ≠ 0) ∧
      (committing fitted).gst.commit.isSome = true := by decide +kernel

/-- A release cut off past half the unlock angle with a joint LOCKED, one that is not, and the end of XRST with ESTOP
asserted and released. -/
theorem witness_XrstResetsAndRestarts :
    let cut := locked (releasing 61)
    let cut := { cut with stk := { cut.stk with aR := 61 } }
    (cut.lines.xrst = false ∧ cut.phc.phase = .releasing ∧ cut.gst.settings.unlockAngle < 2 * (cut.stk.aR : Int) ∧
      cut.stk.joints.any Joint.isLocked = true) ∧
    (fitted.lines.xrst = false ∧ fitted.phc.phase ≠ .releasing ∧ ZoneInv fitted) ∧
    ((inXrst fitted).lines.xrst = true ∧ (inXrst fitted).phc.phase = .parked ∧ (inXrst fitted).lines.estop = false) ∧
    (let s := (inXrst fitted).withLines ⟨true, true, false⟩
     s.lines.xrst = true ∧ s.lines.estop = true ∧ EstopFixed s ∧ (s.entry .estop).condition = false ∧
       (s.entry .estop).override = none ∧ ZoneInv s) := by
  have zones : ∀ i : Fin 8, (fitted.znt.zones[i]).Sound := fun i => by
    have : fitted.znt.zones[i] = Zone.start := by fin_cases i <;> rfl
    rw [this]
    constructor <;> decide
  refine ⟨by decide, ⟨rfl, by decide, by decide, by decide, by decide, zones⟩, ⟨rfl, rfl, rfl⟩, rfl, rfl, ?_, by decide,
    by decide, by decide, by decide, by decide, zones⟩
  unfold EstopFixed; decide

/-- Settings and geometry in range, in DRILL with the reverse budget spent, and in FREE with room for extension; no active
geometry. -/
theorem witness_EnvelopeFollowsTheStages :
    let s := inPhase .drill (locked { fitted with stk := { fitted.stk with aR := 80 } })
    (s.gst.active = some small ∧ small.InRange ∧ SettingsInv s ∧ s.stk.joints.length = small.joints.length ∧
      0 ≤ s.env.measured.tMeas ∧ 0 ≤ s.znt.limits.zT ∧ 0 ≤ s.znt.limits.zC ∧ 0 ≤ s.znt.limits.zV) ∧
    (s.stk.joints.any Joint.isLocked = true ∧ s.gst.settings.unlockAngle - s.gst.settings.reverseMargin ≤ s.stk.aR) ∧
    takingRoom fitted.stk.joints small.joints = some 8000 ∧ acked.gst.active = none := by
  have range : ∀ i ∈ GeomItem.all, i.range.1 ≤ small.get i ∧ small.get i ≤ i.range.2 := by decide +kernel
  exact ⟨⟨rfl, range, ⟨by decide +kernel, by decide⟩, by decide, by decide, by decide, by decide, by decide⟩,
    by decide, by decide +kernel, rfl⟩

/-- A source whose override would begin as a LATCHED DROP, and one whose would not; a command that makes a condition
present. -/
theorem witness_RaiseLatchesAndBegins :
    (exec .estopAssert fitted = .next (afterCommand fitted .estopAssert) ∧ (fitted.entry .estop).condition = false ∧
      ((afterCommand fitted .estopAssert).entry .estop).condition = true) ∧
    (active fitted).lines.xrst = false ∧ ((active fitted).entry .oilHot).override = none ∧
      ((active fitted).entry .oilHot).action = .drop ∧ ((active fitted).entry .oilHot).mode = .latched ∧
      (Source.oilHot.group.reach (active fitted).fsv.groupMode).has .crowd = true ∧
      ((active fitted).entry .opTimeout).action = .none :=
  ⟨by refine ⟨rfl, ?_⟩; decide +kernel, by decide +kernel⟩

/-- A boundary that newly reaches a drive, and one that does not. -/
theorem witness_BoundaryReconsidersOverrides :
    let e : FaultEntry := { fitted.entry .oilHot with condition := true, action := .drop, mode := .latched }
    let s := (answering fitted).withEntry .oilHot e
    let t := takeBoundary s
    ((t.entry .oilHot).override = some ⟨.drop, .latched⟩ ∧ (s.entry .oilHot).override = none ∧
      (Source.oilHot.group.reach t.fsv.groupMode).has .crowd = true ∧ (s.grant .crowd).isActive = true ∧
      (t.port .crowd).answer = rewritableAnswer .neutralRequired 4 2) ∧
    ((takeBoundary fitted).entry .oilHot).override = none := by decide +kernel

/-- A scan at rest and a turn mark, which are boundaries; a scan of a turning head and a count short of a turn. -/
theorem witness_BoundariesComeFromMarksAndScans :
    let resting := { fitted with msu := { fitted.msu with rest := true } }
    let turned := { fitted with msu := { fitted.msu with angle := 1439 } }
    let almost := { fitted with msu := { fitted.msu with angle := 1438 } }
    let readings : Readings := ⟨1, 1, 1, 1, 1, 1⟩
    TakesBoundary (.scanCompletion readings) resting ∧ TakesBoundary (.angleCountChange ⟨true, false⟩) turned ∧
      ¬TakesBoundary (.scanCompletion readings) fitted ∧ ¬TakesBoundary (.angleCountChange ⟨true, false⟩) almost ∧
      exec (.scanCompletion readings) fitted = .next (afterCommand fitted (.scanCompletion readings)) ∧
      exec (.angleCountChange ⟨true, false⟩) almost = .next (afterCommand almost (.angleCountChange ⟨true, false⟩)) := by
  refine ⟨⟨rfl, .inl ⟨_, rfl, rfl⟩⟩, ⟨rfl, .inr ⟨_, true, rfl, by decide, by decide⟩⟩, ?_, ?_, rfl, rfl⟩
  · rintro ⟨-, ⟨r, -, h⟩ | ⟨pair, forward, h, -, -⟩⟩
    · exact absurd h (by decide)
    · cases h
  · rintro ⟨-, ⟨r, h, -⟩ | ⟨pair, forward, h, hc, hn⟩⟩
    · cases h
    · cases h
      have : forward = true := by
        have h : some true = some forward := hc
        simpa using h.symm
      subst this
      revert hn
      decide

/-- A grant above its field of 800, and one at it. -/
theorem witness_ReclampLowersGrants :
    let s := active { fitted with env := { fitted.env with grant := { Ceilings.zero with tFwd := 800 } } }
    let above := { s with gru := { s.gru with rotary := { s.gru.rotary with granted := 801 } } }
    above.env.grant.InRange ∧ (above.grant .rotary).state = .active 40 ∧ (above.grant .rotary).granted = 801 ∧
      (Drive.rotary, (0 : Word), (800 : Int), (800 : Int)) ∈ demandTable above.env ∧ ((0 : Word) = 1 ↔ (801 : Int) < 0) :=
  ⟨by constructor <;> decide, rfl, rfl, by decide, by decide⟩

/-- The part in HOIST with the arm set, auto-advance on and the tool above the level. -/
def hoisting : State :=
  let s := inPhase .hoist fitted
  { s with phc := { s.phc with advanceArm := true }
           gst := { s.gst with settings := { s.gst.settings with autoAdvance := true, spinOffLevel := -1000, lSlack := 0 } } }

/-- A scan that advances, and a count and a CONFIRM_FREE that meet the premises. -/
theorem witness_HoistAdvancesByItself :
    PhaseInv hoisting ∧ hoisting.phc.phase = .hoist ∧ CabReady hoisting ∧
      (afterCommand hoisting (.scanCompletion ⟨1, 1, 1, 1, 1, 1⟩)).phc.phase = .spinOff :=
  ⟨⟨by decide, by decide, by decide⟩, rfl, ⟨⟨rfl, .inl rfl⟩, rfl⟩, by decide +kernel⟩

/-- A count, a scan, and turn marks short of the lock and the unlock angle, with a session OPEN; in DRILL with D_turn at 1
and at 0. -/
theorem witness_CountsAndScansMakeTheirRecords :
    (let drilling (d : Int) := inPhase .drill (opened { fitted with
       msu := { fitted.msu with angle := 1439 }, gst := { fitted.gst with settings := { fitted.gst.settings with dTurn := d } } })
     (drilling 1).phc.op = none ∧
       (afterCommand (drilling 1) (.angleCountChange ⟨true, false⟩)).brc.fifo.map Record.body = [.turn ⟨1, 0, 0, 0⟩] ∧
       (afterCommand (drilling 0) (.angleCountChange ⟨true, false⟩)).brc.fifo = []) ∧
    decodeCount (fitted.msu.reference .rope) ⟨true, false⟩ ≠ none ∧ fitted.lines.xrst = false ∧
    (let s := opened { fitted with msu := { fitted.msu with angle := 1439 } }
     decodeCount s.msu.angleRef ⟨true, false⟩ = some true ∧ s.phc.op = none ∧
       min 65535 ((s.stk.aF : Int) + 1) < s.gst.settings.lockAngle ∧
       (afterCommand s (.angleCountChange ⟨true, false⟩)).brc.acc.turns = 1) ∧
    (decodeCount fitted.msu.angleRef ⟨false, true⟩ = some false ∧
      min 65535 ((fitted.stk.aR : Int) + 1) < fitted.gst.settings.unlockAngle) := by decide +kernel

/-- Accumulators at the ends of their ranges, and a mask of five joints. -/
theorem witness_RecordsAreHeldAndLaidOut :
    Accumulators.InRange ⟨255, 65535, 65535, 65535⟩ ∧ Accumulators.InRange ⟨0, 0, 0, 0⟩ ∧ (31 : Nat) < 256 := by
  unfold Accumulators.InRange; decide

/-- A session OPEN, and a command that leaves it so. -/
theorem witness_OpenSessionFreezesTheTables :
    ParkedInv (opened fitted) ∧ (opened fitted).znt.sessionOpen = true ∧
      exec .restTimerExpiry (opened fitted) = .next (afterCommand (opened fitted) .restTimerExpiry) :=
  ⟨⟨⟨by decide, by decide, by decide⟩, by decide, fun h => by simp [opened, fitted] at h, by decide⟩, rfl, rfl⟩

/-- A release taken, a release completed and a joint freed. -/
theorem witness_PhasesAndJointsMoveByTheRules :
    let drilling := { fitted with phc := { fitted.phc with phase := .drill, releaseLatch := true } }
    let s := locked (releasing 119)
    let turning := { s with stk := { s.stk with aR := 119 } }
    PhaseInv drilling ∧ (afterCommand drilling (.release .cab 1 0)).phc.phase = .releasing ∧ PhaseInv turning ∧
      (afterCommand turning (.angleCountChange ⟨false, true⟩)).jointStates = [.free, .free] :=
  ⟨⟨by decide, by decide, by decide⟩, by decide +kernel, ⟨by decide, by decide, by decide⟩, by decide +kernel⟩

/-- The invariants are met by `fitted`, on which commands have an effect, and every command takes a step. -/
theorem witness_invariants_of_phases_and_latches :
    ParkedInv fitted ∧ LatchInv fitted ∧ EstopFixed fitted ∧ SettingsInv fitted ∧
      step fitted = .next (tick fitted) := by
  refine ⟨⟨⟨by decide, by decide, by decide⟩, by decide, fun h => by simp [fitted] at h, by decide⟩, ?_, ?_,
    ⟨by decide +kernel, by decide⟩, rfl⟩
  · unfold LatchInv; decide
  · unfold EstopFixed; decide

/-- With no override in force, every reach empty, every hold clear and every permit low, PARKED meets the permits'
invariant. -/
theorem permitInv_of_quiet (s : State) (parked : s.phc.phase = .parked) (low : s.gru.permits = Permits.low)
    (quiet : ∀ src, (s.entry src).override = none) (limit : s.fsv.limitReach = .empty) (drop : s.fsv.dropReach = .empty)
    (clear : ∀ d, (s.grant d).hold = false) : PermitInv s := by
  have free : ∀ x d, ¬s.reached x d := fun x d ⟨src, _, o, h, _⟩ => by simp [quiet src] at h
  have empty : ∀ d, DriveSet.empty.has d = false := fun d => by cases d <;> rfl
  refine ⟨fun d => ?_, fun d => ?_, fun d => ?_, ?_, ?_, ?_, by rw [low]; rfl⟩
  · simp [free, limit, empty]
  · simp [free, drop, empty]
  · simp [clear, State.holdsBack, quiet]
  all_goals simp [low, Permits.low, parked]

/-- No override is in force, and every permit is low in PARKED; the depth-quality warning stands in HELD. -/
theorem witness_PermitsAndWarningsFollowTheirInputs :
    PermitInv fitted ∧ WarningsInv fitted ∧ fitted.lines.xrst = false ∧
      exec .estopAssert fitted = .next (afterCommand fitted .estopAssert) ∧
      exec .xrstEnd fitted = .next (afterCommand fitted .xrstEnd) :=
  ⟨permitInv_of_quiet _ rfl rfl (fun src => by cases src <;> rfl) rfl rfl fun d => by cases d <;> rfl,
    ⟨by decide, by decide, by decide⟩, rfl, rfl, rfl⟩

/-- Asserting ESTOP and completing a scan end no frame. -/
theorem no_frame_ends (p : Port) (r : Readings) : ¬endsFrame p .estopAssert ∧ ¬endsFrame p (.scanCompletion r) := by
  constructor <;>
  · rintro (⟨c, _, _, _, h⟩ | ⟨_, _, _, h⟩ | ⟨_, _, h⟩)
    · cases c <;> cases h
    all_goals cases h

/-- A grant at 0, a record that leaves ACTIVE by its expiry, and one that stays ACTIVE; a pending answer rewritten as a
record is withdrawn, one rewritten as a scan lowers a grant, and one that stands since its frame has begun. -/
theorem witness_GrantsStayWithinTheEnvelope :
    GrantInv fitted ∧ Instr.wellFormed .restTimerExpiry = true ∧ Instr.wellFormed (.grantExpired .hoist) = true ∧
    (let s := inPhase .free (answering fitted)
     let s := { s with gru := { s.gru with rotary := { s.gru.rotary with granted := 801 } } }
     let scan : Instr := .scanCompletion ⟨1, 1, 1, 1, 1, 1⟩
     exec .estopAssert s = .next (afterCommand s .estopAssert) ∧ ¬endsFrame .rotary .estopAssert ∧
       ((afterCommand s .estopAssert).port .rotary).answer = rewritableAnswer .neutralRequired 4 2 ∧
       exec scan s = .next (afterCommand s scan) ∧ ¬endsFrame .rotary scan ∧
       ((afterCommand s scan).port .rotary).answer = rewritableAnswer .reduced 300 300 ∧
       ((afterCommand (inFrame .rotary 3 s) scan).port .rotary).answer = rewritableAnswer .ok 0 0) ∧
    (let s := lapsing (active fitted)
     PermitInv s ∧ exec .restTimerExpiry s = .next (afterCommand s .restTimerExpiry) ∧
       ((afterCommand s .restTimerExpiry).grant .hoist).isActive = true ∧
       exec (.grantExpired .hoist) s = .next (afterCommand s (.grantExpired .hoist)) ∧
       (s.grant .hoist).isActive = true ∧
       ((afterCommand s (.grantExpired .hoist)).grant .hoist).isActive = false) :=
  ⟨⟨by constructor <;> decide, fun d => by cases d <;> decide, fun d => by cases d <;> decide,
      fun d => by cases d <;> decide⟩, rfl, rfl,
    ⟨rfl, (no_frame_ends _ ⟨1, 1, 1, 1, 1, 1⟩).1, by decide +kernel, rfl, (no_frame_ends _ _).2, by decide +kernel⟩,
    permitInv_of_quiet _ rfl rfl (fun src => by cases src <;> rfl) rfl rfl fun d => by cases d <;> rfl,
    rfl, by decide +kernel, rfl, rfl, by decide +kernel⟩

/-- A state in VALID: the extension of 4 000 mm measured stands in the innermost joint, at a disagreement of 0. -/
def measuring : State :=
  let s := { fitted with stk := { fitted.stk with
    joints := [⟨.free, 0, none⟩, ⟨.free, 4000, none⟩], taut := true, quality := .valid, strokeOffset := -31000 } }
  { s with env := s.envelope }

theorem witness_EnvelopeAndZonesStayCurrent : EnvelopeInv measuring ∧ ZoneInv measuring ∧ measuring.lines.xrst = false := by
  refine ⟨fun _ => by decide +kernel, ⟨by decide, by decide, by decide, fun i => ?_⟩, rfl⟩
  have : measuring.znt.zones[i] = Zone.start := by fin_cases i <;> rfl
  rw [this]
  constructor <;> decide

theorem witness_DepthFollowsTheModel :
    DepthInv measuring ∧ TableInv measuring ∧ Conserved measuring ∧ Distributed measuring ∧
      measuring.stk.quality = .valid := by
  have active : ∀ g, measuring.gst.active = some g → g = small := fun g h => by
    simpa [measuring, fitted] using h.symm
  have range : ∀ i ∈ GeomItem.all, i.range.1 ≤ small.get i ∧ small.get i ≤ i.range.2 := by decide +kernel
  refine ⟨⟨?_, fun _ _ _ _ => by decide, fun _ _ _ h => by simp [measuring] at h,
    fun _ _ _ h => by simp [measuring] at h⟩, ⟨range, fun g h => active g h ▸ range, ?_⟩, fun g h _ => ?_,
    fun g h _ => ?_, rfl⟩
  · rintro (h | h) <;> simp [measuring, fitted] at h
  · exact .cons (fun _ => ⟨by decide, by decide, fun _ h => by cases h⟩)
      (.cons (fun _ => ⟨by decide, by decide, fun _ h => by cases h⟩) .nil)
  · cases active g h; decide
  · cases active g h
    refine ⟨by decide, fun j x y hx hy _ => ?_⟩
    rcases j with _ | _ | j
    · cases hx; cases hy; decide
    · cases hx; cases hy; decide
    · simp [measuring] at hx

theorem witness_RecordsStayNumbered : RecordInv fitted :=
  ⟨by decide, fun i r h => by simp [fitted, acked, State.reset, Brc.start] at h,
    fun r h => by simp [fitted, acked, State.reset, Brc.start] at h, by decide⟩

end Sys2Proof.Tests
end

