-- ==== Sys2Proof/Proofs/Parts.lean ====
section
/-! What an effect leaves as it was, part by part, and the parts of a state at the end of an event. The statements on the
string model, the phases and the resets read the parts of a long composition off the effects of its operations. -/

namespace Sys2Proof.Machine

section
variable {c : List Part} {s t : State} (h : Effect c s t)
include h

theorem Effect.msu_eq (hc : Part.msu ∉ c := by simp) : t.msu = s.msu := h.kept .msu hc
theorem Effect.stk_eq (hc : Part.stk ∉ c := by simp) : t.stk = s.stk := h.kept .stk hc
theorem Effect.phc_eq (hc : Part.phc ∉ c := by simp) : t.phc = s.phc := h.kept .phc hc
theorem Effect.znt_eq (hc : Part.znt ∉ c := by simp) : t.znt = s.znt := h.kept .znt hc
theorem Effect.env_eq (hc : Part.env ∉ c := by simp) : t.env = s.env := h.kept .env hc
theorem Effect.brc_eq (hc : Part.brc ∉ c := by simp) : t.brc = s.brc := h.kept .brc hc
theorem Effect.gst_eq (hc : Part.gst ∉ c := by simp) : t.gst = s.gst := h.kept .gst hc
theorem Effect.lines_eq (hc : Part.lines ∉ c := by simp) : t.lines = s.lines := h.kept .lines hc
theorem Effect.measured_eq (hc : Part.measured ∉ c := by simp) : t.env.measured = s.env.measured :=
  h.kept .measured hc

theorem Effect.zones_eq (hc : Part.zones ∉ c := by simp) : t.znt.zones = s.znt.zones := (h.kept .zones hc).1
theorem Effect.sessionOpen_eq (hc : Part.zones ∉ c := by simp) : t.znt.sessionOpen = s.znt.sessionOpen :=
  (h.kept .zones hc).2.1
theorem Effect.pile_eq (hc : Part.zones ∉ c := by simp) : t.znt.pile = s.znt.pile := (h.kept .zones hc).2.2

/-- The FSV is as it was, but for its warnings. -/
theorem Effect.fsv_eq (hc : Part.faults ∉ c := by simp) : t.fsv = { s.fsv with warnings := t.fsv.warnings } := by
  have k : { t.fsv with warnings := s.fsv.warnings } = s.fsv := h.kept .faults hc
  rw [← k]

theorem Effect.entry_eq (src : Source) (hc : Part.faults ∉ c := by simp) : t.entry src = s.entry src := by
  unfold State.entry
  rw [h.fsv_eq hc]
  rfl

theorem Effect.limitReach_eq (hc : Part.faults ∉ c := by simp) : t.fsv.limitReach = s.fsv.limitReach := by
  rw [h.fsv_eq hc]

theorem Effect.grant_eq (d : Drive) (hc : Part.grants ∉ c := by simp) : t.grant d = s.grant d := by
  obtain ⟨hoist, crowd, rotary⟩ : _ ∧ _ ∧ _ := h.kept .grants hc
  cases d
  · exact hoist
  · exact crowd
  · exact rotary

end

/-! The end of an event. -/

section
variable (s : State)

@[simp] theorem settle_msu : (settle s).msu = s.msu := rfl
@[simp] theorem settle_stk : (settle s).stk = s.stk := rfl
@[simp] theorem settle_phc : (settle s).phc = s.phc := rfl
@[simp] theorem settle_znt : (settle s).znt = s.znt := rfl
@[simp] theorem settle_env : (settle s).env = s.env := rfl
@[simp] theorem settle_brc : (settle s).brc = s.brc := rfl
@[simp] theorem settle_gst : (settle s).gst = s.gst := rfl
@[simp] theorem settle_pif : (settle s).pif = s.pif := rfl
@[simp] theorem settle_lines : (settle s).lines = s.lines := rfl
@[simp] theorem settle_entry (src : Source) : (settle s).entry src = s.entry src := rfl
@[simp] theorem settle_grant (d : Drive) : (settle s).grant d = s.grant d := by cases d <;> rfl
@[simp] theorem settle_envelope : (settle s).envelope = s.envelope := rfl

@[simp] theorem frameEnded_msu (p : Port) : (s.frameEnded p).msu = s.msu := rfl
@[simp] theorem frameEnded_stk (p : Port) : (s.frameEnded p).stk = s.stk := rfl
@[simp] theorem frameEnded_phc (p : Port) : (s.frameEnded p).phc = s.phc := rfl
@[simp] theorem frameEnded_znt (p : Port) : (s.frameEnded p).znt = s.znt := rfl
@[simp] theorem frameEnded_env (p : Port) : (s.frameEnded p).env = s.env := rfl
@[simp] theorem frameEnded_gru (p : Port) : (s.frameEnded p).gru = s.gru := rfl
@[simp] theorem frameEnded_fsv (p : Port) : (s.frameEnded p).fsv = s.fsv := rfl
@[simp] theorem frameEnded_brc (p : Port) : (s.frameEnded p).brc = s.brc := rfl
@[simp] theorem frameEnded_gst (p : Port) : (s.frameEnded p).gst = s.gst := rfl
@[simp] theorem frameEnded_lines (p : Port) : (s.frameEnded p).lines = s.lines := rfl
@[simp] theorem frameEnded_pending (p : Port) : (s.frameEnded p).pending = s.pending := rfl
@[simp] theorem frameEnded_entry (p : Port) (src : Source) : (s.frameEnded p).entry src = s.entry src := rfl
@[simp] theorem frameEnded_grant (p : Port) (d : Drive) : (s.frameEnded p).grant d = s.grant d := rfl
end

/-- A port written leaves every other part. -/
theorem withPort_kept (s : State) (p : Port) (x : PortState) (y : Part) (h : y ≠ .pif) : y.kept s (s.withPort p x) := by
  cases y <;> simp_all [Part.kept]

/-- What an evaluation left is read off the string model, the active geometry and the millimetres alone. -/
theorem Evaluated.congr {k : Stk} {s s' t t' : State} (h : Evaluated k s t)
    (session : s'.znt.sessionOpen = s.znt.sessionOpen) (stk : t'.stk = t.stk)
    (active : t'.gst.active = t.gst.active) (rope : t'.msu.ropeMm = t.msu.ropeMm)
    (stroke : t'.msu.strokeMm = t.msu.strokeMm) : Evaluated k s' t' := by
  obtain ⟨rest, depth, states, locked, outside, held, bottom⟩ := h
  have depth' : DepthInv t' := by
    obtain ⟨none, valid, strokeOnly, heldq⟩ := depth
    constructor <;> simpa only [stk, active, rope, stroke, State.pRope, State.headPos] using ‹_›
  refine ⟨by rw [stk]; exact rest, depth', by simpa only [State.jointStates, stk] using states, ?_, ?_, ?_, ?_⟩
  · simpa only [stk] using locked
  · simpa only [stk] using outside
  · simpa only [stk] using held
  · simpa only [stk, session] using bottom

end Sys2Proof.Machine
end

