-- ==== Sys2Proof/Proofs/Operations.lean ====
section
/-! What the shared operations leave in the parts they write: the PHC after its evaluation, the records asked for, the
entries of the fault table after a raise, a decision and a boundary, the envelope after each of them. -/

namespace Sys2Proof.Machine

/-! The phase controller. -/

theorem allFree_iff (js : List Joint) : allFree js = true ↔ ∀ j ∈ js, j.state = .free := by
  simp [allFree, Joint.isFree]

theorem changePhase_phase (p : Phase) (s : State) : (changePhase p s).phc.phase = p := by rw [changePhase_phc]

/-- The evaluation of the PHC leaves the PHC `advancedPhc` says (R65). -/
theorem advanceEvaluate_phc (s : State) :
    (advanceEvaluate s).phc = advancedPhc s.gst.settings s.stk true s.phc := by
  unfold advanceEvaluate advancedPhc
  by_cases hv : s.phc.phase = .hoist ∧ s.stk.quality = .valid
  · simp only [hv, and_self, if_true, State.withPhc_stk, State.withPhc_gst, State.withPhc_phc, ← allFree_iff,
      Bool.and_eq_true, decide_eq_true_eq, and_assoc]
    split
    · simp [changePhase_phc]
    · rfl
  · rw [if_neg hv, if_neg (by simpa using hv)]

theorem modelMoved_iff (old new : Stk) :
    modelMoved old new = true ↔ ¬(old.depth = new.depth ∧ old.quality = new.quality ∧ old.joints = new.joints) := by
  simp only [modelMoved, decide_eq_true_eq, ne_eq, eq_comm (a := old.depth), eq_comm (a := old.quality),
    eq_comm (a := old.joints)]
  tauto

/-- An evaluation that moved nothing leaves the PHC (R65). -/
@[simp] theorem advancedPhc_false (t : Settings) (k : Stk) (p : Phc) : advancedPhc t k false p = p := by
  simp [advancedPhc]

theorem advancedPhc_of_not_hoist {p : Phc} (h : p.phase ≠ .hoist) (t : Settings) (k : Stk) (b : Bool) :
    advancedPhc t k b p = p := by
  simp [advancedPhc, h]

/-- The PHC after what it makes of an evaluation of the STK that started from `old` (R65). -/
theorem phcAfterEvaluation_phc (old : Stk) (s : State) :
    (phcAfterEvaluation old s).phc = advancedPhc s.gst.settings s.stk (modelMoved old s.stk) s.phc := by
  unfold phcAfterEvaluation
  by_cases h : old.depth = s.stk.depth ∧ old.quality = s.stk.quality ∧ old.joints = s.stk.joints
  · rw [if_pos h, Bool.eq_false_iff.mpr (mt (modelMoved_iff old s.stk).mp (not_not_intro h)), advancedPhc_false]
  · rw [if_neg h, (modelMoved_iff old s.stk).mpr h, advanceEvaluate_phc]

/-! The recorder. -/

/-- EVENT records asked for one after the other at one depth. -/
def Brc.askAll (b : Brc) (sessionOpen : Bool) (depth : Int) (ds : List EventDetail) : Brc :=
  ds.foldl (fun b d => b.ask sessionOpen depth depth (.event d)) b

@[simp] theorem Brc.askAll_nil (b : Brc) (o : Bool) (d : Int) : b.askAll o d [] = b := rfl

theorem Brc.askAll_append (b : Brc) (o : Bool) (d : Int) (xs ys : List EventDetail) :
    b.askAll o d (xs ++ ys) = (b.askAll o d xs).askAll o d ys := List.foldl_append

@[simp] theorem askEvent_brc (d : EventDetail) (s : State) :
    (askEvent d s).brc = s.brc.askAll s.znt.sessionOpen s.stk.depth [d] := rfl

theorem askEvents_brc (ds : List EventDetail) (s : State) :
    (askEvents ds s).brc = s.brc.askAll s.znt.sessionOpen s.stk.depth ds := by
  induction ds generalizing s with
  | nil => rfl
  | cons d ds ih => exact ih (askEvent d s)

/-- A record asked for keeps those held (R148, R149). -/
theorem Brc.ask_fifo (b : Brc) (o : Bool) (f t : Int) (d : RecordBody) :
    ∃ more, (b.ask o f t d).fifo = b.fifo ++ more := by
  obtain ⟨-, h⟩ | ⟨-, -, -, h⟩ | ⟨-, -, h⟩ := b.ask_cases o f t d <;> rw [h]
  · exact ⟨[], (List.append_nil _).symm⟩
  · exact ⟨_, rfl⟩
  · exact ⟨[], (List.append_nil _).symm⟩

theorem Brc.askAll_fifo (b : Brc) (o : Bool) (d : Int) (ds : List EventDetail) :
    ∃ more, (b.askAll o d ds).fifo = b.fifo ++ more := by
  induction ds generalizing b with
  | nil => exact ⟨[], (List.append_nil _).symm⟩
  | cons x xs ih =>
    obtain ⟨m, hm⟩ := b.ask_fifo o d d (.event x)
    obtain ⟨n, hn⟩ := ih (b.ask o d d (.event x))
    exact ⟨m ++ n, by rw [Brc.askAll, List.foldl_cons, ← Brc.askAll, hn, hm, List.append_assoc]⟩

/-- With the session OPEN, room in the FIFO and no gap, a record asked for is appended (R148). -/
theorem Brc.ask_of_room {b : Brc} (room : b.fifo.length < 512) (noGap : b.gap.pending = false) (f t : Int)
    (d : RecordBody) : b.ask true f t d = b.append f t d := by
  obtain ⟨h, -⟩ | ⟨-, -, -, h⟩ | ⟨-, h | h, -⟩ := b.ask_cases true f t d
  · exact absurd h (by simp)
  · exact h
  · omega
  · exact absurd h (by simp [noGap])

/-- The change of phase asks for its PHASE_CHANGE record and no other (R48). -/
theorem changePhase_brc (p : Phase) (s : State) :
    (changePhase p s).brc = s.brc.askAll s.znt.sessionOpen s.stk.depth [.phaseChange s.phc.phase p] := by
  have park : ∀ t : State, Effect [.grants, .pif] t (if p = .parked then parkGrants t else t) := fun t =>
    .ite (parkGrants_effect t) (.refl t)
  unfold changePhase
  dsimp only
  rw [State.withPhc_brc, (park _).brc_eq, (recompute_effect _).brc_eq]
  rfl

/-- The record of a phase that moved, if it did (R151). -/
def phaseRecord (old new : Phase) : List EventDetail := if new = old then [] else [.phaseChange old new]

theorem advanceEvaluate_brc (s : State) : (advanceEvaluate s).brc =
    s.brc.askAll s.znt.sessionOpen s.stk.depth (phaseRecord s.phc.phase (advanceEvaluate s).phc.phase) := by
  unfold advanceEvaluate
  by_cases hv : s.phc.phase = .hoist ∧ s.stk.quality = .valid
  · simp only [if_pos hv]
    split
    · rw [changePhase_brc, changePhase_phase]
      simp [phaseRecord, hv.1]
    · simp [phaseRecord]
  · simp [hv, phaseRecord]

theorem phcAfterEvaluation_brc (old : Stk) (s : State) : (phcAfterEvaluation old s).brc =
    s.brc.askAll s.znt.sessionOpen s.stk.depth (phaseRecord s.phc.phase (phcAfterEvaluation old s).phc.phase) := by
  unfold phcAfterEvaluation
  split
  · simp [phaseRecord]
  · exact advanceEvaluate_brc s

/-! The zones. -/

theorem zntReevaluate_brc (s : State) : (zntReevaluate s).brc =
    s.brc.askAll s.znt.sessionOpen s.stk.depth (s.znt.markRecords s.znt.mask (s.znt.containing s.stk.depth)) :=
  askEvents_brc _ _

theorem zntReevaluate_znt (s : State) : (zntReevaluate s).znt = { s.znt with
    mask := s.znt.containing s.stk.depth
    combined := s.znt.combinedSet s.stk.quality s.stk.depth
    limits := s.znt.combine (s.znt.combinedSet s.stk.quality s.stk.depth) } :=
  (askEvents_effect _ _).znt_eq

/-! The fault table. -/

theorem withFsv_entry (s : State) (f : Fsv) (src : Source) : (s.withFsv f).entry src = f.entry src := rfl

theorem recompute_entry (s : State) (src : Source) : (recompute s).entry src = s.entry src :=
  (recompute_effect s).entry_eq src

@[simp] theorem handLimitReach_entry (s : State) (src : Source) : (handLimitReach s).entry src = s.entry src := by
  unfold handLimitReach
  dsimp only
  split
  · rfl
  · rw [recompute_entry]; rfl

@[simp] theorem handDropReach_entry (s : State) (src : Source) : (handDropReach s).entry src = s.entry src := rfl

/-- The beginning of an override writes the override of its source alone (R134). -/
theorem beginOverride_entry (src : Source) (a : OverrideAction) (s : State) (x : Source) :
    (beginOverride src a s).entry x =
      if x = src then { s.entry src with override := some ⟨a, (s.entry src).mode⟩ } else s.entry x := by
  have written : (s.withEntry src { s.entry src with override := some ⟨a, (s.entry src).mode⟩ }).entry x =
      if x = src then { s.entry src with override := some ⟨a, (s.entry src).mode⟩ } else s.entry x := by
    split
    · next h => rw [h, State.entry_withEntry_self]
    · next h => rw [State.entry_withEntry_of_ne (h := h)]
  have drops : ∀ t : State, ∀ ds : List Drive, (ds.foldl latchedDropBegins t).entry x = t.entry x := fun t ds =>
    (Effect.foldl latchedDropBegins_effect ds t).entry_eq x
  cases a with
  | limit => rw [beginOverride, handLimitReach_entry, written]
  | drop =>
    simp only [beginOverride]
    split
    · rw [drops, handDropReach_entry, written]
    · rw [handDropReach_entry, written]

/-- A raise leaves every other entry (R134). -/
theorem raise_entry_of_ne {src x : Source} (h : x ≠ src) (s : State) : (raise src s).entry x = s.entry x := by
  have asked : (askEvent (.faultRaised src) (s.withEntry src { s.entry src with latched := true })).entry x =
      s.entry x := by
    rw [(askEvent_effect _ _).entry_eq, State.entry_withEntry_of_ne (h := h)]
  unfold raise
  split
  · rfl
  · dsimp only
    split
    · rw [beginOverride_entry, if_neg h, asked]
    all_goals exact asked

/-- A raise taken sets latched and, if an override begins, that override; the condition stands (R134). -/
theorem raise_entry_self (src : Source) (s : State) (h : s.lines.xrst = false) :
    ∃ o, (raise src s).entry src = { s.entry src with latched := true, override := o } := by
  have asked : (askEvent (.faultRaised src) (s.withEntry src { s.entry src with latched := true })).entry src =
      { s.entry src with latched := true } := by
    rw [(askEvent_effect _ _).entry_eq, State.entry_withEntry_self]
  unfold raise
  rw [if_neg (by simp [h])]
  dsimp only
  split
  · exact ⟨_, by rw [beginOverride_entry, if_pos rfl, asked]⟩
  all_goals exact ⟨_, by rw [asked]⟩

theorem raise_of_xrst {s : State} (h : s.lines.xrst = true) (src : Source) : raise src s = s := by simp [raise, h]

/-- No raise moves a condition (R134). -/
theorem raise_condition (src x : Source) (s : State) : ((raise src s).entry x).condition = (s.entry x).condition := by
  by_cases hx : s.lines.xrst = true
  · rw [raise_of_xrst hx]
  · by_cases h : x = src
    · obtain ⟨o, ho⟩ := raise_entry_self src s (by simpa using hx)
      rw [h, ho]
    · rw [raise_entry_of_ne h]

/-- A raise taken asks for its FAULT_RAISED record and no other (R134). -/
theorem raise_brc (src : Source) (s : State) : (raise src s).brc =
    s.brc.askAll s.znt.sessionOpen s.stk.depth (if s.lines.xrst then [] else [.faultRaised src]) := by
  have begun : ∀ a (t : State), (beginOverride src a t).brc = t.brc := fun a t => (beginOverride_effect src a t).brc_eq
  unfold raise
  split
  · rfl
  · dsimp only
    split
    · rw [begun]; rfl
    all_goals rfl

/-- Raises keep every entry but those of the sources raised. -/
theorem raiseAll_entry_of_notMem (srcs : List Source) (x : Source) (h : x ∉ srcs) (s : State) :
    (raiseAll srcs s).entry x = s.entry x := by
  induction srcs generalizing s with
  | nil => rfl
  | cons y ys ih =>
    rw [List.mem_cons, not_or] at h
    exact (ih h.2 (raise y s)).trans (raise_entry_of_ne h.1 s)

theorem raiseAll_condition (srcs : List Source) (x : Source) (s : State) :
    ((raiseAll srcs s).entry x).condition = (s.entry x).condition := by
  induction srcs generalizing s with
  | nil => rfl
  | cons y ys ih => exact (ih (raise y s)).trans (raise_condition y x s)

/-- Nothing clears a latch in a raise (R134). -/
theorem raise_latched_mono (src x : Source) (s : State) (h : (s.entry x).latched = true) :
    ((raise src s).entry x).latched = true := by
  by_cases hx : s.lines.xrst = true
  · rwa [raise_of_xrst hx]
  · by_cases e : x = src
    · obtain ⟨o, ho⟩ := raise_entry_self src s (by simpa using hx)
      rw [e, ho]
    · rwa [raise_entry_of_ne e]

theorem raiseAll_latched_mono (srcs : List Source) (x : Source) (s : State) (h : (s.entry x).latched = true) :
    ((raiseAll srcs s).entry x).latched = true := by
  induction srcs generalizing s with
  | nil => exact h
  | cons y ys ih => exact ih (raise y s) (raise_latched_mono y x s h)

/-- Every source raised is latched, outside XRST (R134, R146). -/
theorem raiseAll_latched {srcs : List Source} {x : Source} (h : x ∈ srcs) (s : State) (hx : s.lines.xrst = false) :
    ((raiseAll srcs s).entry x).latched = true := by
  induction srcs generalizing s with
  | nil => simp at h
  | cons y ys ih =>
    have lines : (raise y s).lines.xrst = false := by rw [(raise_effect y s).lines_eq, hx]
    obtain rfl | h := List.mem_cons.mp h
    · obtain ⟨o, ho⟩ := raise_entry_self x s hx
      exact raiseAll_latched_mono ys x _ (by rw [ho])
    · exact ih h _ lines

theorem raiseAll_brc (srcs : List Source) (s : State) : (raiseAll srcs s).brc =
    s.brc.askAll s.znt.sessionOpen s.stk.depth (if s.lines.xrst then [] else srcs.map .faultRaised) := by
  induction srcs generalizing s with
  | nil => simp [raiseAll]
  | cons y ys ih =>
    have e := raise_effect y s
    refine (ih (raise y s)).trans ?_
    rw [raise_brc, e.sessionOpen_eq, e.stk_eq, e.lines_eq, ← Brc.askAll_append]
    split <;> rfl

/-- A decision makes a condition present that was not: the source is raised (R134); none is made in XRST (R146). -/
def State.becomes (s : State) (src : Source) (present : Bool) : Bool :=
  !s.lines.xrst && (present && !(s.entry src).condition)

/-- A decision writes its condition, and latches the source where the condition becomes present (R130, R134). -/
theorem decideCondition_entry (src : Source) (present : Bool) (s : State) :
    ∃ o, (decideCondition src present s).entry src =
        { s.entry src with
          condition := if s.lines.xrst then (s.entry src).condition else present
          latched := s.becomes src present || (s.entry src).latched, override := o } ∧
      (s.becomes src present = false → o = (s.entry src).override) := by
  unfold decideCondition State.becomes
  by_cases hx : s.lines.xrst = true
  · exact ⟨(s.entry src).override, by simp [hx], by simp⟩
  · rw [if_neg hx]
    dsimp only
    split
    · next hp =>
      obtain ⟨o, ho⟩ := raise_entry_self src (s.withEntry src { s.entry src with condition := present })
        (by simpa using hx)
      rw [State.entry_withEntry_self] at ho
      exact ⟨o, by rw [ho, hp]; simp [hx], by simp [hp, hx]⟩
    · next hp =>
      exact ⟨(s.entry src).override, by simp [hx, Bool.eq_false_iff.mpr hp], fun _ => rfl⟩

theorem decideCondition_entry_of_ne {src x : Source} (h : x ≠ src) (b : Bool) (s : State) :
    (decideCondition src b s).entry x = s.entry x := by
  have written : (s.withEntry src { s.entry src with condition := b }).entry x = s.entry x :=
    State.entry_withEntry_of_ne s _ h
  unfold decideCondition
  split
  · rfl
  · dsimp only
    split
    · rw [raise_entry_of_ne h, written]
    · exact written

/-- A decision raises the source where its condition becomes present, with its record (R134). -/
theorem decideCondition_brc (src : Source) (b : Bool) (s : State) : (decideCondition src b s).brc =
    s.brc.askAll s.znt.sessionOpen s.stk.depth (if s.becomes src b then [.faultRaised src] else []) := by
  unfold decideCondition State.becomes
  by_cases hx : s.lines.xrst = true
  · simp [hx]
  · rw [if_neg hx]
    dsimp only
    split
    · next h => rw [raise_brc, h]; simp [hx]
    · next h => simp [Bool.eq_false_iff.mpr h]

/-! The envelope. -/

/-- The envelope record is the one its inputs give (R72). -/
def Current (s : State) : Prop := s.env = s.envelope

/-- What the envelope is formed from: with the record itself as it was, it stays current. -/
theorem Current.of_inputs {s t : State} (h : Current s) (env : t.env = s.env) (gst : t.gst = s.gst)
    (limits : t.znt.limits = s.znt.limits) (phase : t.phc.phase = s.phc.phase) (joints : t.stk.joints = s.stk.joints)
    (aR : t.stk.aR = s.stk.aR) (channels : t.msu.channels = s.msu.channels)
    (reach : t.fsv.limitReach = s.fsv.limitReach) : Current t := by
  unfold Current State.envelope at *
  rw [env, gst, limits, phase, joints, aR, channels, reach]
  exact h

/-- An effect that leaves the record and its inputs leaves it current. -/
theorem Current.effect {c : List Part} {s t : State} (h : Current s) (e : Effect c s t)
    (hc : ∀ x ∈ [Part.env, .gst, .znt, .phc, .stk, .msu, .faults], x ∉ c := by simp) : Current t :=
  h.of_inputs (e.env_eq (hc _ (by simp))) (e.gst_eq (hc _ (by simp))) (by rw [e.znt_eq (hc _ (by simp))])
    (by rw [e.phc_eq (hc _ (by simp))]) (by rw [e.stk_eq (hc _ (by simp))]) (by rw [e.stk_eq (hc _ (by simp))])
    (by rw [e.msu_eq (hc _ (by simp))]) (e.limitReach_eq (hc _ (by simp)))

theorem recompute_current (s : State) : Current (recompute s) := by
  have e := recompute_effect s
  have inputs : (recompute s).envelope = s.envelope := by
    unfold State.envelope
    rw [e.gst_eq, e.znt_eq, e.phc_eq, e.stk_eq, e.msu_eq, e.limitReach_eq, recompute_env, State.envelope_measured]
  rw [Current, recompute_env, inputs]

theorem handLimitReach_current {s : State} (h : Current s) : Current (handLimitReach s) := by
  unfold handLimitReach
  dsimp only
  split
  · exact h
  · exact recompute_current _

theorem beginOverride_current {s : State} (h : Current s) (src : Source) (a : OverrideAction) :
    Current (beginOverride src a s) := by
  have written : Current (s.withEntry src { s.entry src with override := some ⟨a, (s.entry src).mode⟩ }) :=
    h.of_inputs rfl rfl rfl rfl rfl rfl rfl rfl
  cases a with
  | limit => exact handLimitReach_current written
  | drop =>
    have handed : Current (handDropReach (s.withEntry src
        { s.entry src with override := some ⟨.drop, (s.entry src).mode⟩ })) :=
      written.of_inputs rfl rfl rfl rfl rfl rfl rfl rfl
    simp only [beginOverride]
    split
    · exact handed.effect (Effect.foldl latchedDropBegins_effect _ _)
    · exact handed

theorem raise_current {s : State} (h : Current s) (src : Source) : Current (raise src s) := by
  have asked : Current (askEvent (.faultRaised src) (s.withEntry src { s.entry src with latched := true })) :=
    h.of_inputs rfl rfl rfl rfl rfl rfl rfl rfl
  unfold raise
  split
  · exact h
  · dsimp only
    split
    · exact beginOverride_current asked src _
    all_goals exact asked

theorem raiseAll_current {s : State} (h : Current s) (srcs : List Source) : Current (raiseAll srcs s) := by
  induction srcs generalizing s with
  | nil => exact h
  | cons y ys ih => exact ih (raise_current h y)

theorem decideCondition_current {s : State} (h : Current s) (src : Source) (b : Bool) :
    Current (decideCondition src b s) := by
  have written : Current (s.withEntry src { s.entry src with condition := b }) :=
    h.of_inputs rfl rfl rfl rfl rfl rfl rfl rfl
  unfold decideCondition
  split
  · exact h
  · dsimp only
    split
    · exact raise_current written src
    · exact written

theorem handOn_current (raised : List Source) (s : State) : Current (handOn raised s) :=
  decideCondition_current (raiseAll_current (recompute_current _) raised) _ _

theorem changePhase_current (p : Phase) (s : State) : Current (changePhase p s) := by
  have park : ∀ t : State, Effect [.grants, .pif] t (if p = .parked then parkGrants t else t) := fun t =>
    .ite (parkGrants_effect t) (.refl t)
  unfold changePhase
  dsimp only
  exact ((recompute_current _).effect (park _)).of_inputs rfl rfl rfl rfl rfl rfl rfl rfl

theorem advanceEvaluate_current {s : State} (h : Current s) : Current (advanceEvaluate s) := by
  have armed : ∀ b, Current (s.withPhc { s.phc with advanceArm := b }) := fun b =>
    h.of_inputs rfl rfl rfl rfl rfl rfl rfl rfl
  unfold advanceEvaluate
  split
  · dsimp only
    split
    · exact changePhase_current _ _
    · exact armed _
  · exact h

theorem phcAfterEvaluation_current {s : State} (h : Current s) (old : Stk) : Current (phcAfterEvaluation old s) := by
  unfold phcAfterEvaluation
  split
  · exact h
  · exact advanceEvaluate_current h

theorem afterEvaluation_current (old : Stk) (raised : List Source) (s : State) :
    Current (afterEvaluation old raised s) :=
  (phcAfterEvaluation_current (handOn_current raised s) old).effect (brcDepth_effect _ _)

theorem settle_current {s : State} (h : Current s) : Current (settle s) := h.effect (settle_effect s)

end Sys2Proof.Machine
end

