-- ==== Sys2Proof/Proofs/Evaluations.lean ====
section
/-! An evaluation of the STK handed on: the fault table, the records and the PHC it leaves, said once for every command
that evaluates; and a request on the cab port, from its frame to the settled state. -/

namespace Sys2Proof.Machine

/-! The disagreement. -/

/-- The decision of DEPTH_DISAGREE is read off its entry, the string model and the settings (R14). -/
theorem DisagreementDecided.congr {s s' t t' : State} (h : DisagreementDecided s t)
    (lines : s'.lines = s.lines) (before : s'.entry .depthDisagree = s.entry .depthDisagree)
    (after : t'.entry .depthDisagree = t.entry .depthDisagree) (gst : t'.gst.settings = t.gst.settings)
    (stk : t'.stk.disagreement = t.stk.disagreement) : DisagreementDecided s' t' := by
  unfold DisagreementDecided at *
  rw [lines, before, after, gst, stk]
  exact h

/-- The decision of a condition, as an evaluation makes it of DEPTH_DISAGREE (R14, R133). -/
theorem decideCondition_disagreement (s : State) :
    DisagreementDecided s (decideCondition .depthDisagree s.depthDisagrees s) := by
  have e := decideCondition_effect .depthDisagree s.depthDisagrees s
  obtain ⟨o, entry, -⟩ := decideCondition_entry .depthDisagree s.depthDisagrees s
  refine ⟨?_, fun was now => ?_⟩
  · rw [entry, e.gst_eq, e.stk_eq]
    rfl
  · rw [entry] at now ⊢
    dsimp only at now ⊢
    split at now
    · simp [was] at now
    · next hx => simp [State.becomes, hx, now, was]

theorem handOn_entry_of_ne {raised : List Source} {x : Source} (h : x ≠ .depthDisagree) (hr : x ∉ raised) (s : State) :
    (handOn raised s).entry x = s.entry x := by
  rw [handOn, decideCondition_entry_of_ne h, raiseAll_entry_of_notMem _ _ hr, recompute_entry,
    (zntReevaluate_effect s).entry_eq]

/-- The state on which a handing on decides DEPTH_DISAGREE. -/
theorem raised_entry {raised : List Source} (h : Source.depthDisagree ∉ raised) (s : State) :
    (raiseAll raised (recompute (zntReevaluate s))).entry .depthDisagree = s.entry .depthDisagree := by
  rw [raiseAll_entry_of_notMem _ _ h, recompute_entry, (zntReevaluate_effect s).entry_eq]

/-- Up to the decision of DEPTH_DISAGREE a handing on leaves the string model, the store and the lines. -/
theorem raised_effect (raised : List Source) (s : State) :
    Effect [.znt, .faults, .brc, .env, .grants, .pif] s (raiseAll raised (recompute (zntReevaluate s))) :=
  ((zntReevaluate_effect s).mono (by simp)).trans (((recompute_effect _).mono (by simp)).trans
    ((raiseAll_effect raised _).mono (by simp)))

theorem handOn_disagreement {raised : List Source} (h : Source.depthDisagree ∉ raised) (s : State) :
    DisagreementDecided s (handOn raised s) := by
  have e := raised_effect raised s
  have same : (raiseAll raised (recompute (zntReevaluate s))).depthDisagrees = s.depthDisagrees := by
    simp only [State.depthDisagrees, e.gst_eq, e.stk_eq]
  have k := decideCondition_disagreement (raiseAll raised (recompute (zntReevaluate s)))
  rw [same] at k
  refine k.congr e.lines_eq.symm (raised_entry h s).symm ?_ ?_ ?_ <;> rw [handOn]

theorem handOn_condition_of_ne {x : Source} (h : x ≠ .depthDisagree) (raised : List Source) (s : State) :
    ((handOn raised s).entry x).condition = (s.entry x).condition := by
  rw [handOn, decideCondition_entry_of_ne h, raiseAll_condition, recompute_entry, (zntReevaluate_effect s).entry_eq]

/-- What the PHC and the BRC do after a handing on leaves the fault table. -/
theorem afterEvaluation_entry (old : Stk) (raised : List Source) (s : State) (x : Source) :
    (afterEvaluation old raised s).entry x = (handOn raised s).entry x := by
  rw [afterEvaluation, (brcDepth_effect _ _).entry_eq, (phcAfterEvaluation_effect _ _).entry_eq]

theorem afterEvaluation_disagreement (old : Stk) {raised : List Source} (h : Source.depthDisagree ∉ raised)
    (s : State) : DisagreementDecided s (afterEvaluation old raised s) := by
  have e : Effect [.phc, .brc, .env, .grants, .pif] (handOn raised s) (afterEvaluation old raised s) :=
    (phcAfterEvaluation_effect old _).trans ((brcDepth_effect _ _).mono (by simp))
  exact (handOn_disagreement h s).congr rfl rfl (afterEvaluation_entry _ _ _ _) (by rw [e.gst_eq]) (by rw [e.stk_eq])

theorem afterEvaluation_onlyDisagreement (old : Stk) (s : State) :
    OnlyDisagreement s (afterEvaluation old [] s) := fun x hx => by
  rw [afterEvaluation_entry, handOn_entry_of_ne hx (by simp)]

theorem afterEvaluation_phc (old : Stk) (raised : List Source) (s : State) :
    (afterEvaluation old raised s).phc =
      advancedPhc s.gst.settings s.stk (modelMoved old s.stk) s.phc := by
  have e := handOn_effect raised s
  rw [afterEvaluation, (brcDepth_effect _ _).phc_eq, phcAfterEvaluation_phc, e.gst_eq, e.stk_eq, e.phc_eq]

/-! The records. -/

theorem Brc.eventsAsked_eq (b : Brc) (s t : State) (raised : List Source) : b.eventsAsked s t raised =
    b.askAll s.znt.sessionOpen t.stk.depth (s.znt.markRecords s.znt.mask t.znt.mask ++ raised.map .faultRaised ++
      phaseRecord s.phc.phase t.phc.phase) := rfl

/-- What is asked for is read off the ZNT, the phase and D (R120, R151). -/
theorem Brc.eventsAsked_congr (b : Brc) {s s' t t' : State} (raised : List Source) (znt : s'.znt = s.znt)
    (before : s'.phc.phase = s.phc.phase) (mask : t'.znt.mask = t.znt.mask) (after : t'.phc.phase = t.phc.phase)
    (depth : t'.stk.depth = t.stk.depth) : b.eventsAsked s' t' raised = b.eventsAsked s t raised := by
  rw [Brc.eventsAsked_eq, Brc.eventsAsked_eq, znt, before, mask, after, depth]

theorem Brc.stepAsked_congr (b : Brc) {s s' t t' : State} (znt : s'.znt.sessionOpen = s.znt.sessionOpen)
    (before : s'.stk.bottomHole = s.stk.bottomHole) (step : t'.gst.settings.recordStep = t.gst.settings.recordStep)
    (after : t'.stk.bottomHole = t.stk.bottomHole) : b.stepAsked s' t' = b.stepAsked s t := by
  unfold Brc.stepAsked
  rw [znt, before, step, after]

/-- The BRC's part of an evaluation is the STEP record of the event (R153). -/
theorem brcDepth_brc {s0 : State} (s : State) {before : Int} (h : before = s0.stk.bottomHole)
    (open_ : s.znt.sessionOpen = s0.znt.sessionOpen) : (brcDepth before s).brc = s.brc.stepAsked s0 s := by
  unfold brcDepth Brc.stepAsked Brc.stepRecord
  rw [h, open_]
  by_cases k : s0.znt.sessionOpen = true ∧ s0.stk.bottomHole < s.stk.bottomHole
  · rw [if_pos k]
    by_cases n : s.brc.nextStep ≤ s.stk.bottomHole
    · simp only [k, n, not_lt.mpr n, and_self, if_true, if_false]
      rfl
    · simp [not_le.mp n, n]
  · rw [if_neg k, if_neg (fun j => k ⟨j.1, j.2.1⟩)]

/-- Without an advance of bottom-hole depth there is no STEP record (R153). -/
theorem Brc.stepAsked_of_not_deeper (b : Brc) {s t : State} (h : t.stk.bottomHole ≤ s.stk.bottomHole) :
    b.stepAsked s t = b := by
  unfold Brc.stepAsked
  rw [if_neg]
  rintro ⟨-, k, -⟩
  omega

/-- The sources that become present are DEPTH_DISAGREE alone where no other condition moved. -/
theorem newlyPresent_of_only {s t : State}
    (h : ∀ src, src ≠ .depthDisagree → (t.entry src).condition = (s.entry src).condition) :
    newlyPresent s t = if (t.entry .depthDisagree).condition && !(s.entry .depthDisagree).condition
      then [.depthDisagree] else [] := by
  have other : ∀ src, src ≠ .depthDisagree → ((t.entry src).condition && !(s.entry src).condition) = false :=
    fun src hs => by rw [h src hs]; cases (s.entry src).condition <;> rfl
  unfold newlyPresent Source.all
  simp [List.filter_cons, other]

theorem newlyPresent_congr {s s' t t' : State} (before : ∀ src, s'.entry src = s.entry src)
    (after : ∀ src, t'.entry src = t.entry src) : newlyPresent s' t' = newlyPresent s t := by
  unfold newlyPresent
  simp only [before, after]

/-- Nothing becomes present where no condition moved. -/
theorem newlyPresent_of_same {s t : State} (h : ∀ src, (t.entry src).condition = (s.entry src).condition) :
    newlyPresent s t = [] := by
  simp [newlyPresent, h]

/-- DEPTH_DISAGREE becomes present at a decision exactly where its condition was absent and is present after it. -/
theorem becomes_iff_condition (s : State) (src : Source) (b : Bool) : s.becomes src b =
    (((decideCondition src b s).entry src).condition && !(s.entry src).condition) := by
  obtain ⟨o, h, -⟩ := decideCondition_entry src b s
  rw [h, State.becomes]
  cases s.lines.xrst <;> cases b <;> cases (s.entry src).condition <;> rfl

/-- The records of a handing on: the zones', the sources the STK raised, and DEPTH_DISAGREE where it becomes present (R120,
R134, R151). -/
theorem handOn_brc {raised : List Source} (h : Source.depthDisagree ∉ raised) (s : State) :
    (handOn raised s).brc = s.brc.askAll s.znt.sessionOpen s.stk.depth
      (s.znt.markRecords s.znt.mask (handOn raised s).znt.mask ++
        ((if s.lines.xrst then [] else raised) ++ newlyPresent s (handOn raised s)).map .faultRaised) := by
  have only := newlyPresent_of_only (s := s) (t := handOn raised s) fun x hx => handOn_condition_of_ne hx raised s
  have e := raised_effect raised s
  have ez := zntReevaluate_effect s
  have er := recompute_effect (zntReevaluate s)
  have mask : (handOn raised s).znt.mask = s.znt.containing s.stk.depth := by
    rw [handOn, (decideCondition_effect _ _ _).znt_eq, (raiseAll_effect _ _).znt_eq, er.znt_eq, zntReevaluate_znt]
  have becomes := becomes_iff_condition (raiseAll raised (recompute (zntReevaluate s))) .depthDisagree s.depthDisagrees
  rw [raised_entry h] at becomes
  rw [only, mask]
  conv_lhs => rw [handOn, decideCondition_brc, raiseAll_brc, er.brc_eq, zntReevaluate_brc]
  rw [becomes, e.sessionOpen_eq, e.stk_eq, er.sessionOpen_eq, ez.sessionOpen_eq, er.stk_eq, ez.stk_eq, er.lines_eq,
    ez.lines_eq, ← Brc.askAll_append, ← Brc.askAll_append, List.map_append]
  congr 3
  · split <;> rfl
  · rw [handOn]
    split <;> rfl

/-- The records of an event whose evaluation started from `s0`, up to the STK's own (R120, R134, R151, R153). -/
theorem afterEvaluation_brc {s0 s : State} {raised : List Source} (h : Source.depthDisagree ∉ raised)
    (znt : s.znt = s0.znt) (phase : s.phc.phase = s0.phc.phase) (entries : ∀ src, s.entry src = s0.entry src) :
    (afterEvaluation s0.stk raised s).brc =
      (s.brc.eventsAsked s0 (afterEvaluation s0.stk raised s) ((if s.lines.xrst then [] else raised) ++
        newlyPresent s0 (afterEvaluation s0.stk raised s))).stepAsked s0 (afterEvaluation s0.stk raised s) := by
  have eh := handOn_effect raised s
  have ep := phcAfterEvaluation_effect s0.stk (handOn raised s)
  have eb := brcDepth_effect s0.stk.bottomHole (phcAfterEvaluation s0.stk (handOn raised s))
  have new : newlyPresent s0 (afterEvaluation s0.stk raised s) = newlyPresent s (handOn raised s) :=
    newlyPresent_congr (fun src => (entries src).symm) (afterEvaluation_entry _ _ _)
  rw [new]
  unfold afterEvaluation
  rw [brcDepth_brc (s0 := s0) _ rfl (by rw [ep.sessionOpen_eq, eh.sessionOpen_eq, znt]), phcAfterEvaluation_brc,
    handOn_brc h, eh.sessionOpen_eq, eh.stk_eq, eh.phc_eq, ← Brc.askAll_append, Brc.eventsAsked_eq, eb.stk_eq, ep.stk_eq,
    eh.stk_eq, eb.znt_eq, ep.znt_eq, eb.phc_eq, znt, phase, List.map_append, List.append_assoc]
  exact Brc.stepAsked_congr _ rfl rfl (by rw [eb.gst_eq]) (by rw [eb.stk_eq, ep.stk_eq])

/-! A request on the cab port. -/

/-- The part after a request on the cab port that clears both latches: its answer pending, the latches clear (R52, R162,
R172). -/
def cabEnded (r : State × Answer) : State :=
  ((r.1.withPort .cab ((r.1.port .cab).answered r.2)).withPhc { r.1.phc with releaseLatch := false }).withStoreEnable
    false

section
variable (r : State × Answer)

@[simp] theorem cabEnded_msu : (cabEnded r).msu = r.1.msu := rfl
@[simp] theorem cabEnded_stk : (cabEnded r).stk = r.1.stk := rfl
@[simp] theorem cabEnded_phc : (cabEnded r).phc = { r.1.phc with releaseLatch := false } := rfl
@[simp] theorem cabEnded_znt : (cabEnded r).znt = r.1.znt := rfl
@[simp] theorem cabEnded_env : (cabEnded r).env = r.1.env := rfl
@[simp] theorem cabEnded_fsv : (cabEnded r).fsv = r.1.fsv := rfl
@[simp] theorem cabEnded_brc : (cabEnded r).brc = r.1.brc := rfl
@[simp] theorem cabEnded_gst : (cabEnded r).gst = { r.1.gst with storeEnable := false } := rfl
@[simp] theorem cabEnded_lines : (cabEnded r).lines = r.1.lines := rfl
@[simp] theorem cabEnded_entry (src : Source) : (cabEnded r).entry src = r.1.entry src := rfl
end

/-- A cab request that clears both latches, from a ready port to the settled state (R170, R174). -/
theorem exec_cabRequest {c : Cmd} {s : State} (h : CabReady s) (taken : c.takenOn .cab = true)
    (latch : Cmd.keepsReleaseLatch c = false) (enable : Cmd.keepsStoreEnable c = false) (a b : Word) :
    exec (requestRow c .cab a b 0) s = .next (settle (cabEnded
      (serve .cab c ⟨c.code, a, b, false, s.brc.oldest⟩ (s.frameEnded .cab)))) := by
  obtain ⟨ready, acknowledged⟩ := h
  rw [exec_requestRow ready, takeRequest_of_passes taken (.inl acknowledged)]
  dsimp only
  rw [clearLatches_cab, latch, enable]
  simp only [ite_self, ne_eq, not_true_eq_false, decide_false, Bool.false_eq_true, if_false]
  rfl

section
variable {c : List Part} {s : State} {r : State × Answer} (e : Effect c (s.frameEnded .cab) r.1)
include e

/-- The request is answered on its port, and nothing but a pending answer moves on the others (R104, R172). -/
theorem cabEnded_answered : Answered .cab r.2 s (settle (cabEnded r)) := by
  have port : ∀ q, (settle (cabEnded r)).port q =
      if q = .cab then (r.1.port .cab).answered r.2 else r.1.port q := fun q => Pif.port_withPort _ _ _ _
  have own : SameButAnswer (((s.frameEnded .cab)).port .cab) (r.1.port .cab) := e.answers .cab
  rw [State.frameEnded, State.port_withPort_self] at own
  refine ⟨?_, fun q hq => ?_⟩
  · have fields := congrArg (fun x : PortState => x.answered r.2) own
    rw [port, if_pos rfl]
    exact fields
  · have other := e.answers q
    rw [State.frameEnded, State.port_withPort_of_ne (h := hq)] at other
    rwa [port, if_neg hq]

/-- Beside what its handler writes, a cab request writes its port and the latches (R52, R162). -/
theorem cabEnded_keeps {d : List Part} (hc : c ⊆ d) (hd : [Part.pif, .phc, .gst] ⊆ d) :
    KeepsAllBut d s (settle (cabEnded r)) := by
  refine ⟨fun x hx => ?_, e.keeps.2⟩
  have first : x.kept s (s.frameEnded .cab) :=
    withPort_kept s _ _ x fun hp => hx (hd (by simp [hp]))
  have second : x.kept (s.frameEnded .cab) r.1 := e.keeps.1 x fun k => hx (hc k)
  have third : x.kept r.1 (cabEnded r) := by
    have : x ∉ [Part.pif, .phc, .gst] := fun k => hx (hd k)
    cases x <;> simp_all [Part.kept, cabEnded, State.withStoreEnable]
  exact Part.kept_trans (Part.kept_trans (Part.kept_trans first second) third)
    ((settle_effect _).keeps.1 x (by simp))
end

/-- A request whose handler changes nothing changes its answer and the latches alone (R52, R162, R172). -/
theorem cabEnded_answeredOnly {s : State} {r : State × Answer} (e : Effect [] (s.frameEnded .cab) r.1) :
    CabAnsweredOnly r.2 s (settle (cabEnded r)) := by
  have pif : r.1.pif = (s.frameEnded .cab).pif := e.kept .pif (by simp)
  refine ⟨?_, ⟨?_, ?_⟩, cabEnded_keeps e (by simp) (by simp)⟩
  · have cab : r.1.port .cab = { (s.port .cab).released with link := false } := by
      rw [State.port, pif, State.frameEnded]
      simp
    show r.1.pif.withPort .cab ((r.1.port .cab).answered r.2) = _
    rw [cab, pif, State.frameEnded, State.withPort_pif, Pif.withPort_withPort]
    rfl
  · simp only [settle_phc, cabEnded_phc, e.phc_eq, frameEnded_phc]
  · simp only [settle_gst, cabEnded_gst, e.gst_eq, frameEnded_gst]

/-- A refusal with an X and Y the spec does not state (entry 12). -/
theorem cabEnded_refusedOpen (s : State) (code : Code) :
    CabRefusedOpen code s (settle (cabEnded (refuseOpen code (s.frameEnded .cab)))) :=
  ⟨_, _, cabEnded_answeredOnly (r := refuseOpen code (s.frameEnded .cab)) (useFree_effect _)⟩

/-- A refusal with a stated X and Y. -/
theorem cabEnded_refused (s : State) (code : Code) (x y : Int) :
    CabAnsweredOnly (answer code x y) s (settle (cabEnded (refuse code x y (s.frameEnded .cab)))) :=
  cabEnded_answeredOnly (r := refuse code x y (s.frameEnded .cab)) (.refl _)

end Sys2Proof.Machine
end

