-- ==== Sys2Proof/Proofs/Strings.lean ====
section
/-! The joint table and the fill of R13: what a fill places and leaves, what the rules make of a table that agrees with its
geometry, and the ranges of a geometry record. -/

namespace Sys2Proof.Machine

/-! The geometry record. -/

theorem GeomItem.mem_all (i : GeomItem) : i ∈ GeomItem.all := by
  rcases i with _ | _ | _ | _ | _ | _ | _ | _ | _ | _ | _ | i | i | i | i | i | i | i | i | ⟨j, k⟩ | c | c
  case pocket => revert j k; decide +kernel
  case gain => cases c <;> decide +kernel
  case offset => cases c <;> decide +kernel
  case barWeight | barTorque | eMax | crowd | window | friction | keyRadius | pocketCount => revert i; decide +kernel
  all_goals decide +kernel

theorem GeomItem.range_le (i : GeomItem) : i.range.1 ≤ i.range.2 := by cases i <;> simp [GeomItem.range]

/-- A value brought within an item's range lies in it (R161). -/
theorem GeomItem.bring_inRange (i : GeomItem) (x : Int) : i.range.1 ≤ i.bring x ∧ i.bring x ≤ i.range.2 := by
  have := i.range_le
  unfold GeomItem.bring clamp
  omega

theorem PerChannel.get_put {α : Type} (v : PerChannel α) (c d : Channel) (x : α) :
    (v.put c x).get d = if d = c then x else v.get d := by
  cases c <;> cases d <;> rfl

theorem getElem_vectorSet {α : Type} {n : Nat} (v : Vector α n) (a b : Fin n) (x : α) :
    (v.set a x)[b] = if b = a then x else v[b] := by
  by_cases h : b = a
  · subst h; simp
  · have : (a : Nat) ≠ b := fun e => h (Fin.ext e.symm)
    simp [Vector.getElem_set_ne, h, this]

/-- Every field of a joint lies in the range of its items (R1, R161). -/
structure JointGeometry.InRange (y : JointGeometry) : Prop where
  eMax : 0 ≤ y.eMax ∧ y.eMax ≤ 25000
  crowd : 0 ≤ y.crowd ∧ y.crowd ≤ 65535
  window : 10 ≤ y.window ∧ y.window ≤ 80
  friction : 0 ≤ y.friction ∧ y.friction ≤ 400
  keyRadius : 100 ≤ y.keyRadius ∧ y.keyRadius ≤ 800
  pocketCount : 0 ≤ y.pocketCount ∧ y.pocketCount ≤ 6
  pocket : ∀ k : Fin 6, 0 ≤ y.positions[k] ∧ y.positions[k] ≤ 25000

theorem Geometry.inRange_of {g : Geometry} (h : ∀ i : GeomItem, i.range.1 ≤ g.get i ∧ g.get i ≤ i.range.2) :
    g.InRange := fun i _ => h i

section
variable {g : Geometry} (h : g.InRange)
include h

theorem Geometry.InRange.get (i : GeomItem) : i.range.1 ≤ g.get i ∧ g.get i ≤ i.range.2 := h i i.mem_all

theorem Geometry.InRange.jointAt (j : Fin 5) : g.joint[j].InRange :=
  ⟨h.get (.eMax j), h.get (.crowd j), h.get (.window j), h.get (.friction j), h.get (.keyRadius j),
    h.get (.pocketCount j), fun k => h.get (.pocket j k)⟩

/-- The joints of the string are joints of a record in range (R4). -/
theorem Geometry.InRange.of_mem {y : JointGeometry} (hy : y ∈ g.joints) : y.InRange := by
  obtain ⟨i, hi, rfl⟩ := List.mem_iff_getElem.mp (List.mem_of_mem_take hy)
  have : i < 5 := by simpa using hi
  simpa using h.jointAt ⟨i, this⟩

theorem Geometry.InRange.putJoint (j : Fin 5) {y : JointGeometry} (hy : y.InRange) : (g.putJoint j y).InRange := by
  refine Geometry.inRange_of fun k => ?_
  have stands := h.get k
  have joint : ∀ m : Fin 5, (g.putJoint j y).joint[m].InRange := fun m => by
    rw [show (g.putJoint j y).joint[m] = if m = j then y else g.joint[m] from getElem_vectorSet _ _ _ _]
    split
    · exact hy
    · exact h.jointAt m
  cases k
  case eMax m => exact (joint m).eMax
  case crowd m => exact (joint m).crowd
  case window m => exact (joint m).window
  case friction m => exact (joint m).friction
  case keyRadius m => exact (joint m).keyRadius
  case pocketCount m => exact (joint m).pocketCount
  case pocket m k => exact (joint m).pocket k
  all_goals exact stands

/-- A record with its items in range keeps them there when an item is written within its range (R161). -/
theorem Geometry.InRange.put (i : GeomItem) {x : Int} (hx : i.range.1 ≤ x ∧ x ≤ i.range.2) : (g.put i x).InRange := by
  cases i
  case eMax j => exact h.putJoint j { h.jointAt j with eMax := hx }
  case crowd j => exact h.putJoint j { h.jointAt j with crowd := hx }
  case window j => exact h.putJoint j { h.jointAt j with window := hx }
  case friction j => exact h.putJoint j { h.jointAt j with friction := hx }
  case keyRadius j => exact h.putJoint j { h.jointAt j with keyRadius := hx }
  case pocketCount j => exact h.putJoint j { h.jointAt j with pocketCount := hx }
  case pocket j k =>
    refine h.putJoint j { h.jointAt j with pocket := fun m => ?_ }
    show 0 ≤ (g.joint[j].positions.set k x)[m] ∧ (g.joint[j].positions.set k x)[m] ≤ 25000
    rw [getElem_vectorSet]
    split
    · exact hx
    · exact (h.jointAt j).pocket m
  all_goals
    refine Geometry.inRange_of fun k => ?_
    have stands := h.get k
    cases k
  case barWeight.barWeight a b =>
    show 1 ≤ (g.barWeight.set a x)[b] ∧ (g.barWeight.set a x)[b] ≤ 2000
    rw [getElem_vectorSet]
    split
    · exact hx
    · exact stands
  case barTorque.barTorque a b =>
    show 100 ≤ (g.barTorque.set a x)[b] ∧ (g.barTorque.set a x)[b] ≤ 8000
    rw [getElem_vectorSet]
    split
    · exact hx
    · exact stands
  case gain.gain c d | gain.offset c d | offset.gain c d | offset.offset c d =>
    simp only [Geometry.put, Geometry.get, PerChannel.get_put] at stands ⊢
    by_cases e : d = c
    · subst e; simpa using by assumption
    · simpa [e] using stands
  all_goals assumption

end

theorem Geometry.least_inRange : Geometry.least.InRange := by unfold Geometry.InRange; decide +kernel

/-- The words of a store give a record with every item in range (R161, R181; entry 37). -/
theorem Geometry.ofWords_inRange (ws : List Word) : (Geometry.ofWords ws).InRange := by
  have written : ∀ (l : List (GeomItem × Word)) (g : Geometry), g.InRange →
      (l.foldl (fun g iw => g.put iw.1 (iw.1.bring (iw.1.read iw.2))) g).InRange := by
    intro l
    induction l with
    | nil => exact fun g h => h
    | cons x l ih => exact fun g h => ih _ (h.put x.1 (x.1.bring_inRange _))
  exact written _ _ Geometry.least_inRange

/-! The states of joints. -/

/-- Whether a joint is LOCKED is told by its state. -/
theorem Joint.isLocked_congr {x y : Joint} (h : x.state = y.state) : x.isLocked = y.isLocked := by
  unfold Joint.isLocked
  rw [h]

theorem freeMax_congr : ∀ {js ks : List Joint} (gs : List JointGeometry),
    js.map Joint.state = ks.map Joint.state → freeMax js gs = freeMax ks gs
  | [], [], _, _ => rfl
  | [], _ :: _, _, h => by simp at h
  | _ :: _, [], _, h => by simp at h
  | j :: js, k :: ks, [], _ => rfl
  | j :: js, k :: ks, g :: gs, h => by
    simp only [List.map_cons, List.cons.injEq] at h
    simp only [freeMax, Joint.isLocked_congr h.1, freeMax_congr gs h.2]

theorem chainClosed_congr {js ks : List Joint} (h : js.map Joint.state = ks.map Joint.state) :
    chainClosed js = chainClosed ks := by
  have all : ∀ {js ks : List Joint}, js.map Joint.state = ks.map Joint.state →
      js.all Joint.isLocked = ks.all Joint.isLocked := by
    intro js
    induction js with
    | nil => intro ks h; cases ks <;> simp_all
    | cons j js ih =>
      intro ks h
      cases ks with
      | nil => simp at h
      | cons k ks =>
        simp only [List.map_cons, List.cons.injEq] at h
        simp only [List.all_cons, Joint.isLocked_congr h.1, ih h.2]
  have empty : js.isEmpty = ks.isEmpty := by
    have := congrArg List.length h
    cases js <;> cases ks <;> simp_all
  simp only [chainClosed, all h, empty]

/-! The fill. -/

theorem freeMax_nonneg {gs : List JointGeometry} (h : ∀ g ∈ gs, 0 ≤ g.eMax) (js : List Joint) : 0 ≤ freeMax js gs := by
  induction js generalizing gs with
  | nil => cases gs <;> simp [freeMax]
  | cons j js ih =>
    cases gs with
    | nil => simp [freeMax]
    | cons g gs =>
      have := ih fun x hx => h x (List.mem_cons_of_mem _ hx)
      have := h g (by simp)
      simp only [freeMax]
      split <;> omega

/-- What a fill leaves over: what the non-locked joints together cannot take (R13). -/
theorem fill_rest {gs : List JointGeometry} (h : ∀ g ∈ gs, 0 ≤ g.eMax) (js : List Joint) {r : Int} (hr : 0 ≤ r) :
    (fill js gs r).2 = max 0 (r - freeMax js gs) := by
  induction js generalizing gs with
  | nil => cases gs <;> simp [fill, freeMax, hr]
  | cons j js ih =>
    cases gs with
    | nil => simp [fill, freeMax, hr]
    | cons g gs =>
      have inner := ih fun x hx => h x (List.mem_cons_of_mem _ hx)
      have := h g (by simp)
      have := freeMax_nonneg (fun x hx => h x (List.mem_cons_of_mem _ hx)) js
      by_cases l : j.isLocked
      · simp [fill, freeMax, l, inner]
      · simp only [fill, freeMax, l, inner, Bool.false_eq_true, if_false]
        omega

/-- A fill keeps the locked extensions (R13). -/
theorem fill_lockedSum (js : List Joint) (gs : List JointGeometry) (r : Int) :
    lockedSum (fill js gs r).1 = lockedSum js := by
  induction js generalizing gs with
  | nil => cases gs <;> rfl
  | cons j js ih =>
    cases gs with
    | nil => rfl
    | cons g gs =>
      have inner := ih gs
      simp only [lockedSum, extSum] at inner ⊢
      by_cases l : j.isLocked
      · simp [fill, l, inner]
      · have placed : ∀ x, (j.placed g x).isLocked = false := fun x => by
          rw [show (j.placed g x).isLocked = j.isLocked from rfl]; simpa using l
        simp [fill, l, placed, inner]

/-- A fill of a table with a geometry for every joint places all it takes: the extensions are the locked ones and what was
not left over (R13). -/
theorem fill_extSum {js : List Joint} {gs : List JointGeometry} (h : js.length = gs.length) (r : Int) :
    extSum (fill js gs r).1 = lockedSum js + (r - (fill js gs r).2) := by
  induction js generalizing gs with
  | nil => cases gs <;> simp_all [fill, extSum, lockedSum]
  | cons j js ih =>
    cases gs with
    | nil => simp at h
    | cons g gs =>
      have inner := ih (gs := gs) (by simpa using h)
      simp only [lockedSum, extSum] at inner ⊢
      by_cases l : j.isLocked
      · simp only [fill, l, if_true, List.map_cons, List.sum_cons, List.filter_cons, inner]
        omega
      · simp only [fill, l, Bool.false_eq_true, if_false, List.map_cons, List.sum_cons, List.filter_cons, inner,
          Joint.placed]
        omega

/-- Each non-locked joint takes what those inside it leave, up to its maximum (R13, step 4). -/
theorem fill_ext {gs : List JointGeometry} (h : ∀ g ∈ gs, 0 ≤ g.eMax) {js : List Joint} {r : Int} (hr : 0 ≤ r) {j : Nat}
    {x : Joint} {y : JointGeometry} (hx : (fill js gs r).1[j]? = some x) (hy : gs[j]? = some y)
    (l : x.isLocked = false) : x.ext = max 0 (min y.eMax (r - freeMax (js.drop (j + 1)) (gs.drop (j + 1)))) := by
  induction js generalizing gs j with
  | nil => cases gs <;> simp [fill] at hx
  | cons z js ih =>
    cases gs with
    | nil => simp at hy
    | cons g gs =>
      have tail : ∀ g ∈ gs, 0 ≤ g.eMax := fun x hx => h x (List.mem_cons_of_mem _ hx)
      cases j with
      | zero =>
        obtain rfl : g = y := by simpa using hy
        by_cases lz : z.isLocked
        · obtain rfl : z = x := by simpa [fill, lz] using hx
          simp [lz] at l
        · obtain rfl : z.placed g (min g.eMax (fill js gs r).2) = x := by simpa [fill, lz] using hx
          have := h g (by simp)
          simp only [Joint.placed, fill_rest tail js hr, List.drop_succ_cons, List.drop_zero]
          omega
      | succ j =>
        refine ih tail (j := j) ?_ (by simpa using hy)
        by_cases lz : z.isLocked <;> simpa [fill, lz] using hx

/-- Joints before the place from which on a table is looked at are of no account to a fill beyond it. -/
theorem fill_drop_states (js : List Joint) (gs : List JointGeometry) (r : Int) (n : Nat) :
    ((fill js gs r).1.drop n).map Joint.state = (js.drop n).map Joint.state := by
  rw [List.map_drop, List.map_drop, fill_state]

/-- A fill of a clamped residual is the fill of R13, for the states as they stand. -/
theorem fill_filled {gs : List JointGeometry} (h : ∀ g ∈ gs, 0 ≤ g.eMax) (js : List Joint) (r : Int) :
    Filled (fill js gs (fillTaken js gs r)).1 gs r := by
  intro j x y hx hy l
  have same : fillTaken (fill js gs (fillTaken js gs r)).1 gs r = fillTaken js gs r := by
    unfold fillTaken
    rw [freeMax_congr gs (fill_state _ _ _)]
  rw [same, freeMax_congr _ (fill_drop_states _ _ _ _)]
  exact fill_ext h (by unfold fillTaken; omega) hx hy l

/-! A table that agrees with its geometry. -/

/-- A fill of nothing below 0 keeps a table in agreement (R5, R13). -/
theorem fill_agrees {js : List Joint} {gs : List JointGeometry} (h : List.Forall₂ Joint.AgreesIfSound js gs)
    (range : ∀ g ∈ gs, 0 ≤ g.eMax) {r : Int} (hr : 0 ≤ r) :
    List.Forall₂ Joint.AgreesIfSound (fill js gs r).1 gs := by
  induction h with
  | nil => exact .nil
  | @cons j g js gs hj _ ih =>
    have tail : ∀ g ∈ gs, 0 ≤ g.eMax := fun x hx => range x (List.mem_cons_of_mem _ hx)
    have inner := ih tail
    by_cases l : j.isLocked
    · simpa [fill, l] using ⟨hj, inner⟩
    · have here := range g (by simp)
      have placed : Joint.AgreesIfSound (j.placed g (min g.eMax (fill js gs r).2)) g := by
        refine fun _ => ⟨?_, rfl, fun p hp => absurd (show j.isLocked = true by simp_all [Joint.placed, Joint.isLocked]) l⟩
        simp only [Joint.placed, fill_rest tail js hr]
        omega
      simpa [fill, l] using ⟨placed, inner⟩

/-- What the constraints of R2 say of a pocket list: each pocket within the window and the maximum, each a window and more
beyond those before it (R163). -/
theorem JointGeometry.pockets_of_sound {g : JointGeometry} (window : 0 ≤ g.window) {ps : List Int} :
    ∀ {prev : Option Int} {k : Nat}, g.brokenFrom prev k ps = none →
      (∀ p ∈ ps, g.window ≤ p ∧ p ≤ g.eMax ∧ ∀ q ∈ prev, q + 2 * g.window + 1 ≤ p) ∧
        ps.Pairwise fun q p => q + 2 * g.window + 1 ≤ p := by
  induction ps with
  | nil => exact fun _ => ⟨by simp, .nil⟩
  | cons p ps ih =>
    intro prev k h
    unfold JointGeometry.brokenFrom at h
    split at h
    · simp at h
    · next ok =>
      obtain ⟨within, apart⟩ := ih h
      simp only [not_or, not_lt, Bool.not_eq_true, Option.any_eq_false, decide_eq_false_iff_not] at ok
      obtain ⟨low, high, before⟩ := ok
      refine ⟨fun q hq => ?_, List.pairwise_cons.mpr ⟨fun q hq => (within q hq).2.2 p rfl, apart⟩⟩
      obtain rfl | hq := List.mem_cons.mp hq
      · exact ⟨low, high, before⟩
      · obtain ⟨l, u, b⟩ := within q hq
        refine ⟨l, u, fun z hz => ?_⟩
        have := b p rfl
        have := before z hz
        omega

/-- The aligned pocket is a pocket of the list, and captures the extension (R5). -/
theorem JointGeometry.aligned_spec {g : JointGeometry} {ext : Int} {k : Nat} (h : g.aligned ext = some k) :
    ∃ p, g.pockets[k]? = some p ∧ p - g.window ≤ ext ∧ ext ≤ p + g.window := by
  obtain ⟨hk, test, -⟩ := List.findIdx?_eq_some_iff_getElem.mp h
  exact ⟨_, List.getElem?_eq_getElem hk, by simpa using test⟩

/-- In a sound list a pocket captures its own position, and none before it does (R2, R5). -/
theorem JointGeometry.aligned_position {g : JointGeometry} (window : 0 ≤ g.window)
    (sound : g.brokenFrom none 0 g.pockets = none) {k : Nat} {p : Int} (h : g.pockets[k]? = some p) :
    g.aligned p = some k := by
  obtain ⟨-, apart⟩ := g.pockets_of_sound window sound
  obtain ⟨hk, rfl⟩ := List.getElem?_eq_some_iff.mp h
  refine List.findIdx?_eq_some_iff_getElem.mpr ⟨hk, by simp [window], fun j hj => ?_⟩
  have := List.pairwise_iff_getElem.mp apart j k (by omega) hk hj
  simp only [decide_eq_true_eq]
  omega

theorem JointGeometry.position_of_getElem? {g : JointGeometry} {k : Nat} {p : Int} (h : g.pockets[k]? = some p) :
    g.position k = p := by
  simp [JointGeometry.position, List.getD, h]

/-- A joint that locks agrees with its geometry as before (R5, R17). -/
theorem Joint.AgreesIfSound.lock {j : Joint} {g : JointGeometry} (h : j.AgreesIfSound g) (window : 0 ≤ g.window) :
    (j.lock g).AgreesIfSound g := by
  intro sound
  have agrees := h sound
  unfold Joint.lock
  split
  · exact agrees
  · split
    · next k hk =>
      obtain ⟨p, hp, -⟩ := JointGeometry.aligned_spec (agrees.aligned.symm.trans hk)
      obtain ⟨within, -⟩ := g.pockets_of_sound window sound
      obtain ⟨low, high, -⟩ := within p (List.mem_of_getElem? hp)
      rw [JointGeometry.position_of_getElem? hp]
      refine ⟨⟨by dsimp only; omega, high⟩, (JointGeometry.aligned_position window sound hp).symm, fun q hq => ?_⟩
      obtain rfl : k = q := by simpa using hq
      exact hp
    · exact agrees

/-- A joint that is not LOCKED afterwards, at its extension and alignment, agrees with its geometry (R18, R19, R23). -/
theorem Joint.AgreesIfSound.restate {j k : Joint} {g : JointGeometry} (h : j.AgreesIfSound g) (ext : k.ext = j.ext)
    (aligned : k.aligned = j.aligned) (state : k.isLocked = false) : k.AgreesIfSound g := fun sound => by
  obtain ⟨range, al, -⟩ := h sound
  refine ⟨by rwa [ext], by rwa [aligned, ext], fun p hp => ?_⟩
  simp [Joint.isLocked, hp] at state

theorem lockAll_of_length {js : List Joint} {gs : List JointGeometry} (h : js.length ≤ gs.length) :
    lockAll js gs = List.zipWith Joint.lock js gs := by
  simp [lockAll, List.drop_eq_nil_of_le h]

theorem lockAll_agrees {js : List Joint} {gs : List JointGeometry} (h : List.Forall₂ Joint.AgreesIfSound js gs)
    (window : ∀ g ∈ gs, 0 ≤ g.window) : List.Forall₂ Joint.AgreesIfSound (lockAll js gs) gs := by
  rw [lockAll_of_length h.length_eq.le]
  induction h with
  | nil => exact .nil
  | cons hj _ ih =>
    exact .cons (hj.lock (window _ (by simp))) (ih fun x hx => window x (List.mem_cons_of_mem _ hx))

/-- A change of each joint that keeps agreement keeps the table's. -/
theorem agrees_map {js : List Joint} {gs : List JointGeometry} (h : List.Forall₂ Joint.AgreesIfSound js gs)
    {f : Joint → Joint} (hf : ∀ (j : Joint) (g : JointGeometry), j.AgreesIfSound g → (f j).AgreesIfSound g) :
    List.Forall₂ Joint.AgreesIfSound (js.map f) gs :=
  List.forall₂_map_left_iff.mpr (h.imp fun j g => hf j g)

theorem freed_agrees {j : Joint} {g : JointGeometry} (h : j.AgreesIfSound g) : j.freed.AgreesIfSound g :=
  h.restate rfl rfl rfl

theorem doubted_agrees {j : Joint} {g : JointGeometry} (h : j.AgreesIfSound g) : j.doubted.AgreesIfSound g := by
  unfold Joint.doubted
  split
  · exact h.restate rfl rfl rfl
  · exact h

theorem confirmNamed_agrees {js : List Joint} {gs : List JointGeometry} (h : List.Forall₂ Joint.AgreesIfSound js gs)
    (a : Word) (n : Nat) : List.Forall₂ Joint.AgreesIfSound (confirmNamed a n js) gs := by
  induction h generalizing n with
  | nil => exact .nil
  | cons hj _ ih =>
    refine .cons ?_ (ih (n + 1))
    split
    · exact hj.restate rfl rfl rfl
    · exact hj

/-- A table with every joint UNCERTAIN at extension 0 agrees with its geometry (R25, R27). -/
theorem fresh_agrees (gs : List JointGeometry) (range : ∀ g ∈ gs, 0 ≤ g.eMax) :
    List.Forall₂ Joint.AgreesIfSound (gs.map fun g => ⟨.uncertain, 0, g.aligned 0⟩) gs := by
  refine List.forall₂_map_left_iff.mpr (List.forall₂_same.mpr fun g hg _ => ⟨⟨le_refl 0, range g hg⟩, rfl, ?_⟩)
  intro p hp
  cases hp

end Sys2Proof.Machine
end

