-- ==== Sys2Proof/Proofs/Steps.lean ====
section
/-! What one command can do, said once (`exec_moved`): to the string model (`ModelStep`), to the PHC (`PhaseStep`), to the
store, the session and the zone table (`StoreStep`). The invariants of the string model and the phases, and the rules that
hold of every command, are read off it. -/

namespace Sys2Proof.Machine

/-- The rows with what they make of the state, before its outputs and levels settle: one case for each effect a row can
have. -/
inductive Acted : Instr → State → State → Prop where
  | nothing (i : Instr) (s : State) : Acted i s s
  | started (l : LineLevels) (s : State) : Acted (.por l) s (decideEstop (started l s))
  | xrstAsserted (s : State) : Acted .xrstAssert s (xrstAsserted s)
  | xrstEnded (s : State) : Acted .xrstEnd s (xrstEnded s)
  | estopSeen (s : State) : Acted .estopAssert s (s.withLines { s.lines with estop := true })
  | estopRaised (s : State) : Acted .estopAssert s (estopRaised (s.withLines { s.lines with estop := true }))
  | estopReleased (s : State) :
    Acted .estopRelease s (decideCondition .estop false (s.withLines { s.lines with estop := false }))
  | positionChanged (e : PositionEncoder) (pair : Pair) (s : State) :
    Acted (.positionCountChange e pair) s (s.withMsu (s.msu.withReference e pair))
  | positionCounted (e : PositionEncoder) (pair : Pair) (up : Bool) (s : State) :
    Acted (.positionCountChange e pair) s (positionCounted e up (s.withMsu (s.msu.withReference e pair)))
  | angleChanged (pair : Pair) (s : State) :
    Acted (.angleCountChange pair) s (s.withMsu { s.msu with angleRef := pair })
  | angleCounted (pair : Pair) (forward : Bool) (s : State) :
    Acted (.angleCountChange pair) s (angleCounted forward (s.withMsu { s.msu with angleRef := pair }))
  | scanTaken (r : Readings) (s : State) : Acted (.scanCompletion r) s (scanTaken r s)
  | windowExpired (cs : List (Source × Bool)) (s : State) :
    Acted .windowExpiry s (decideConditions cs (s.withMsu (s.msu.formSpeed s.gst.active)))
  | rested (s : State) : Acted .restTimerExpiry s (s.withMsu { s.msu with rest := true, restTimer := none })
  | stallExpired (b : Bool) (s : State) :
    Acted .stallWindowExpiry s (startStallWindow (decideCondition .stall b s))
  | operationTimedOut (o : Operation) (s : State) (h : s.phc.op = some o) :
    Acted .opTimerExpiry s (changePhase s.returnPhase (raise .opTimeout s))
  | grantExpired (d : Drive) (s : State) : Acted (.grantExpired d) s (withdraw d .grantExpired s)
  | commitCompleted (s : State) (h : s.committing = true) : Acted .commitCompletion s (commitCompleted s)
  | portWritten (i : Instr) (p : Port) (x : PortState) (s : State) (h : ∀ l, i ≠ .por l) : Acted i s (s.withPort p x)
  | requestTaken (i : Instr) (p : Port) (q : Request) (s : State) (h : ∀ l, i ≠ .por l) : Acted i s (takeRequest p q s)

/-- The rise of select releases the port, rejects its frame or takes its request (R170). -/
theorem selectRises_acted {i : Instr} (h : ∀ l, i ≠ .por l) {p : Port} {whole : State → State} {s : State}
    (w : Acted i s (whole s)) : Acted i s (selectRises p whole s) := by
  unfold selectRises
  split
  · exact .portWritten i p _ s h
  · split
    · exact .portWritten i p _ s h
    · exact w
    · split
      · exact w
      · unfold endShift
        split
        · exact .portWritten i p _ s h
        · exact .requestTaken i p _ s h

/-- What a command leaves is one of these effects, settled. -/
theorem exec_acted {i : Instr} {s t : State} (h : exec i s = .next t) : ∃ u, t = settle u ∧ Acted i s u := by
  have settled : ∀ {u : State}, done u = .next t → t = settle u := fun e => by injection e with e; exact e.symm
  have row : ∀ (c : Cmd) (p : Port) (a b : Word) (e : BitVec 160), done (requestEnds p c a b e s) = .next t →
      (∀ l, i ≠ .por l) → ∃ u, t = settle u ∧ Acted i s u := fun c p a b e h hi =>
    ⟨_, settled h, selectRises_acted hi (.requestTaken i p _ s hi)⟩
  cases i
  case por l => exact ⟨_, settled h, .started l s⟩
  case xrstAssert =>
    simp only [exec, execXrstAssert] at h
    split at h
    · exact ⟨_, settled h, .nothing _ s⟩
    · exact ⟨_, settled h, .xrstAsserted s⟩
  case xrstEnd =>
    simp only [exec, execXrstEnd] at h
    split at h
    · exact ⟨_, settled h, .xrstEnded s⟩
    · exact ⟨_, settled h, .nothing _ s⟩
  case estopAssert =>
    simp only [exec, execEstopAssert] at h
    split at h
    · exact ⟨_, settled h, .estopSeen s⟩
    · exact ⟨_, settled h, .estopRaised s⟩
  case estopRelease => exact ⟨_, settled h, .estopReleased s⟩
  case positionCountChange e pair =>
    simp only [exec, execPositionCountChange] at h
    split at h
    · exact ⟨_, settled h, .positionCounted e pair _ s⟩
    · exact ⟨_, settled h, .positionChanged e pair s⟩
  case angleCountChange pair =>
    simp only [exec, execAngleCountChange] at h
    split at h
    · exact ⟨_, settled h, .angleCounted pair _ s⟩
    · exact ⟨_, settled h, .angleChanged pair s⟩
  case scanCompletion r =>
    simp only [exec, execScanCompletion] at h
    split at h
    · exact ⟨_, settled h, .nothing _ s⟩
    · exact ⟨_, settled h, .scanTaken r s⟩
  case windowExpiry =>
    simp only [exec, execWindowExpiry] at h
    split at h
    · exact ⟨_, settled h, .nothing _ s⟩
    · exact ⟨_, settled h, .windowExpired _ s⟩
  case restTimerExpiry =>
    simp only [exec, execRestTimerExpiry] at h
    split at h
    · exact ⟨_, settled h, .nothing _ s⟩
    · exact ⟨_, settled h, .rested s⟩
  case stallWindowExpiry =>
    simp only [exec, execStallWindowExpiry] at h
    split at h
    · exact ⟨_, settled h, .nothing _ s⟩
    · exact ⟨_, settled h, .stallExpired _ s⟩
  case opTimerExpiry =>
    simp only [exec, execOpTimerExpiry] at h
    split at h
    · exact ⟨_, settled h, .nothing _ s⟩
    · next o ho => exact ⟨_, settled h, .operationTimedOut o s ho⟩
  case grantExpired d =>
    simp only [exec, execGrantExpired] at h
    split at h
    · split at h
      · exact ⟨_, settled h, .grantExpired d s⟩
      · exact ⟨_, settled h, .nothing _ s⟩
    all_goals exact ⟨_, settled h, .nothing _ s⟩
  case commitCompletion =>
    simp only [exec, execCommitCompletion] at h
    split at h
    · next hc => exact ⟨_, settled h, .commitCompleted s hc⟩
    · exact ⟨_, settled h, .nothing _ s⟩
  case selectFall p =>
    have fall : Acted (.selectFall p) s (selectFalls p s) := by
      simp only [selectFalls]
      split
      · exact .portWritten _ p _ s (by simp)
      · split
        · exact .nothing _ s
        all_goals exact .portWritten _ p _ s (by simp)
    exact ⟨_, settled h, fall⟩
  case selectTimeout p =>
    have timeout : Acted (.selectTimeout p) s (selectTimesOut p s) := by
      unfold selectTimesOut
      split
      · exact .nothing _ s
      · exact .nothing _ s
      · exact .portWritten _ p _ s (by simp)
    exact ⟨_, settled h, timeout⟩
  case shiftClock p bit =>
    have clock : Acted (.shiftClock p bit) s (clockTaken p bit s) := by
      unfold clockTaken
      split
      · exact .nothing _ s
      · exact .nothing _ s
      · exact .portWritten _ p _ s (by simp)
    exact ⟨_, settled h, clock⟩
  case linkReject p n bits =>
    have judgement : Acted (.linkReject p n bits) s (judged p n bits s) := by
      unfold judged
      split
      · exact .portWritten _ p _ s (by simp)
      · exact .requestTaken _ p _ s (by simp)
    exact ⟨_, settled h, selectRises_acted (by simp) judgement⟩
  case badCmd p cmd a b => exact ⟨_, settled h, selectRises_acted (by simp) (.requestTaken _ p _ s (by simp))⟩
  all_goals exact row _ _ _ _ _ h (by simp)

/-! What a command can do to the string model. -/

/-- The joints with which an evaluation may meet a string model of `s`: as they stand, or as one of the rules has made
them (R17 to R19, R23, R26). -/
inductive JointsMet (s : State) : List Joint → Prop where
  | stand : JointsMet s s.stk.joints
  | locked : JointsMet s (lockAll s.stk.joints s.jointGeometry)
  | doubted : JointsMet s (s.stk.joints.map Joint.doubted)
  | freed (phase : s.phc.phase = .releasing) (load : s.keyLoad ≤ s.gst.settings.fRelease) :
    JointsMet s (s.stk.joints.map Joint.freed)
  | confirmed (a : Word) : JointsMet s (confirmNamed a 0 s.stk.joints)

/-- Two string models that differ in the accumulators and bottom-hole depth at most. -/
def SameString (k l : Stk) : Prop :=
  l = { k with aF := l.aF, aR := l.aR, reverseRun := l.reverseRun, bottomHole := l.bottomHole }

/-- The two states have the same active geometry and the same millimetres, which the string model is formed from. -/
structure SameScale (s t : State) : Prop where
  active : t.gst.active = s.gst.active
  rope : t.msu.ropeMm = s.msu.ropeMm
  stroke : t.msu.strokeMm = s.msu.strokeMm

/-- What a command other than POR can do to the string model: leave it but for the accumulators and, outside a session,
bottom-hole depth; evaluate it from `u`, whose joints the rules have made; rebuild it for the geometry of a commit. -/
inductive ModelStep (s t : State) : Prop where
  | stands (stk : SameString s.stk t.stk) (scale : SameScale s t)
    (bottomHole : t.stk.bottomHole = s.stk.bottomHole ∨ s.znt.sessionOpen = false)
  | evaluated (u : State) (joints : JointsMet s u.stk.joints) (bottomHole : u.stk.bottomHole = s.stk.bottomHole)
    (session : u.znt.sessionOpen = s.znt.sessionOpen) (active : u.gst.active = s.gst.active)
    (stk : SameString (evaluate u).stk t.stk) (reached : t.stk.bottomHole = (evaluate u).stk.bottomHole)
    (scale : SameScale u t)
  | committed (u : State) (inFlight : s.committing = true) (active : u.gst.active = some s.gst.staging)
    (rebuilt : u.stk = s.stk.rebuild s.gst.active s.gst.staging (u.msu.ropeMm + s.stk.ropeOffset)
      (u.msu.strokeMm + s.stk.strokeOffset))
    (stk : t.stk = (evaluate u).stk) (scale : SameScale u t)

/-! What a command can do to the PHC. -/

/-- The moves of the phase the rules allow from a state (R46, R49, R53, R55, R57 to R61, R65). -/
structure PhaseMove (s : State) (to_ : Phase) : Prop where
  leaves : to_ ≠ .parked → s.phc.phase ≠ .parked ∨ (s.gst.active ≠ none ∧ s.gst.commit = none)
  releasing : to_ = .releasing → s.phc.phase = .drill ∧ s.phc.releaseLatch = true
  drill : to_ = .drill → s.phc.phase = .engaging ∨ s.phc.phase = .releasing
  engaging : to_ = .engaging → s.phc.phase = .free

/-- The operation, the target and the arm a PHC holds are those its phase has (R46, R65). -/
structure Phc.Sound (p : Phc) : Prop where
  operation : p.op.isSome ↔ p.phase = .engaging ∨ p.phase = .releasing
  target : p.target.isSome ↔ p.phase = .releasing
  arm : p.advanceArm = true → p.phase = .hoist

/-- What a command can do to the PHC: leave its phase, or move it by the rules with the release latch clear (R48). -/
inductive PhaseStep (s t : State) : Prop where
  | stands (phase : t.phc.phase = s.phc.phase) (sound : t.phc.Sound)
  | moved (to_ : Phase) (may : PhaseMove s to_) (phase : t.phc.phase = to_) (latch : t.phc.releaseLatch = false)
    (sound : t.phc.Sound)

/-! What a command can do to the store, the session and the zone table. -/

/-- The zone table and the session as they were. -/
structure SameZones (s t : State) : Prop where
  zones : t.znt.zones = s.znt.zones
  session : t.znt.sessionOpen = s.znt.sessionOpen
  pile : t.znt.pile = s.znt.pile

/-- The active geometry, the staging record, STORE_CORRUPT and whether a commit is in flight as they were. -/
structure SameStore (s t : State) : Prop where
  active : t.gst.active = s.gst.active
  staging : t.gst.staging = s.gst.staging
  corrupt : t.gst.storeCorrupt = s.gst.storeCorrupt
  commit : t.gst.commit.isSome = s.gst.commit.isSome

/-- What a command other than POR can do to the GST's records, the session and the zone table. -/
inductive StoreStep (s t : State) : Prop where
  | stands (store : SameStore s t) (zones : SameZones s t)
  | opened (geometry : s.gst.active ≠ none) (noCommit : s.gst.commit = none) (closed : s.znt.sessionOpen = false)
    (store : SameStore s t)
  | closed (store : SameStore s t) (zones : t.znt.zones = s.znt.zones)
    (after : t.znt.sessionOpen = false)
  | zoned (before : s.znt.sessionOpen = false) (store : SameStore s t)
    (after : t.znt.sessionOpen = false)
  | staged (i : GeomItem) (x : Int) (before : s.znt.sessionOpen = false) (active : t.gst.active = s.gst.active)
    (staging : t.gst.staging = s.gst.staging.put i (i.bring x)) (corrupt : t.gst.storeCorrupt = s.gst.storeCorrupt)
    (commit : t.gst.commit.isSome = s.gst.commit.isSome) (zones : SameZones s t)
  | requested (parked : s.phc.phase = .parked) (before : s.znt.sessionOpen = false) (phase : t.phc.phase = s.phc.phase)
    (active : t.gst.active = s.gst.active) (staging : t.gst.staging = s.gst.staging)
    (corrupt : t.gst.storeCorrupt = s.gst.storeCorrupt) (zones : SameZones s t)
  | committed (inFlight : s.committing = true) (active : t.gst.active = some s.gst.staging)
    (staging : t.gst.staging = s.gst.staging) (corrupt : t.gst.storeCorrupt = false) (commit : t.gst.commit = none)
    (zones : SameZones s t)

/-- What a command other than POR can do, whole. -/
structure Moved (s t : State) : Prop where
  model : ModelStep s t
  phases : PhaseInv s → PhaseStep s t
  store : StoreStep s t

/-- The string model with what the release rule reads, the PHC, the store, the session and the zone table are as they
were. -/
structure Aside (s t : State) : Prop where
  stk : t.stk = s.stk
  phc : t.phc = s.phc
  store : SameStore s t
  fRelease : t.gst.settings.fRelease = s.gst.settings.fRelease
  measured : t.env.measured = s.env.measured
  rope : t.msu.ropeMm = s.msu.ropeMm
  stroke : t.msu.strokeMm = s.msu.strokeMm
  zones : SameZones s t

theorem SameZones.refl (s : State) : SameZones s s := ⟨rfl, rfl, rfl⟩

theorem SameZones.trans {s t u : State} (h : SameZones s t) (k : SameZones t u) : SameZones s u :=
  ⟨k.zones.trans h.zones, k.session.trans h.session, k.pile.trans h.pile⟩

theorem SameScale.trans {s t u : State} (h : SameScale s t) (k : SameScale t u) : SameScale s u :=
  ⟨k.active.trans h.active, k.rope.trans h.rope, k.stroke.trans h.stroke⟩

theorem SameString.refl (k : Stk) : SameString k k := rfl

theorem Effect.sameZones {c : List Part} {s t : State} (e : Effect c s t) (hc : Part.zones ∉ c := by simp) :
    SameZones s t := ⟨e.zones_eq hc, e.sessionOpen_eq hc, e.pile_eq hc⟩

theorem Effect.sameScale {c : List Part} {s t : State} (e : Effect c s t)
    (hc : Part.gst ∉ c ∧ Part.msu ∉ c := by simp) : SameScale s t := by
  constructor
  · rw [e.gst_eq hc.1]
  all_goals rw [e.msu_eq hc.2]

theorem Effect.sameStore {c : List Part} {s t : State} (e : Effect c s t) (hc : Part.gst ∉ c := by simp) :
    SameStore s t := by constructor <;> rw [e.gst_eq hc]

theorem SameStore.refl (s : State) : SameStore s s := ⟨rfl, rfl, rfl, rfl⟩

theorem SameStore.trans {s t u : State} (h : SameStore s t) (k : SameStore t u) : SameStore s u :=
  ⟨k.active.trans h.active, k.staging.trans h.staging, k.corrupt.trans h.corrupt, k.commit.trans h.commit⟩

theorem Effect.aside {c : List Part} {s t : State} (e : Effect c s t)
    (hc : ∀ x ∈ [Part.stk, .phc, .gst, .msu, .zones, .measured], x ∉ c := by simp) : Aside s t where
  stk := e.stk_eq (hc _ (by simp))
  phc := e.phc_eq (hc _ (by simp))
  store := e.sameStore (hc _ (by simp))
  fRelease := by rw [e.gst_eq (hc _ (by simp))]
  measured := e.measured_eq (hc _ (by simp))
  rope := by rw [e.msu_eq (hc _ (by simp))]
  stroke := by rw [e.msu_eq (hc _ (by simp))]
  zones := e.sameZones (hc _ (by simp))

section
variable {s t u : State}

theorem Aside.refl (s : State) : Aside s s := ⟨rfl, rfl, .refl s, rfl, rfl, rfl, rfl, .refl s⟩

theorem Aside.scale (h : Aside s t) : SameScale s t := ⟨h.store.active, h.rope, h.stroke⟩

theorem Aside.trans (h : Aside s t) (k : Aside t u) : Aside s u where
  stk := k.stk.trans h.stk
  phc := k.phc.trans h.phc
  store := h.store.trans k.store
  fRelease := k.fRelease.trans h.fRelease
  measured := k.measured.trans h.measured
  rope := k.rope.trans h.rope
  stroke := k.stroke.trans h.stroke
  zones := h.zones.trans k.zones

theorem phaseInv_iff (s : State) : PhaseInv s ↔ s.phc.Sound :=
  ⟨fun ⟨a, b, c⟩ => ⟨a, b, c⟩, fun ⟨a, b, c⟩ => ⟨a, b, c⟩⟩

/-- A command that leaves the string model, the store and the zones, and moves the phase by the rules. -/
theorem Moved.of_phase (stk : t.stk = s.stk) (scale : SameScale s t) (store : SameStore s t) (zones : SameZones s t)
    (phases : PhaseInv s → PhaseStep s t) : Moved s t where
  model := .stands (by rw [stk]; exact SameString.refl _) scale (.inl (by rw [stk]))
  phases := phases
  store := .stands store zones

theorem PhaseStep.of_same (phc : t.phc = s.phc) (h : PhaseInv s) : PhaseStep s t :=
  .stands (by rw [phc]) (by rw [phc]; exact (phaseInv_iff s).mp h)

/-- What moves nothing of the string model, the phases, the store and the zones is one of the steps. -/
theorem Aside.moved (h : Aside s t) : Moved s t := .of_phase h.stk h.scale h.store h.zones (.of_same h.phc)

/-- The rest of an event that moves nothing of these leaves the step what it was. -/
theorem Moved.aside (m : Moved s t) (h : Aside t u) : Moved s u where
  model := by
    cases m.model with
    | stands stk scale bottomHole => exact .stands (by rwa [h.stk]) (scale.trans h.scale) (by rwa [h.stk])
    | evaluated v joints bottomHole session active stk reached scale =>
      exact .evaluated v joints bottomHole session active (by rwa [h.stk]) (by rwa [h.stk]) (scale.trans h.scale)
    | committed v inFlight active rebuilt stk scale =>
      exact .committed v inFlight active rebuilt (h.stk.trans stk) (scale.trans h.scale)
  phases k := by
    cases m.phases k with
    | stands phase sound => exact .stands (by rwa [h.phc]) (by rwa [h.phc])
    | moved to_ may phase latch sound => exact .moved to_ may (by rwa [h.phc]) (by rwa [h.phc]) (by rwa [h.phc])
  store := by
    cases m.store with
    | stands store zones => exact .stands (store.trans h.store) (zones.trans h.zones)
    | opened geometry noCommit closed store => exact .opened geometry noCommit closed (store.trans h.store)
    | closed store zones after =>
      exact .closed (store.trans h.store) (h.zones.zones.trans zones) (h.zones.session.trans after)
    | zoned before store after => exact .zoned before (store.trans h.store) (h.zones.session.trans after)
    | staged i x before active staging corrupt commit zones =>
      exact .staged i x before (h.store.active.trans active) (h.store.staging.trans staging)
        (h.store.corrupt.trans corrupt) (h.store.commit.trans commit) (zones.trans h.zones)
    | requested parked before phase active staging corrupt zones =>
      exact .requested parked before (by rw [h.phc, phase]) (h.store.active.trans active)
        (h.store.staging.trans staging) (h.store.corrupt.trans corrupt) (zones.trans h.zones)
    | committed inFlight active staging corrupt commit zones =>
      have none : u.gst.commit = Option.none := by simpa [commit] using h.store.commit
      exact .committed inFlight (h.store.active.trans active) (h.store.staging.trans staging)
        (h.store.corrupt.trans corrupt) none (zones.trans h.zones)

/-- What moved nothing of these before it leaves a step a step from the state before. -/
theorem JointsMet.of_aside (h : Aside s t) {js : List Joint} (m : JointsMet t js) : JointsMet s js := by
  have geometry : t.jointGeometry = s.jointGeometry := by simp only [State.jointGeometry, h.store.active]
  cases m with
  | stand => rw [h.stk]; exact .stand
  | locked => rw [h.stk, geometry]; exact .locked
  | doubted => rw [h.stk]; exact .doubted
  | freed phase load =>
    rw [h.stk]
    refine .freed (by rwa [← h.phc]) ?_
    rwa [State.keyLoad, h.measured, h.store.active, h.fRelease] at load
  | confirmed a => rw [h.stk]; exact .confirmed a

theorem PhaseMove.of_aside (h : Aside s t) {p : Phase} (m : PhaseMove t p) : PhaseMove s p where
  leaves hp := by
    rw [← h.phc, ← h.store.active]
    refine (m.leaves hp).imp id fun ⟨a, c⟩ => ⟨a, ?_⟩
    simpa [c] using h.store.commit
  releasing := by rw [← h.phc]; exact m.releasing
  drill := by rw [← h.phc]; exact m.drill
  engaging := by rw [← h.phc]; exact m.engaging

theorem Aside.andMoved (h : Aside s t) (m : Moved t u) : Moved s u where
  model := by
    cases m.model with
    | stands stk scale bottomHole =>
      exact .stands (by rwa [← h.stk]) (h.scale.trans scale) (by rwa [← h.stk, ← h.zones.session])
    | evaluated v joints bottomHole session active stk reached scale =>
      exact .evaluated v (joints.of_aside h) (by rwa [← h.stk]) (session.trans h.zones.session)
        (active.trans h.store.active) stk reached scale
    | committed v inFlight active rebuilt stk scale =>
      exact .committed v (by rw [State.committing, ← h.store.commit]; exact inFlight) (by rwa [← h.store.staging])
        (by rwa [← h.stk, ← h.store.active, ← h.store.staging]) stk scale
  phases k := by
    have k' : PhaseInv t := (phaseInv_iff t).mpr (by rw [h.phc]; exact (phaseInv_iff s).mp k)
    cases m.phases k' with
    | stands phase sound => exact .stands (by rw [phase, h.phc]) sound
    | moved to_ may phase latch sound => exact .moved to_ (may.of_aside h) phase latch sound
  store := by
    have session := h.zones.session
    cases m.store with
    | stands store zones => exact .stands (h.store.trans store) (h.zones.trans zones)
    | opened geometry noCommit closed store =>
      have none : s.gst.commit = Option.none := by simpa [noCommit] using h.store.commit.symm
      exact .opened (by rwa [← h.store.active]) none (by rwa [← session]) (h.store.trans store)
    | closed store zones after => exact .closed (h.store.trans store) (zones.trans h.zones.zones) after
    | zoned before store after => exact .zoned (by rwa [← session]) (h.store.trans store) after
    | staged i x before active staging corrupt commit zones =>
      exact .staged i x (by rwa [← session]) (active.trans h.store.active) (by rwa [← h.store.staging])
        (corrupt.trans h.store.corrupt) (commit.trans h.store.commit) (h.zones.trans zones)
    | requested parked before phase active staging corrupt zones =>
      exact .requested (by rwa [← h.phc]) (by rwa [← session]) (by rw [phase, h.phc])
        (active.trans h.store.active) (staging.trans h.store.staging) (corrupt.trans h.store.corrupt)
        (h.zones.trans zones)
    | committed inFlight active staging corrupt commit zones =>
      exact .committed (by rw [State.committing, ← h.store.commit]; exact inFlight) (by rwa [← h.store.staging])
        (staging.trans h.store.staging) corrupt commit (h.zones.trans zones)

end

end Sys2Proof.Machine
end

