-- ==== Sys2Proof/Proofs/Moves.lean ====
section
/-! Every command but POR takes one of the steps of `Moved`: each operation in turn, then the requests, then all rows. -/

namespace Sys2Proof.Machine

section
variable {s t u : State}

theorem withMsu_aside (x : Msu) (rope : x.ropeMm = s.msu.ropeMm) (stroke : x.strokeMm = s.msu.strokeMm) :
    Aside s (s.withMsu x) := ⟨rfl, rfl, ⟨rfl, rfl, rfl, rfl⟩, rfl, rfl, rope, stroke, ⟨rfl, rfl, rfl⟩⟩

theorem withPort_aside (s : State) (p : Port) (x : PortState) : Aside s (s.withPort p x) :=
  ⟨rfl, rfl, ⟨rfl, rfl, rfl, rfl⟩, rfl, rfl, rfl, rfl, ⟨rfl, rfl, rfl⟩⟩

theorem withReference_mm (m : Msu) (e : PositionEncoder) (p : Pair) :
    (m.withReference e p).ropeMm = m.ropeMm ∧ (m.withReference e p).strokeMm = m.strokeMm := by
  cases e <;> exact ⟨rfl, rfl⟩

/-! The phase. -/

theorem Phc.Sound.still {p : Phc} (h : p.Sound) (arm : Bool) (ha : arm = true → p.phase = .hoist) :
    Phc.Sound { p with advanceArm := arm } := ⟨h.operation, h.target, ha⟩

/-- The automatic advance leaves the phase or moves it from HOIST to SPIN_OFF (R65). -/
theorem advancedPhc_step {settings : Settings} {k : Stk} {b : Bool}
    (phc : t.phc = advancedPhc settings k b s.phc) (h : PhaseInv s) : PhaseStep s t := by
  have sound := (phaseInv_iff s).mp h
  unfold advancedPhc at phc
  dsimp only at phc
  split at phc
  · next hoist =>
    split at phc
    · refine .moved .spinOff ⟨fun _ => .inl (by simp [hoist.1]), by simp, by simp, by simp⟩ ?_ ?_ ?_ <;> rw [phc]
      constructor <;> simp
    · exact .stands (by rw [phc]) (by rw [phc]; exact sound.still _ fun _ => hoist.1)
  · exact .of_same phc h

/-- A phase without an operation, as a change of phase enters it (R48). -/
theorem changePhase_step {p : Phase} (may : PhaseMove s p) (hp : p ≠ .engaging ∧ p ≠ .releasing)
    (phc : t.phc = (changePhase p u).phc) : PhaseStep s t := by
  rw [changePhase_phc] at phc
  refine .moved p may ?_ ?_ ?_ <;> rw [phc]
  constructor
  · simp [hp]
  · simp [hp]
  · exact fun h => (by simpa using h : p = .hoist ∧ u.armAtEntry = true).1

theorem PhaseMove.park (s : State) : PhaseMove s .parked := by constructor <;> simp

theorem changePhase_moved {p : Phase} (may : PhaseMove s p) (hp : p ≠ .engaging ∧ p ≠ .releasing) :
    Moved s (changePhase p s) :=
  have e := changePhase_effect p s
  .of_phase e.stk_eq e.sameScale e.sameStore e.sameZones fun _ => changePhase_step may hp rfl

/-- ESTOP moves the phase to PARKED (R63). -/
theorem estopRaised_moved (s : State) : Moved s (estopRaised s) := by
  have decided : Aside s (decideCondition .estop true s) := (decideCondition_effect _ _ s).aside
  unfold estopRaised
  dsimp only
  split
  · exact decided.moved
  · exact decided.andMoved (changePhase_moved (.park _) (by simp))

theorem decideEstop_moved (s : State) : Moved s (decideEstop s) := by
  unfold decideEstop
  split
  · exact estopRaised_moved s
  · exact (Aside.refl s).moved

/-! The evaluations. -/

/-- An evaluation of the string model of `u` and what is handed on (R11). -/
theorem afterEvaluation_moved (joints : JointsMet s u.stk.joints) (bottomHole : u.stk.bottomHole = s.stk.bottomHole)
    (phc : u.phc = s.phc) (store : SameStore s u) (zones : SameZones s u) (old : Stk) (raised : List Source) :
    Moved s (afterEvaluation old raised (evaluate u)) := by
  have ev := evaluate_effect u
  have e := afterEvaluation_effect old raised (evaluate u)
  exact {
    model := .evaluated u joints bottomHole zones.session store.active (by rw [e.stk_eq]; exact SameString.refl _)
      (by rw [e.stk_eq]) (ev.sameScale.trans e.sameScale)
    phases := advancedPhc_step ((afterEvaluation_phc old raised _).trans (by rw [ev.phc_eq, phc]))
    store := .stands (store.trans (ev.sameStore.trans e.sameStore)) (zones.trans (ev.sameZones.trans e.sameZones)) }

theorem scanSupervised_effect (s : State) : Effect [.faults, .brc, .env, .grants, .pif] s (scanSupervised s) := by
  have taken : Effect [.faults, .brc, .env, .grants, .pif] s
      (takeScanWarnings (decideConditions s.scanConditions s)) :=
    (decideConditions_effect s.scanConditions s).trans ((takeScanWarnings_effect _).mono (by simp))
  exact taken.trans (.ite ((takeBoundary_effect _).mono (by simp)) (.refl _))

/-- A scan delivered (R36). -/
theorem scanTaken_moved (r : Readings) (s : State) : Moved s (scanTaken r s) := by
  let w := s.withMsu { s.msu with channels := takeReadings s.gst.active s.msu.channels r }
  let u := w.withStk { w.stk with taut := w.ropeTaut }
  have measured : Effect [.znt, .brc, .env, .measured, .grants, .pif] (evaluate u) (scanMeasured r s) :=
    ((zntReevaluate_effect _).mono (by simp)).trans
      (((withEnv_effect _ _).mono (by simp)).trans ((recompute_effect _).mono (by simp)))
  have ahead : Effect [.znt, .faults, .brc, .env, .measured, .grants, .pif] (evaluate u) (scanSupervised (scanMeasured r s)) :=
    (measured.mono (by simp)).trans ((scanSupervised_effect _).mono (by simp))
  have advanced := phcAfterEvaluation_effect s.stk (scanSupervised (scanMeasured r s))
  have behind : Effect [.brc] (phcAfterEvaluation s.stk (scanSupervised (scanMeasured r s))) (scanTaken r s) :=
    (brcScan_effect _).trans (brcDepth_effect _ _)
  have whole : Effect [.phc, .znt, .faults, .brc, .env, .measured, .grants, .pif] (evaluate u) (scanTaken r s) :=
    (ahead.mono (by simp)).trans ((advanced.mono (by simp)).trans (behind.mono (by simp)))
  have ev := evaluate_effect u
  exact {
    model := .evaluated u .stand rfl rfl rfl (by rw [whole.stk_eq]; exact SameString.refl _) (by rw [whole.stk_eq])
      (ev.sameScale.trans whole.sameScale)
    phases := advancedPhc_step ((behind.phc_eq).trans ((phcAfterEvaluation_phc _ _).trans (by rw [ahead.phc_eq]; rfl)))
    store := .stands (SameStore.trans (t := evaluate u) ⟨rfl, rfl, rfl, rfl⟩ whole.sameStore)
      (SameZones.trans (t := evaluate u) ⟨rfl, rfl, rfl⟩ whole.sameZones) }

/-- What an evaluation leaves of the string model is told by the model it meets, the active geometry, the millimetres and
the session. -/
theorem evaluate_stk_congr (stk : u.stk = t.stk) (scale : SameScale t u) (session : u.znt.sessionOpen = t.znt.sessionOpen) :
    (evaluate u).stk = (evaluate t).stk := by
  simp only [evaluate, State.withStk_stk, State.pRope, State.headPos, stk, scale.active, scale.rope, scale.stroke, session]

/-- The STK's cases at an angle count: the state it leaves, and the sources it raises where it evaluates (R15 to R19). -/
theorem stkCount_cases (forward : Bool) (s : State) :
    let s1 := s.withStk (s.stk.counted forward)
    let s2 := s1.withStk { s1.stk with reverseRun := true }
    (forward = true ∧ s1.locks = true ∧ stkCount forward s = (lockRule s1, some [])) ∨
    (forward = true ∧ s1.locks = false ∧ stkCount forward s = (s1, none)) ∨
    (forward = false ∧ s1.releaseFires = false ∧ stkCount forward s = (s1, none)) ∨
    (forward = false ∧ s1.releaseFires = true ∧ s.phc.phase = .releasing ∧ s.keyLoad ≤ s.gst.settings.fRelease ∧
      stkCount forward s = (freeAll s2, some [])) ∨
    (forward = false ∧ s1.releaseFires = true ∧
      ¬(s.phc.phase = .releasing ∧ s.keyLoad ≤ s.gst.settings.fRelease) ∧
      (s.phc.phase = .releasing ∨ s.stk.joints.any Joint.isLocked = true) ∧
      stkCount forward s = (evaluate (doubtLocked s2), some s2.firingRaises)) ∨
    (forward = false ∧ s1.releaseFires = true ∧ s.phc.phase ≠ .releasing ∧ s.stk.joints.any Joint.isLocked = false ∧
      stkCount forward s = (s2, none)) := by
  intro s1 s2
  have joints : s2.stk.joints = s.stk.joints := by
    show (s.stk.counted forward).joints = _
    unfold Stk.counted
    split <;> rfl
  have phc : s2.phc = s.phc := rfl
  have load : s2.keyLoad = s.keyLoad := rfl
  have gst : s2.gst = s.gst := rfl
  have count : stkCount forward s = if forward then if s1.locks then (lockRule s1, some []) else (s1, none)
      else if s1.releaseFires then releaseFiring s1 else (s1, none) := rfl
  have firing : releaseFiring s1 = if s.phc.phase = .releasing then
        if s.keyLoad ≤ s.gst.settings.fRelease then (freeAll s2, some [])
        else (evaluate (doubtLocked s2), some s2.firingRaises)
      else if s2.stk.joints.any Joint.isLocked then (evaluate (doubtLocked s2), some s2.firingRaises)
      else (s2, none) := rfl
  rw [joints] at firing
  rw [count, firing]
  cases forward
  · cases fires : s1.releaseFires
    · simp
    · by_cases phase : s.phc.phase = .releasing
      · by_cases low : s.keyLoad ≤ s.gst.settings.fRelease <;> simp [phase, low]
      · cases lost : s.stk.joints.any Joint.isLocked <;> simp [phase]
  · cases locks : s1.locks <;> simp

theorem counted_joints (k : Stk) (forward : Bool) : (k.counted forward).joints = k.joints := by
  unfold Stk.counted
  split <;> rfl

theorem counted_bottomHole (k : Stk) (forward : Bool) : (k.counted forward).bottomHole = k.bottomHole := by
  unfold Stk.counted
  split <;> rfl

theorem counted_sameString (k : Stk) (forward : Bool) : SameString k (k.counted forward) := by
  unfold Stk.counted SameString
  split <;> rfl

/-- At an angle count the STK leaves the string model but for the accumulators, or evaluates it from joints the rules have
made (R15 to R19). -/
theorem stkCount_model (forward : Bool) (s : State) :
    (SameString s.stk (stkCount forward s).1.stk ∧ (stkCount forward s).1.stk.bottomHole = s.stk.bottomHole) ∨
      ∃ u, JointsMet s u.stk.joints ∧ u.stk.bottomHole = s.stk.bottomHole ∧ Effect [.stk, .brc] s u ∧
        (stkCount forward s).1.stk = (evaluate u).stk := by
  have same : ∀ k : Stk, SameString s.stk { s.stk.counted forward with reverseRun := k.reverseRun } := fun k => by
    have := counted_sameString s.stk forward
    unfold SameString at this ⊢
    rw [this]
  have first : Effect [.stk, .brc] s (s.withStk (s.stk.counted forward)) := (withStk_effect s _).mono (by simp)
  have then_ : ∀ (k : Stk) (t : State), Effect [.stk, .brc] t (t.withStk k) := fun k t =>
    (withStk_effect t k).mono (by simp)
  have ask : ∀ (d : Nat → EventDetail) (m : Nat) (t : State), Effect [.stk, .brc] t (askJoints d m t) := fun d m t =>
    (askJoints_effect d m t).mono (by simp)
  obtain ⟨-, -, h⟩ | ⟨-, -, h⟩ | ⟨-, -, h⟩ | ⟨-, -, phase, load, h⟩ | ⟨-, -, -, -, h⟩ | ⟨-, -, -, -, h⟩ :=
    stkCount_cases forward s <;> rw [h]
  · refine .inr ⟨_, ?_, ?_, first.trans (then_ _ _), (askJoints_effect _ _ _).stk_eq⟩
    · have j := JointsMet.locked (s := s)
      rwa [← counted_joints s.stk forward] at j
    · exact counted_bottomHole _ _
  · exact .inl ⟨counted_sameString _ _, counted_bottomHole _ _⟩
  · exact .inl ⟨counted_sameString _ _, counted_bottomHole _ _⟩
  · refine .inr ⟨_, ?_, ?_, (first.trans (then_ _ _)).trans ((then_ _ _).trans (ask _ _ _)), rfl⟩
    · rw [(askJoints_effect _ _ _).stk_eq]
      have j := JointsMet.freed phase load
      rwa [← counted_joints s.stk forward] at j
    · rw [(askJoints_effect _ _ _).stk_eq]
      exact counted_bottomHole _ _
  · refine .inr ⟨_, ?_, ?_, (first.trans (then_ _ _)).trans ((then_ _ _).trans (ask _ _ _)), rfl⟩
    · rw [(askJoints_effect _ _ _).stk_eq]
      have j := JointsMet.doubted (s := s)
      rwa [← counted_joints s.stk forward] at j
    · rw [(askJoints_effect _ _ _).stk_eq]
      exact counted_bottomHole _ _
  · exact .inl ⟨same ⟨[], 0, 0, false, .none, 0, 0, false, 0, 0, 0, 0, true⟩, counted_bottomHole _ _⟩

/-! The angle count at the PHC. -/

/-- The PHC at an angle count: without an operation it stands; the operation counts, or completes (R54, R55, R58, R59). -/
theorem phcCount_phc (forward : Bool) (s : State) : (phcCount forward s).phc =
    match s.phc.op with
    | none => s.phc
    | some o =>
      if forward = decide (s.phc.phase = .engaging) then
        if (if s.phc.phase = .engaging then s.gst.settings.lockAngle else s.gst.settings.unlockAngle) ≤ o.turned.angle then
          let p := if s.phc.phase = .engaging then s.engagedPhase else s.releasedPhase
          ⟨p, none, none, false, decide (p = .hoist) && s.armAtEntry⟩
        else { s.phc with op := some o.turned }
      else { s.phc with op := some { o with angle := 0 } } := by
  unfold phcCount
  cases s.phc.op with
  | none => rfl
  | some o =>
    dsimp only
    by_cases own : forward = decide (s.phc.phase = .engaging)
    · rw [if_pos own, if_pos own]
      by_cases engaging : s.phc.phase = .engaging
      · by_cases reached : s.gst.settings.lockAngle ≤ o.turned.angle
        · simp only [engaging, reached, decide_true, if_true, State.withPhc_gst, changePhase_phc]; rfl
        · simp [engaging, reached]
      · by_cases reached : s.gst.settings.unlockAngle ≤ o.turned.angle
        · simp only [engaging, reached, decide_false, if_true, if_false, Bool.false_eq_true, State.withPhc_gst,
            changePhase_phc]; rfl
        · simp [engaging, reached]
    · rw [if_neg own, if_neg own, State.withPhc_phc]

theorem engagedPhase_cases (s : State) : s.engagedPhase = .drill ∨ s.engagedPhase = .free := by
  unfold State.engagedPhase
  split <;> simp

theorem releasedPhase_cases (s : State) : s.releasedPhase = .free ∨ s.releasedPhase = .hoist := by
  unfold State.releasedPhase
  split
  · rcases s.phc.target with _ | _ | _ <;> simp [ReleaseTarget.phase]
  · exact .inl rfl

/-- The op angle counted or set back leaves a sound PHC. -/
theorem Phc.Sound.withOp {p : Phc} (h : p.Sound) {o : Operation} (ho : p.op = some o) (o' : Operation) :
    Phc.Sound { p with op := some o' } := by
  have := h.operation
  rw [ho] at this
  exact ⟨by simpa using this, h.target, h.arm⟩

/-- An angle count moves the phase once at most: an operation is in flight in ENGAGING and RELEASING alone, where there is
no automatic advance (R54, R58, R65). -/
theorem angleCount_step {old : Stk} {forward : Bool} (before : u.phc = s.phc)
    (after : t.phc = (phcCount forward (phcAfterEvaluation old u)).phc) (h : PhaseInv s) : PhaseStep s t := by
  have sound := (phaseInv_iff s).mp h
  rcases op : s.phc.op with _ | o
  · have none : (phcAfterEvaluation old u).phc.op = none := by
      rw [phcAfterEvaluation_phc, before]
      unfold advancedPhc
      dsimp only
      split
      · split
        · rfl
        · exact op
      · exact op
    rw [phcCount_phc, none] at after
    exact advancedPhc_step (after.trans ((phcAfterEvaluation_phc old u).trans (by rw [before]))) h
  · have phase : s.phc.phase = .engaging ∨ s.phc.phase = .releasing := h.operation.mp (by simp [op])
    have notHoist : s.phc.phase ≠ .hoist := by rcases phase with e | e <;> simp [e]
    have stands : (phcAfterEvaluation old u).phc = s.phc := by
      rw [phcAfterEvaluation_phc, before, advancedPhc_of_not_hoist notHoist]
    rw [phcCount_phc, stands, op] at after
    dsimp only at after
    have leaves : s.phc.phase ≠ .parked := by rcases phase with e | e <;> simp [e]
    have completed : ∀ p, (p = .drill ∨ p = .free ∨ p = .hoist) →
        t.phc = ⟨p, none, none, false, decide (p = .hoist) && (phcAfterEvaluation old u).armAtEntry⟩ → PhaseStep s t := by
      intro p hp phc
      refine .moved p ⟨fun _ => .inl leaves, ?_, fun _ => phase, ?_⟩ (by rw [phc]) (by rw [phc]) ?_
      · rcases hp with rfl | rfl | rfl <;> simp
      · rcases hp with rfl | rfl | rfl <;> simp
      · rw [phc]
        rcases hp with rfl | rfl | rfl <;> constructor <;> simp
    split at after
    · by_cases reached : (if s.phc.phase = .engaging then (phcAfterEvaluation old u).gst.settings.lockAngle
          else (phcAfterEvaluation old u).gst.settings.unlockAngle) ≤ (o.turned.angle : Int)
      · rw [if_pos reached] at after
        by_cases engaging : s.phc.phase = .engaging
        · rw [if_pos engaging] at after
          exact completed _ ((engagedPhase_cases _).imp id .inl) after
        · rw [if_neg engaging] at after
          exact completed _ (.inr (releasedPhase_cases _)) after
      · rw [if_neg reached] at after
        exact .stands (by rw [after]) (by rw [after]; exact sound.withOp op _)
    · exact .stands (by rw [after]) (by rw [after]; exact sound.withOp op _)

theorem angleUsed_effect (s : State) : Effect [.msu, .faults, .env, .grants, .pif, .brc] s (angleUsed s) := by
  have rest : Effect [.msu, .faults, .env, .grants, .pif, .brc] s (s.withMsu s.msu.endRest) :=
    (withMsu_effect s _).mono (by simp)
  have mark : ∀ t : State, Effect [.msu, .faults, .env, .grants, .pif, .brc] t (takeTurnMark t) := fun t =>
    ((withMsu_effect t _).mono (by simp)).trans
      (((takeBoundary_effect _).mono (by simp)).trans ((brcTurnMark_effect _).mono (by simp)))
  exact .ite (.refl s) (rest.trans (.ite (mark _) (.refl _)))

theorem angleUsed_mm (s : State) :
    (angleUsed s).msu.ropeMm = s.msu.ropeMm ∧ (angleUsed s).msu.strokeMm = s.msu.strokeMm := by
  have mark : ∀ t : State, (takeTurnMark t).msu = { t.msu with markRef := t.msu.angle } := fun t => by
    rw [takeTurnMark, (brcTurnMark_effect _).msu_eq, (takeBoundary_effect _).msu_eq]
    rfl
  unfold angleUsed
  split
  · exact ⟨rfl, rfl⟩
  · dsimp only
    split
    · rw [mark]; exact ⟨rfl, rfl⟩
    · exact ⟨rfl, rfl⟩

theorem angleUsed_aside (s : State) : Aside s (angleUsed s) := by
  have e := angleUsed_effect s
  exact ⟨e.stk_eq, e.phc_eq, e.sameStore, by rw [e.gst_eq], e.measured_eq, (angleUsed_mm s).1, (angleUsed_mm s).2,
    e.sameZones⟩

/-- An angle count, whole (R16, R40). -/
theorem angleCounted_moved (forward : Bool) (s : State) : Moved s (angleCounted forward s) := by
  let w := s.withMsu (s.msu.countAngle forward)
  have counting : Aside s w := withMsu_aside _ rfl rfl
  refine counting.andMoved (.aside ?_ (angleUsed_aside _))
  have counted := stkCount_effect forward w
  have handed := handCount_effect (stkCount forward w).2 (stkCount forward w).1
  have advanced := phcAfterEvaluation_effect s.stk (handCount (stkCount forward w).2 (stkCount forward w).1)
  have turned := phcCount_effect forward (phcAfterEvaluation s.stk (handCount (stkCount forward w).2 (stkCount forward w).1))
  have stepped := brcDepth_effect s.stk.bottomHole
    (phcCount forward (phcAfterEvaluation s.stk (handCount (stkCount forward w).2 (stkCount forward w).1)))
  have behind := (handed.mono (d := [.phc, .znt, .faults, .brc, .env, .grants, .pif]) (by simp)).trans
    ((advanced.mono (by simp)).trans ((turned.mono (by simp)).trans (stepped.mono (by simp))))
  have scale := counted.sameScale.trans behind.sameScale
  have phases := angleCount_step (s := w) (t := brcDepth s.stk.bottomHole (phcCount forward (phcAfterEvaluation s.stk
    (handCount (stkCount forward w).2 (stkCount forward w).1)))) (handed.phc_eq.trans counted.phc_eq) stepped.phc_eq
  have store : StoreStep w _ := .stands (counted.sameStore.trans behind.sameStore)
    (counted.sameZones.trans behind.sameZones)
  obtain ⟨same, bottom⟩ | ⟨u, joints, bottom, e, stk⟩ := stkCount_model forward w
  · exact ⟨.stands (by rwa [behind.stk_eq]) scale (.inl (by rwa [behind.stk_eq])), phases, store⟩
  · refine ⟨.evaluated u joints bottom e.sessionOpen_eq (by rw [e.gst_eq]) ?_ ?_ ?_, phases, store⟩
    · rw [behind.stk_eq, stk]; exact SameString.refl _
    · rw [behind.stk_eq, stk]
    · exact ⟨scale.active.trans (by rw [e.gst_eq]), scale.rope.trans (by rw [e.msu_eq]),
        scale.stroke.trans (by rw [e.msu_eq])⟩

/-- The part at a commit's completion before its evaluation: the record in force, the millimetres at its scales, the
string model rebuilt (R27, R164). -/
def rebuilt (s : State) : State :=
  let w := (s.withGst s.gst.committed).withMsu (s.msu.formMm (some s.gst.staging))
  w.withStk (s.stk.rebuild s.gst.active s.gst.staging w.pRope w.headPos)

theorem commitCompleted_eq (s : State) : commitCompleted s = afterEvaluation s.stk [] (evaluate (rebuilt s)) := rfl

/-- A commit's completion (R27, R164). -/
theorem commitCompleted_moved (h : s.committing = true) : Moved s (commitCompleted s) := by
  have ev := evaluate_effect (rebuilt s)
  have e := afterEvaluation_effect s.stk [] (evaluate (rebuilt s))
  rw [commitCompleted_eq]
  exact {
    model := .committed (rebuilt s) h rfl rfl e.stk_eq (ev.sameScale.trans e.sameScale)
    phases := advancedPhc_step (afterEvaluation_phc s.stk [] (evaluate (rebuilt s)))
    store := .committed h (by rw [e.gst_eq]; rfl) (by rw [e.gst_eq]; rfl) (by rw [e.gst_eq]; rfl)
      (by rw [e.gst_eq]; rfl) (SameZones.trans (t := evaluate (rebuilt s)) ⟨rfl, rfl, rfl⟩ e.sameZones) }

/-- The part as XRST finds it once the lines, the ports and the fault table are reset (R146, R177). -/
def xrstSeen (s : State) : State :=
  ((s.withLines { s.lines with xrst := true }).withPif (s.pif.reset 2)).withFsv
    (s.fsv.afterXrst s.gst.settings s.msu.angle)

/-- The string model judged, the zones re-evaluated and the records made, before the PHC and the GRU are reset. -/
def xrstJudged (s : State) : State :=
  brcDepth s.stk.bottomHole (zntReevaluate (stkXrst (askEvent .xrst (xrstSeen s))))

theorem xrstAsserted_eq (s : State) : xrstAsserted s =
    ((((xrstJudged s).withPhc .start).withGru .start).withStoreEnable false).withMsu (xrstJudged s).msu.afterXrst :=
  rfl

section
variable (s : State)
theorem xrstAsserted_stk : (xrstAsserted s).stk = (xrstJudged s).stk := by rw [xrstAsserted_eq]; rfl
theorem xrstAsserted_gst : (xrstAsserted s).gst = { (xrstJudged s).gst with storeEnable := false } := by
  rw [xrstAsserted_eq]; rfl
theorem xrstAsserted_msu : (xrstAsserted s).msu = (xrstJudged s).msu.afterXrst := by rw [xrstAsserted_eq]; rfl
theorem xrstAsserted_znt : (xrstAsserted s).znt = (xrstJudged s).znt := by rw [xrstAsserted_eq]; rfl
theorem xrstAsserted_brc : (xrstAsserted s).brc = (xrstJudged s).brc := by rw [xrstAsserted_eq]; rfl
theorem xrstAsserted_env : (xrstAsserted s).env = (xrstJudged s).env := by rw [xrstAsserted_eq]; rfl
theorem xrstAsserted_fsv : (xrstAsserted s).fsv = (xrstJudged s).fsv := by rw [xrstAsserted_eq]; rfl
theorem xrstAsserted_pif : (xrstAsserted s).pif = (xrstJudged s).pif := by rw [xrstAsserted_eq]; rfl
theorem xrstAsserted_lines : (xrstAsserted s).lines = (xrstJudged s).lines := by rw [xrstAsserted_eq]; rfl
theorem xrstAsserted_phc : (xrstAsserted s).phc = .start := by rw [xrstAsserted_eq]; rfl
theorem xrstAsserted_gru : (xrstAsserted s).gru = .start := by rw [xrstAsserted_eq]; rfl
end

/-- The assertion of XRST (R26, R67). -/
theorem xrstAsserted_moved (s : State) : Moved s (xrstAsserted s) := by
  have ahead : Aside s (askEvent .xrst (xrstSeen s)) :=
    ⟨rfl, rfl, ⟨rfl, rfl, rfl, rfl⟩, rfl, rfl, rfl, rfl, ⟨rfl, rfl, rfl⟩⟩
  refine ahead.andMoved ?_
  generalize hw : askEvent .xrst (xrstSeen s) = w
  have behind : Effect [.znt, .brc] (stkXrst w) (xrstJudged s) := by
    rw [xrstJudged, hw]
    exact (zntReevaluate_effect _).trans ((brcDepth_effect _ _).mono (by simp))
  have judged : Effect [.stk, .brc] w (stkXrst w) :=
    (Effect.ite (doubtLockedIfAny_effect w) (.refl w)).trans ((withStk_effect _ _).mono (by simp))
  have stk : (xrstAsserted s).stk = (stkXrst w).stk := by rw [xrstAsserted_stk, behind.stk_eq]
  have gst : (xrstAsserted s).gst = { w.gst with storeEnable := false } := by
    rw [xrstAsserted_gst, behind.gst_eq, judged.gst_eq]
  have msu : (xrstAsserted s).msu = w.msu.afterXrst := by rw [xrstAsserted_msu, behind.msu_eq, judged.msu_eq]
  have zones : SameZones w (xrstAsserted s) := by
    have k := judged.sameZones.trans behind.sameZones
    constructor <;> rw [xrstAsserted_znt]
    · exact k.zones
    · exact k.session
    · exact k.pile
  have phc := xrstAsserted_phc s
  generalize xrstAsserted s = t at stk gst msu zones phc
  have phases : PhaseStep w t := by
    refine .moved .parked (.park _) (by rw [phc]; rfl) (by rw [phc]; rfl) ?_
    rw [phc]
    constructor <;> simp [Phc.start]
  have scale : SameScale w t := by
    constructor
    · rw [gst]
    all_goals rw [msu]; rfl
  have store : StoreStep w t := .stands (by constructor <;> rw [gst]) zones
  refine ⟨?_, fun _ => phases, store⟩
  have cleared : (stkXrst w).stk = { (if w.releaseCutOff then doubtLockedIfAny w else w).stk with
      aF := 0, aR := 0, reverseRun := false } := rfl
  rw [← stk] at cleared
  by_cases evaluates : w.releaseCutOff = true ∧ w.stk.joints.any Joint.isLocked = true
  · obtain ⟨cut, lost⟩ := evaluates
    rw [if_pos cut, doubtLockedIfAny, if_pos lost] at cleared
    have e := doubtLocked_effect w
    have asked : (doubtLocked w).stk = { w.stk with joints := w.stk.joints.map Joint.doubted } :=
      (askJoints_effect _ _ _).stk_eq
    exact .evaluated (doubtLocked w) (by rw [asked]; exact .doubted) (by rw [asked]) e.sessionOpen_eq (by rw [e.gst_eq])
      (by rw [cleared]; rfl) (by rw [cleared])
      ⟨scale.active.trans (by rw [e.gst_eq]), scale.rope.trans (by rw [e.msu_eq]), scale.stroke.trans (by rw [e.msu_eq])⟩
  · have same : (if w.releaseCutOff then doubtLockedIfAny w else w) = w := by
      unfold doubtLockedIfAny
      split
      · next cut => rw [if_neg fun lost => evaluates ⟨cut, lost⟩]
      · rfl
    rw [same] at cleared
    exact .stands (by rw [cleared]; rfl) scale (.inl (by rw [cleared]))

/-- The end of XRST (R126, R146). -/
theorem xrstEnded_moved (s : State) : Moved s (xrstEnded s) := by
  let w := startStallWindow ((s.withLines { s.lines with xrst := false }).withMsu s.msu.xrstEnds)
  have ahead : Aside s w := ⟨rfl, rfl, ⟨rfl, rfl, rfl, rfl⟩, rfl, rfl, rfl, rfl, ⟨rfl, rfl, rfl⟩⟩
  have e : Effect [.znt, .brc, .env, .grants, .pif] w (takeScanWarnings (recompute (zntReevaluate w))) :=
    ((zntReevaluate_effect _).mono (by simp)).trans
      (((recompute_effect _).mono (by simp)).trans ((takeScanWarnings_effect _).mono (by simp)))
  exact (ahead.trans e.aside).andMoved (decideEstop_moved _)

end

end Sys2Proof.Machine
end

