-- ==== Sys2Proof/Proofs/RequestMoves.lean ====
section
/-! What each request that reaches its owner can do to the string model, the phases, the store and the zones. -/

namespace Sys2Proof.Machine

section
variable (s : State)

theorem refuse_moved (code : Code) (x y : Int) : Moved s (refuse code x y s).1 := (Aside.refl s).moved

theorem refuseOpen_moved (code : Code) : Moved s (refuseOpen code s).1 := (useFree_effect s).aside.moved

theorem withGrant_aside (d : Drive) (g : Grant) : Aside s (s.withGrant d g) := (withGrant_effect s d g).aside

theorem serveAckReset_moved (p : Port) (a b : Word) : Moved s (serveAckReset p a b s).1 := by
  unfold serveAckReset
  split
  · split
    · unfold ackCab
      split
      · exact (withPort_aside s _ _).moved
      · exact (Aside.refl s).moved
    · unfold ackDrive
      split
      · exact ((withGrant_aside s _ _).trans (withPort_aside _ _ _)).moved
      all_goals exact (Aside.refl s).moved
  · exact refuseOpen_moved s _

theorem serveDemand_moved (p : Port) (a b : Word) : Moved s (serveDemand p a b s).1 := by
  unfold serveDemand
  split
  · unfold demandOn
    split
    · exact refuse_moved s _ _ _
    · exact refuse_moved s _ _ _
    · exact refuse_moved s _ _ _
    · unfold demandNeutral
      dsimp only
      split
      · exact (withGrant_aside s _ _).moved
      · split
        · exact ((withGrant_aside s _ _).trans (useFree_effect _).aside).moved
        · exact (withGrant_aside s _ _).moved
    · exact (withGrant_aside s _ _).moved
  · exact refuse_moved s _ _ _

theorem serveClearFaults_moved (a b : Word) : Moved s (serveClearFaults a b s).1 := by
  unfold serveClearFaults
  split
  · exact refuseOpen_moved s _
  · exact (withFsv_effect s _).aside.moved

theorem serveRecordRead_moved (a b : Word) (o : Bool) (l : Record) : Moved s (serveRecordRead a b o l s).1 := by
  unfold serveRecordRead
  dsimp only
  split
  · exact refuse_moved s _ _ _
  · split
    · exact (Aside.refl s).moved
    · exact (withBrc_effect s _).aside.moved

/-! The phases. -/

/-- PHASE never asks for a phase with an operation, nor for DRILL (R49). -/
theorem phaseMayMove_target {a b : Phase} (h : phaseMayMove a b = true) :
    b ≠ .engaging ∧ b ≠ .releasing ∧ b ≠ .drill := by
  cases a <;> cases b <;> simp_all [phaseMayMove]

theorem servePhase_moved (a b : Word) : Moved s (servePhase a b s).1 := by
  unfold servePhase
  split
  · exact refuse_moved s _ _ _
  next idle =>
  split
  · exact refuse_moved s _ _ _
  next to_ _ =>
  split
  · exact refuse_moved s _ _ _
  unfold phaseRequested
  split
  · exact refuse_moved s _ _ _
  next may =>
  split
  · exact refuse_moved s _ _ _
  next geometry =>
  split
  · exact refuse_moved s _ _ _
  simp only [phaseTaken]
  split
  · exact (Aside.refl s).moved
  · simp only [Bool.or_eq_true, Bool.not_eq_true', not_or, Bool.not_eq_false] at may
    obtain ⟨notEngaging, notReleasing, notDrill⟩ := phaseMayMove_target may.1
    have free : s.gst.commit = none := by simpa [State.committing] using idle
    refine changePhase_moved ⟨fun leaves => ?_, fun h => absurd h notReleasing, fun h => absurd h notDrill,
      fun h => absurd h notEngaging⟩ ⟨notEngaging, notReleasing⟩
    by_cases parked : s.phc.phase = .parked
    · exact .inr ⟨fun h => geometry ⟨parked, leaves, h⟩, free⟩
    · exact .inl parked

/-- An operation started: its phase entered with the operation in flight (R53, R57). -/
theorem startOperation_moved {p : Phase} (may : PhaseMove s p) (hp : p = .engaging ∨ p = .releasing)
    (angle timer : Nat) {target : Option ReleaseTarget} (ht : target.isSome ↔ p = .releasing) :
    Moved s (startOperation angle timer target (changePhase p s)) := by
  have e := changePhase_effect p s
  refine .of_phase e.stk_eq ⟨e.sameScale.active, e.sameScale.rope, e.sameScale.stroke⟩
    ⟨e.sameStore.active, e.sameStore.staging, e.sameStore.corrupt, e.sameStore.commit⟩
    ⟨e.sameZones.zones, e.sameZones.session, e.sameZones.pile⟩ fun _ => ?_
  have notHoist : p ≠ .hoist := by rcases hp with rfl | rfl <;> simp
  have phc : (startOperation angle timer target (changePhase p s)).phc = ⟨p, some ⟨angle, timer⟩, target, false, false⟩ := by
    rw [startOperation, State.withPhc_phc, changePhase_phc]
    simp [notHoist]
  refine .moved p may ?_ ?_ ?_ <;> rw [phc]
  exact ⟨by simpa using hp, ht, by simp⟩

theorem serveEngage_moved (a b : Word) : Moved s (serveEngage a b s).1 := by
  unfold serveEngage
  dsimp only
  split
  · exact refuse_moved s _ _ _
  split
  · exact refuse_moved s _ _ _
  split
  · exact refuse_moved s _ _ _
  next free =>
  split
  · exact refuse_moved s _ _ _
  simp only [ne_eq, not_not] at free
  exact startOperation_moved s ⟨fun _ => .inl (by simp [free]), by simp, by simp, fun _ => free⟩ (.inl rfl) _ _ (by simp)

/-- The release latch written moves no phase (R51). -/
theorem releaseLatch_moved (on : Bool) : Moved s (s.withPhc { s.phc with releaseLatch := on }) :=
  .of_phase rfl ⟨rfl, rfl, rfl⟩ ⟨rfl, rfl, rfl, rfl⟩ ⟨rfl, rfl, rfl⟩ fun h => .stands rfl ⟨h.operation, h.target, h.arm⟩

theorem serveReleaseEnable_moved (a b : Word) : Moved s (serveReleaseEnable a b s).1 := by
  unfold serveReleaseEnable
  split
  · exact releaseLatch_moved s true
  · exact (releaseLatch_moved s false).aside (useFree_effect _).aside

theorem serveRelease_moved (a b : Word) : Moved s (serveRelease a b s).1 := by
  unfold serveRelease
  split
  · exact refuse_moved s _ _ _
  split
  · exact refuse_moved s _ _ _
  next drill =>
  split
  · exact refuse_moved s _ _ _
  split
  · exact refuse_moved s _ _ _
  unfold releaseRequested
  dsimp only
  split
  · exact refuse_moved s _ _ _
  next latch =>
  split
  · exact refuse_moved s _ _ _
  split
  · exact refuse_moved s _ _ _
  simp only [ne_eq, not_not] at drill
  exact startOperation_moved s ⟨fun _ => .inl (by simp [drill]), fun _ => ⟨drill, by simpa using latch⟩, by simp, by simp⟩
    (.inr rfl) _ _ (by simp)

theorem serveAbortOp_moved (a b : Word) : Moved s (serveAbortOp a b s).1 := by
  unfold serveAbortOp
  split
  · exact refuse_moved s _ _ _
  next op =>
  split
  · exact refuse_moved s _ _ _
  dsimp only
  split
  · next releasing =>
    exact changePhase_moved ⟨fun _ => .inl (by simp [releasing]), by simp, fun _ => .inr releasing, by simp⟩ (by simp)
  · refine changePhase_moved ⟨fun _ => .inl fun parked => op ?_, by simp, by simp, by simp⟩ (by simp)
    simp [parked]

/-! The string tracker. -/

theorem serveConfirmFree_moved (a b : Word) : Moved s (serveConfirmFree a b s).1 := by
  unfold serveConfirmFree
  split
  · exact refuseOpen_moved s _
  split
  · exact refuseOpen_moved s _
  split
  · exact refuseOpen_moved s _
  split
  · exact refuseOpen_moved s _
  unfold jointsConfirmed
  dsimp only
  split
  · exact (Aside.refl s).moved
  · exact afterEvaluation_moved (u := askEvent (.freed (confirmedMask a 0 s.stk.joints))
      (s.withStk { s.stk with joints := confirmNamed a 0 s.stk.joints })) (.confirmed a) rfl rfl ⟨rfl, rfl, rfl, rfl⟩
      ⟨rfl, rfl, rfl⟩ s.stk []

theorem serveDatum_moved (a b : Word) : Moved s (serveDatum a b s).1 := by
  unfold serveDatum
  dsimp only
  split
  · exact refuse_moved s _ _ _
  split
  · exact refuse_moved s _ _ _
  next g _ =>
  split
  · exact refuse_moved s _ _ _
  split
  · exact refuse_moved s _ _ _
  split
  · exact refuse_moved s _ _ _
  exact afterEvaluation_moved (s := s) (u := s.withStk (s.stk.datum (10 * a.toInt) g.lCl s.msu.ropeMm s.msu.strokeMm)) .stand rfl
    rfl ⟨rfl, rfl, rfl, rfl⟩ ⟨rfl, rfl, rfl⟩ s.stk []

/-! The session and the zones. -/

theorem serveOpenPile_moved (a b : Word) : Moved s (serveOpenPile a b s).1 := by
  unfold serveOpenPile
  split
  · exact refuse_moved s _ _ _
  next idle =>
  split
  · exact refuse_moved s _ _ _
  next geometry =>
  split
  · exact refuse_moved s _ _ _
  split
  · exact refuse_moved s _ _ _
  next closed =>
  split
  · exact refuse_moved s _ _ _
  have closed : s.znt.sessionOpen = false := by simpa using closed
  exact ⟨.stands rfl ⟨rfl, rfl, rfl⟩ (.inr closed), fun h => .of_same rfl h,
    .opened geometry (by simpa [State.committing] using idle) closed ⟨rfl, rfl, rfl, rfl⟩⟩

theorem serveClosePile_moved (a b : Word) : Moved s (serveClosePile a b s).1 := by
  unfold serveClosePile
  dsimp only
  split
  · exact refuse_moved s _ _ _
  split
  · exact refuse_moved s _ _ _
  split
  · exact refuse_moved s _ _ _
  split
  · exact refuse_moved s _ _ _
  exact ⟨.stands rfl ⟨rfl, rfl, rfl⟩ (.inl rfl), fun h => .of_same rfl h, .closed ⟨rfl, rfl, rfl, rfl⟩ rfl rfl⟩

theorem zoneWritten_moved (i : Fin 8) (field : Nat) (x : Int) (closed : s.znt.sessionOpen = false) :
    Moved s (zoneWritten i field x s) := by
  unfold zoneWritten
  generalize hz : s.withZnt { s.znt with zones := s.znt.zones.set i (s.znt.zones[i].write field x) } = w
  have written : Effect [.znt, .zones] s w := hz ▸ withZnt_effect s _
  have after : w.znt.sessionOpen = false := by rw [← hz]; exact closed
  have kept : Effect [.znt, .brc, .env, .grants, .pif] w (recompute (zntReevaluate w)) :=
    ((zntReevaluate_effect w).mono (by simp)).trans ((recompute_effect _).mono (by simp))
  have whole := (written.mono (d := [.znt, .zones, .brc, .env, .grants, .pif]) (by simp)).trans (kept.mono (by simp))
  exact ⟨.stands (by rw [whole.stk_eq]; exact SameString.refl _) whole.sameScale (.inl (by rw [whole.stk_eq])),
    fun h => .of_same whole.phc_eq h, .zoned closed whole.sameStore (kept.sessionOpen_eq.trans after)⟩

theorem serveZoneWrite_moved (a b : Word) : Moved s (serveZoneWrite a b s).1 := by
  unfold serveZoneWrite
  split
  swap
  · exact refuse_moved s _ _ _
  split
  swap
  · exact refuse_moved s _ _ _
  unfold zoneRequested
  dsimp only
  split
  · exact refuse_moved s _ _ _
  next closed =>
  split
  · exact refuse_moved s _ _ _
  split
  · exact refuse_moved s _ _ _
  exact zoneWritten_moved s _ _ _ (by simpa using closed)

/-! The store. -/

theorem serveGeomWrite_moved (a b : Word) : Moved s (serveGeomWrite a b s).1 := by
  unfold serveGeomWrite
  split
  · exact refuse_moved s _ _ _
  split
  · exact refuse_moved s _ _ _
  next i _ =>
  split
  · exact refuse_moved s _ _ _
  next closed =>
  exact ⟨.stands rfl ⟨rfl, rfl, rfl⟩ (.inl rfl), fun h => .of_same rfl h,
    .staged i (i.read b) (by simpa using closed) rfl rfl rfl rfl ⟨rfl, rfl, rfl⟩⟩

theorem withStoreEnable_aside (on : Bool) : Aside s (s.withStoreEnable on) :=
  ⟨rfl, rfl, ⟨rfl, rfl, rfl, rfl⟩, rfl, rfl, rfl, rfl, ⟨rfl, rfl, rfl⟩⟩

theorem serveStoreEnable_moved (a b : Word) : Moved s (serveStoreEnable a b s).1 := by
  unfold serveStoreEnable
  split
  · exact (withStoreEnable_aside s true).moved
  · exact ((withStoreEnable_aside s false).trans (useFree_effect _).aside).moved

theorem serveStoreCommit_moved (a b : Word) : Moved s (serveStoreCommit a b s).1 := by
  unfold serveStoreCommit
  split
  · exact refuse_moved s _ _ _
  split
  · exact refuse_moved s _ _ _
  split
  · exact refuse_moved s _ _ _
  next parked =>
  split
  · exact refuse_moved s _ _ _
  next closed =>
  split
  · exact refuse_moved s _ _ _
  unfold commitRequested
  split
  · exact (useFree_effect s).aside.moved
  split
  · exact refuse_moved s _ _ _
  · simp only [ne_eq, not_not] at parked
    exact ⟨.stands rfl ⟨rfl, rfl, rfl⟩ (.inl rfl), fun h => .of_same rfl h,
      .requested parked (by simpa using closed) rfl rfl rfl rfl ⟨rfl, rfl, rfl⟩⟩

/-! The settings. -/

/-- The settings written and the envelope recomputed: beside the settings nothing of the string model, the phases, the store
and the zones moves (R72, R166). -/
structure Resettled (s t : State) : Prop where
  stk : t.stk = s.stk
  phc : t.phc = s.phc
  store : SameStore s t
  scale : SameScale s t
  zones : SameZones s t

theorem recompute_resettled {s u : State} (stk : u.stk = s.stk) (phc : u.phc = s.phc) (store : SameStore s u)
    (msu : u.msu = s.msu) (zones : SameZones s u) : Resettled s (recompute u) := by
  have e := recompute_effect u
  exact ⟨e.stk_eq.trans stk, e.phc_eq.trans phc, store.trans e.sameStore,
    SameScale.trans ⟨store.active, by rw [msu], by rw [msu]⟩ e.sameScale, zones.trans e.sameZones⟩

theorem withDefaults_resettled (s : State) (t : Settings) (f : Fsv) :
    Resettled s (recompute ((s.withSettings t).withFsv f)) :=
  recompute_resettled rfl rfl ⟨rfl, rfl, rfl, rfl⟩ rfl ⟨rfl, rfl, rfl⟩

theorem Resettled.moved {s t : State} (h : Resettled s t) : Moved s t :=
  .of_phase h.stk h.scale h.store h.zones (.of_same h.phc)

theorem Resettled.aside {s t u : State} (h : Resettled s t) (k : Aside t u) : Resettled s u :=
  ⟨k.stk.trans h.stk, k.phc.trans h.phc, h.store.trans k.store, h.scale.trans k.scale, h.zones.trans k.zones⟩

/-- A position count (R11, R30). -/
theorem positionCounted_moved (e : PositionEncoder) (up : Bool) : Moved s (positionCounted e up s) :=
  afterEvaluation_moved (s := s) (u := s.withMsu (s.msu.countPosition e up s.gst.active)) .stand rfl rfl ⟨rfl, rfl, rfl, rfl⟩
    ⟨rfl, rfl, rfl⟩ s.stk []

theorem advanceEvaluate_moved {s t : State} (h : Resettled s t) : Moved s (advanceEvaluate t) := by
  have e := advanceEvaluate_effect t
  exact .of_phase (e.stk_eq.trans h.stk) (h.scale.trans e.sameScale) (h.store.trans e.sameStore)
    (h.zones.trans e.sameZones) (advancedPhc_step (by rw [advanceEvaluate_phc, h.phc]))

theorem slackChanged_moved {s t : State} (h : Resettled s t) : Moved s (slackChanged t) := by
  have joints : JointsMet s t.stk.joints := by rw [h.stk]; exact .stand
  have bottom : t.stk.bottomHole = s.stk.bottomHole := by rw [h.stk]
  exact afterEvaluation_moved (u := t.withStk { t.stk with taut := t.ropeTaut }) joints bottom h.phc
    ⟨h.store.active, h.store.staging, h.store.corrupt, h.store.commit⟩
    ⟨h.zones.zones, h.zones.session, h.zones.pile⟩ t.stk []

theorem toleranceChanged_aside : Aside s (toleranceChanged s) := (decideCondition_effect _ _ s).aside

theorem recordStepChanged_aside : Aside s (recordStepChanged s) := by
  unfold recordStepChanged
  split
  · exact (withBrc_effect s _).aside
  · exact .refl s

theorem settingChanged_moved {s t : State} (h : Resettled s t) (v : Setting) : Moved s (settingChanged v t) := by
  cases v
  case lSlack => exact slackChanged_moved h
  case depthTolerance => exact (h.aside (toleranceChanged_aside t)).moved
  case recordStep => exact (h.aside (recordStepChanged_aside t)).moved
  case spinOffLevel => exact advanceEvaluate_moved h
  case autoAdvance =>
    simp only [settingChanged]
    split
    · exact advanceEvaluate_moved h
    · exact h.moved
  all_goals exact h.moved

theorem serveSet_moved (a b : Word) : Moved s (serveSet a b s).1 := by
  have pending : ∀ f : Fsv, Moved s (s.withFsv f) := fun f => (withFsv_effect s f).aside.moved
  unfold serveSet
  split
  · exact refuseOpen_moved s _
  · unfold setValue
    dsimp only
    split
    · exact refuseOpen_moved s _
    · next v _ _ =>
      have written : ∀ t : Settings, Resettled s (recompute (s.withSettings t)) := fun t =>
        recompute_resettled rfl rfl ⟨rfl, rfl, rfl, rfl⟩ rfl ⟨rfl, rfl, rfl⟩
      simp only [settingWritten]
      split
      · exact (written _).moved
      · exact settingChanged_moved (written _) v
  · unfold setGroupMode
    split
    · exact refuseOpen_moved s _
    · exact pending _
  · unfold setMode
    split
    · exact refuseOpen_moved s _
    · exact pending _
  · unfold setAction
    split
    · exact refuseOpen_moved s _
    · exact pending _

/-- A change handed on, where it is one. -/
def handedIf (changed : Bool) (f : State → State) (s : State) : State := if changed then f s else s

/-- In PARKED, where the PHC does not evaluate, the settings that have a reader beside the ENV are the record step, L_slack and
the depth tolerance, in the order in which they are handed on (R167; entry 36). -/
theorem defaultsTaken_eq (s : State) (parked : s.phc.phase = .parked) : defaultsTaken s =
    let old := s.gst.settings
    handedIf (old.offDefault .depthTolerance) toleranceChanged (handedIf (old.offDefault .lSlack) slackChanged
      (handedIf (old.offDefault .recordStep) recordStepChanged
        (recompute ((s.withSettings .default).withFsv s.fsv.defaulted)))) := by
  have order : handingOrder = .recordStep :: Setting.all.filter fun v => decide (v ≠ .recordStep) := rfl
  have still : ∀ t : State, t.phc.phase = .parked → advanceEvaluate t = t := fun t h => by simp [advanceEvaluate, h]
  have kept : ∀ (b : Bool) (f : State → State) (t : State), (∀ t : State, t.phc.phase = .parked → (f t).phc.phase = .parked) →
      t.phc.phase = .parked → (handedIf b f t).phc.phase = .parked := by
    intro b f t hf ht
    unfold handedIf
    split
    · exact hf t ht
    · exact ht
  have slack : ∀ t : State, t.phc.phase = .parked → (slackChanged t).phc.phase = .parked := fun t h => by
    rw [slackChanged, afterEvaluation_phc, (evaluateAnew_effect t).phc_eq, advancedPhc_of_not_hoist (by simp [h]), h]
  have first : (recompute ((s.withSettings .default).withFsv s.fsv.defaulted)).phc.phase = .parked := by
    rw [(recompute_effect _).phc_eq]; exact parked
  simp only [defaultsTaken, order, Setting.all, List.filter, List.foldl_cons, List.foldl_nil, defaultHanded,
    settingChanged, ite_self, ne_eq, reduceCtorEq, not_false_eq_true, not_true_eq_false, decide_true, decide_false]
  generalize recompute ((s.withSettings .default).withFsv s.fsv.defaulted) = t at first
  have recorded := kept (s.gst.settings.offDefault .recordStep) recordStepChanged t
    (fun t h => by rw [(recordStepChanged_aside t).phc, h]) first
  have slackened := kept (s.gst.settings.offDefault .lSlack) slackChanged _ slack recorded
  have tolerated := kept (s.gst.settings.offDefault .depthTolerance) toleranceChanged _
    (fun t h => by rw [(toleranceChanged_aside t).phc, h]) slackened
  unfold handedIf at *
  rw [still _ tolerated, ite_self, still _ tolerated, ite_self, ite_self]

theorem serveSettingsDefault_moved (a b : Word) : Moved s (serveSettingsDefault a b s).1 := by
  unfold serveSettingsDefault
  split
  · exact refuse_moved s _ _ _
  split
  · exact refuse_moved s _ _ _
  next parked =>
  simp only [ne_eq, not_not] at parked
  have first : Resettled s (recompute ((s.withSettings .default).withFsv s.fsv.defaulted)) :=
    withDefaults_resettled s .default s.fsv.defaulted
  rw [defaultsTaken_eq s parked]
  dsimp only
  generalize recompute ((s.withSettings .default).withFsv s.fsv.defaulted) = t at first
  have recorded : Resettled s (handedIf (s.gst.settings.offDefault .recordStep) recordStepChanged t) := by
    unfold handedIf
    split
    · exact first.aside (recordStepChanged_aside t)
    · exact first
  generalize handedIf (s.gst.settings.offDefault .recordStep) recordStepChanged t = u at recorded
  have tolerance : ∀ w, Aside w (handedIf (s.gst.settings.offDefault .depthTolerance) toleranceChanged w) := fun w => by
    unfold handedIf
    split
    · exact toleranceChanged_aside w
    · exact .refl w
  refine Moved.aside ?_ (tolerance _)
  unfold handedIf
  split
  · exact slackChanged_moved recorded
  · exact recorded.moved

/-! All requests. -/

/-- What a request that reached its owner can do. -/
theorem serve_moved (p : Port) (c : Cmd) (q : Request) : Moved s (serve p c q s).1 := by
  cases c
  case nop => exact (Aside.refl s).moved
  case read => exact (useFree_effect s).aside.moved
  case ackReset => exact serveAckReset_moved s p q.a q.b
  case demand => exact serveDemand_moved s p q.a q.b
  case set => exact serveSet_moved s q.a q.b
  case settingsDefault => exact serveSettingsDefault_moved s q.a q.b
  case phase => exact servePhase_moved s q.a q.b
  case engage => exact serveEngage_moved s q.a q.b
  case releaseEnable => exact serveReleaseEnable_moved s q.a q.b
  case release => exact serveRelease_moved s q.a q.b
  case abortOp => exact serveAbortOp_moved s q.a q.b
  case confirmFree => exact serveConfirmFree_moved s q.a q.b
  case datum => exact serveDatum_moved s q.a q.b
  case openPile => exact serveOpenPile_moved s q.a q.b
  case closePile => exact serveClosePile_moved s q.a q.b
  case zoneWrite => exact serveZoneWrite_moved s q.a q.b
  case geomWrite => exact serveGeomWrite_moved s q.a q.b
  case storeEnable => exact serveStoreEnable_moved s q.a q.b
  case storeCommit => exact serveStoreCommit_moved s q.a q.b
  case clearFaults => exact serveClearFaults_moved s q.a q.b
  case recordRead => exact serveRecordRead_moved s q.a q.b q.ones q.latched

theorem decideRequest_moved (p : Port) (q : Request) : Moved s (decideRequest p q s).1 := by
  unfold decideRequest
  split
  · exact (Aside.refl s).moved
  · exact serve_moved s p _ q
  · exact (Aside.refl s).moved

end

/-- A latch cleared with the phase as it stands, or after a move, is of the same step. -/
theorem Moved.latch {s t : State} (m : Moved s t) :
    Moved s (t.withPhc { t.phc with releaseLatch := false }) where
  model := by
    cases m.model with
    | stands stk scale bottomHole => exact .stands stk ⟨scale.active, scale.rope, scale.stroke⟩ bottomHole
    | evaluated u joints bottomHole session active stk reached scale =>
      exact .evaluated u joints bottomHole session active stk reached ⟨scale.active, scale.rope, scale.stroke⟩
    | committed u inFlight active rebuilt stk scale =>
      exact .committed u inFlight active rebuilt stk ⟨scale.active, scale.rope, scale.stroke⟩
  phases h := by
    cases m.phases h with
    | stands phase sound => exact .stands phase ⟨sound.operation, sound.target, sound.arm⟩
    | moved to_ may phase latch sound => exact .moved to_ may phase rfl ⟨sound.operation, sound.target, sound.arm⟩
  store := by
    cases m.store with
    | stands store zones => exact .stands ⟨store.active, store.staging, store.corrupt, store.commit⟩ ⟨zones.zones, zones.session, zones.pile⟩
    | opened geometry noCommit closed store =>
      exact .opened geometry noCommit closed ⟨store.active, store.staging, store.corrupt, store.commit⟩
    | closed store zones after => exact .closed ⟨store.active, store.staging, store.corrupt, store.commit⟩ zones after
    | zoned before store after => exact .zoned before ⟨store.active, store.staging, store.corrupt, store.commit⟩ after
    | staged i x before active staging corrupt commit zones =>
      exact .staged i x before active staging corrupt commit ⟨zones.zones, zones.session, zones.pile⟩
    | requested parked before phase active staging corrupt zones =>
      exact .requested parked before phase active staging corrupt ⟨zones.zones, zones.session, zones.pile⟩
    | committed inFlight active staging corrupt commit zones =>
      exact .committed inFlight active staging corrupt commit ⟨zones.zones, zones.session, zones.pile⟩

theorem Moved.clearLatches {s t : State} (m : Moved s t) (p : Port) (q : Request) : Moved s (clearLatches p q t) := by
  unfold Machine.clearLatches
  split
  · dsimp only
    split
    · split
      · exact m
      · exact m.latch
    · split
      · exact m.aside (withStoreEnable_aside t false)
      · exact m.latch.aside (withStoreEnable_aside _ false)
  · exact m

theorem takeRequest_moved (p : Port) (q : Request) (s : State) : Moved s (takeRequest p q s) := by
  have served := (withPort_aside s p { (s.port p).released with link := false }).andMoved (decideRequest_moved _ p q)
  exact (served.aside (withPort_aside _ p _)).clearLatches p q

/-- What a command other than POR can do to the string model, the phases, the store, the session and the zones. -/
theorem exec_moved {i : Instr} {s t : State} (h : exec i s = .next t) (notPor : ∀ l, i ≠ .por l) : Moved s t := by
  obtain ⟨u, rfl, acted⟩ := exec_acted h
  refine Moved.aside ?_ (settle_effect u).aside
  cases acted with
  | nothing => exact (Aside.refl s).moved
  | started l => exact absurd rfl (notPor l)
  | xrstAsserted => exact xrstAsserted_moved s
  | xrstEnded => exact xrstEnded_moved s
  | estopSeen => exact (withLines_effect s _).aside.moved
  | estopRaised => exact (withLines_effect s _).aside.andMoved (estopRaised_moved _)
  | estopReleased =>
    exact ((withLines_effect s { s.lines with estop := false }).aside.trans (decideCondition_effect _ _ _).aside).moved
  | positionChanged e pair =>
    obtain ⟨rope, stroke⟩ := withReference_mm s.msu e pair
    exact (withMsu_aside _ rope stroke).moved
  | positionCounted e pair up =>
    obtain ⟨rope, stroke⟩ := withReference_mm s.msu e pair
    exact (withMsu_aside _ rope stroke).andMoved (positionCounted_moved _ e up)
  | angleChanged pair => exact (withMsu_aside { s.msu with angleRef := pair } rfl rfl).moved
  | angleCounted pair forward =>
    exact (withMsu_aside { s.msu with angleRef := pair } rfl rfl).andMoved (angleCounted_moved forward _)
  | scanTaken r => exact scanTaken_moved r s
  | windowExpired cs =>
    exact ((withMsu_aside (s.msu.formSpeed s.gst.active) rfl rfl).trans (decideConditions_effect cs _).aside).moved
  | rested => exact (withMsu_aside { s.msu with rest := true, restTimer := none } rfl rfl).moved
  | stallExpired b => exact ((decideCondition_effect .stall b s).aside.trans (withFsv_effect _ _).aside).moved
  | operationTimedOut o _ op =>
    have raised : Aside s (raise .opTimeout s) := (raise_effect _ s).aside
    have e := changePhase_effect s.returnPhase (raise .opTimeout s)
    refine .of_phase (e.stk_eq.trans raised.stk) (raised.scale.trans e.sameScale) (raised.store.trans e.sameStore)
      (raised.zones.trans e.sameZones) fun inv => ?_
    have phase : s.phc.phase = .engaging ∨ s.phc.phase = .releasing := inv.operation.mp (by simp [op])
    refine changePhase_step ⟨fun _ => .inl ?_, ?_, ?_, ?_⟩ ?_ rfl
    · rcases phase with e | e <;> simp [e]
    · unfold State.returnPhase; split <;> simp
    · exact fun _ => phase
    · unfold State.returnPhase; split <;> simp
    · unfold State.returnPhase; split <;> simp
  | grantExpired d => exact (withdraw_effect d .grantExpired s).aside.moved
  | commitCompleted _ inFlight => exact commitCompleted_moved inFlight
  | portWritten _ p x => exact (withPort_aside s p x).moved
  | requestTaken _ p q => exact takeRequest_moved p q s

end Sys2Proof.Machine
end

