-- ==== Sys2Proof/Proofs/StepInvariants.lean ====
section
/-! The invariants of the phases and of the string model, read off what one command can do (`exec_moved`). -/

namespace Sys2Proof.Machine

/-! What is kept by every command is kept by every step. -/

/-- A millisecond that passes moves the timers alone (R38 to R43, R46, R106, R171). -/
theorem countDown_moved (s : State) (l : Lines) : Moved s ((s.countDown.useFree).withLines l) where
  model := by
    refine .stands rfl ⟨rfl, ?_, ?_⟩ (.inl rfl) <;>
      · simp only [State.countDown, State.useFree, State.withLines]
        split <;> rfl
  phases h := .stands rfl ⟨by simpa [State.countDown, State.useFree, State.withLines, Phc.tick] using h.operation,
    h.target, h.arm⟩
  store := .stands ⟨rfl, rfl, rfl, by simp [State.countDown, State.useFree, State.withLines]⟩ ⟨rfl, rfl, rfl⟩

section
variable {P : State → Prop} (moved : ∀ {s t : State}, Moved s t → P s → P t) (por : ∀ l s, P (started l s))
include moved por

theorem exec_keeps {i : Instr} {s t : State} (h : P s) (e : exec i s = .next t) : P t := by
  by_cases isPor : ∃ l, i = .por l
  · obtain ⟨l, rfl⟩ := isPor
    have t_eq : t = settle (decideEstop (started l s)) := by injection e with e; exact e.symm
    rw [t_eq]
    exact moved ((decideEstop_moved _).aside (settle_effect _).aside) (por l s)
  · exact moved (exec_moved e fun l hl => isPor ⟨l, hl⟩) h

/-- What holds right after POR and is kept by whatever a command can do is kept by every step. -/
theorem step_keeps {s t : State} (h : P s) (e : step s = .next t) : P t := by
  have after : ∀ (is : List Instr) (u : State), P u → P (is.foldl afterCommand u) := by
    intro is
    induction is with
    | nil => exact fun _ hu => hu
    | cons i is ih =>
      refine fun u hu => ih _ ?_
      unfold afterCommand
      split
      · next e => exact exec_keeps moved por hu e
      · exact hu
      · exact hu
  unfold step at e
  split at e
  · obtain rfl : tick s = t := by injection e
    exact after _ _ (moved (countDown_moved s _) h)
  · next rest _ =>
    have queued : Aside s (s.withPending rest) := ⟨rfl, rfl, ⟨rfl, rfl, rfl, rfl⟩, rfl, rfl, rfl, rfl, ⟨rfl, rfl, rfl⟩⟩
    exact exec_keeps moved por (moved queued.moved h) e
end

/-! The joint table. -/

/-- The joints agree with the geometry they are held against (R4). -/
def JointsAgree (js : List Joint) (active : Option Geometry) : Prop :=
  List.Forall₂ Joint.AgreesIfSound js ((active.map Geometry.joints).getD [])

/-- Every joint of a geometry in range has its maximum extension and its capture window at or above 0 (R1). -/
theorem jointRange {active : Option Geometry} (h : ∀ g, active = some g → g.InRange) :
    ∀ y ∈ (active.map Geometry.joints).getD [], 0 ≤ y.eMax ∧ 0 ≤ y.window := by
  cases active with
  | none => simp
  | some g =>
    intro y hy
    have inRange := (h g rfl).of_mem hy
    exact ⟨by have := inRange.eMax; omega, by have := inRange.window; omega⟩

theorem Geometry.InRange.eMax_nonneg {g : Geometry} (h : g.InRange) : ∀ y ∈ g.joints, 0 ≤ y.eMax := fun y hy =>
  (jointRange (active := some g) (fun _ e => by cases e; exact h) y hy).1

/-- Whatever the rules make of the joints agrees with the geometry as they did (R17 to R19, R23). -/
theorem JointsMet.agree {s : State} {js : List Joint} (m : JointsMet s js) (h : JointsAgree s.stk.joints s.gst.active)
    (range : ∀ g, s.gst.active = some g → g.InRange) : JointsAgree js s.gst.active := by
  cases m with
  | stand => exact h
  | locked => exact lockAll_agrees h fun y hy => (jointRange range y hy).2
  | doubted => exact agrees_map h fun _ _ => doubted_agrees
  | freed => exact agrees_map h fun _ _ => freed_agrees
  | confirmed a => exact confirmNamed_agrees h a 0

/-- A table without joints has none after any rule. -/
theorem JointsMet.nil {s : State} {js : List Joint} (m : JointsMet s js) (h : s.stk.joints = []) : js = [] := by
  cases m <;> simp [h, lockAll, confirmNamed]

theorem taken_nonneg {gs : List JointGeometry} (range : ∀ y ∈ gs, 0 ≤ y.eMax) (js : List Joint) (r : Int) :
    0 ≤ clamp 0 (freeMax js gs) r := by
  have := freeMax_nonneg range js
  unfold clamp
  omega

/-- The distribution keeps the table in agreement (R5, R13). -/
theorem distribute_agree {k : Stk} {g : Geometry} (h : JointsAgree k.joints (some g)) (range : g.InRange) (e : Int) :
    JointsAgree (k.distribute g e).joints (some g) :=
  fill_agrees h range.eMax_nonneg (taken_nonneg range.eMax_nonneg _ _)

/-- An evaluation keeps the table in agreement (R11). -/
theorem evaluate_agree {u : State} (h : JointsAgree u.stk.joints u.gst.active)
    (range : ∀ g, u.gst.active = some g → g.InRange) : JointsAgree (evaluate u).stk.joints u.gst.active := by
  have stk : (evaluate u).stk = _ :=
    (u.stk.decideDepth u.gst.active u.pRope u.headPos).advanceBottomHole_spec u.znt.sessionOpen
  rw [stk]
  dsimp only
  unfold Stk.decideDepth
  split
  · exact h
  · next g hg =>
    rw [hg] at h ⊢
    split
    · exact h
    · exact distribute_agree h (range g hg) _
    · exact h
    · exact h

/-! The distribution of the measured extension. -/

/-- The measured extension is in the joints and the disagreement, as R13 and R14 place it. -/
structure Placed (k : Stk) (g : Geometry) (e : Int) : Prop where
  sum : extSum k.joints + k.disagreement = e
  rest : k.disagreement = e - lockedSum k.joints - fillTaken k.joints g.joints (e - lockedSum k.joints)
  filled : Filled k.joints g.joints (e - lockedSum k.joints)

theorem distribute_placed {k : Stk} {g : Geometry} (h : JointsAgree k.joints (some g)) (range : g.InRange) (e : Int) :
    Placed (k.distribute g e) g e := by
  have range := range.eMax_nonneg
  have length : k.joints.length = g.joints.length := h.length_eq
  have taken : clamp 0 (freeMax k.joints g.joints) (e - lockedSum k.joints) =
      fillTaken k.joints g.joints (e - lockedSum k.joints) := by
    have := freeMax_nonneg range k.joints
    unfold clamp fillTaken
    omega
  have nonneg := taken_nonneg range k.joints (e - lockedSum k.joints)
  rw [taken] at nonneg
  have joints : (k.distribute g e).joints =
      (fill k.joints g.joints (fillTaken k.joints g.joints (e - lockedSum k.joints))).1 := by rw [← taken]; rfl
  have disagreement : (k.distribute g e).disagreement =
      e - lockedSum k.joints - fillTaken k.joints g.joints (e - lockedSum k.joints) := by rw [← taken]; rfl
  have locked : lockedSum (k.distribute g e).joints = lockedSum k.joints := by rw [joints, fill_lockedSum]
  have free : freeMax (k.distribute g e).joints g.joints = freeMax k.joints g.joints :=
    freeMax_congr _ (by rw [joints, fill_state])
  refine ⟨?_, ?_, ?_⟩
  · rw [joints, disagreement, fill_extSum length, fill_rest range _ nonneg]
    have := freeMax_nonneg range k.joints
    unfold fillTaken at nonneg ⊢
    omega
  · rw [locked, disagreement]
    simp only [fillTaken, free]
  · rw [locked, joints]
    exact fill_filled range _ _

/-- In VALID the string model holds the measured extension (R13, R14). -/
def MeasuredHeld (s : State) : Prop :=
  ∀ g, s.gst.active = some g → s.stk.quality = .valid → Placed s.stk g (s.pRope - s.headPos - g.lCl)

theorem measuredHeld_iff (s : State) : MeasuredHeld s ↔ Conserved s ∧ Distributed s := by
  constructor
  · exact fun h => ⟨fun g hg hq => (h g hg hq).sum, fun g hg hq => ⟨(h g hg hq).rest, (h g hg hq).filled⟩⟩
  · exact fun ⟨c, d⟩ g hg hq => ⟨c g hg hq, (d g hg hq).1, (d g hg hq).2⟩

theorem evaluate_measuredHeld {u : State} (h : JointsAgree u.stk.joints u.gst.active)
    (range : ∀ g, u.gst.active = some g → g.InRange) : MeasuredHeld (evaluate u) := by
  intro g active valid
  have active : u.gst.active = some g := active
  have stk : (evaluate u).stk = _ :=
    (u.stk.decideDepth u.gst.active u.pRope u.headPos).advanceBottomHole_spec u.znt.sessionOpen
  have mm : (evaluate u).pRope - (evaluate u).headPos = u.pRope - u.headPos := by
    have rest := (evaluate_evaluated u).rest
    have rope : (evaluate u).stk.ropeOffset = u.stk.ropeOffset := by rw [← rest]
    have stroke : (evaluate u).stk.strokeOffset = u.stk.strokeOffset := by rw [← rest]
    simp only [State.pRope, State.headPos, rope, stroke]
    rfl
  rw [active] at h
  rw [mm, stk]
  rw [stk] at valid
  dsimp only at valid
  unfold Stk.decideDepth at valid ⊢
  simp only [active] at valid ⊢
  split at valid
  case h_2 =>
    obtain ⟨sum, rest, filled⟩ := distribute_placed h (range g active) (u.pRope - u.headPos - g.lCl)
    exact ⟨sum, rest, filled⟩
  all_goals simp at valid

/-! What a step keeps of the string model. -/

theorem SameString.joints {k l : Stk} (h : SameString k l) : l.joints = k.joints := by rw [h]

/-- The fields of the string model that the depth and the joint table are made of stand. -/
structure StringKept (s t : State) : Prop where
  scale : SameScale s t
  stk : SameString s.stk t.stk

section
variable {s t u : State}

theorem StringKept.pRope (h : StringKept s t) : t.pRope = s.pRope := by
  rw [State.pRope, h.scale.rope, h.stk, State.pRope]

theorem StringKept.headPos (h : StringKept s t) : t.headPos = s.headPos := by
  rw [State.headPos, h.scale.stroke, h.stk, State.headPos]

theorem StringKept.depthInv (h : StringKept s t) (d : DepthInv s) : DepthInv t := by
  obtain ⟨none, valid, strokeOnly, held⟩ := d
  constructor <;> rw [h.stk, h.scale.active] <;> simpa only [h.pRope, h.headPos] using ‹_›

theorem StringKept.measuredHeld (h : StringKept s t) (d : MeasuredHeld s) : MeasuredHeld t := by
  intro g hg hq
  rw [h.stk] at hq
  obtain ⟨sum, rest, filled⟩ := d g (h.scale.active ▸ hg) hq
  rw [h.pRope, h.headPos, h.stk]
  exact ⟨sum, rest, filled⟩

/-- The string model sound: its depth, its distribution and its joints (R4, R10, R13, R14). -/
structure StringSound (s : State) : Prop where
  depth : DepthInv s
  measured : MeasuredHeld s

theorem StringKept.sound (h : StringKept s t) (d : StringSound s) : StringSound t :=
  ⟨h.depthInv d.depth, h.measuredHeld d.measured⟩

/-- An evaluation from a table in agreement leaves a sound string model. -/
theorem evaluate_sound (h : JointsAgree u.stk.joints u.gst.active) (range : ∀ g, u.gst.active = some g → g.InRange) :
    StringSound (evaluate u) :=
  ⟨evaluate_depthInv u, evaluate_measuredHeld h range⟩

/-- The rebuilt table agrees with the committed geometry (R27). -/
theorem rebuild_agree (k : Stk) (old : Option Geometry) {g : Geometry} (range : g.InRange) (rope head : Int) :
    JointsAgree (k.rebuild old g rope head).joints (some g) := by
  have fresh : JointsAgree g.freshJoints (some g) :=
    fresh_agrees g.joints range.eMax_nonneg
  have placed : ∀ e, JointsAgree (({ k with joints := g.freshJoints } : Stk).distribute g e).joints (some g) :=
    fun e => distribute_agree (k := { k with joints := g.freshJoints }) fresh range e
  unfold Stk.rebuild
  dsimp only
  split
  · exact placed _
  · split
    · exact placed _
    · exact placed _

/-- The geometries a part holds stay in range (R1, R161). -/
theorem StoreStep.inRange (h : StoreStep s t) (staging : s.gst.staging.InRange)
    (active : ∀ g, s.gst.active = some g → g.InRange) :
    t.gst.staging.InRange ∧ ∀ g, t.gst.active = some g → g.InRange := by
  have same : SameStore s t → t.gst.staging.InRange ∧ ∀ g, t.gst.active = some g → g.InRange := fun k => by
    rw [k.staging, k.active]; exact ⟨staging, active⟩
  cases h with
  | stands k _ => exact same k
  | opened _ _ _ k => exact same k
  | closed k _ _ => exact same k
  | zoned _ k _ => exact same k
  | staged i x _ a st _ _ _ =>
    rw [st, a]
    exact ⟨staging.put i (i.bring_inRange x), active⟩
  | requested _ _ _ a st _ _ => rw [st, a]; exact ⟨staging, active⟩
  | committed _ a st _ _ _ =>
    rw [st, a]
    exact ⟨staging, fun g hg => by cases hg; exact staging⟩

theorem ModelStep.agree (m : ModelStep s t) (h : TableInv s) : JointsAgree t.stk.joints t.gst.active := by
  have before : JointsAgree s.stk.joints s.gst.active := h.table
  cases m with
  | stands stk scale _ => rw [stk, scale.active]; exact before
  | evaluated u joints _ _ active stk _ scale =>
    rw [stk, scale.active]
    exact evaluate_agree (active ▸ joints.agree before h.active) (active ▸ h.active)
  | committed u _ active rebuilt stk scale =>
    rw [stk, scale.active]
    refine evaluate_agree ?_ fun g hg => ?_
    · rw [rebuilt, active]; exact rebuild_agree _ _ h.staging _ _
    · rw [active] at hg; cases hg; exact h.staging

theorem Moved.tableInv (m : Moved s t) (h : TableInv s) : TableInv t :=
  have ⟨staging, active⟩ := m.store.inRange h.staging h.active
  ⟨staging, active, m.model.agree h⟩

theorem Moved.stringSound (m : Moved s t) (h : TableInv s) (d : StringSound s) : StringSound t := by
  have before : JointsAgree s.stk.joints s.gst.active := h.table
  cases m.model with
  | stands stk scale _ => exact StringKept.sound ⟨scale, stk⟩ d
  | evaluated u joints _ _ active stk _ scale =>
    refine StringKept.sound (s := evaluate u) ⟨⟨scale.active, scale.rope, scale.stroke⟩, stk⟩ ?_
    exact evaluate_sound (active ▸ joints.agree before h.active) (active ▸ h.active)
  | committed u _ active rebuilt stk scale =>
    refine StringKept.sound (s := evaluate u) ⟨⟨scale.active, scale.rope, scale.stroke⟩, by rw [stk]; rfl⟩
      (evaluate_sound ?_ fun g hg => ?_)
    · rw [rebuilt, active]; exact rebuild_agree _ _ h.staging _ _
    · rw [active] at hg; cases hg; exact h.staging

/-- Without an active geometry no joints appear and no depth (R3, R10). -/
theorem ModelStep.noGeometry (m : ModelStep s t) (none : t.gst.active = none) (before : s.gst.active = Option.none →
      s.stk.joints = [] ∧ s.stk.quality = .none ∧ s.stk.depth = 0) :
    t.stk.joints = [] ∧ t.stk.quality = .none ∧ t.stk.depth = 0 := by
  cases m with
  | stands stk scale _ => rw [stk]; exact before (scale.active ▸ none)
  | evaluated u joints _ _ active stk _ scale =>
    have ev := evaluate_evaluated u
    have noneU : u.gst.active = Option.none := scale.active ▸ none
    obtain ⟨quality, depth⟩ := ev.depth.none (.inl noneU)
    obtain ⟨kept, -⟩ := ev.outside (by simp [quality])
    rw [stk]
    exact ⟨kept.trans (joints.nil (before (active ▸ noneU)).1), quality, depth⟩
  | committed u _ active _ _ scale => simp [scale.active, active] at none

/-- What a store step makes of STORE_CORRUPT, of the session without a geometry and of a commit in flight. -/
theorem StoreStep.parked (h : StoreStep s t) (inv : ParkedInv s) :
    t.gst.storeCorrupt = t.gst.active.isNone ∧
    (t.gst.active = none → s.gst.active = none ∧ t.znt.sessionOpen = false) ∧
    (t.gst.commit.isSome → s.phc.phase = .parked ∧ (s.gst.commit.isSome ∨ t.phc.phase = s.phc.phase) ∧
      t.znt.sessionOpen = false) := by
  obtain ⟨-, corrupt, noGeometry, commit⟩ := inv
  have same : SameStore s t → t.gst.storeCorrupt = t.gst.active.isNone := fun k => by rw [k.corrupt, k.active, corrupt]
  cases h with
  | stands k z =>
    refine ⟨same k, fun h => ?_, fun h => ?_⟩
    · obtain ⟨-, closed, -⟩ := noGeometry (k.active ▸ h)
      exact ⟨k.active ▸ h, z.session.trans closed⟩
    · obtain ⟨parked, closed⟩ := commit (k.commit ▸ h)
      exact ⟨parked, .inl (k.commit ▸ h), z.session.trans closed⟩
  | opened geometry noCommit _ k =>
    refine ⟨same k, fun h => absurd (k.active ▸ h) geometry, fun h => ?_⟩
    rw [k.commit, noCommit] at h
    simp at h
  | closed k _ after =>
    exact ⟨same k, fun h => ⟨k.active ▸ h, after⟩,
      fun h => ⟨(commit (k.commit ▸ h)).1, .inl (k.commit ▸ h), after⟩⟩
  | zoned _ k after =>
    exact ⟨same k, fun h => ⟨k.active ▸ h, after⟩,
      fun h => ⟨(commit (k.commit ▸ h)).1, .inl (k.commit ▸ h), after⟩⟩
  | staged i x before a _ c cm z =>
    exact ⟨by rw [c, a, corrupt], fun h => ⟨a ▸ h, z.session.trans before⟩,
      fun h => ⟨(commit (cm ▸ h)).1, .inl (cm ▸ h), z.session.trans before⟩⟩
  | requested parked before phase a _ c z =>
    exact ⟨by rw [c, a, corrupt], fun h => ⟨a ▸ h, z.session.trans before⟩,
      fun _ => ⟨parked, .inr phase, z.session.trans before⟩⟩
  | committed _ a _ c cm _ =>
    exact ⟨by rw [c, a]; rfl, fun h => by simp [a] at h, fun h => by simp [cm] at h⟩

theorem PhaseStep.sound (h : PhaseStep s t) : t.phc.Sound := by cases h <;> assumption

/-- PARKED is not left without a geometry or with a commit in flight (R49, R68). -/
theorem PhaseStep.stays (h : PhaseStep s t) (parked : s.phc.phase = .parked)
    (bound : s.gst.active = none ∨ s.gst.commit.isSome) : t.phc.phase = .parked := by
  cases h with
  | stands same _ => rw [same, parked]
  | moved to_ may phase _ _ =>
    by_contra left
    rcases may.leaves (phase ▸ left) with h | ⟨geometry, free⟩
    · exact h parked
    · rcases bound with h | h
      · exact geometry h
      · simp [free] at h

theorem Moved.parkedInv (m : Moved s t) (h : ParkedInv s) : ParkedInv t := by
  have phase := m.phases h.phases
  obtain ⟨corrupt, noGeometry, commit⟩ := m.store.parked h
  refine ⟨(phaseInv_iff t).mpr phase.sound, corrupt, fun none => ?_, fun some => ?_⟩
  · obtain ⟨noneS, closed⟩ := noGeometry none
    obtain ⟨parked, -, strings⟩ := h.noGeometry noneS
    exact ⟨phase.stays parked (.inl noneS), closed, m.model.noGeometry none fun _ => strings⟩
  · obtain ⟨parked, kept, closed⟩ := commit some
    refine ⟨?_, closed⟩
    rcases kept with inFlight | same
    · exact phase.stays parked (.inr inFlight)
    · exact same.trans parked

end

/-! The state after POR (R25, R68, R165). -/

theorem started_parkedInv (l : LineLevels) (s : State) : ParkedInv (started l s) where
  phases := ⟨by simp [started, Phc.start], by simp [started, Phc.start], by simp [started, Phc.start]⟩
  corrupt := by
    simp only [started, State.withEnv_gst, Gst.start]
    cases s.storeAtPor.good <;> rfl
  noGeometry h := by
    refine ⟨rfl, rfl, ?_, rfl, rfl⟩
    simp only [started, State.withEnv_gst, State.withEnv_stk, Stk.start] at h ⊢
    rw [h]
    rfl
  commit h := by simp [started, Gst.start] at h

theorem started_tableInv (l : LineLevels) (s : State) : TableInv (started l s) := by
  have active : ∀ g, (Gst.start s.storeAtPor).active = some g → g.InRange := fun g hg => by
    unfold Gst.start at hg
    dsimp only at hg
    split at hg
    · cases hg; exact Geometry.ofWords_inRange _
    · cases hg
  exact ⟨Geometry.ofWords_inRange _, active, fresh_agrees _ fun y hy => (jointRange active y hy).1⟩

theorem started_stringSound (l : LineLevels) (s : State) : StringSound (started l s) where
  depth := ⟨fun _ => ⟨rfl, rfl⟩, fun _ _ h => (by cases h), fun _ _ h => (by cases h), fun _ _ h => (by cases h)⟩
  measured := fun _ _ h => (by cases h)

/-! The obligations. -/

/-- Settles O53: what one command can do to the phases, the store and the session keeps them consistent. -/
theorem phasesStayConsistent : Obligations.PhasesStayConsistent :=
  fun _ _ h e => step_keeps Moved.parkedInv started_parkedInv h e

/-- Settles O58: every rule that changes a joint keeps it in agreement with its geometry. -/
theorem jointTableStaysSound : Obligations.JointTableStaysSound :=
  fun _ _ h e => step_keeps Moved.tableInv started_tableInv h e

/-- Settles O60: whatever moves a joint, the datum or the measured lengths evaluates, and an evaluation from a table in
agreement leaves the depth and the distribution of the model. -/
theorem depthFollowsTheModel : Obligations.DepthFollowsTheModel := by
  intro s t depth table conserved distributed e
  have before : TableInv s ∧ StringSound s := ⟨table, depth, (measuredHeld_iff s).mpr ⟨conserved, distributed⟩⟩
  obtain ⟨-, depth, measured⟩ := step_keeps (P := fun s => TableInv s ∧ StringSound s)
    (fun m h => ⟨m.tableInv h.1, m.stringSound h.1 h.2⟩)
    (fun l s => ⟨started_tableInv l s, started_stringSound l s⟩) before e
  exact ⟨depth, (measuredHeld_iff t).mp measured⟩

/-- Settles O51: no command but POR writes the geometry, the staging record or a zone while a session is OPEN, and an
evaluation only deepens bottom-hole depth. -/
theorem openSessionFreezesTheTables : Obligations.OpenSessionFreezesTheTables := by
  intro i s t inv sessionOpen e notPor
  have m := exec_moved e notPor
  have noCommit : s.committing = false := by
    by_contra h
    obtain ⟨-, closed⟩ := inv.commit (by simpa only [State.committing, Bool.not_eq_false] using h)
    simp [sessionOpen] at closed
  refine ⟨?_, ?_⟩
  · cases m.model with
    | stands _ _ bottomHole =>
      rcases bottomHole with h | h
      · exact h.ge
      · simp [sessionOpen] at h
    | evaluated u _ bottomHole session _ _ reached _ =>
      have deeper := (evaluate_evaluated u).bottomHole
      rw [reached, deeper, ← bottomHole]
      split
      · exact le_max_left _ _
      · exact le_refl _
    | committed u inFlight _ _ _ _ => simp [noCommit] at inFlight
  · cases m.store with
    | stands k z => exact ⟨k.active, k.staging, z.zones, fun _ => z.pile⟩
    | opened _ _ closed _ => simp [sessionOpen] at closed
    | closed k zones after => exact ⟨k.active, k.staging, zones, fun h => by simp [after] at h⟩
    | zoned before _ _ => simp [sessionOpen] at before
    | staged _ _ before _ _ _ _ _ => simp [sessionOpen] at before
    | requested _ before _ _ _ _ _ => simp [sessionOpen] at before
    | committed inFlight _ _ _ _ _ => simp [noCommit] at inFlight

/-! The joints that leave LOCKED. -/

/-- A LOCKED joint stands at the lock rule (R17). -/
theorem lockAll_getElem?_of_locked (js : List Joint) (gs : List JointGeometry) {j : Nat} {x : Joint} (hx : js[j]? = some x)
    (locked : x.isLocked = true) : (lockAll js gs)[j]? = some x := by
  induction js generalizing gs j with
  | nil => simp at hx
  | cons y js ih =>
    cases gs with
    | nil => simpa [lockAll] using hx
    | cons g gs =>
      cases j with
      | zero =>
        obtain rfl : y = x := by simpa using hx
        simp [lockAll, Joint.lock, locked]
      | succ j => simpa [lockAll] using ih gs (j := j) (by simpa using hx)

/-- CONFIRM_FREE leaves a LOCKED joint as it is (R23). -/
theorem confirmNamed_getElem?_of_locked (a : Word) (n : Nat) (js : List Joint) {j : Nat} {x : Joint}
    (hx : js[j]? = some x) (locked : x.isLocked = true) : (confirmNamed a n js)[j]? = some x := by
  have certain : x.isUncertain = false := by
    revert locked
    unfold Joint.isLocked Joint.isUncertain
    cases x.state <;> simp
  induction js generalizing n j with
  | nil => simp at hx
  | cons y js ih =>
    cases j with
    | zero =>
      obtain rfl : y = x := by simpa using hx
      simp [confirmNamed, certain]
    | succ j => simpa [confirmNamed] using ih (n + 1) (j := j) (by simpa using hx)

theorem Joint.not_free_of_locked {x : Joint} (locked : x.isLocked = true) : x.state ≠ .free := by
  intro h
  simp [Joint.isLocked, h] at locked

/-- A LOCKED joint that the rules have made FREE was made so by the release rule (R18). -/
theorem JointsMet.freed_of_locked {s : State} {js : List Joint} (m : JointsMet s js) {j : Nat} {x : Joint}
    (hx : s.stk.joints[j]? = some x) (locked : x.isLocked = true) (free : (js.map Joint.state)[j]? = some .free) :
    s.phc.phase = .releasing ∧ s.keyLoad ≤ s.gst.settings.fRelease := by
  have stands : js[j]? ≠ some x := fun h => by
    rw [List.getElem?_map, h] at free
    exact Joint.not_free_of_locked locked (by simpa using free)
  cases m with
  | stand => exact absurd hx stands
  | locked => exact absurd (lockAll_getElem?_of_locked _ _ hx locked) stands
  | doubted => simp [List.getElem?_map, hx, Joint.doubted, locked] at free
  | freed phase load => exact ⟨phase, load⟩
  | confirmed a => exact absurd (confirmNamed_getElem?_of_locked a 0 _ hx locked) stands

/-- A rebuild leaves every joint UNCERTAIN (R27). -/
theorem rebuild_states (k : Stk) (old : Option Geometry) (g : Geometry) (rope head : Int) :
    (k.rebuild old g rope head).joints.map Joint.state = g.joints.map fun _ => .uncertain := by
  have placed : ∀ e, (({ k with joints := g.freshJoints } : Stk).distribute g e).joints.map Joint.state =
      g.joints.map fun _ => .uncertain := fun e => by
    simp [Stk.distribute, fill_state, Geometry.freshJoints, Function.comp_def]
  unfold Stk.rebuild
  dsimp only
  split
  · exact placed _
  · split
    · exact placed _
    · exact placed _

/-- A joint passes from LOCKED to FREE by the release rule alone (R18). -/
theorem ModelStep.freed_of_locked {s t : State} (m : ModelStep s t) {j : Nat} {x y : Joint}
    (hx : s.stk.joints[j]? = some x) (hy : t.stk.joints[j]? = some y) (locked : x.isLocked = true)
    (free : y.isFree = true) : s.phc.phase = .releasing ∧ s.keyLoad ≤ s.gst.settings.fRelease := by
  have free : (t.stk.joints.map Joint.state)[j]? = some .free := by
    rw [List.getElem?_map, hy]
    simpa [Joint.isFree] using free
  cases m with
  | stands stk _ _ =>
    rw [stk.joints] at free
    exact JointsMet.stand.freed_of_locked hx locked free
  | evaluated u joints _ _ _ stk _ _ =>
    have states : (evaluate u).stk.joints.map Joint.state = u.stk.joints.map Joint.state := (evaluate_evaluated u).states
    rw [stk.joints, states] at free
    exact joints.freed_of_locked hx locked free
  | committed u _ _ rebuilt stk _ =>
    have states : (evaluate u).stk.joints.map Joint.state = u.stk.joints.map Joint.state := (evaluate_evaluated u).states
    rw [stk, states, rebuilt, rebuild_states, List.getElem?_map] at free
    cases h : s.gst.staging.joints[j]? <;> simp [h] at free

/-! The phases. -/

/-- POR leaves the phase at PARKED: the ESTOP it finds asserted moves it no further (R68, R146). -/
theorem decideEstop_started_aside (l : LineLevels) (s : State) :
    Aside (started l s) (decideEstop (started l s)) := by
  have aside := (decideCondition_effect .estop true (started l s)).aside
  unfold decideEstop
  split
  · unfold estopRaised
    dsimp only
    rw [if_pos (by rw [aside.phc]; rfl)]
    exact aside
  · exact .refl _

/-- Settles O52: the moves of the phase are those of `PhaseMove`, and only the release rule frees a LOCKED joint. -/
theorem phasesAndJointsMoveByTheRules : Obligations.PhasesAndJointsMoveByTheRules := by
  intro i s t inv e
  by_cases isPor : ∃ l, i = .por l
  · obtain ⟨l, rfl⟩ := isPor
    have t_eq : t = settle (decideEstop (started l s)) := by injection e with e; exact e.symm
    have phc : t.phc = .start := by rw [t_eq, settle_phc, (decideEstop_started_aside l s).phc]; rfl
    refine ⟨by simp [phc, Phc.start], by simp [phc, Phc.start], by simp [phc, Phc.start], by simp [phc, Phc.start],
      fun j x y _ hy _ free => ?_⟩
    rw [t_eq, settle_stk, (decideEstop_started_aside l s).stk] at hy
    simp only [started, State.withEnv_stk, Stk.start, List.getElem?_map, Option.map_eq_some_iff] at hy
    obtain ⟨g, -, rfl⟩ := hy
    simp [Joint.isFree] at free
  · have m := exec_moved e fun l hl => isPor ⟨l, hl⟩
    have joints : ∀ (j : Nat) (x y : Joint), s.stk.joints[j]? = some x → t.stk.joints[j]? = some y →
        x.isLocked = true → y.isFree = true → s.phc.phase = .releasing ∧ s.keyLoad ≤ s.gst.settings.fRelease :=
      fun _ _ _ hx hy locked free => m.model.freed_of_locked hx hy locked free
    cases m.phases inv with
    | stands phase _ =>
      rw [phase]
      exact ⟨fun h n => absurd h n, fun h n => absurd h n, fun n => absurd rfl n, fun h n => absurd h n, joints⟩
    | moved to_ may phase latch _ =>
      rw [phase]
      exact ⟨fun h _ => may.releasing h, fun h _ => may.drill h, fun _ => latch, fun h _ => may.engaging h, joints⟩

end Sys2Proof.Machine
end

