-- ==== Sys2Proof/Proofs/StartUp.lean ====
section
/-! The machine right after reset: what each block holds, and that the invariants hold there. -/

namespace Sys2Proof.Machine

/-- Settles O4: each block as its rule starts it. -/
theorem resetLeavesTheStartUpState : Obligations.ResetLeavesTheStartUpState :=
  ⟨⟨rfl, rfl, rfl, rfl, rfl, rfl, rfl, fun c => by cases c <;> rfl⟩, rfl, ⟨rfl, rfl, rfl, rfl, rfl⟩,
    ⟨rfl, rfl, rfl, rfl, rfl⟩, ⟨by decide, rfl, rfl⟩, ⟨rfl, rfl, rfl, rfl, rfl, rfl, rfl, rfl, rfl, rfl⟩,
    ⟨fun d => by cases d <;> rfl, rfl⟩, ⟨fun src => by cases src <;> rfl, rfl, rfl⟩, ⟨rfl, rfl, rfl⟩,
    fun p => by cases p <;> rfl, rfl⟩

theorem reset_entry (src : Source) :
    State.reset.entry src = ⟨false, false, src.defaultMode, src.defaultAction, none, none, none⟩ := by
  cases src <;> rfl

theorem reset_grant (d : Drive) : State.reset.grant d = ⟨.unacked, 0, 0, 0, false, false, false, false⟩ := by
  cases d <;> rfl

/-- The blank store loads no geometry, with STORE_CORRUPT (R165). -/
theorem reset_parkedInv : ParkedInv .reset where
  phases := ⟨by decide, by decide, by decide⟩
  corrupt := rfl
  noGeometry _ := ⟨rfl, rfl, rfl, rfl, rfl⟩
  commit h := by cases h

/-- Nothing is granted, and every drive waits for its acknowledgement (R94, R112). -/
theorem reset_grantInv : GrantInv .reset where
  envelope := by constructor <;> decide
  within d := by cases d <;> decide
  inactive d _ := by rw [reset_grant]
  rst d := by cases d <;> decide

/-- No override is in force, and every permit is low (R112, R146). -/
theorem reset_permitInv : PermitInv .reset := by
  have free : ∀ x d, ¬State.reset.reached x d := fun x d ⟨src, _, o, h, _⟩ => by simp [reset_entry] at h
  have noHold : ∀ src d, ¬State.reset.holdsBack src d := fun src d h => by simp [State.holdsBack, reset_entry] at h
  have inactive : ∀ d, (State.reset.grant d).isActive = false := fun d => by rw [reset_grant]; rfl
  constructor
  case limits => exact fun d => iff_of_false (by cases d <;> decide) (free _ _)
  case drops => exact fun d => iff_of_false (by cases d <;> decide) (free _ _)
  case holds => exact fun d => iff_of_false (by simp [reset_grant]) fun ⟨src, h⟩ => noHold src d h
  case brake => rfl
  all_goals exact iff_of_false (by decide) fun ⟨active, _⟩ => by simp [inactive] at active

/-- The FIFO is empty (R159). -/
theorem reset_recordInv : RecordInv .reset where
  size := by decide
  numbers i r h := by cases h
  kinds r h := by cases h
  gap h := by cases h

/-- No joint, and the least geometry in staging (R3, R161). -/
theorem reset_tableInv : TableInv .reset where
  staging := Geometry.least_inRange
  active _ h := by cases h
  table := .nil

/-- No zone contains any depth (R114). -/
theorem reset_zoneInv : ZoneInv .reset where
  mask := by decide
  combined := by decide
  limits := by decide
  entries i := by
    have : State.reset.znt.zones[i] = Zone.start := by simp [State.reset, Znt.start]
    rw [this]
    constructor <;> decide

/-- Settles O5, invariant by invariant. -/
theorem invariantsHoldAtReset : Obligations.InvariantsHoldAtReset :=
  ⟨reset_parkedInv, fun h => (by cases h.1), reset_grantInv, reset_permitInv, ⟨rfl, rfl, rfl, rfl⟩, reset_recordInv,
    reset_tableInv, fun _ => (by decide +kernel), reset_zoneInv,
    ⟨fun _ => ⟨rfl, rfl⟩, fun _ h => (by cases h), fun _ h => (by cases h), fun _ h => (by cases h)⟩,
    fun _ h => (by cases h), fun _ h => (by cases h), ⟨rfl, by decide, by decide⟩, ⟨by decide, by decide⟩⟩

end Sys2Proof.Machine
end

