-- ==== Sys2Proof/Proofs/EvaluatedEvents.lean ====
section
/-! The commands that evaluate the string model once and hand on no raise: what they leave of it, of DEPTH_DISAGREE and of
the records, said once; then DATUM, CONFIRM_FREE and the position counts. -/

namespace Sys2Proof.Machine

/-- What an event from `s` leaves whose evaluation starts from the string model `k` with the records `b` asked for before
it: the string model evaluated, DEPTH_DISAGREE decided and no other source, and the records of the evaluation (R11, R14,
R151). -/
structure EvaluatedFrom (k : Stk) (b : Brc) (s t : State) : Prop where
  evaluated : Evaluated k s t
  decided : DisagreementDecided s t
  only : OnlyDisagreement s t
  brc : t.brc = (b.eventsAsked s t (newlyPresent s t)).stepAsked s t

section
variable {k : Stk} {s t : State} (h : Evaluated k s t)
include h

theorem Evaluated.ropeOffset : t.stk.ropeOffset = k.ropeOffset := by rw [← h.rest]
theorem Evaluated.strokeOffset : t.stk.strokeOffset = k.strokeOffset := by rw [← h.rest]
theorem Evaluated.datumSet : t.stk.datumSet = k.datumSet := by rw [← h.rest]
theorem Evaluated.aF : t.stk.aF = k.aF := by rw [← h.rest]
theorem Evaluated.aR : t.stk.aR = k.aR := by rw [← h.rest]
theorem Evaluated.reverseRun : t.stk.reverseRun = k.reverseRun := by rw [← h.rest]
theorem Evaluated.taut : t.stk.taut = k.taut := by rw [← h.rest]
theorem Evaluated.chainClosed : chainClosed t.stk.joints = chainClosed k.joints := chainClosed_congr h.states
end

theorem afterEvaluation_from {s u : State} (znt : u.znt = s.znt) (phc : u.phc = s.phc)
    (entries : ∀ x, u.entry x = s.entry x) (lines : u.lines = s.lines) :
    EvaluatedFrom u.stk u.brc s (afterEvaluation s.stk [] (evaluate u)) := by
  have e := afterEvaluation_effect s.stk [] (evaluate u)
  refine ⟨?_, ?_, ?_, ?_⟩
  · exact (evaluate_evaluated u).congr (by rw [znt]) e.stk_eq (by rw [e.gst_eq]) (by rw [e.msu_eq]) (by rw [e.msu_eq])
  · exact (afterEvaluation_disagreement s.stk (by simp) (evaluate u)).congr lines.symm (entries _).symm rfl rfl rfl
  · intro x hx
    rw [afterEvaluation_onlyDisagreement s.stk (evaluate u) x hx]
    exact entries x
  · have records := afterEvaluation_brc (s0 := s) (s := evaluate u) (raised := []) (by simp) znt
      (congrArg Phc.phase phc) entries
    rw [records, ite_self, List.nil_append]
    rfl

/-- The PHC after such an event (R65, R66). -/
theorem afterEvaluation_evaluate_phc (s u : State) : (afterEvaluation s.stk [] (evaluate u)).phc =
    advancedPhc u.gst.settings (afterEvaluation s.stk [] (evaluate u)).stk
      (modelMoved s.stk (afterEvaluation s.stk [] (evaluate u)).stk) u.phc := by
  rw [afterEvaluation_phc, (afterEvaluation_effect s.stk [] (evaluate u)).stk_eq]
  rfl

theorem Evaluated.settled {k : Stk} {s t : State} (h : Evaluated k s t) : Evaluated k s (settle t) :=
  h.congr rfl rfl rfl rfl rfl

@[simp] theorem settle_jointStates (s : State) : (settle s).jointStates = s.jointStates := rfl

theorem EvaluatedFrom.settled {k : Stk} {b : Brc} {s t : State} (h : EvaluatedFrom k b s t) :
    EvaluatedFrom k b s (settle t) :=
  ⟨h.evaluated.congr rfl rfl rfl rfl rfl, h.decided.congr rfl rfl rfl rfl rfl, h.only, h.brc⟩

/-- Such an event at a request on the cab port, from its frame to the settled state. -/
theorem EvaluatedFrom.cab {k : Stk} {b : Brc} {s : State} {r : State × Answer}
    (h : EvaluatedFrom k b (s.frameEnded .cab) r.1) : EvaluatedFrom k b s (settle (cabEnded r)) :=
  ⟨h.evaluated.congr rfl rfl rfl rfl rfl, h.decided.congr rfl rfl rfl rfl rfl, h.only, h.brc⟩

/-- Outside a session nothing is recorded (R148). -/
theorem Brc.eventsAsked_closed (b : Brc) {s : State} (h : s.znt.sessionOpen = false) (t : State) (raised : List Source) :
    b.eventsAsked s t raised = b := by
  have ask : ∀ (b : Brc) d x, b.ask false d d x = b := fun _ _ _ => rfl
  rw [Brc.eventsAsked_eq, h, Brc.askAll]
  generalize s.znt.markRecords s.znt.mask t.znt.mask ++ raised.map .faultRaised ++
    phaseRecord s.phc.phase t.phc.phase = ds
  induction ds with
  | nil => rfl
  | cons d ds ih => rw [List.foldl_cons, ask, ih]

theorem Brc.stepAsked_closed (b : Brc) {s : State} (h : s.znt.sessionOpen = false) (t : State) :
    b.stepAsked s t = b := by
  simp [Brc.stepAsked, h]

theorem EvaluatedFrom.brc_closed {k : Stk} {b : Brc} {s t : State} (h : EvaluatedFrom k b s t)
    (closed : s.znt.sessionOpen = false) : t.brc = b := by
  rw [h.brc, Brc.stepAsked_closed _ closed, Brc.eventsAsked_closed _ closed]

/-! DATUM. -/

/-- In VALID the disagreement is what the clamp of the distribution takes away (R13, R14). -/
theorem evaluate_disagreement {u : State} {g : Geometry} (active : u.gst.active = some g)
    (datum : u.stk.datumSet = true) (taut : u.stk.taut = true) :
    (evaluate u).stk.disagreement = u.pRope - u.headPos - g.lCl - lockedSum u.stk.joints -
      clamp 0 (freeMax u.stk.joints g.joints) (u.pRope - u.headPos - g.lCl - lockedSum u.stk.joints) := by
  have stk : (evaluate u).stk = _ :=
    (u.stk.decideDepth u.gst.active u.pRope u.headPos).advanceBottomHole_spec u.znt.sessionOpen
  rw [stk]
  simp [Stk.decideDepth, active, Stk.decideQuality, datum, taut, Stk.distribute]

/-- Non-locked joints within their ranges hold together no less than nothing and no more than their maxima (R13). -/
theorem freeExt_inRange {js : List Joint} {gs : List JointGeometry}
    (h : List.Forall₂ (fun j y => j.isLocked = true ∨ (0 ≤ j.ext ∧ j.ext ≤ y.eMax)) js gs) :
    0 ≤ extSum js - lockedSum js ∧ extSum js - lockedSum js ≤ freeMax js gs := by
  induction h with
  | nil => simp [extSum, lockedSum, freeMax]
  | @cons j g js gs hj _ ih =>
    simp only [extSum, lockedSum] at ih ⊢
    by_cases l : j.isLocked
    · simp only [List.map_cons, List.sum_cons, List.filter_cons, l, if_true, freeMax]
      omega
    · have range : 0 ≤ j.ext ∧ j.ext ≤ g.eMax := by simpa [l] using hj
      simp only [List.map_cons, List.sum_cons, List.filter_cons, l, if_false, Bool.false_eq_true, freeMax]
      omega

/-- What a DATUM taken at `d` leaves (R8, R121). -/
theorem datumTaken_string (d : Int) {g : Geometry} {s : State} (active : s.gst.active = some g) :
    let t := datumTaken d g s
    t.stk.quality = (if s.stk.taut then .valid else if chainClosed s.stk.joints then .strokeOnly else .held) ∧
    t.stk.depth = 10 * d ∧ t.stk.ropeOffset + s.msu.ropeMm = 10 * d ∧ t.stk.datumSet = true ∧
    t.stk.strokeOffset + s.msu.strokeMm = 10 * d - g.lCl - extSum s.stk.joints ∧
    EvaluatedFrom { s.stk with
      ropeOffset := t.stk.ropeOffset, strokeOffset := t.stk.strokeOffset, datumSet := true, disagreement := 0
      heldDepth := 10 * d } s.brc s t ∧
    (t.stk.quality ≠ .valid ∨
        List.Forall₂ (fun j y => j.isLocked = true ∨ (0 ≤ j.ext ∧ j.ext ≤ y.eMax)) s.stk.joints g.joints →
      t.stk.disagreement = 0) := by
  generalize hu : s.withStk (s.stk.datum (10 * d) g.lCl s.msu.ropeMm s.msu.strokeMm) = u
  have stk : u.stk = { s.stk with
      ropeOffset := 10 * d - s.msu.ropeMm, strokeOffset := 10 * d - g.lCl - extSum s.stk.joints - s.msu.strokeMm
      datumSet := true, disagreement := 0, heldDepth := 10 * d } := by rw [← hu]; rfl
  have whole : EvaluatedFrom u.stk u.brc s (datumTaken d g s) := by
    rw [datumTaken, hu]
    exact afterEvaluation_from (by rw [← hu]; rfl) (by rw [← hu]; rfl) (fun _ => by rw [← hu]; rfl) (by rw [← hu]; rfl)
  have e : Effect [.stk, .phc, .znt, .faults, .brc, .env, .grants, .pif] s (datumTaken d g s) := by
    rw [datumTaken, hu]
    exact ((hu ▸ withStk_effect s _ : Effect [.stk] s u).mono (by simp)).trans
      (((evaluate_effect u).mono (by simp)).trans ((afterEvaluation_effect s.stk [] (evaluate u)).mono (by simp)))
  have disagreement : s.stk.taut = true → (datumTaken d g s).stk.disagreement =
      extSum s.stk.joints - lockedSum s.stk.joints -
        clamp 0 (freeMax s.stk.joints g.joints) (extSum s.stk.joints - lockedSum s.stk.joints) := fun taut => by
    rw [datumTaken, hu, (afterEvaluation_effect _ _ _).stk_eq, evaluate_disagreement (g := g) (by rw [← hu]; exact active)
      (by rw [stk]) (by rw [stk]; exact taut)]
    have measured : u.pRope - u.headPos - g.lCl = extSum s.stk.joints := by
      have msu : u.msu = s.msu := by rw [← hu]; rfl
      rw [State.pRope, State.headPos, stk, msu]
      ring
    rw [measured, stk]
  have brc : u.brc = s.brc := by rw [← hu]; rfl
  rw [brc] at whole
  generalize datumTaken d g s = t at *
  dsimp only
  have active : t.gst.active = some g := by rw [e.gst_eq, active]
  have msu : t.msu = s.msu := e.msu_eq
  have ev := whole.evaluated
  have rope : t.stk.ropeOffset = 10 * d - s.msu.ropeMm := by rw [ev.ropeOffset, stk]
  have stroke : t.stk.strokeOffset = 10 * d - g.lCl - extSum s.stk.joints - s.msu.strokeMm := by
    rw [ev.strokeOffset, stk]
  have set : t.stk.datumSet = true := by rw [ev.datumSet, stk]
  have taut : t.stk.taut = s.stk.taut := by rw [ev.taut, stk]
  have chain : chainClosed t.stk.joints = chainClosed s.stk.joints := by rw [ev.chainClosed, stk]
  have outside := ev.outside
  have heldDepth := ev.held
  obtain ⟨-, valid, strokeOnly, held⟩ := ev.depth
  rw [stk] at outside heldDepth
  have quality : t.stk.quality =
        (if s.stk.taut then .valid else if chainClosed s.stk.joints then .strokeOnly else .held) ∧
      t.stk.depth = 10 * d := by
    rw [← taut, ← chain]
    cases ht : t.stk.taut
    · cases hc : chainClosed t.stk.joints
      · obtain ⟨quality, depth⟩ := held g active set ht hc
        exact ⟨quality, by rw [depth, heldDepth, if_neg (by simp [quality])]⟩
      · obtain ⟨quality, depth⟩ := strokeOnly g active set ht hc
        obtain ⟨joints, -⟩ := outside (by simp [quality])
        refine ⟨quality, ?_⟩
        rw [depth, State.headPos, stroke, joints, msu]
        ring
    · obtain ⟨quality, depth⟩ := valid g active set ht
      exact ⟨quality, by rw [depth, State.pRope, rope, msu]; ring⟩
  refine ⟨quality.1, quality.2, by rw [rope]; ring, set, by rw [stroke]; ring, by rw [rope, stroke, ← stk]; exact whole,
    fun h => ?_⟩
  by_cases isValid : t.stk.quality = .valid
  · have isTaut : s.stk.taut = true := by
      by_contra slack
      rw [quality.1, if_neg slack] at isValid
      split at isValid <;> cases isValid
    have within := freeExt_inRange (h.resolve_left (not_not_intro isValid))
    rw [disagreement isTaut]
    unfold clamp
    omega
  · exact (outside isValid).2

/-- DATUM's part of the frame: it is checked with the session CLOSED, so that nothing is recorded (R121, R148). -/
theorem datumTaken_effect (d : Int) (g : Geometry) (s : State) :
    Effect [.stk, .phc, .znt, .faults, .brc, .env, .grants, .pif] s (datumTaken d g s) := by
  unfold datumTaken
  exact ((withStk_effect s _).mono (by simp)).trans (((evaluate_effect _).mono (by simp)).trans
    ((afterEvaluation_effect s.stk [] _).mono (by simp)))

/-- Outside HOIST the PHC stands at a DATUM (R65). -/
theorem datumTaken_phc (d : Int) (g : Geometry) {s : State} (h : s.phc.phase ≠ .hoist) : (datumTaken d g s).phc = s.phc := by
  rw [datumTaken, afterEvaluation_evaluate_phc]
  exact advancedPhc_of_not_hoist h _ _ _

/-- Settles O21: the refusals in order, then the evaluation of `datumTaken_string`. -/
theorem datumSetsTheDepth : Obligations.DatumSetsTheDepth := by
  intro a b s ready
  refine ⟨_, exec_cabRequest (c := .datum) ready rfl rfl rfl a b, ?_⟩
  simp only [serve, serveDatum, State.committing, frameEnded_gst, frameEnded_znt, frameEnded_phc, State.phaseCode,
    State.pileNumber]
  by_cases busy : s.gst.commit.isSome = true
  · simp only [eq_true busy, if_true]
    exact cabEnded_refused s _ _ _
  simp only [eq_false busy, if_false]
  cases active : s.gst.active with
  | none => exact cabEnded_refused s _ _ _
  | some g =>
    simp only [reduceCtorEq, if_false]
    by_cases bad : b ≠ 0 ∨ a.toInt < -2000 ∨ 15000 < a.toInt
    · simp only [eq_true bad, if_true]
      exact cabEnded_refused s _ _ _
    simp only [eq_false bad, if_false]
    by_cases frozen : s.znt.sessionOpen = true
    · simp only [eq_true frozen, if_true]
      exact cabEnded_refused s _ _ _
    simp only [eq_false frozen, if_false]
    by_cases phase : s.phc.phase ≠ .parked ∧ s.phc.phase ≠ .spinOff
    · simp only [eq_true phase, if_true]
      exact cabEnded_refused s _ _ _
    simp only [eq_false phase, if_false]
    have closed : s.znt.sessionOpen = false := by simpa using frozen
    have e := datumTaken_effect a.toInt g (s.frameEnded .cab)
    obtain ⟨quality, depth, rope, set, stroke, whole, exact⟩ :=
      datumTaken_string a.toInt (s := s.frameEnded .cab) active
    have phc := datumTaken_phc a.toInt g (s := s.frameEnded .cab) fun h => phase (by simp [show s.phc.phase = .hoist from h])
    generalize datumTaken a.toInt g (s.frameEnded .cab) = t at *
    have port := cabEnded_answered (r := (t, answer .ok a.toInt t.stk.quality.code)) e
    have keeps := cabEnded_keeps (r := (t, answer .ok a.toInt t.stk.quality.code))
      (d := [.stk, .phc, .znt, .env, .grants, .faults, .brc, .gst, .pif]) e (by simp) (by simp)
    have all := whole.cab (r := (t, answer .ok a.toInt t.stk.quality.code))
    refine ⟨port, quality, depth, rope, set, fun g' hg => ?_, ?_, all.evaluated.states, all.decided, all.only, ?_, ?_, ?_⟩
    · cases hg
      exact ⟨stroke, all.evaluated, exact⟩
    · rw [all.evaluated.bottomHole]
      simp [closed]
    · rw [settle_phc, cabEnded_phc, phc, frameEnded_phc]
    · rw [settle_gst, cabEnded_gst, e.gst_eq, frameEnded_gst, ← active]
    · refine ⟨fun x hx => ?_, keeps.2⟩
      by_cases isBrc : x = .brc
      · rw [isBrc]
        exact all.brc_closed closed
      · exact keeps.1 x (by simp_all)

end Sys2Proof.Machine
end

