-- ==== Sys2Proof/Proofs/ConfirmFree.lean ====
section
/-! CONFIRM_FREE: the joints it frees, its record and its evaluation (R23). -/

namespace Sys2Proof.Machine

/-- The joints CONFIRM_FREE frees: those named that are UNCERTAIN, from number `n` on (R23). -/
def freedBy (a : Word) (n : Nat) (js : List Joint) : List Bool :=
  js.mapIdx fun j x => a.getLsbD (n + j) && x.isUncertain

theorem freedBy_cons (a : Word) (n : Nat) (x : Joint) (js : List Joint) :
    freedBy a n (x :: js) = (a.getLsbD n && x.isUncertain) :: freedBy a (n + 1) js := by
  simp [freedBy, List.mapIdx_cons, Nat.add_assoc, Nat.add_comm 1]

theorem confirmNamed_eq (a : Word) (n : Nat) (js : List Joint) : confirmNamed a n js =
    List.zipWith (fun (f : Bool) (x : Joint) => if f then { x with state := .free } else x) (freedBy a n js) js := by
  induction js generalizing n with
  | nil => rfl
  | cons x js ih => rw [freedBy_cons, confirmNamed, ih]; rfl

/-- The mask is empty exactly where no joint is freed. -/
theorem confirmedMask_eq_zero (a : Word) (n : Nat) (js : List Joint) :
    confirmedMask a n js = 0 ↔ (freedBy a n js).all (fun f => !f) = true := by
  induction js generalizing n with
  | nil => simp [confirmedMask, freedBy]
  | cons x js ih =>
    rw [freedBy_cons, confirmedMask, Nat.add_eq_zero_iff, ih, List.all_cons]
    cases a.getLsbD n && x.isUncertain <;> simp

/-- The states of the joints once those named are freed. -/
theorem confirmNamed_states (a : Word) (n : Nat) (js : List Joint) : (confirmNamed a n js).map Joint.state =
    List.zipWith (fun (f : Bool) (x : Joint) => if f then .free else x.state) (freedBy a n js) js := by
  rw [confirmNamed_eq, List.map_zipWith]
  congr
  funext f x
  cases f <;> rfl

theorem confirmNamed_of_none (a : Word) (n : Nat) {js : List Joint} (h : confirmedMask a n js = 0) :
    confirmNamed a n js = js := by
  induction js generalizing n with
  | nil => rfl
  | cons x js ih =>
    rw [confirmedMask, Nat.add_eq_zero_iff] at h
    rw [confirmNamed, ih _ h.2, if_neg fun named => by simp [named] at h]

/-- CONFIRM_FREE's part of the frame. -/
theorem jointsConfirmed_effect (a : Word) (s : State) :
    Effect [.stk, .phc, .znt, .faults, .brc, .env, .grants, .pif] s (jointsConfirmed a s) := by
  unfold jointsConfirmed
  dsimp only
  split
  · exact .refl s
  · exact ((withStk_effect s _).mono (by simp)).trans (((askEvent_effect _ _).mono (by simp)).trans
      (((evaluate_effect _).mono (by simp)).trans ((afterEvaluation_effect s.stk [] _).mono (by simp))))

/-- What CONFIRM_FREE leaves where it frees a joint (R11, R23). -/
theorem jointsConfirmed_from (a : Word) {s : State} (h : confirmedMask a 0 s.stk.joints ≠ 0) :
    EvaluatedFrom { s.stk with joints := confirmNamed a 0 s.stk.joints }
      (s.brc.ask s.znt.sessionOpen s.stk.depth s.stk.depth (.event (.freed (confirmedMask a 0 s.stk.joints))))
      s (jointsConfirmed a s) ∧
    (jointsConfirmed a s).phc = advancedPhc s.gst.settings (jointsConfirmed a s).stk
      (modelMoved s.stk (jointsConfirmed a s).stk) s.phc := by
  have taken : jointsConfirmed a s = afterEvaluation s.stk [] (evaluate (askEvent
      (.freed (confirmedMask a 0 s.stk.joints)) (s.withStk { s.stk with joints := confirmNamed a 0 s.stk.joints }))) := by
    simp only [jointsConfirmed, h, if_false]
  rw [taken]
  exact ⟨afterEvaluation_from (s := s) (u := askEvent (.freed (confirmedMask a 0 s.stk.joints))
      (s.withStk { s.stk with joints := confirmNamed a 0 s.stk.joints })) rfl rfl (fun _ => rfl) rfl,
    afterEvaluation_evaluate_phc s (askEvent (.freed (confirmedMask a 0 s.stk.joints))
      (s.withStk { s.stk with joints := confirmNamed a 0 s.stk.joints }))⟩

theorem mayConfirm_iff (p : Phase) (d : Int) :
    (!p.mayConfirm || decide (0 ≤ d)) = true ↔ p ∉ [.parked, .hoist, .spinOff] ∨ 0 ≤ d := by
  cases p <;> simp [Phase.mayConfirm]

/-- Settles O20: the refusals in order, then the evaluation of `jointsConfirmed_from`, or nothing. -/
theorem confirmFreeFreesUncertainJoints : Obligations.ConfirmFreeFreesUncertainJoints := by
  intro a b s ready
  refine ⟨_, exec_cabRequest (c := .confirmFree) ready rfl rfl rfl a b, ?_⟩
  simp only [serve, serveConfirmFree, State.committing, mayConfirm_iff]
  simp only [frameEnded_gst, frameEnded_stk, frameEnded_phc]
  cases active : s.gst.active with
  | none => exact cabEnded_refusedOpen s _
  | some g =>
    dsimp only
    by_cases busy : s.gst.commit.isSome = true
    · simp only [eq_true busy, if_true]
      exact cabEnded_refusedOpen s _
    simp only [eq_false busy, if_false]
    by_cases phase : s.phc.phase ∉ [.parked, .hoist, .spinOff] ∨ 0 ≤ s.stk.depth
    · simp only [eq_true phase, if_true]
      exact cabEnded_refusedOpen s _
    simp only [eq_false phase, if_false]
    by_cases bad : a = 0 ∨ 2 ^ g.n.toNat ≤ a.toNat ∨ b ≠ 0
    · simp only [eq_true bad, if_true]
      exact cabEnded_refusedOpen s _
    simp only [eq_false bad, if_false]
    have named : (s.stk.joints.mapIdx fun j x => a.getLsbD j && x.isUncertain) = freedBy a 0 s.stk.joints := by
      simp [freedBy]
    rw [named]
    have e := jointsConfirmed_effect a (s.frameEnded .cab)
    have moved := jointsConfirmed_from a (s := s.frameEnded .cab)
    have same : confirmedMask a 0 s.stk.joints = 0 → jointsConfirmed a (s.frameEnded .cab) = s.frameEnded .cab :=
      fun none => by rw [jointsConfirmed]; exact if_pos none
    generalize jointsConfirmed a (s.frameEnded .cab) = u at *
    have port := cabEnded_answered (r := (u, answer .ok (confirmedMask a 0 s.stk.joints) 0)) e
    have keeps := cabEnded_keeps (r := (u, answer .ok (confirmedMask a 0 s.stk.joints) 0))
      (d := [.stk, .phc, .znt, .env, .grants, .faults, .brc, .gst, .pif]) e (by simp) (by simp)
    have gst : (settle (cabEnded (u, answer .ok (confirmedMask a 0 s.stk.joints) 0))).gst =
        { s.gst with active := some g, storeEnable := false } := by
      rw [settle_gst, cabEnded_gst, e.gst_eq, frameEnded_gst, ← active]
    by_cases none : confirmedMask a 0 s.stk.joints = 0
    · have states := confirmNamed_states a 0 s.stk.joints
      rw [confirmNamed_of_none a 0 none] at states
      have all := (confirmedMask_eq_zero a 0 s.stk.joints).mp none
      obtain rfl := same none
      refine ⟨port, states, gst, keeps, fun any => ?_, fun _ => ?_⟩
      · simp [all] at any
      · rw [none]
        exact cabEnded_answeredOnly (r := (s.frameEnded .cab, answer .ok 0 0)) (.refl _)
    · obtain ⟨whole, phc⟩ := moved none
      have all := whole.cab (r := (u, answer .ok (confirmedMask a 0 s.stk.joints) 0))
      have states := all.evaluated.states.trans (confirmNamed_states a 0 s.stk.joints)
      refine ⟨port, states, gst, keeps, fun _ => ⟨?_, all.decided, all.only, ?_, all.brc⟩,
        fun empty => absurd ((confirmedMask_eq_zero a 0 s.stk.joints).mpr empty) none⟩
      · rw [← confirmNamed_eq a 0 s.stk.joints]
        exact all.evaluated
      · rw [settle_phc, cabEnded_phc, phc]
        rfl

end Sys2Proof.Machine
end

