-- ==== Sys2Proof/Proofs/PositionCounts.lean ====
section
/-! The counts of the position encoders: the order in which A leads, and the evaluation at a count (R29, R30). -/

namespace Sys2Proof.Machine

/-- The changes of one line in the order in which A leads (R29). -/
def aLeads : List ((Bool × Bool) × (Bool × Bool)) :=
  [((false, false), (true, false)), ((true, false), (true, true)), ((true, true), (false, true)),
    ((false, true), (false, false))]

/-- A change that the decoder counts is a change of one line, forward exactly where A leads. -/
theorem decodeCount_some {old new : Pair} {up : Bool} (h : decodeCount old new = some up) :
    (((old.a, old.b), (new.a, new.b)) ∈ aLeads ∨ ((new.a, new.b), (old.a, old.b)) ∈ aLeads) ∧
      (((old.a, old.b), (new.a, new.b)) ∈ aLeads ↔ up = true) := by
  obtain ⟨a, b⟩ := old
  obtain ⟨c, d⟩ := new
  cases a <;> cases b <;> cases c <;> cases d <;> simp_all [decodeCount, quadrature, aLeads]

/-- A change that the decoder does not count is none of one line. -/
theorem decodeCount_none {old new : Pair} (h : decodeCount old new = none) :
    ¬(((old.a, old.b), (new.a, new.b)) ∈ aLeads ∨ ((new.a, new.b), (old.a, old.b)) ∈ aLeads) := by
  obtain ⟨a, b⟩ := old
  obtain ⟨c, d⟩ := new
  revert h
  revert a b c d
  decide

theorem stepCount_eq (c : Count) (up : Bool) : stepCount c up = c + (if up then 1 else -1) := by
  cases up
  · exact BitVec.sub_eq_add_neg c 1
  · rfl

/-- A position count is one evaluation of the string model, with the counter moved (R11, R30). -/
theorem positionCounted_eq (s : State) (e : PositionEncoder) (pair : Pair) (up : Bool) :
    positionCounted e up (s.withMsu (s.msu.withReference e pair)) = afterEvaluation s.stk [] (evaluate
      (s.withMsu ((s.msu.withReference e pair).countPosition e up s.gst.active))) := rfl

/-- Settles O35: a counted change evaluates, and any other moves the reference alone. -/
theorem positionCountMovesTheDepth : Obligations.PositionCountMovesTheDepth := by
  intro e pair s
  cases count : decodeCount (s.msu.reference e) pair with
  | none =>
    refine ⟨settle (s.withMsu (s.msu.withReference e pair)), by simp only [exec, execPositionCountChange, count]; rfl, ?_⟩
    have both := decodeCount_none count
    unfold aLeads at both
    simp only [eq_false both, if_false]
    exact ⟨by cases e <;> rfl, ((withMsu_effect s _).trans ((settle_effect _).mono (by simp))).keeps⟩
  | some up =>
    refine ⟨settle (positionCounted e up (s.withMsu (s.msu.withReference e pair))),
      by simp only [exec, execPositionCountChange, count]; rfl, ?_⟩
    obtain ⟨one, leads⟩ := decodeCount_some count
    unfold aLeads at one leads
    dsimp only
    rw [if_pos one, positionCounted_eq]
    simp only [leads, ← stepCount_eq]
    generalize hu : s.withMsu ((s.msu.withReference e pair).countPosition e up s.gst.active) = u
    have before : Effect [.msu] s u := hu ▸ withMsu_effect s _
    have after := afterEvaluation_effect s.stk [] (evaluate u)
    have stk : u.stk = s.stk := before.stk_eq
    have whole := (afterEvaluation_from (s := s) (u := u) before.znt_eq before.phc_eq (fun x => before.entry_eq x)
      before.lines_eq).settled
    have whole_effect := ((before.mono (d := [.msu, .stk, .phc, .znt, .env, .grants, .faults, .brc, .pif]) (by simp)).trans
      (((evaluate_effect u).mono (by simp)).trans (after.mono (by simp)))).trans ((settle_effect _).mono (by simp))
    rw [stk] at whole
    refine ⟨?_, whole.evaluated, whole.decided, whole.only, ?_, whole_effect.keeps,
      whole_effect.answers⟩
    · rw [settle_msu, after.msu_eq, ← hu]
      cases e <;> rfl
    · rw [settle_phc, settle_stk, afterEvaluation_evaluate_phc, before.gst_eq, before.phc_eq]

end Sys2Proof.Machine
end

