-- ==== Sys2Proof/Proofs/CommitCompletion.lean ====
section
/-! The completion of a commit: the rebuilt table, its fill and its evaluation (R27, R164). -/

namespace Sys2Proof.Machine

/-! Where the joints of an evaluation come from. -/

/-- An evaluation leaves the joints or distributes a measured extension over them (R11). -/
theorem evaluate_joints (u : State) : (evaluate u).stk.joints = u.stk.joints ∨
    ∃ g e, u.gst.active = some g ∧ (evaluate u).stk.joints = (u.stk.distribute g e).joints := by
  have stk : (evaluate u).stk = _ :=
    (u.stk.decideDepth u.gst.active u.pRope u.headPos).advanceBottomHole_spec u.znt.sessionOpen
  rw [stk]
  dsimp only
  unfold Stk.decideDepth
  split
  · exact .inl rfl
  · next g active =>
    split
    · exact .inl rfl
    · exact .inr ⟨g, _, active, rfl⟩
    · exact .inl rfl
    · exact .inl rfl

/-- Each joint's aligned pocket is that of its extension (R5). -/
def AlignedWith (js : List Joint) (gs : List JointGeometry) : Prop :=
  List.Forall₂ (fun x y => x.aligned = y.aligned x.ext) js gs

/-- A fill aligns the joints it places (R5, R13). -/
theorem fill_aligned {js : List Joint} {gs : List JointGeometry} (h : AlignedWith js gs) (r : Int) :
    AlignedWith (fill js gs r).1 gs := by
  induction h with
  | nil => exact .nil
  | @cons x y js gs hx _ ih =>
    by_cases l : x.isLocked
    · simpa [AlignedWith, fill, l] using ⟨hx, ih⟩
    · simpa [AlignedWith, fill, l, Joint.placed] using ih

theorem fresh_aligned (g : Geometry) : AlignedWith g.freshJoints g.joints :=
  List.forall₂_map_left_iff.mpr (List.forall₂_same.mpr fun _ _ => rfl)

/-- An evaluation keeps an aligned table aligned. -/
theorem evaluate_aligned {u : State} {g : Geometry} (active : u.gst.active = some g)
    (h : AlignedWith u.stk.joints g.joints) : AlignedWith (evaluate u).stk.joints g.joints := by
  rcases evaluate_joints u with same | ⟨g', e, active', placed⟩
  · rwa [same]
  · obtain rfl : g' = g := by rw [active'] at active; simpa using active
    rw [placed]
    exact fill_aligned h _

/-- A table without LOCKED joints has no locked extensions. -/
theorem lockedSum_of_uncertain {js : List Joint} {gs : List JointGeometry}
    (h : js.map Joint.state = gs.map fun _ => .uncertain) : lockedSum js = 0 := by
  have none : js.filter Joint.isLocked = [] := by
    refine List.filter_eq_nil_iff.mpr fun j hj => ?_
    have mem : j.state ∈ js.map Joint.state := List.mem_map_of_mem hj
    rw [h, List.mem_map] at mem
    obtain ⟨_, -, state⟩ := mem
    simp [Joint.isLocked, ← state]
  simp [lockedSum, none, extSum]

/-! The rebuild. -/

section
variable (k : Stk) (old : Option Geometry) (g : Geometry) (rope head : Int)

/-- The rebuild in its three cases: a changed scale, a measured extension, and the extension held (R27). -/
theorem rebuild_changed (h : scaleChanged old g = true) : k.rebuild old g rope head =
    { ({ k with joints := g.freshJoints } : Stk).distribute g (extSum k.joints) with
      ropeOffset := 0, strokeOffset := 0, datumSet := false, quality := .none, depth := 0, disagreement := 0 } := by
  simp [Stk.rebuild, h]

theorem rebuild_measured (h : scaleChanged old g = false) (m : k.taut = true ∧ k.datumSet = true) :
    k.rebuild old g rope head = ({ k with joints := g.freshJoints } : Stk).distribute g (rope - head - g.lCl) := by
  simp [Stk.rebuild, h, m]

theorem rebuild_held (h : scaleChanged old g = false) (m : ¬(k.taut = true ∧ k.datumSet = true)) :
    k.rebuild old g rope head =
      { ({ k with joints := g.freshJoints } : Stk).distribute g (extSum k.joints) with disagreement := 0 } := by
  simp only [Stk.rebuild, h, Bool.false_eq_true, if_false]
  rw [if_neg (by simpa using m)]

/-- A rebuild leaves the tautness, the accumulators, bottom-hole depth and the held value of D (R15, R27). -/
theorem rebuild_kept : (k.rebuild old g rope head).taut = k.taut ∧ (k.rebuild old g rope head).aF = k.aF ∧
    (k.rebuild old g rope head).aR = k.aR ∧ (k.rebuild old g rope head).reverseRun = k.reverseRun ∧
    (k.rebuild old g rope head).heldDepth = k.heldDepth ∧ (k.rebuild old g rope head).bottomHole = k.bottomHole := by
  unfold Stk.rebuild
  dsimp only
  split
  · exact ⟨rfl, rfl, rfl, rfl, rfl, rfl⟩
  · split <;> exact ⟨rfl, rfl, rfl, rfl, rfl, rfl⟩

theorem rebuild_aligned : AlignedWith (k.rebuild old g rope head).joints g.joints := by
  have placed : ∀ e, AlignedWith (({ k with joints := g.freshJoints } : Stk).distribute g e).joints g.joints :=
    fun e => fill_aligned (fresh_aligned g) _
  unfold Stk.rebuild
  dsimp only
  split
  · exact placed _
  · split <;> exact placed _

/-- The datum and the offsets stand at a rebuild that changes no scale (R27). -/
theorem rebuild_datum (h : scaleChanged old g = false) : (k.rebuild old g rope head).datumSet = k.datumSet ∧
    (k.rebuild old g rope head).ropeOffset = k.ropeOffset ∧
    (k.rebuild old g rope head).strokeOffset = k.strokeOffset := by
  by_cases m : k.taut = true ∧ k.datumSet = true
  · rw [rebuild_measured k old g rope head h m]; exact ⟨rfl, rfl, rfl⟩
  · rw [rebuild_held k old g rope head h m]; exact ⟨rfl, rfl, rfl⟩

/-- Where no measured extension is distributed, the joints hold the sum the old table held, at a disagreement of 0 (R13,
R27). -/
theorem rebuild_filled (range : g.InRange)
    (h : scaleChanged old g = true ∨ ¬(k.taut = true ∧ k.datumSet = true)) :
    Filled (k.rebuild old g rope head).joints g.joints (extSum k.joints) ∧
      (k.rebuild old g rope head).disagreement = 0 := by
  have fresh : JointsAgree g.freshJoints (some g) := fresh_agrees g.joints range.eMax_nonneg
  have placed := (distribute_placed (k := { k with joints := g.freshJoints }) fresh range (extSum k.joints)).filled
  have none : lockedSum (({ k with joints := g.freshJoints } : Stk).distribute g (extSum k.joints)).joints = 0 :=
    lockedSum_of_uncertain (gs := g.joints) (by simp [Stk.distribute, fill_state, Geometry.freshJoints, Function.comp_def])
  rw [none, sub_zero] at placed
  by_cases changed : scaleChanged old g = true
  · rw [rebuild_changed k old g rope head changed]
    exact ⟨placed, rfl⟩
  · rw [rebuild_held k old g rope head (by simpa using changed) (h.resolve_left changed)]
    exact ⟨placed, rfl⟩
end

theorem scaleChanged_iff (old : Option Geometry) (g : Geometry) : scaleChanged old g = true ↔
    ∃ o, old = some o ∧ (o.ropeScale ≠ g.ropeScale ∨ o.strokeScale ≠ g.strokeScale ∨ o.lCl ≠ g.lCl) := by
  cases old <;> simp [scaleChanged]

/-! The completion. -/

section
variable (s : State)

theorem rebuilt_stk : (rebuilt s).stk = s.stk.rebuild s.gst.active s.gst.staging
    ((s.msu.formMm (some s.gst.staging)).ropeMm + s.stk.ropeOffset)
    ((s.msu.formMm (some s.gst.staging)).strokeMm + s.stk.strokeOffset) := rfl

theorem rebuilt_effect : Effect [.gst, .msu, .stk] s (rebuilt s) :=
  ((withGst_effect s _).mono (by simp)).trans (((withMsu_effect _ _).mono (by simp)).trans
    ((withStk_effect _ _).mono (by simp)))

theorem commitCompleted_effect :
    Effect [.msu, .stk, .phc, .znt, .env, .grants, .faults, .brc, .gst, .pif] s (commitCompleted s) := by
  rw [commitCompleted_eq]
  exact ((rebuilt_effect s).mono (by simp)).trans (((evaluate_effect _).mono (by simp)).trans
    ((afterEvaluation_effect s.stk [] _).mono (by simp)))
end

/-- The table and the disagreement after the evaluation of a rebuild (R13, R14, R27). -/
theorem commit_distribution {s t : State} (range : s.gst.staging.InRange) (active : t.gst.active = some s.gst.staging)
    (scale : SameScale (rebuilt s) t) (stk : t.stk = (evaluate (rebuilt s)).stk) :
    let g := s.gst.staging
    let r := if t.stk.quality = .valid then t.pRope - t.headPos - g.lCl else extSum s.stk.joints
    Filled t.stk.joints g.joints r ∧
    t.stk.disagreement = (if t.stk.quality = .valid then r - fillTaken t.stk.joints g.joints r else 0) ∧
    List.Forall₂ (fun x y => x.aligned = y.aligned x.ext) t.stk.joints g.joints := by
  have ev := evaluate_evaluated (rebuilt s)
  have states : t.stk.joints.map Joint.state = s.gst.staging.joints.map fun _ => .uncertain := by
    rw [stk]
    exact ev.states.trans (by rw [rebuilt_stk]; exact rebuild_states _ _ _ _ _)
  have aligned : AlignedWith t.stk.joints s.gst.staging.joints := by
    rw [stk]
    exact evaluate_aligned rfl (rebuild_aligned _ _ _ _ _)
  by_cases valid : t.stk.quality = .valid
  · have kept : StringKept (evaluate (rebuilt s)) t := ⟨⟨scale.active, scale.rope, scale.stroke⟩, by rw [stk]; rfl⟩
    have sound := evaluate_measuredHeld (u := rebuilt s) (rebuild_agree _ _ range _ _) fun g hg => by
      cases hg; exact range
    obtain ⟨-, rest, filled⟩ := kept.measuredHeld sound _ active valid
    rw [lockedSum_of_uncertain states, sub_zero] at rest filled
    simp only [valid, if_true]
    exact ⟨filled, rest, aligned⟩
  · have unmeasured : scaleChanged s.gst.active s.gst.staging = true ∨ ¬(s.stk.taut = true ∧ s.stk.datumSet = true) := by
      by_contra both
      rw [not_or, not_not, Bool.not_eq_true] at both
      obtain ⟨same, taut, datum⟩ := both
      refine valid ?_
      rw [stk]
      refine (ev.depth.valid _ rfl ?_ ?_).1
      · rw [ev.datumSet, rebuilt_stk, (rebuild_datum _ _ _ _ _ same).1, datum]
      · rw [ev.taut, rebuilt_stk, (rebuild_kept _ _ _ _ _).1, taut]
    obtain ⟨filled, none⟩ := rebuild_filled s.stk s.gst.active s.gst.staging
      ((s.msu.formMm (some s.gst.staging)).ropeMm + s.stk.ropeOffset)
      ((s.msu.formMm (some s.gst.staging)).strokeMm + s.stk.strokeOffset) range unmeasured
    obtain ⟨joints, disagreement⟩ := ev.outside (by rw [← stk]; exact valid)
    simp only [valid, if_false]
    refine ⟨?_, ?_, aligned⟩
    · rw [stk, joints, rebuilt_stk]; exact filled
    · rw [stk, disagreement, rebuilt_stk]; exact none

/-- Settles O42: the effects of the rebuild and its evaluation. -/
theorem commitCompletionInstallsTheGeometry : Obligations.CommitCompletionInstallsTheGeometry := by
  intro s inv
  by_cases none : s.gst.commit = none
  · refine ⟨settle s, by simp [exec, execCommitCompletion, State.committing, none, done], ?_⟩
    rw [if_pos none]
    exact (settle_effect s).keeps
  have inFlight : s.committing = true := by rw [State.committing, Option.isSome_iff_ne_none]; exact none
  obtain ⟨parked, closed⟩ := inv.commit inFlight
  refine ⟨settle (commitCompleted s), by simp [exec, execCommitCompletion, inFlight, done], ?_⟩
  rw [if_neg none]
  have current := settle_current (afterEvaluation_current s.stk [] (evaluate (rebuilt s)))
  have whole := (afterEvaluation_from (s := s) (u := rebuilt s) rfl rfl (fun _ => rfl) rfl).settled
  have after := ((afterEvaluation_effect s.stk [] (evaluate (rebuilt s))).trans ((settle_effect _).mono (by simp)))
  have e := (commitCompleted_effect s).trans ((settle_effect _).mono (by simp))
  have phc : (settle (commitCompleted s)).phc = s.phc := by
    rw [settle_phc, commitCompleted_eq, afterEvaluation_evaluate_phc]
    exact advancedPhc_of_not_hoist (by rw [(rebuilt_effect s).phc_eq, parked]; simp) _ _ _
  rw [commitCompleted_eq] at *
  generalize settle (afterEvaluation s.stk [] (evaluate (rebuilt s))) = t at *
  have stk : t.stk = (evaluate (rebuilt s)).stk := after.stk_eq
  have gst : t.gst = s.gst.committed := after.gst_eq
  have msu : t.msu = s.msu.formMm (some s.gst.staging) := after.msu_eq
  have ev := whole.evaluated
  obtain ⟨taut, aF, aR, reverseRun, heldDepth, bottomHole⟩ := rebuild_kept s.stk s.gst.active s.gst.staging
    ((s.msu.formMm (some s.gst.staging)).ropeMm + s.stk.ropeOffset)
    ((s.msu.formMm (some s.gst.staging)).strokeMm + s.stk.strokeOffset)
  rw [← rebuilt_stk] at taut aF aR reverseRun heldDepth bottomHole
  refine ⟨gst, msu, ?_, ?_, ?_, ⟨?_, ?_, ?_, ?_, ?_⟩, whole.decided, whole.only, ?_, ?_, phc, ev.depth, current,
    e.answers, ?_⟩
  · exact ev.states.trans (by rw [rebuilt_stk]; exact rebuild_states _ _ _ _ _)
  · intro old active changed
    have changed := (scaleChanged_iff s.gst.active s.gst.staging).mpr ⟨old, active, changed⟩
    have start := rebuilt_stk s
    rw [rebuild_changed _ _ _ _ _ changed] at start
    have datum : t.stk.datumSet = false := by rw [ev.datumSet, start]
    obtain ⟨quality, depth⟩ := ev.depth.none (.inr datum)
    have disagreement : t.stk.disagreement = 0 := by
      rw [(ev.outside (by simp [quality])).2, start]
    refine ⟨datum, quality, depth, disagreement, by rw [ev.ropeOffset, start], by rw [ev.strokeOffset, start],
      fun running tolerance => ?_⟩
    rw [whole.decided.1, running, disagreement, gst]
    simpa [Gst.committed] using tolerance
  · intro same
    have same : scaleChanged s.gst.active s.gst.staging = false := by
      rw [Bool.eq_false_iff, ne_eq, scaleChanged_iff]
      rintro ⟨o, active, changed⟩
      obtain ⟨rope, stroke, lCl⟩ := same o active
      simp [rope, stroke, lCl] at changed
    rw [ev.datumSet, ev.ropeOffset, ev.strokeOffset, rebuilt_stk]
    exact rebuild_datum _ _ _ _ _ same
  · rw [ev.taut, taut]
  · rw [ev.aF, aF]
  · rw [ev.aR, aR]
  · rw [ev.reverseRun, reverseRun]
  · rw [ev.held, heldDepth]
  · exact fun range => commit_distribution range (by rw [gst]; rfl) ⟨after.sameScale.active, after.sameScale.rope, after.sameScale.stroke⟩ stk
  · rw [ev.bottomHole, bottomHole]
    simp [closed]
  · refine ⟨fun x hx => ?_, e.keeps.2⟩
    by_cases isBrc : x = .brc
    · rw [isBrc]; exact whole.brc_closed closed
    · by_cases isPhc : x = .phc
      · rw [isPhc]; exact phc
      · exact e.keeps.1 x (by simp_all)

end Sys2Proof.Machine
end

