-- ==== Sys2Proof/Proofs/Supervision.lean ====
section
/-! What the Fault Supervisor's operations leave as it was: warnings 3 and 4, the computed ceilings; and what a list of
decisions and a boundary make of an entry (R130, R134, R136). -/

namespace Sys2Proof.Machine

/-! The FSV through the operations of the other blocks. -/

section
variable (s : State) (d : Drive)

theorem neutralEvent_fsv (cause : NeutralCause) : (neutralEvent cause d s).fsv = s.fsv := by
  unfold neutralEvent
  split <;> rfl

theorem latchedDropBegins_fsv : (latchedDropBegins s d).fsv = s.fsv := neutralEvent_fsv s d .drop

theorem reclampDrive_fsv : (reclampDrive s d).fsv = s.fsv := by
  unfold reclampDrive
  dsimp only
  split
  · split <;> rfl
  all_goals rfl

theorem handHolds_fsv (newly : Drive → Bool) : (handHolds newly s d).fsv = s.fsv := by
  unfold handHolds
  split
  · split
    · exact latchedDropBegins_fsv s d
    · rfl
  · rfl

theorem recompute_fsv : (recompute s).fsv = s.fsv := by
  unfold recompute reclamp drivesInOrder
  dsimp only
  split
  · simp only [List.foldl_cons, List.foldl_nil, reclampDrive_fsv, State.withEnv_fsv]
  · rfl

theorem parkGrants_fsv : (parkGrants s).fsv = s.fsv := by
  simp only [parkGrants, drivesInOrder, List.foldl_cons, List.foldl_nil, neutralEvent_fsv]

theorem changePhase_fsv (p : Phase) : (changePhase p s).fsv = s.fsv := by
  unfold changePhase
  dsimp only
  rw [State.withPhc_fsv]
  split
  · rw [parkGrants_fsv, recompute_fsv]; rfl
  · rw [recompute_fsv]; rfl

theorem phcAfterEvaluation_fsv (old : Stk) : (phcAfterEvaluation old s).fsv = s.fsv := by
  unfold phcAfterEvaluation advanceEvaluate
  split
  · rfl
  · split
    · dsimp only
      split
      · rw [changePhase_fsv]; rfl
      · rfl
    · rfl

theorem brcScan_fsv : (brcScan s).fsv = s.fsv := by unfold brcScan; split <;> rfl

theorem brcDepth_fsv (d : Int) : (brcDepth d s).fsv = s.fsv := by
  unfold brcDepth
  split <;> rfl

/-! Warnings 3 and 4, which only a scan and the end of XRST take (R145). -/

theorem handLimitReach_warnings : (handLimitReach s).fsv.warnings = s.fsv.warnings := by
  unfold handLimitReach
  dsimp only
  split
  · rfl
  · rw [recompute_fsv]; rfl

theorem raise_warnings (src : Source) : (raise src s).fsv.warnings = s.fsv.warnings := by
  have drops : ∀ (ds : List Drive) (t : State), (ds.foldl latchedDropBegins t).fsv = t.fsv := by
    intro ds
    induction ds with
    | nil => exact fun _ => rfl
    | cons d ds ih => exact fun t => (ih _).trans (latchedDropBegins_fsv t d)
  have begun : ∀ (a : OverrideAction) (t : State), (beginOverride src a t).fsv.warnings = t.fsv.warnings := by
    intro a t
    cases a with
    | limit => rw [beginOverride, handLimitReach_warnings]; rfl
    | drop =>
      simp only [beginOverride]
      split
      · rw [drops]; rfl
      · rfl
  unfold raise
  split
  · rfl
  · dsimp only
    split
    · rw [begun]; rfl
    all_goals rfl

theorem decideCondition_warnings (src : Source) (b : Bool) :
    (decideCondition src b s).fsv.warnings = s.fsv.warnings := by
  unfold decideCondition
  split
  · rfl
  · dsimp only
    split
    · rw [raise_warnings]; rfl
    · rfl

theorem takeBoundary_warnings : (takeBoundary s).fsv.warnings = s.fsv.warnings := by
  simp only [takeBoundary, drivesInOrder, List.foldl_cons, List.foldl_nil, handHolds_fsv]
  rw [handDropReach, State.withFsv_fsv]
  exact (handLimitReach_warnings _).trans rfl

/-! The fault table. -/

/-- A boundary installs, ends and begins at each entry by itself (R136). -/
theorem takeBoundary_entry (x : Source) : (takeBoundary s).entry x = (s.entry x).boundary := by
  have holds := Effect.foldl (handHolds_effect s.fsv.newlyHolds) drivesInOrder
    (handDropReach (handLimitReach (s.withFsv s.fsv.boundary)))
  rw [takeBoundary, holds.entry_eq, handDropReach_entry, handLimitReach_entry]
  simp [State.entry, Fsv.entry, Fsv.boundary]
end

/-- A boundary leaves the condition and the latch of an entry (R136). -/
theorem FaultEntry.boundary_kept (e : FaultEntry) :
    e.boundary.condition = e.condition ∧ e.boundary.latched = e.latched := by
  have ended : e.install.endStep.condition = e.condition ∧ e.install.endStep.latched = e.latched := by
    unfold FaultEntry.endStep
    split <;> exact ⟨rfl, rfl⟩
  unfold FaultEntry.boundary FaultEntry.beginStep
  split <;> exact ended

/-- Decisions leave the entries of the sources that are not decided. -/
theorem decideConditions_entry_of_notMem {cs : List (Source × Bool)} {x : Source} (h : x ∉ cs.map Prod.fst) (s : State) :
    (decideConditions cs s).entry x = s.entry x := by
  induction cs generalizing s with
  | nil => rfl
  | cons c cs ih =>
    rw [List.map_cons, List.mem_cons, not_or] at h
    exact (ih h.2 _).trans (decideCondition_entry_of_ne h.1 _ _)

/-- Of decisions on different sources each makes of its entry what it would make alone (R130, R134). -/
theorem decideConditions_entry {cs : List (Source × Bool)} (nodup : (cs.map Prod.fst).Nodup) {x : Source} {b : Bool}
    (h : (x, b) ∈ cs) (s : State) : ∃ o, (decideConditions cs s).entry x =
      { s.entry x with
        condition := if s.lines.xrst then (s.entry x).condition else b
        latched := s.becomes x b || (s.entry x).latched, override := o } := by
  induction cs generalizing s with
  | nil => simp at h
  | cons c cs ih =>
    rw [List.map_cons, List.nodup_cons] at nodup
    rcases List.mem_cons.mp h with rfl | h
    · obtain ⟨o, ho, -⟩ := decideCondition_entry x b s
      exact ⟨o, (decideConditions_entry_of_notMem nodup.1 _).trans ho⟩
    · have ne : x ≠ c.1 := fun e => nodup.1 (e ▸ List.mem_map_of_mem (f := Prod.fst) h)
      have same : (decideCondition c.1 c.2 s).entry x = s.entry x := decideCondition_entry_of_ne ne _ _
      have lines := (decideCondition_effect c.1 c.2 s).lines_eq
      obtain ⟨o, ho⟩ := ih nodup.2 h (decideCondition c.1 c.2 s)
      refine ⟨o, ?_⟩
      rw [State.becomes, same, lines] at ho
      exact ho

/-! The computed ceilings, which no override forces (R90). -/

/-- The envelope record without what LIMIT forcing forces. -/
def Envelope.ungranted (e : Envelope) : Envelope := { e with grant := .zero }

/-- The ceilings and loads a scan is judged against are none of what LIMIT forcing forces (R130). -/
theorem Envelope.ungranted_congr {e f : Envelope} (h : e.ungranted = f.ungranted) :
    e.computed = f.computed ∧ e.wot = f.wot ∧ e.zWot = f.zWot := by
  have computed : e.ungranted.computed = f.ungranted.computed := by rw [h]
  have wot : e.ungranted.wot = f.ungranted.wot := by rw [h]
  have zWot : e.ungranted.zWot = f.ungranted.zWot := by rw [h]
  exact ⟨computed, wot, zWot⟩

/-- The record, and the record its inputs give, are `e` but for the forced ceilings. -/
structure Judged (e : Envelope) (s : State) : Prop where
  record : s.env.ungranted = e
  inputs : s.envelope.ungranted = e

/-- The computed ceilings do not depend on the LIMIT reach (R90). -/
theorem Judged.of_inputs {e : Envelope} {s t : State} (h : Judged e s) (env : t.env = s.env) (gst : t.gst = s.gst)
    (limits : t.znt.limits = s.znt.limits) (phase : t.phc.phase = s.phc.phase) (joints : t.stk.joints = s.stk.joints)
    (aR : t.stk.aR = s.stk.aR) (channels : t.msu.channels = s.msu.channels) : Judged e t := by
  refine ⟨by rw [env]; exact h.record, ?_⟩
  rw [← h.inputs]
  unfold State.envelope
  rw [env, gst, limits, phase, joints, aR, channels]
  split <;> rfl

theorem Judged.effect {e : Envelope} {c : List Part} {s t : State} (h : Judged e s) (k : Effect c s t)
    (hc : ∀ x ∈ [Part.env, .gst, .znt, .phc, .stk, .msu], x ∉ c := by simp) : Judged e t :=
  h.of_inputs (k.env_eq (hc _ (by simp))) (k.gst_eq (hc _ (by simp))) (by rw [k.znt_eq (hc _ (by simp))])
    (by rw [k.phc_eq (hc _ (by simp))]) (by rw [k.stk_eq (hc _ (by simp))]) (by rw [k.stk_eq (hc _ (by simp))])
    (by rw [k.msu_eq (hc _ (by simp))])

theorem Current.judged {s : State} (h : Current s) : Judged s.env.ungranted s := ⟨rfl, by rw [← h]⟩

section
variable {e : Envelope} {s : State} (h : Judged e s)
include h

theorem recompute_judged : Judged e (recompute s) := by
  have current := recompute_current s
  have env : (recompute s).env.ungranted = e := by rw [recompute_env, h.inputs]
  exact ⟨env, by rw [← current]; exact env⟩

theorem handLimitReach_judged : Judged e (handLimitReach s) := by
  unfold handLimitReach
  dsimp only
  split
  · exact h
  · exact recompute_judged (h.of_inputs rfl rfl rfl rfl rfl rfl rfl)

theorem raise_judged (src : Source) : Judged e (raise src s) := by
  have begun : ∀ (a : OverrideAction) (t : State), Judged e t → Judged e (beginOverride src a t) := by
    intro a t ht
    cases a with
    | limit => exact handLimitReach_judged (ht.of_inputs rfl rfl rfl rfl rfl rfl rfl)
    | drop =>
      have handed : Judged e (handDropReach (t.withEntry src
          { t.entry src with override := some ⟨.drop, (t.entry src).mode⟩ })) :=
        ht.of_inputs rfl rfl rfl rfl rfl rfl rfl
      simp only [beginOverride]
      split
      · exact handed.effect (Effect.foldl latchedDropBegins_effect _ _)
      · exact handed
  have asked : Judged e (askEvent (.faultRaised src) (s.withEntry src { s.entry src with latched := true })) :=
    h.of_inputs rfl rfl rfl rfl rfl rfl rfl
  unfold raise
  split
  · exact h
  · dsimp only
    split
    · exact begun _ _ asked
    all_goals exact asked

theorem decideCondition_judged (src : Source) (b : Bool) : Judged e (decideCondition src b s) := by
  have written : Judged e (s.withEntry src { s.entry src with condition := b }) :=
    h.of_inputs rfl rfl rfl rfl rfl rfl rfl
  unfold decideCondition
  split
  · exact h
  · dsimp only
    split
    · exact raise_judged written src
    · exact written

theorem takeBoundary_judged : Judged e (takeBoundary s) := by
  have handed := handLimitReach_judged (h.of_inputs (t := s.withFsv s.fsv.boundary) rfl rfl rfl rfl rfl rfl rfl)
  have dropped : Judged e (handDropReach (handLimitReach (s.withFsv s.fsv.boundary))) :=
    handed.of_inputs rfl rfl rfl rfl rfl rfl rfl
  exact dropped.effect (t := takeBoundary s) (c := [.grants, .pif])
    (Effect.foldl (handHolds_effect s.fsv.newlyHolds) drivesInOrder
      (handDropReach (handLimitReach (s.withFsv s.fsv.boundary))))
end

theorem decideConditions_judged {e : Envelope} (cs : List (Source × Bool)) {s : State} (h : Judged e s) :
    Judged e (decideConditions cs s) := by
  induction cs generalizing s with
  | nil => exact h
  | cons c cs ih => exact ih (decideCondition_judged h c.1 c.2)

end Sys2Proof.Machine
end

