-- ==== Sys2Proof/Proofs/Scans.lean ====
section
/-! A scan, whole: the channels, the measured quantities, the evaluation and the conditions (R32 to R37, R130). -/

namespace Sys2Proof.Machine

/-- The channel after a reading (R33, R34). -/
theorem take_spec (v : ChannelState) (k : Calibration) (range : Int × Int) (raw : Raw) :
    let new := v.take k range raw
    new.raw = raw ∧
    if raw = 0 ∨ raw = 4095 then
      new.value = v.lastGood ∧ new.lastGood = v.lastGood ∧ new.railRun = min 3 (v.railRun + 1) ∧
        new.holding = (v.holding || decide (3 ≤ v.railRun + 1))
    else
      new.value = max range.1 (min range.2 (k.offset + (raw.toNat * k.gain).fdiv 4096)) ∧
        new.lastGood = new.value ∧ new.railRun = 0 ∧ new.holding = false := by
  dsimp only
  unfold ChannelState.take isRail
  by_cases rail : raw = 0 ∨ raw = 4095
  · have run : min 3 (v.railRun + 1) = 3 ↔ 3 ≤ v.railRun + 1 := by omega
    have test : (decide (raw = 0) || decide (raw = 4095)) = true := by simpa using rail
    rw [if_pos rail, if_pos test]
    exact ⟨rfl, rfl, rfl, rfl, by simp only [run]⟩
  · have test : ¬(decide (raw = 0) || decide (raw = 4095)) = true := by simpa using rail
    rw [if_neg rail, if_neg test]
    exact ⟨rfl, rfl, rfl, rfl, rfl⟩

section
variable (r : Readings) (s : State)

/-- The part at a scan as the STK evaluates it: the channels read and the tautness of the rope (R9, R33). -/
def scanned : State :=
  let w := s.withMsu { s.msu with channels := takeReadings s.gst.active s.msu.channels r }
  w.withStk { w.stk with taut := w.ropeTaut }

/-- The measured quantities formed and the zones re-evaluated, before the envelope is recomputed (R36, R37). -/
def scanFormed : State :=
  let u := zntReevaluate (evaluate (scanned r s))
  u.withEnv { u.env with measured := measure u.gst.active u.msu.channels }

theorem scanMeasured_eq : scanMeasured r s = recompute (scanFormed r s) := rfl

theorem scanned_effect : Effect [.msu, .stk] s (scanned r s) :=
  ((withMsu_effect s _).mono (by simp)).trans ((withStk_effect _ _).mono (by simp))

theorem scanFormed_effect : Effect [.znt, .brc, .env, .measured] (evaluate (scanned r s)) (scanFormed r s) :=
  ((zntReevaluate_effect _).mono (by simp)).trans ((withEnv_effect _ _).mono (by simp))

theorem scanMeasured_effect :
    Effect [.znt, .brc, .env, .measured, .grants, .pif] (evaluate (scanned r s)) (scanMeasured r s) :=
  ((scanFormed_effect r s).mono (by simp)).trans ((recompute_effect _).mono (by simp))

/-- Behind the supervision a scan moves the PHC, the records and what a phase moved hands on. -/
theorem scanTaken_behind : Effect [.phc, .brc, .env, .grants, .pif] (scanSupervised (scanMeasured r s)) (scanTaken r s) :=
  (phcAfterEvaluation_effect s.stk _).trans (((brcScan_effect _).mono (by simp)).trans
    ((brcDepth_effect _ _).mono (by simp)))

theorem scanTaken_after :
    Effect [.phc, .znt, .faults, .brc, .env, .measured, .grants, .pif] (evaluate (scanned r s)) (scanTaken r s) :=
  ((scanMeasured_effect r s).mono (by simp)).trans (((scanSupervised_effect _).mono (by simp)).trans
    ((scanTaken_behind r s).mono (by simp)))

theorem scanTaken_effect :
    Effect [.msu, .stk, .phc, .znt, .env, .measured, .grants, .faults, .brc, .pif] s (scanTaken r s) :=
  ((scanned_effect r s).mono (by simp)).trans (((evaluate_effect _).mono (by simp)).trans
    ((scanTaken_after r s).mono (by simp)))

theorem scanTaken_stk : (scanTaken r s).stk = (evaluate (scanned r s)).stk := (scanTaken_after r s).stk_eq

/-- The channels a scan leaves, with the rest of the MSU as it was (R33). -/
theorem scanTaken_msu : (scanTaken r s).msu = { s.msu with channels := takeReadings s.gst.active s.msu.channels r } :=
  (scanTaken_after r s).msu_eq

/-- The measured quantities a scan leaves (R37). -/
theorem scanTaken_measured : (scanTaken r s).env.measured = measure s.gst.active (scanTaken r s).msu.channels := by
  have formed : (scanFormed r s).env.measured = measure s.gst.active (scanFormed r s).msu.channels := by
    rw [show (scanFormed r s).env.measured = measure (zntReevaluate (evaluate (scanned r s))).gst.active
      (zntReevaluate (evaluate (scanned r s))).msu.channels from rfl, (zntReevaluate_effect _).gst_eq]
    rfl
  have recomputed := recompute_effect (scanFormed r s)
  have supervised := scanSupervised_effect (scanMeasured r s)
  have behind := scanTaken_behind r s
  rw [behind.measured_eq, supervised.measured_eq, behind.msu_eq, supervised.msu_eq, scanMeasured_eq,
    recomputed.measured_eq, recomputed.msu_eq, formed]

theorem scanMeasured_entry (x : Source) : (scanMeasured r s).entry x = s.entry x :=
  (scanMeasured_effect r s).entry_eq x

theorem scanMeasured_lines : (scanMeasured r s).lines = s.lines := (scanMeasured_effect r s).lines_eq
end

/-- The sources a scan decides differ. -/
theorem scanConditions_nodup (s : State) : (s.scanConditions.map Prod.fst).Nodup := by
  simp [State.scanConditions]

/-- The supervision of a scan leaves the condition and the latch that the decisions leave (R130, R136). -/
theorem scanSupervised_entry (s : State) (x : Source) :
    ((scanSupervised s).entry x).condition = ((decideConditions s.scanConditions s).entry x).condition ∧
      ((scanSupervised s).entry x).latched = ((decideConditions s.scanConditions s).entry x).latched := by
  have taken := (takeScanWarnings_effect (decideConditions s.scanConditions s)).entry_eq x
  unfold scanSupervised
  dsimp only
  split
  · rw [takeBoundary_entry, taken]
    exact FaultEntry.boundary_kept _
  · rw [taken]
    exact ⟨rfl, rfl⟩

/-- A source that a scan decides (R130, R134). -/
theorem scanTaken_decided (r : Readings) {s : State} (running : s.lines.xrst = false) {x : Source} {b : Bool}
    (h : (x, b) ∈ (scanMeasured r s).scanConditions) :
    ((scanTaken r s).entry x).condition = b ∧
      ((s.entry x).condition = false → b = true → ((scanTaken r s).entry x).latched = true) := by
  obtain ⟨o, ho⟩ := decideConditions_entry (scanConditions_nodup _) h (scanMeasured r s)
  obtain ⟨condition, latched⟩ := scanSupervised_entry (scanMeasured r s) x
  have lines : (scanMeasured r s).lines.xrst = false := by rw [scanMeasured_lines, running]
  rw [ho, lines] at condition latched
  rw [(scanTaken_behind r s).entry_eq x]
  refine ⟨condition, fun was now => ?_⟩
  rw [latched]
  simp [State.becomes, lines, now, scanMeasured_entry, was]

/-- A source that no scan decides (R130). -/
theorem scanTaken_undecided (r : Readings) (s : State) {x : Source}
    (h : x ∉ (scanMeasured r s).scanConditions.map Prod.fst) :
    ((scanTaken r s).entry x).condition = (s.entry x).condition ∧
      ((scanTaken r s).entry x).latched = (s.entry x).latched := by
  obtain ⟨condition, latched⟩ := scanSupervised_entry (scanMeasured r s) x
  rw [(scanTaken_behind r s).entry_eq x, condition, latched, decideConditions_entry_of_notMem h, scanMeasured_entry]
  exact ⟨rfl, rfl⟩

/-- Outside HOIST the ceilings a scan is judged against are those it leaves (R72, R130). -/
theorem scanTaken_judged (r : Readings) {s : State} (h : s.phc.phase ≠ .hoist) :
    Judged (scanMeasured r s).env.ungranted (scanTaken r s) := by
  have measured : Judged (scanMeasured r s).env.ungranted (scanMeasured r s) := (recompute_current _).judged
  have decided := (decideConditions_judged (scanMeasured r s).scanConditions measured).effect (takeScanWarnings_effect _)
  have supervised : Judged (scanMeasured r s).env.ungranted (scanSupervised (scanMeasured r s)) := by
    unfold scanSupervised
    dsimp only
    split
    · exact takeBoundary_judged decided
    · exact decided
  have phase : (scanSupervised (scanMeasured r s)).phc.phase ≠ .hoist := by
    rw [(scanSupervised_effect _).phc_eq, (scanMeasured_effect r s).phc_eq]; exact h
  have still : phcAfterEvaluation s.stk (scanSupervised (scanMeasured r s)) = scanSupervised (scanMeasured r s) := by
    unfold phcAfterEvaluation advanceEvaluate
    simp [phase]
  unfold scanTaken
  dsimp only
  rw [still]
  exact (supervised.effect (brcScan_effect _)).effect (brcDepth_effect _ _)

/-- Warnings 3 and 4 after a scan (R145). -/
theorem scanTaken_warnings (r : Readings) (s : State) :
    (scanTaken r s).fsv.warnings.oilWarm = decide (s.gst.settings.thetaHot < (scanTaken r s).env.measured.theta) ∧
      (scanTaken r s).fsv.warnings.channelHolding = anyHolding (scanTaken r s).msu.channels := by
  have decided := decideConditions_effect (scanMeasured r s).scanConditions (scanMeasured r s)
  have supervised := scanSupervised_effect (scanMeasured r s)
  have behind := scanTaken_behind r s
  have warnings : (scanTaken r s).fsv.warnings =
      (takeScanWarnings (decideConditions (scanMeasured r s).scanConditions (scanMeasured r s))).fsv.warnings := by
    unfold scanTaken
    dsimp only
    rw [brcDepth_fsv, brcScan_fsv, phcAfterEvaluation_fsv]
    unfold scanSupervised
    dsimp only
    split
    · exact takeBoundary_warnings _
    · rfl
  rw [warnings, behind.measured_eq, behind.msu_eq, supervised.measured_eq, supervised.msu_eq, ← decided.measured_eq,
    ← decided.msu_eq]
  refine ⟨?_, rfl⟩
  rw [show s.gst = (evaluate (scanned r s)).gst from rfl, ← (scanMeasured_effect r s).gst_eq, ← decided.gst_eq]
  rfl

/-- The tautness of the rope by the scan (R9). -/
theorem scanTaken_taut (r : Readings) (s : State) : (scanTaken r s).stk.taut =
    (decide (s.gst.settings.lSlack ≤ (scanTaken r s).msu.channels.rl.value) &&
      !(scanTaken r s).msu.channels.rl.holding) := by
  rw [scanTaken_stk, (evaluate_evaluated (scanned r s)).taut, scanTaken_msu]
  rfl

theorem scanTaken_evaluated (r : Readings) (s : State) :
    Evaluated { s.stk with taut := (scanTaken r s).stk.taut } s (scanTaken r s) := by
  have k := (evaluate_evaluated (scanned r s))
  have start : (scanned r s).stk = { s.stk with taut := (scanTaken r s).stk.taut } := by
    rw [scanTaken_stk, k.taut]
    rfl
  have after := scanTaken_after r s
  rw [start] at k
  exact k.congr rfl after.stk_eq (by rw [after.gst_eq]) (by rw [after.msu_eq]) (by rw [after.msu_eq])

theorem scanTaken_phc (r : Readings) (s : State) : (scanTaken r s).phc =
    advancedPhc s.gst.settings (scanTaken r s).stk (modelMoved s.stk (scanTaken r s).stk) s.phc := by
  have supervised : Effect [.znt, .faults, .brc, .env, .measured, .grants, .pif] (evaluate (scanned r s))
      (scanSupervised (scanMeasured r s)) :=
    ((scanMeasured_effect r s).mono (by simp)).trans ((scanSupervised_effect _).mono (by simp))
  rw [scanTaken_stk, ← supervised.stk_eq]
  unfold scanTaken
  dsimp only
  rw [(brcDepth_effect _ _).phc_eq, (brcScan_effect _).phc_eq, phcAfterEvaluation_phc, supervised.gst_eq,
    supervised.phc_eq]
  rfl

/-- DEPTH_DISAGREE by the scan (R14, R130). -/
theorem scanTaken_disagreement (r : Readings) {s : State} (running : s.lines.xrst = false) :
    DisagreementDecided s (scanTaken r s) := by
  have after := scanTaken_after r s
  have measured := scanMeasured_effect r s
  have same : (scanMeasured r s).depthDisagrees =
      decide ((scanTaken r s).gst.settings.depthTolerance < |(scanTaken r s).stk.disagreement|) := by
    rw [State.depthDisagrees, measured.gst_eq, measured.stk_eq, after.gst_eq, after.stk_eq]
  obtain ⟨condition, latched⟩ := scanTaken_decided r running (x := .depthDisagree)
    (b := (scanMeasured r s).depthDisagrees) (by simp [State.scanConditions])
  refine ⟨?_, fun was now => latched was (condition ▸ now)⟩
  rw [condition, running, same]
  rfl

/-- OVERTORQUE and OVERCROWD between their tests (R130). -/
theorem betweenTests_eq (p q : Prop) [Decidable p] [Decidable q] (was : Bool) :
    betweenTests (decide p) (decide q) was = if p then true else if q then false else was := by
  simp [betweenTests]

/-- Settles O38: the parts of a scan, each by its lemma; and none while XRST is asserted. -/
theorem scanIsTaken : Obligations.ScanIsTaken := by
  refine ⟨fun r s running => ⟨settle (scanTaken r s), by simp [exec, execScanCompletion, running, done], ?_⟩,
    fun r s asserted => ⟨settle s, by simp [exec, execScanCompletion, asserted, done], (settle_effect s).keeps⟩⟩
  have e := (scanTaken_effect r s).trans ((settle_effect _).mono (by simp))
  have decided : ∀ {x b}, (x, b) ∈ (scanMeasured r s).scanConditions → ((settle (scanTaken r s)).entry x).condition = b :=
    fun h => (scanTaken_decided r running h).1
  have msu := scanTaken_msu r s
  have measured := scanTaken_measured r s
  have theta : (scanTaken r s).env.measured.theta = (scanTaken r s).msu.channels.ot.value := by rw [measured]; rfl
  have formed : (scanMeasured r s).env.measured = (scanTaken r s).env.measured := by
    rw [(scanTaken_behind r s).measured_eq, (scanSupervised_effect _).measured_eq]
  have channels : (scanMeasured r s).msu.channels = (scanTaken r s).msu.channels := by
    rw [(scanTaken_behind r s).msu_eq, (scanSupervised_effect _).msu_eq]
  have settings : (scanMeasured r s).gst.settings = s.gst.settings := by rw [(scanMeasured_effect r s).gst_eq]; rfl
  obtain ⟨oilWarm, holding⟩ := scanTaken_warnings r s
  rw [theta] at oilWarm
  refine ⟨?_, by rw [settle_msu, msu], ⟨?_, scanTaken_taut r s, ?_, ?_, ?_, ?_, ?_, oilWarm, holding⟩, ?_,
    (scanTaken_evaluated r s).congr rfl rfl rfl rfl rfl, (scanTaken_disagreement r running).congr rfl rfl rfl rfl rfl,
    ?_, scanTaken_phc r s, e.answers, e.keeps⟩
  · intro c raw mem
    rw [settle_msu, msu]
    simp only [List.mem_cons, Prod.mk.injEq, List.not_mem_nil, or_false] at mem
    rcases mem with ⟨rfl, rfl⟩ | ⟨rfl, rfl⟩ | ⟨rfl, rfl⟩ | ⟨rfl, rfl⟩ | ⟨rfl, rfl⟩ | ⟨rfl, rfl⟩ <;>
      exact take_spec _ _ _ _
  · rw [settle_env, measured, settle_msu]
    cases s.gst.active <;> rfl
  · rw [settle_msu, ← theta, ← formed, ← settings]
    exact decided (by simp [State.scanConditions])
  · refine decided ?_
    simp [State.scanConditions, channels]
  · refine decided ?_
    simp [State.scanConditions, channels]
  · refine decided ?_
    simp [State.scanConditions, channels]
  · refine decided ?_
    simp [State.scanConditions, channels]
  · intro notHoist
    have record := (scanTaken_judged r notHoist).record
    obtain ⟨computed, wot, zWot⟩ := Envelope.ungranted_congr record
    have aR : (scanMeasured r s).stk.aR = s.stk.aR := by
      rw [(scanMeasured_effect r s).stk_eq, (evaluate_evaluated _).aR]
      rfl
    have torque := decided (x := .overtorque) (b := overtorque (scanMeasured r s).gst.settings (scanMeasured r s).env
      (scanMeasured r s).stk.aR ((scanMeasured r s).entry .overtorque).condition) (by simp [State.scanConditions])
    have crowd := decided (x := .overcrowd) (b := overcrowd (scanMeasured r s).gst.settings (scanMeasured r s).env
      ((scanMeasured r s).entry .overcrowd).condition) (by simp [State.scanConditions])
    rw [overtorque, settings, aR, scanMeasured_entry, formed, ← computed, betweenTests_eq] at torque
    rw [overcrowd, settings, scanMeasured_entry, formed, ← computed, ← wot, ← zWot, ← Bool.decide_or, ← Bool.decide_and,
      betweenTests_eq] at crowd
    exact ⟨torque, crowd⟩
  · intro src mem
    refine scanTaken_undecided r s ?_
    revert src
    simp [State.scanConditions]

end Sys2Proof.Machine
end

