-- ==== Sys2Proof/Proofs/PowerOnReset.lean ====
section
/-! POR: the store it reads, every block as it starts, and an ESTOP found asserted (R146, R165). -/

namespace Sys2Proof.Machine

/-- The FSV after POR: an ESTOP line found asserted is a LATCHED DROP over all three drives (R146). -/
def Fsv.atPor (estop : Bool) : Fsv :=
  let found : FaultEntry := ⟨estop, estop, .latched, .drop, none, none, if estop then some ⟨.drop, .latched⟩ else none⟩
  { Fsv.start.withEntry .estop found with dropReach := ⟨estop, estop, estop⟩ }

/-- A grant record after POR, with its neutral hold (R112, R146). -/
def Grant.atPor (estop : Bool) : Grant := ⟨.unacked, 0, 0, 0, false, false, false, estop⟩

/-- ESTOP decided as POR ends moves the FSV and the neutral holds alone: nothing is granted, and no session is open. -/
theorem decideEstop_started (l : LineLevels) (s : State) : decideEstop (started l s) =
    ((started l s).withFsv (.atPor l.estop)).withGru ⟨.atPor l.estop, .atPor l.estop, .atPor l.estop, .low⟩ := by
  obtain ⟨rope, stroke, angle, estop, wp⟩ := l
  cases estop <;> rfl

/-! The supply in PARKED. -/

/-- In PARKED no torque ceiling is above 0 (R77, R78). -/
theorem torque_parked (t : Settings) (g : Geometry) (l : Limits) (theta : Int) (spent : Bool) :
    tForward t g l .parked (derate t theta) ≤ 0 ∧ tReverse t g l .parked (derate t theta) spent ≤ 0 := by
  have least : derated (min (tBase g l) 0) (derate t theta) ≤ 0 := by
    rw [derated, floorDiv, Int.fdiv_eq_ediv_of_nonneg _ (by norm_num)]
    unfold derate
    split <;> omega
  refine ⟨least, ?_⟩
  unfold tReverse
  split
  · exact le_refl 0
  · exact least

/-- In PARKED, with no pressure on the push side, the supply is never short (R85). -/
theorem supplyShort_parked {s : State} (range : ∀ g, s.gst.active = some g → g.InRange) (parked : s.phc.phase = .parked)
    (cu : s.msu.channels.cu.value = 0) : s.envelope.supplyShort = false := by
  cases active : s.gst.active with
  | none => simp [State.envelope, active, envelopeWithout]
  | some g =>
    have kRot : 0 < g.kRot := by
      have := ((range g active).get .kRot).1
      simp only [GeomItem.range, Geometry.get] at this
      omega
    obtain ⟨forward, reverse⟩ := torque_parked s.gst.settings g s.znt.limits s.env.measured.theta
      (budgetSpent s.gst.settings .parked s.stk.joints s.stk.aR)
    have rotary : pRotary g (tForward s.gst.settings g s.znt.limits .parked (derate s.gst.settings s.env.measured.theta))
        (tReverse s.gst.settings g s.znt.limits .parked (derate s.gst.settings s.env.measured.theta)
          (budgetSpent s.gst.settings .parked s.stk.joints s.stk.aR)) ≤ 0 := by
      rw [pRotary, floorDiv, Int.fdiv_eq_ediv_of_nonneg _ kRot.le]
      exact Int.ediv_le_of_le_mul kRot (by omega)
    have supply : 0 ≤ availablePressure s.gst.settings s.msu.channels.sp.value := le_max_left _ _
    simp only [State.envelope, active, envelopeWith, parked, cu, crowdPressure, crowdDown, floorDiv, zero_mul, add_zero,
      Int.zero_fdiv, decide_eq_false_iff_not, not_or, not_lt]
    exact ⟨supply, rotary.trans supply⟩

/-! The start. -/

/-- The record an envelope is formed from counts by its measured quantities alone (R72). -/
theorem envelope_withEnv {s : State} {e : Envelope} (h : e.measured = s.env.measured) :
    (s.withEnv e).envelope = s.envelope := by
  unfold State.envelope
  simp only [State.withEnv_gst, State.withEnv_znt, State.withEnv_phc, State.withEnv_stk, State.withEnv_msu,
    State.withEnv_fsv, State.withEnv_env, h]

theorem withEnvelope_current (s : State) : Current (s.withEnv s.envelope) :=
  (envelope_withEnv s.envelope_measured).symm

/-- POR leaves the envelope current (R92). -/
theorem started_current (l : LineLevels) (s : State) : Current (started l s) := withEnvelope_current _

/-- A port as a reset leaves it, with no frame under way (R177). -/
theorem reset_port (p : PortState) (x : Word) :
    (p.reset x).answer = ⟨.restart, x, 0, false⟩ ∧ (p.reset x).rst = true ∧ (p.reset x).link = false ∧
      (p.reset x).lastReason = 0 ∧ (p.reset x).inFrame = false ∧ (p.reset x).dataOut = none := by
  refine ⟨rfl, rfl, rfl, rfl, ?_, rfl⟩
  unfold PortState.inFrame PortState.reset PortState.start
  cases p.frame <;> rfl

/-- Settles O44: every block as POR starts it, from the store it reads. -/
theorem porStartsFromTheStore : Obligations.PorStartsFromTheStore := by
  intro l s
  refine ⟨settle (decideEstop (started l s)), rfl, Config.wordsWritten s.freeCount % 94, Config.tornWord s.freeCount,
    Nat.mod_lt _ (by norm_num), ?_⟩
  rw [decideEstop_started]
  have store : (if s.gst.commit.isSome then s.gst.store.cutOff (.ofGeometry s.gst.staging)
      (Config.wordsWritten s.freeCount % 94) (Config.tornWord s.freeCount) else s.gst.store) = s.storeAtPor := by
    simp [State.storeAtPor, State.committing, Store.cutOff]
  rw [store]
  have current : Current (settle (((started l s).withFsv (.atPor l.estop)).withGru
      ⟨.atPor l.estop, .atPor l.estop, .atPor l.estop, .low⟩)) :=
    settle_current ((started_current l s).of_inputs rfl rfl rfl rfl rfl rfl rfl (by cases l.estop <;> rfl))
  have short : (started l s).env.supplyShort = false := by
    have := started_current l s
    rw [Current] at this
    rw [this]
    exact supplyShort_parked (started_tableInv l s).active rfl rfl
  refine ⟨?_, rfl, ?_, rfl, ⟨fun i => ?_, rfl, rfl, rfl, rfl, rfl⟩, current, ?_, ?_, fun d => ?_, fun src ne => ?_, ?_,
    ⟨rfl, rfl, rfl, rfl, rfl, rfl, ?_⟩, rfl, fun p => ?_, rfl⟩
  · rw [settle_gst]
    show Gst.start s.storeAtPor = _
    simp only [Gst.start, Store.good, decide_eq_true_eq]
  · rw [settle_stk]
    show Stk.start (Gst.start s.storeAtPor).active = _
    simp only [Stk.start, Gst.start, Store.good, decide_eq_true_eq]
    split <;> rfl
  · show (Znt.start).zones[i] = _
    simp [Znt.start, Zone.start]
  · show (started l s).env.measured = _
    rw [started, State.withEnv_env, State.envelope_measured]
    rfl
  · rfl
  · cases d <;> rfl
  · cases src
    · exact absurd rfl ne
    all_goals rfl
  · rfl
  · show (⟨(started l s).env.supplyShort, true, false, false, false⟩ : Warnings) = _
    rw [short]
  · have port : (settle (((started l s).withFsv (.atPor l.estop)).withGru
        ⟨.atPor l.estop, .atPor l.estop, .atPor l.estop, .low⟩)).port p = (s.port p).reset 1 := by cases p <;> rfl
    rw [port]
    exact reset_port _ 1

end Sys2Proof.Machine
end

