-- ==== Sys2Proof/Proofs/XrstAssertion.lean ====
section
/-! The assertion of XRST: what it resets and keeps, and a release it cuts off (R26, R67, R146, R177). -/

namespace Sys2Proof.Machine

/-! The records. -/

/-- A step record asked for keeps the records held (R148, R153). -/
theorem brcDepth_fifo (before : Int) (s : State) : ∃ more, (brcDepth before s).brc.fifo = s.brc.fifo ++ more := by
  unfold brcDepth Brc.stepRecord
  split
  · rw [State.withBrc_brc]
    split
    · exact ⟨[], (List.append_nil _).symm⟩
    · exact s.brc.ask_fifo _ _ _ _
  · exact ⟨[], (List.append_nil _).symm⟩

/-- Two EVENT records asked for with room for both are the newest two (R148, R149). -/
theorem Brc.askAll_two {b : Brc} (room : b.fifo.length < 511) (noGap : b.gap.pending = false) (depth : Int)
    (x y : EventDetail) : (b.askAll true depth [x, y]).fifo =
      b.fifo ++ [⟨b.seqCounter, depth, depth, .event x⟩, ⟨b.seqCounter + 1, depth, depth, .event y⟩] := by
  have first : b.ask true depth depth (.event x) = b.append depth depth (.event x) :=
    Brc.ask_of_room (by omega) noGap _ _ _
  have second : (b.append depth depth (.event x)).ask true depth depth (.event y) =
      (b.append depth depth (.event x)).append depth depth (.event y) :=
    Brc.ask_of_room (b := b.append depth depth (.event x))
      (by simp only [Brc.append, List.length_append, List.length_singleton]; omega) noGap _ _ _
  rw [Brc.askAll, List.foldl_cons, List.foldl_cons, List.foldl_nil, first, second]
  simp [Brc.append]

theorem jointMask_eq_zero (test : Joint → Bool) (js : List Joint) : jointMask test js = 0 ↔ js.any test = false := by
  induction js with
  | nil => simp [jointMask]
  | cons j js ih =>
    rw [jointMask, Nat.add_eq_zero_iff, List.any_cons, Bool.or_eq_false_iff, ← ih]
    cases test j <;> simp

theorem askJoints_brc {d : Nat → EventDetail} {mask : Nat} (h : mask ≠ 0) (s : State) :
    (askJoints d mask s).brc = s.brc.askAll s.znt.sessionOpen s.stk.depth [d mask] := by
  rw [askJoints, if_neg h, askEvent_brc]

/-- With its mask, combined set and limits current, the ZNT's re-evaluation at the same depth and quality changes nothing
and records nothing (R119, R120). -/
theorem zntReevaluate_current {s : State} (mask : s.znt.mask = s.znt.containing s.stk.depth)
    (combined : s.znt.combined = s.znt.combinedSet s.stk.quality s.stk.depth)
    (limits : s.znt.limits = s.znt.combine s.znt.combined) :
    (zntReevaluate s).znt = s.znt ∧ (zntReevaluate s).brc = s.brc := by
  rw [zntReevaluate_znt, zntReevaluate_brc, ← mask, ← combined, ← limits]
  have none : s.znt.markRecords s.znt.mask s.znt.mask = [] := by
    have out : ∀ i ∈ s.znt.mask, ((s.znt.zone i).mark && !s.znt.mask.contains i) = false := fun i hi => by simp [hi]
    have empty : (s.znt.mask.filter fun i => (s.znt.zone i).mark && !s.znt.mask.contains i) = [] :=
      List.filter_eq_nil_iff.mpr fun i hi => by rw [out i hi]; simp
    simp only [Znt.markRecords, empty, List.map_nil, List.append_nil]
  exact ⟨rfl, by rw [none, Brc.askAll_nil]⟩

/-! The string model at the assertion. -/

/-- What an evaluation left, with the accumulators cleared behind it (R26). -/
theorem Evaluated.cleared {k : Stk} {s s' t t' : State} (h : Evaluated k s t)
    (session : s'.znt.sessionOpen = s.znt.sessionOpen)
    (stk : t'.stk = { t.stk with aF := 0, aR := 0, reverseRun := false }) (active : t'.gst.active = t.gst.active)
    (rope : t'.msu.ropeMm = t.msu.ropeMm) (stroke : t'.msu.strokeMm = t.msu.strokeMm) :
    Evaluated { k with aF := 0, aR := 0, reverseRun := false } s' t' := by
  have kept : StringKept t t' := ⟨⟨active, rope, stroke⟩, by rw [stk]; rfl⟩
  obtain ⟨rest, depth, states, locked, outside, held, bottom⟩ := h
  refine ⟨?_, kept.depthInv depth, ?_, ?_, ?_, ?_, ?_⟩
  · rw [stk]
    conv_rhs => rw [← rest]
  all_goals simpa only [State.jointStates, stk, session] using ‹_›

section
variable (s : State)

/-- The part as XRST judges the operation it cuts off: with the XRST record asked for (R26, R159). -/
def xrstRecorded : State := askEvent .xrst (xrstSeen s)

theorem stkXrst_effect : Effect [.stk, .brc] s (stkXrst s) :=
  (Effect.ite (doubtLockedIfAny_effect s) (.refl s)).trans ((withStk_effect _ _).mono (by simp))

theorem xrstJudged_effect : Effect [.stk, .znt, .brc] (xrstRecorded s) (xrstJudged s) :=
  ((stkXrst_effect _).mono (by simp)).trans (((zntReevaluate_effect _).mono (by simp)).trans
    ((brcDepth_effect _ _).mono (by simp)))

/-- A release cut off with a joint LOCKED (R26). -/
def cutsRelease : Prop := s.releaseCutOff = true ∧ s.stk.joints.any Joint.isLocked = true

theorem cutsRelease_iff : cutsRelease s ↔ s.phc.phase = .releasing ∧ s.gst.settings.unlockAngle < 2 * (s.stk.aR : Int) ∧
    s.stk.joints.any Joint.isLocked = true := by
  simp [cutsRelease, State.releaseCutOff, and_assoc]

theorem stkXrst_cut {s : State} (h : cutsRelease s) : stkXrst s = (evaluate (doubtLocked s)).withStk
    { (evaluate (doubtLocked s)).stk with aF := 0, aR := 0, reverseRun := false } := by
  simp only [stkXrst, h.1, if_true, doubtLockedIfAny, h.2]

theorem stkXrst_uncut {s : State} (h : ¬cutsRelease s) :
    stkXrst s = s.withStk { s.stk with aF := 0, aR := 0, reverseRun := false } := by
  have same : (if s.releaseCutOff then doubtLockedIfAny s else s) = s := by
    unfold doubtLockedIfAny
    split
    · next cut => rw [if_neg fun lost => h ⟨cut, lost⟩]
    · rfl
  simp only [stkXrst, same]

theorem doubtLocked_stk : (doubtLocked s).stk = { s.stk with joints := s.stk.joints.map Joint.doubted } :=
  (askJoints_effect _ _ _).stk_eq

/-! What the assertion leaves. -/

theorem xrstAsserted_keeps : (xrstAsserted s).znt.zones = s.znt.zones ∧
    (xrstAsserted s).znt.sessionOpen = s.znt.sessionOpen ∧ (xrstAsserted s).znt.pile = s.znt.pile := by
  have e := xrstJudged_effect s
  rw [xrstAsserted_znt]
  exact ⟨e.zones_eq, e.sessionOpen_eq, e.pile_eq⟩

/-- The fault table after the assertion: nothing present, latched or in force, the pending values installed (R146). -/
theorem xrstAsserted_faults : (∀ src, (xrstAsserted s).entry src = (s.entry src).afterXrst) ∧
    (xrstAsserted s).fsv.limitReach = .empty ∧ (xrstAsserted s).fsv.dropReach = .empty := by
  have e := xrstJudged_effect s
  have fsv := e.fsv_eq
  refine ⟨fun src => ?_, ?_, ?_⟩
  · have table : (xrstRecorded s).entry src = (s.entry src).afterXrst := by
      show (s.fsv.table.map FaultEntry.afterXrst)[src.idx] = _
      simp [State.entry, Fsv.entry]
    rw [State.entry, xrstAsserted_fsv, ← State.entry, e.entry_eq, table]
  · rw [xrstAsserted_fsv, fsv]; rfl
  · rw [xrstAsserted_fsv, fsv]; rfl

/-- Every port answers RESTART with X = 2, and no frame is under way (R177). -/
theorem xrstAsserted_port (p : Port) : (xrstAsserted s).port p = (s.port p).reset 2 := by
  have pif : (xrstAsserted s).pif = s.pif.reset 2 := by rw [xrstAsserted_pif]; exact (xrstJudged_effect s).kept .pif (by simp)
  rw [State.port, pif]
  cases p <;> rfl

theorem xrstAsserted_grant (d : Drive) : (xrstAsserted s).grant d = .start := by
  rw [State.grant, xrstAsserted_gru]
  cases d <;> rfl

theorem xrstJudged_brc_fifo : ∃ more, (xrstJudged s).brc.fifo = (stkXrst (xrstRecorded s)).brc.fifo ++ more := by
  obtain ⟨x, hx⟩ := brcDepth_fifo s.stk.bottomHole (zntReevaluate (stkXrst (xrstRecorded s)))
  obtain ⟨y, hy⟩ := (stkXrst (xrstRecorded s)).brc.askAll_fifo (stkXrst (xrstRecorded s)).znt.sessionOpen
    (stkXrst (xrstRecorded s)).stk.depth ((stkXrst (xrstRecorded s)).znt.markRecords (stkXrst (xrstRecorded s)).znt.mask
      ((stkXrst (xrstRecorded s)).znt.containing (stkXrst (xrstRecorded s)).stk.depth))
  rw [← zntReevaluate_brc] at hy
  exact ⟨y ++ x, by rw [xrstJudged, ← xrstRecorded, hx, hy, List.append_assoc]⟩

/-- No record held is lost (R159). -/
theorem xrstAsserted_fifo : ∃ more, (xrstAsserted s).brc.fifo = s.brc.fifo ++ more := by
  obtain ⟨x, hx⟩ := xrstJudged_brc_fifo s
  have judged : ∃ more, (stkXrst (xrstRecorded s)).brc.fifo = (xrstRecorded s).brc.fifo ++ more := by
    by_cases cut : cutsRelease (xrstRecorded s)
    · rw [stkXrst_cut cut]
      show ∃ more, (doubtLocked (xrstRecorded s)).brc.fifo = _
      rw [doubtLocked, askJoints_brc (by rw [ne_eq, jointMask_eq_zero, cut.2]; simp)]
      exact Brc.askAll_fifo _ _ _ _
    · rw [stkXrst_uncut cut]
      exact ⟨[], (List.append_nil _).symm⟩
  obtain ⟨y, hy⟩ := judged
  obtain ⟨z, hz⟩ := s.brc.askAll_fifo s.znt.sessionOpen s.stk.depth [.xrst]
  have recorded : (xrstRecorded s).brc = s.brc.askAll s.znt.sessionOpen s.stk.depth [.xrst] := rfl
  exact ⟨z ++ y ++ x, by rw [xrstAsserted_brc, hx, hy, recorded, hz, List.append_assoc, List.append_assoc, List.append_assoc]⟩
end

/-- An operation that is no release, or one that leaves no joint in doubt: the string model stands but for the
accumulators, and the XRST record is the only one (R26). -/
theorem xrstAsserted_uncut {s : State} (h : ¬cutsRelease s) :
    (xrstAsserted s).stk = { s.stk with aF := 0, aR := 0, reverseRun := false } ∧
    (ZoneInv s → (xrstAsserted s).brc = s.brc.ask s.znt.sessionOpen s.stk.depth s.stk.depth (.event .xrst) ∧
      (xrstAsserted s).znt = s.znt) := by
  have judged := stkXrst_uncut (s := xrstRecorded s) h
  have e : Effect [.znt, .brc] (stkXrst (xrstRecorded s)) (xrstJudged s) :=
    (zntReevaluate_effect _).trans ((brcDepth_effect _ _).mono (by simp))
  rw [xrstAsserted_stk, xrstAsserted_brc, xrstAsserted_znt, e.stk_eq, judged]
  refine ⟨rfl, fun inv => ?_⟩
  obtain ⟨mask, combined, limits, -⟩ := inv
  obtain ⟨znt, brc⟩ := zntReevaluate_current (s := (xrstRecorded s).withStk
    { (xrstRecorded s).stk with aF := 0, aR := 0, reverseRun := false }) mask combined limits
  have depth := (brcDepth_effect s.stk.bottomHole (zntReevaluate ((xrstRecorded s).withStk
    { (xrstRecorded s).stk with aF := 0, aR := 0, reverseRun := false }))).znt_eq
  rw [xrstJudged, ← xrstRecorded, judged, depth, znt]
  refine ⟨?_, rfl⟩
  rw [brcDepth_brc (s0 := s) _ rfl (by rw [znt]; rfl), brc, Brc.stepAsked_of_not_deeper]
  · rfl
  · rw [(zntReevaluate_effect _).stk_eq]
    exact le_refl _

/-- A release cut off with a joint LOCKED: every LOCKED joint is UNCERTAIN, and the depth is evaluated (R26). -/
theorem xrstAsserted_cut {s : State} (h : cutsRelease s) :
    (xrstAsserted s).jointStates = s.stk.joints.map (fun j => if j.isLocked then .uncertain else j.state) ∧
    Evaluated { s.stk with aF := 0, aR := 0, reverseRun := false, joints := s.stk.joints.map Joint.doubted } s
      (xrstAsserted s) ∧
    (s.znt.sessionOpen = true → s.brc.fifo.length < 511 → s.brc.gap.pending = false → ∃ more,
      (xrstAsserted s).brc.fifo = s.brc.fifo ++ ⟨s.brc.seqCounter, s.stk.depth, s.stk.depth, .event .xrst⟩ ::
        ⟨s.brc.seqCounter + 1, s.stk.depth, s.stk.depth, .event (.uncertain (jointMask Joint.isLocked s.stk.joints))⟩ ::
        more) := by
  have judged := stkXrst_cut (s := xrstRecorded s) h
  have e : Effect [.znt, .brc] (stkXrst (xrstRecorded s)) (xrstJudged s) :=
    (zntReevaluate_effect _).trans ((brcDepth_effect _ _).mono (by simp))
  have whole := xrstJudged_effect s
  have stk : (xrstAsserted s).stk = { (evaluate (doubtLocked (xrstRecorded s))).stk with
      aF := 0, aR := 0, reverseRun := false } := by rw [xrstAsserted_stk, e.stk_eq, judged]; rfl
  have doubted := doubtLocked_effect (xrstRecorded s)
  have ev := (evaluate_evaluated (doubtLocked (xrstRecorded s))).cleared (s' := s) (t' := xrstAsserted s)
    doubted.sessionOpen_eq.symm stk
    (by rw [xrstAsserted_gst, whole.gst_eq, (evaluate_effect _).gst_eq, doubted.gst_eq])
    (by rw [xrstAsserted_msu, whole.msu_eq, (evaluate_effect _).msu_eq, doubted.msu_eq]; rfl)
    (by rw [xrstAsserted_msu, whole.msu_eq, (evaluate_effect _).msu_eq, doubted.msu_eq]; rfl)
  rw [doubtLocked_stk] at ev
  refine ⟨?_, ev, fun sessionOpen room noGap => ?_⟩
  · refine ev.states.trans ?_
    simp only [List.map_map]
    refine List.map_congr_left fun j _ => ?_
    simp only [Function.comp_apply, Joint.doubted]
    split <;> rfl
  · obtain ⟨more, hm⟩ := xrstJudged_brc_fifo s
    have lost : jointMask Joint.isLocked (xrstRecorded s).stk.joints ≠ 0 := fun none => by
      have kept := h.2.symm.trans ((jointMask_eq_zero _ _).mp none)
      cases kept
    have two : (stkXrst (xrstRecorded s)).brc = s.brc.askAll true s.stk.depth
        [.xrst, .uncertain (jointMask Joint.isLocked s.stk.joints)] := by
      rw [judged, State.withStk_brc, (evaluate_effect _).brc_eq, doubtLocked, askJoints_brc lost]
      show ((s.brc.askAll s.znt.sessionOpen s.stk.depth [.xrst]).askAll s.znt.sessionOpen s.stk.depth _) = _
      rw [sessionOpen]
      rfl
    refine ⟨more, ?_⟩
    rw [xrstAsserted_brc, hm, two, Brc.askAll_two room noGap]
    simp

end Sys2Proof.Machine
end

