-- ==== Sys2Proof/Proofs/XrstEnd.lean ====
section
/-! The end of XRST, and an ESTOP it finds asserted (R39, R41, R43, R92, R126, R143, R146). -/

namespace Sys2Proof.Machine

/-! ESTOP raised from absent, with no override of it in force (R143). -/

/-- Once every drive is in a reach, a union leaves them there (R129). -/
theorem foldl_union_all (test : Source → Bool) (reach : Source → DriveSet) (xs : List Source) :
    xs.foldl (fun (r : DriveSet) x => if test x then r.union (reach x) else r) ⟨true, true, true⟩ = ⟨true, true, true⟩ := by
  induction xs with
  | nil => rfl
  | cons x xs ih =>
    rw [List.foldl_cons]
    split
    · simpa [DriveSet.union] using ih
    · exact ih

/-- ESTOP dropped reaches every drive (R129, R143). -/
theorem formDropReach_estop {f : Fsv} {o : Override} (h : (f.entry .estop).override = some o) (drop : o.action = .drop) :
    f.formDropReach = ⟨true, true, true⟩ := by
  have first : (f.entry .estop).override.any (fun o => decide (o.action = .drop)) = true := by simp [h, drop]
  have all : DriveSet.empty.union (Source.estop.group.reach f.groupMode) = ⟨true, true, true⟩ := by
    cases f.groupMode <;> rfl
  unfold Fsv.formDropReach Fsv.reachOf Source.all
  rw [List.foldl_cons, if_pos first, all]
  exact foldl_union_all _ _ _

/-- A LATCHED DROP at a drive sets its hold and takes it out of ACTIVE (R99, R111). -/
theorem latchedDropBegins_grant (s : State) (d : Drive) :
    ((latchedDropBegins s d).grant d).hold = true ∧ ((latchedDropBegins s d).grant d).isActive = false ∧
      ((s.grant d).state = .unacked → ((latchedDropBegins s d).grant d).state = .unacked) ∧
      ∀ e, e ≠ d → (latchedDropBegins s d).grant e = s.grant e := by
  have neutral : ((neutralEvent .drop d s).grant d).isActive = false ∧
      ((s.grant d).state = .unacked → ((neutralEvent .drop d s).grant d).state = .unacked) ∧
      ∀ e, e ≠ d → (neutralEvent .drop d s).grant e = s.grant e := by
    unfold neutralEvent
    split
    · next n active =>
      have withdrawn : ∀ e, (withdraw d .drop s).grant e =
          (s.withGrant d ((s.grant d).toNeutral .drop)).grant e := fun _ => rfl
      refine ⟨by rw [withdrawn, State.grant_withGrant_self]; rfl, fun h => (by rw [active] at h; cases h), fun e he => ?_⟩
      rw [withdrawn, State.grant_withGrant_of_ne (h := he)]
    · next c waiting =>
      refine ⟨by rw [State.grant_withGrant_self]; rfl, fun h => (by rw [waiting] at h; cases h), fun e he => ?_⟩
      rw [State.grant_withGrant_of_ne (h := he)]
    · next unacked => exact ⟨by rw [Grant.isActive, unacked], fun h => h, fun _ _ => rfl⟩
  obtain ⟨inactive, unacked, others⟩ := neutral
  unfold latchedDropBegins
  dsimp only
  refine ⟨by rw [State.grant_withGrant_self], ?_, fun h => ?_, fun e he => ?_⟩
  · rw [State.grant_withGrant_self]; exact inactive
  · rw [State.grant_withGrant_self]; exact unacked h
  · rw [State.grant_withGrant_of_ne (h := he)]; exact others e he

/-- A LATCHED DROP at every drive (R111). -/
theorem latchedDropAll_grant (s : State) (d : Drive) :
    ((drivesInOrder.foldl latchedDropBegins s).grant d).hold = true ∧
      ((drivesInOrder.foldl latchedDropBegins s).grant d).isActive = false ∧
      ((s.grant d).state = .unacked → ((drivesInOrder.foldl latchedDropBegins s).grant d).state = .unacked) := by
  simp only [drivesInOrder, List.foldl_cons, List.foldl_nil]
  obtain ⟨hoist, hoistIdle, hoistUnacked, afterHoist⟩ := latchedDropBegins_grant s .hoist
  obtain ⟨crowd, crowdIdle, crowdUnacked, afterCrowd⟩ := latchedDropBegins_grant (latchedDropBegins s .hoist) .crowd
  obtain ⟨rotary, rotaryIdle, rotaryUnacked, afterRotary⟩ :=
    latchedDropBegins_grant (latchedDropBegins (latchedDropBegins s .hoist) .crowd) .rotary
  cases d
  · rw [afterRotary _ (by simp), afterCrowd _ (by simp)]
    exact ⟨hoist, hoistIdle, hoistUnacked⟩
  · rw [afterRotary _ (by simp), ← afterHoist .crowd (by simp)]
    exact ⟨crowd, crowdIdle, crowdUnacked⟩
  · rw [← afterHoist .rotary (by simp), ← afterCrowd .rotary (by simp)]
    exact ⟨rotary, rotaryIdle, rotaryUnacked⟩

/-- ESTOP found absent and not in force becomes a LATCHED DROP over all three drives (R143). -/
structure EstopDropped (s t : State) : Prop where
  entry : t.entry .estop =
    { s.entry .estop with condition := true, latched := true, override := some ⟨.drop, .latched⟩ }
  reach : t.fsv.dropReach = ⟨true, true, true⟩
  grants : ∀ d, (t.grant d).hold = true ∧ (t.grant d).isActive = false ∧
    ((s.grant d).state = .unacked → (t.grant d).state = .unacked)

/-- A raise that begins an override (R134). -/
theorem raise_begins {src : Source} {a : OverrideAction} {s : State} (running : s.lines.xrst = false)
    (idle : (s.entry src).override = none) (acts : (s.entry src).action.override = some a) : raise src s =
      beginOverride src a (askEvent (.faultRaised src) (s.withEntry src { s.entry src with latched := true })) := by
  have entry : (askEvent (.faultRaised src) (s.withEntry src { s.entry src with latched := true })).entry src =
      { s.entry src with latched := true } := State.entry_withEntry_self _ _ _
  unfold raise
  rw [if_neg (by simp [running])]
  dsimp only
  rw [entry]
  dsimp only
  rw [idle, acts]

/-- A LATCHED DROP that begins over every drive (R111, R134). -/
theorem beginOverride_drop_all {src : Source} {s : State} (latched : (s.entry src).mode = .latched)
    (all : ∀ m, src.group.reach m = .full) : beginOverride src .drop s = drivesInOrder.foldl latchedDropBegins
      (handDropReach (s.withEntry src { s.entry src with override := some ⟨.drop, .latched⟩ })) := by
  have drives : ∀ m, (src.group.reach m).drives = drivesInOrder := fun m => by rw [all]; rfl
  simp only [beginOverride, latched, if_true, drives]

/-- A re-clamp leaves an UNACKED record (R103). -/
theorem reclampDrive_unacked {s : State} {d : Drive} (h : (s.grant d).state = .unacked) (e : Drive) :
    (reclampDrive s e).grant d = s.grant d := by
  have kept : ∀ x a, e ≠ d → (rewriteAnswer e a (s.withGrant e x)).grant d = s.grant d := fun x a ne =>
    State.grant_withGrant_of_ne s x ne.symm
  unfold reclampDrive
  dsimp only
  split
  · next n active =>
    have ne : e ≠ d := fun same => by rw [same, h] at active; cases active
    split
    · exact kept _ _ ne
    · rfl
  all_goals rfl

theorem recompute_unacked {s : State} {d : Drive} (h : (s.grant d).state = .unacked) :
    (recompute s).grant d = s.grant d := by
  have fold : ∀ (ds : List Drive) (t : State), (t.grant d).state = .unacked → (ds.foldl reclampDrive t).grant d = t.grant d := by
    intro ds
    induction ds with
    | nil => exact fun _ _ => rfl
    | cons e ds ih =>
      intro t ht
      have here := reclampDrive_unacked ht e
      exact (ih _ (by rw [here, ht])).trans here
  unfold recompute
  dsimp only
  split
  · exact fold _ _ h
  · rfl

/-- What the override of ESTOP makes of its entry, of the DROP reach and of the grants as it begins (R111, R129). -/
theorem dropAll_estop {s : State} {e : FaultEntry} (h : e.override = some ⟨.drop, .latched⟩) :
    let t := drivesInOrder.foldl latchedDropBegins (handDropReach (s.withEntry .estop e))
    t.entry .estop = e ∧ t.fsv.dropReach = ⟨true, true, true⟩ ∧
      ∀ d, (t.grant d).hold = true ∧ (t.grant d).isActive = false ∧
        ((s.grant d).state = .unacked → (t.grant d).state = .unacked) := by
  have drops := Effect.foldl latchedDropBegins_effect drivesInOrder (handDropReach (s.withEntry .estop e))
  have entry : (s.withEntry .estop e).entry .estop = e := State.entry_withEntry_self _ _ _
  refine ⟨?_, ?_, latchedDropAll_grant _⟩
  · rw [drops.entry_eq, handDropReach_entry, entry]
  · rw [drops.fsv_eq]
    refine formDropReach_estop (o := ⟨.drop, .latched⟩) ?_ rfl
    rw [← h]
    exact congrArg FaultEntry.override entry

theorem decideCondition_estop {s : State} (fixed : EstopFixed s) (running : s.lines.xrst = false)
    (absent : (s.entry .estop).condition = false) (idle : (s.entry .estop).override = none) :
    EstopDropped s (decideCondition .estop true s) := by
  obtain ⟨mode, action, -, -⟩ := fixed
  have raised : decideCondition .estop true s =
      raise .estop (s.withEntry .estop { s.entry .estop with condition := true }) := by
    simp [decideCondition, running, absent]
  have present : (s.withEntry .estop { s.entry .estop with condition := true }).entry .estop =
      { s.entry .estop with condition := true } := State.entry_withEntry_self _ _ _
  have gru : (s.withEntry .estop { s.entry .estop with condition := true }).gru = s.gru := rfl
  have lines : (s.withEntry .estop { s.entry .estop with condition := true }).lines = s.lines := rfl
  rw [raised]
  generalize s.withEntry .estop { s.entry .estop with condition := true } = u at present gru lines
  have latched : (askEvent (.faultRaised .estop) (u.withEntry .estop { u.entry .estop with latched := true })).entry
      .estop = { u.entry .estop with latched := true } := State.entry_withEntry_self _ _ _
  have gru' : (askEvent (.faultRaised .estop) (u.withEntry .estop { u.entry .estop with latched := true })).gru = s.gru :=
    gru
  rw [raise_begins (a := .drop) (by rw [lines, running]) (by rw [present]; exact idle) (by rw [present, action]; rfl)]
  generalize askEvent (.faultRaised .estop) (u.withEntry .estop { u.entry .estop with latched := true }) = v at latched gru'
  rw [beginOverride_drop_all (by rw [latched, present]; exact mode) fun m => by cases m <;> rfl]
  obtain ⟨entry, reach, grants⟩ := dropAll_estop (s := v) (e := { v.entry .estop with override := some ⟨.drop, .latched⟩ }) rfl
  exact ⟨by rw [entry, latched, present], reach, fun d => by
    obtain ⟨hold, inactive, unacked⟩ := grants d
    exact ⟨hold, inactive, fun h => unacked (by rw [State.grant, gru']; exact h)⟩⟩

/-! The end. -/

theorem zntReevaluate_fsv (s : State) : (zntReevaluate s).fsv = s.fsv := by
  have asked : ∀ (ds : List EventDetail) (t : State), (askEvents ds t).fsv = t.fsv := by
    intro ds
    induction ds with
    | nil => exact fun _ => rfl
    | cons d ds ih => exact fun t => ih (askEvent d t)
  exact asked _ _

section
variable (s : State)

/-- The part as XRST ends: the line released, the MSU's timers and the stall window restarted (R39, R41, R43, R146). -/
def xrstReleased : State := startStallWindow ((s.withLines { s.lines with xrst := false }).withMsu s.msu.xrstEnds)

/-- The zones, the envelope and the warnings taken afresh, before ESTOP is decided (R92, R126, R146). -/
def xrstRefreshed : State := takeScanWarnings (recompute (zntReevaluate (xrstReleased s)))

theorem xrstEnded_eq : xrstEnded s = decideEstop (xrstRefreshed s) := rfl

theorem xrstReleased_effect : Effect [.lines, .msu, .faults, .stall] s (xrstReleased s) :=
  ((withLines_effect s _).mono (by simp)).trans (((withMsu_effect _ _).mono (by simp)).trans
    ((withFsv_effect _ _).mono (by simp)))

theorem xrstRefreshed_effect : Effect [.znt, .brc, .env, .grants, .pif] (xrstReleased s) (xrstRefreshed s) :=
  ((zntReevaluate_effect _).mono (by simp)).trans
    (((recompute_effect _).mono (by simp)).trans ((takeScanWarnings_effect _).mono (by simp)))

/-- In PARKED an ESTOP found asserted is decided, and moves no phase (R143). -/
theorem xrstEnded_parked {s : State} (parked : s.phc.phase = .parked) : xrstEnded s =
    if s.lines.estop then decideCondition .estop true (xrstRefreshed s) else xrstRefreshed s := by
  have phc : (xrstRefreshed s).phc = s.phc := (xrstRefreshed_effect s).phc_eq
  have lines : (xrstRefreshed s).lines.estop = s.lines.estop := by rw [(xrstRefreshed_effect s).lines_eq]; rfl
  have decided := (decideCondition_effect .estop true (xrstRefreshed s)).phc_eq
  rw [xrstEnded_eq, decideEstop, lines]
  split
  · rw [estopRaised, if_pos (by rw [decided, phc, parked])]
  · rfl

theorem xrstRefreshed_current : Current (xrstRefreshed s) := (recompute_current _).effect (takeScanWarnings_effect _)

theorem xrstRefreshed_fsv : (xrstRefreshed s).fsv = { s.fsv with
    stallRef := s.msu.angle, stallTimer := s.gst.settings.stallTime.toNat
    warnings := { s.fsv.warnings with
      oilWarm := decide (s.gst.settings.thetaHot < s.env.measured.theta)
      channelHolding := anyHolding s.msu.channels } } := by
  have znt := zntReevaluate_fsv (xrstReleased s)
  have measured : (recompute (zntReevaluate (xrstReleased s))).env.measured = s.env.measured := by
    rw [(recompute_effect _).measured_eq, (zntReevaluate_effect _).measured_eq]; rfl
  have gst : (recompute (zntReevaluate (xrstReleased s))).gst = s.gst := by
    rw [(recompute_effect _).gst_eq, (zntReevaluate_effect _).gst_eq]; rfl
  have msu : (recompute (zntReevaluate (xrstReleased s))).msu = s.msu.xrstEnds := by
    rw [(recompute_effect _).msu_eq, (zntReevaluate_effect _).msu_eq]; rfl
  rw [xrstRefreshed, takeScanWarnings, State.withFsv_fsv, measured, gst, msu, recompute_fsv, znt]
  rfl

/-- With the zone table current the re-evaluation of the zones changes and records nothing (R126). -/
theorem xrstRefreshed_brc (inv : ZoneInv s) : (xrstRefreshed s).brc = s.brc := by
  obtain ⟨mask, combined, limits, -⟩ := inv
  obtain ⟨-, brc⟩ := zntReevaluate_current (s := xrstReleased s) mask combined limits
  rw [xrstRefreshed, (takeScanWarnings_effect _).brc_eq, (recompute_effect _).brc_eq, brc]
  rfl
end

theorem anyHolding_iff (v : PerChannel ChannelState) : anyHolding v = true ↔ ∃ c, (v.get c).holding = true := by
  constructor
  · intro h
    simp only [anyHolding, Bool.or_eq_true] at h
    rcases h with ((((h | h) | h) | h) | h) | h
    · exact ⟨.cd, h⟩
    · exact ⟨.cu, h⟩
    · exact ⟨.rp, h⟩
    · exact ⟨.sp, h⟩
    · exact ⟨.rl, h⟩
    · exact ⟨.ot, h⟩
  · rintro ⟨c, h⟩
    cases c <;> simp_all [anyHolding, PerChannel.get]

section
variable {s : State}

theorem xrstRefreshed_entry (src : Source) : (xrstRefreshed s).entry src = s.entry src := by
  rw [State.entry, xrstRefreshed_fsv]
  rfl

/-- ESTOP found asserted moves the faults, the grants and the records alone (R143). -/
theorem xrstEnded_decided (parked : s.phc.phase = .parked) :
    Effect [.faults, .brc, .env, .grants, .pif] (xrstRefreshed s) (xrstEnded s) := by
  rw [xrstEnded_parked parked]
  exact .ite (decideCondition_effect _ _ _) (.refl _)

theorem xrstEnded_effect (parked : s.phc.phase = .parked) :
    Effect [.msu, .znt, .env, .grants, .faults, .stall, .brc, .pif, .lines] s (xrstEnded s) :=
  ((xrstReleased_effect s).mono (by simp)).trans (((xrstRefreshed_effect s).mono (by simp)).trans
    ((xrstEnded_decided parked).mono (by simp)))

theorem xrstEnded_current (parked : s.phc.phase = .parked) : Current (xrstEnded s) := by
  rw [xrstEnded_parked parked]
  split
  · exact decideCondition_current (xrstRefreshed_current s) _ _
  · exact xrstRefreshed_current s

theorem xrstEnded_warnings (parked : s.phc.phase = .parked) :
    (xrstEnded s).fsv.warnings = (xrstRefreshed s).fsv.warnings := by
  rw [xrstEnded_parked parked]
  split
  · exact decideCondition_warnings _ _ _
  · rfl

/-- Only the entry of ESTOP moves (R143). -/
theorem xrstEnded_entry (parked : s.phc.phase = .parked) (src : Source) (ne : src ≠ .estop) :
    (xrstEnded s).entry src = s.entry src := by
  rw [xrstEnded_parked parked]
  split
  · rw [decideCondition_entry_of_ne ne, xrstRefreshed_entry]
  · rw [xrstRefreshed_entry]

/-- With the ESTOP line released nothing is raised (R146). -/
theorem xrstEnded_released (parked : s.phc.phase = .parked) (released : s.lines.estop = false) :
    (xrstEnded s).entry .estop = s.entry .estop ∧ (ZoneInv s → (xrstEnded s).brc = s.brc) := by
  rw [xrstEnded_parked parked, if_neg (by simp [released])]
  exact ⟨xrstRefreshed_entry _, xrstRefreshed_brc s⟩

/-- With no drive ACTIVE every permit is low (R109, R110). -/
theorem settle_permits_low (h : ∀ d, (s.grant d).isActive = false) : (settle s).gru.permits = Permits.low := by
  show s.permitLevels = _
  simp [State.permitLevels, State.permitLevel, h, Permits.low]

/-- An ESTOP line still asserted, its source not in force (R112, R143, R146). -/
theorem xrstEnded_estop (parked : s.phc.phase = .parked) (line : s.lines.estop = true) (fixed : EstopFixed s)
    (absent : (s.entry .estop).condition = false) (idle : (s.entry .estop).override = none) :
    EstopDropped (xrstRefreshed s) (xrstEnded s) ∧ (ZoneInv s → (xrstEnded s).brc =
      s.brc.ask s.znt.sessionOpen s.stk.depth s.stk.depth (.event (.faultRaised .estop))) := by
  have entry : (xrstRefreshed s).entry .estop = s.entry .estop := xrstRefreshed_entry .estop
  have running : (xrstRefreshed s).lines.xrst = false := by rw [(xrstRefreshed_effect s).lines_eq]; rfl
  rw [xrstEnded_parked parked, if_pos line]
  refine ⟨decideCondition_estop (by rw [EstopFixed, entry]; exact fixed) running (by rw [entry, absent])
    (by rw [entry, idle]), fun inv => ?_⟩
  have becomes : (xrstRefreshed s).becomes .estop true = true := by simp [State.becomes, running, entry, absent]
  rw [decideCondition_brc, becomes, xrstRefreshed_brc s inv, (xrstRefreshed_effect s).sessionOpen_eq,
    (xrstRefreshed_effect s).stk_eq]
  rfl
end

/-- Settles O45: the assertion by the parts it resets, the end by what it restarts and by the ESTOP it finds. -/
theorem xrstResetsAndRestarts : Obligations.XrstResetsAndRestarts := by
  refine ⟨fun s running => ⟨settle (xrstAsserted s), by simp [exec, execXrstAssert, running, done], ?_⟩,
    fun s asserted parked => ⟨settle (xrstEnded s), by simp [exec, execXrstEnd, asserted, done], ?_⟩,
    fun s running => ⟨settle s, by simp [exec, execXrstEnd, running, done], (settle_effect s).keeps⟩,
    fun s asserted => ⟨settle s, by simp [exec, execXrstAssert, asserted, done], (settle_effect s).keeps⟩⟩
  · have e := xrstJudged_effect s
    obtain ⟨zones, sessionOpen, pile⟩ := xrstAsserted_keeps s
    obtain ⟨entries, limits, drops⟩ := xrstAsserted_faults s
    have msu : (xrstAsserted s).msu = s.msu.afterXrst := by rw [xrstAsserted_msu, e.msu_eq]; rfl
    have lines : (xrstAsserted s).lines = { s.lines with xrst := true } := by rw [xrstAsserted_lines, e.lines_eq]; rfl
    have gst : (xrstAsserted s).gst = { s.gst with storeEnable := false } := by rw [xrstAsserted_gst, e.gst_eq]; rfl
    have env : (xrstAsserted s).env = s.env := by rw [xrstAsserted_env, e.env_eq]; rfl
    have phc := xrstAsserted_phc s
    have grants := xrstAsserted_grant s
    have port := xrstAsserted_port s
    have cut := xrstAsserted_cut (s := s)
    have uncut := xrstAsserted_uncut (s := s)
    have fifo := xrstAsserted_fifo s
    generalize xrstAsserted s = t at *
    refine ⟨lines, by rw [settle_msu, msu]; rfl, fun c => ?_, ?_, phc, gst, zones, sessionOpen, pile, fun d => ?_, ?_, fun src => ?_, limits, drops,
      fifo, env, fun p => ?_⟩
    · rw [settle_msu, msu]; cases c <;> rfl
    · dsimp only
      split
      · next h =>
        obtain ⟨states, ev, records⟩ := cut ((cutsRelease_iff s).mpr h)
        exact ⟨states, ev.settled, records⟩
      · next h => exact uncut (mt (cutsRelease_iff s).mp h)
    · rw [settle_grant, grants]; rfl
    · exact settle_permits_low fun d => by rw [grants]; rfl
    · rw [settle_entry, entries]; rfl
    · have same : (settle t).port p = t.port p := rfl
      rw [same, port]
      exact reset_port _ 2
  · have e := xrstEnded_effect parked
    have decided := xrstEnded_decided parked
    have refreshed := xrstRefreshed_effect s
    obtain ⟨stallRef, stallTimer⟩ : _ ∧ _ := decided.kept .stall (by simp)
    have warnings := xrstEnded_warnings parked
    rw [xrstRefreshed_fsv] at stallRef stallTimer warnings
    have lines : (xrstEnded s).lines = { s.lines with xrst := false } := by
      rw [decided.lines_eq, refreshed.lines_eq]; rfl
    have msu : (xrstEnded s).msu = s.msu.xrstEnds := by rw [decided.msu_eq, refreshed.msu_eq]; rfl
    have entries := xrstEnded_entry (s := s) parked
    have released := xrstEnded_released (s := s) parked
    have estop := xrstEnded_estop (s := s) parked
    have current := settle_current (xrstEnded_current parked)
    have unacked : ∀ d, (s.grant d).state = .unacked → ((xrstRefreshed s).grant d).state = .unacked := fun d h => by
      have before : ((zntReevaluate (xrstReleased s)).grant d).state = .unacked := by
        rw [(zntReevaluate_effect _).grant_eq, (xrstReleased_effect s).grant_eq, h]
      rw [xrstRefreshed, (takeScanWarnings_effect _).grant_eq, recompute_unacked before, before]
    generalize xrstEnded s = t at *
    have whole := e.trans ((settle_effect _).mono (by simp))
    have holding : (settle t).fsv.warnings.channelHolding = anyHolding s.msu.channels :=
      congrArg Warnings.channelHolding warnings
    refine ⟨lines, msu, stallRef, stallTimer, congrArg Warnings.oilWarm warnings, by rw [holding, anyHolding_iff], entries,
      released, fun line fixed absent idle => ?_, e.zones_eq, e.sessionOpen_eq, e.pile_eq, current, whole.answers,
      whole.keeps⟩
    obtain ⟨⟨entry, reach, grants⟩, brc⟩ := estop line fixed absent idle
    rw [xrstRefreshed_entry] at entry
    refine ⟨entry, reach, settle_permits_low fun d => (grants d).2.1, fun d => ?_, brc⟩
    obtain ⟨hold, inactive, stays⟩ := grants d
    rw [settle_grant]
    exact ⟨hold, inactive, fun h => stays (unacked d h)⟩

end Sys2Proof.Machine
end

