-- ==== Sys2Proof/Proofs/AngleStrings.lean ====
section
/-! The string model at an angle count, case by case: the lock rule, the release rule and the counts that call neither
(R15 to R19). -/

namespace Sys2Proof.Machine

/-- A record that names the joints of a mask, asked for where the mask names any (R150, R151). -/
def Brc.askMask (b : Brc) (sessionOpen : Bool) (depth : Int) (event : Nat → EventDetail) (mask : Nat) : Brc :=
  if mask = 0 then b else b.ask sessionOpen depth depth (.event (event mask))

theorem askJoints_askMask (event : Nat → EventDetail) (mask : Nat) (s : State) :
    (askJoints event mask s).brc = s.brc.askMask s.znt.sessionOpen s.stk.depth event mask := by
  unfold askJoints Brc.askMask
  split <;> rfl

/-- The accumulators once the release rule has fired (R18, R19). -/
def Stk.fired (k : Stk) : Stk := { k.counted false with reverseRun := true }

/-- The release rule frees the joints: in RELEASING with the key load at or below F_release (R18). -/
abbrev State.frees (s : State) : Prop := s.phc.phase = .releasing ∧ s.keyLoad ≤ s.gst.settings.fRelease

/-- A reverse count on which the release rule fires (R18). -/
abbrev State.fires (s : State) : Prop :=
  s.gst.settings.unlockAngle ≤ ((s.stk.counted false).aR : Int) ∧ s.stk.reverseRun = false

/-- A forward count on which the lock rule locks a joint (R17). -/
abbrev State.locksOne (s : State) : Prop :=
  s.gst.settings.lockAngle ≤ ((s.stk.counted true).aF : Int) ∧ s.stk.joints.any Joint.lockable = true

section
variable {s : State}

theorem releaseFires_iff : (s.withStk (s.stk.counted false)).releaseFires = true ↔ s.fires := by
  show (decide (s.gst.settings.unlockAngle ≤ ((s.stk.counted false).aR : Int)) && !s.stk.reverseRun) = true ↔ _
  simp [State.fires]

theorem locks_iff : (s.withStk (s.stk.counted true)).locks = true ↔ s.locksOne := by
  show (decide (s.gst.settings.lockAngle ≤ ((s.stk.counted true).aF : Int)) && s.stk.joints.any Joint.lockable) = true ↔ _
  simp [State.locksOne]

theorem stkCount_locked (h : s.locksOne) : stkCount true s =
    (askJoints .locked (jointMask Joint.lockable s.stk.joints) (evaluate (s.withStk { s.stk.counted true with
      joints := lockAll s.stk.joints s.jointGeometry })), some []) := by
  show (if (s.withStk (s.stk.counted true)).locks then _ else _) = _
  rw [if_pos (locks_iff.mpr h)]
  rfl

theorem stkCount_unlocked (h : ¬s.locksOne) : stkCount true s = (s.withStk (s.stk.counted true), none) := by
  show (if (s.withStk (s.stk.counted true)).locks then _ else _) = _
  rw [if_neg (mt locks_iff.mp h)]

theorem stkCount_unfired (h : ¬s.fires) : stkCount false s = (s.withStk (s.stk.counted false), none) := by
  show (if (s.withStk (s.stk.counted false)).releaseFires then _ else _) = _
  rw [if_neg (mt releaseFires_iff.mp h)]

theorem stkCount_of_fires (h : s.fires) : stkCount false s = releaseFiring (s.withStk (s.stk.counted false)) := by
  show (if (s.withStk (s.stk.counted false)).releaseFires then _ else _) = _
  rw [if_pos (releaseFires_iff.mpr h)]

theorem stkCount_freed (h : s.fires) (frees : s.frees) : stkCount false s =
    (evaluate (askJoints .freed (jointMask (fun j => !j.isFree) s.stk.joints)
      (s.withStk { s.stk.fired with joints := s.stk.joints.map Joint.freed })), some []) := by
  rw [stkCount_of_fires h]
  show (if s.phc.phase = .releasing then if s.keyLoad ≤ s.gst.settings.fRelease then _ else _ else _) = _
  rw [if_pos frees.1, if_pos frees.2]
  rfl

theorem stkCount_doubted (h : s.fires) (keeps : ¬s.frees)
    (evaluates : s.phc.phase = .releasing ∨ s.stk.joints.any Joint.isLocked = true) : stkCount false s =
    (evaluate (askJoints .uncertain (jointMask Joint.isLocked s.stk.joints)
      (s.withStk { s.stk.fired with joints := s.stk.joints.map Joint.doubted })), some s.firingRaises) := by
  rw [stkCount_of_fires h]
  show (if s.phc.phase = .releasing then if s.keyLoad ≤ s.gst.settings.fRelease then _ else _
    else if s.stk.joints.any Joint.isLocked then _ else _) = _
  by_cases phase : s.phc.phase = .releasing
  · rw [if_pos phase, if_neg fun load => keeps ⟨phase, load⟩]
    rfl
  · rw [if_neg phase, if_pos (evaluates.resolve_left phase)]
    rfl

theorem stkCount_fired (h : s.fires) (phase : s.phc.phase ≠ .releasing) (none : ¬s.stk.joints.any Joint.isLocked = true) :
    stkCount false s = (s.withStk s.stk.fired, Option.none) := by
  rw [stkCount_of_fires h]
  show (if s.phc.phase = .releasing then _ else if s.stk.joints.any Joint.isLocked then _ else _) = _
  rw [if_neg phase, if_neg none]
  rfl
end

/-! An evaluation at an angle count. -/

/-- The evaluation of an angle count: the string model `k` that it meets, and the record of the joints that changed
(R17 to R19). -/
structure CountEvaluated (s : State) (k : Stk) (c : State) : Prop where
  stk : c.stk = (evaluate (s.withStk k)).stk
  effect : Effect [.stk, .brc] s c

theorem countEvaluated_after (s : State) (k : Stk) (event : Nat → EventDetail) (mask : Nat) :
    CountEvaluated s k (askJoints event mask (evaluate (s.withStk k))) :=
  ⟨(askJoints_effect _ _ _).stk_eq, ((withStk_effect s k).mono (by simp)).trans (((evaluate_effect _).mono (by simp)).trans
    ((askJoints_effect _ _ _).mono (by simp)))⟩

theorem countEvaluated_before (s : State) (k : Stk) (event : Nat → EventDetail) (mask : Nat) :
    CountEvaluated s k (evaluate (askJoints event mask (s.withStk k))) := by
  have asked := askJoints_effect event mask (s.withStk k)
  refine ⟨evaluate_stk_congr asked.stk_eq ⟨by rw [asked.gst_eq], by rw [asked.msu_eq], by rw [asked.msu_eq]⟩ asked.sessionOpen_eq,
    ((withStk_effect s k).mono (by simp)).trans ((asked.mono (by simp)).trans ((evaluate_effect _).mono (by simp)))⟩

/-- What an evaluation at an angle count leaves, in an event whose string model nothing behind it moves (R11). -/
theorem CountEvaluated.evaluated {s c s' t : State} {k : Stk} (h : CountEvaluated s k c)
    (session : s'.znt.sessionOpen = s.znt.sessionOpen) (scale : SameScale s t) (stk : t.stk = c.stk) : Evaluated k s' t :=
  (evaluate_evaluated (s.withStk k)).congr session (stk.trans h.stk) scale.active scale.rope scale.stroke

end Sys2Proof.Machine
end

