-- ==== Sys2Proof/Proofs/AngleCounts.lean ====
section
/-! An angle count, block by block: the STK's outcome said once for every count, what it hands on to the zones, the PHC and
the recorder, and the MSU's turn mark (R15 to R19, R40, R42, R54, R58; entry 15). -/

namespace Sys2Proof.Machine

/-! The STK's outcome. -/

/-- An angle count on which the STK evaluates (R16 to R19). -/
abbrev State.evaluatesAt (forward : Bool) (s : State) : Prop :=
  (forward = true ∧ s.locksOne) ∨
    (forward = false ∧ s.fires ∧ (s.phc.phase = .releasing ∨ s.stk.joints.any Joint.isLocked = true))

/-- The string model with the accumulators and the reverse run counted (R15, R16). -/
def State.countedModel (forward : Bool) (s : State) : Stk :=
  { s.stk.counted forward with
    reverseRun := !forward && (s.stk.reverseRun || decide (s.gst.settings.unlockAngle ≤ ((s.stk.counted false).aR : Int))) }

/-- The joints as the lock rule or a firing of the release rule makes them (R17 to R19). -/
def State.countedJoints (forward : Bool) (s : State) : List Joint :=
  if forward then lockAll s.stk.joints s.jointGeometry
  else if s.frees then s.stk.joints.map Joint.freed else s.stk.joints.map Joint.doubted

/-- The sources an angle count raises (R18 to R20). -/
def State.countRaises (forward : Bool) (s : State) : List Source :=
  if forward = false ∧ s.fires ∧ ¬s.frees then s.firingRaises else []

/-- The record of the joints that change, with the depth `depth` of the evaluation (R17 to R19, R151). -/
def State.jointsAsked (forward : Bool) (s : State) (depth : Int) : Brc :=
  if forward = true ∧ s.gst.settings.lockAngle ≤ ((s.stk.counted true).aF : Int) then
    s.brc.askMask s.znt.sessionOpen depth .locked (jointMask Joint.lockable s.stk.joints)
  else if (forward = false ∧ s.fires) ∧ s.frees then
    s.brc.askMask s.znt.sessionOpen s.stk.depth .freed (jointMask (fun j => !j.isFree) s.stk.joints)
  else if forward = false ∧ s.fires then
    s.brc.askMask s.znt.sessionOpen s.stk.depth .uncertain (jointMask Joint.isLocked s.stk.joints)
  else s.brc

theorem Brc.askMask_none (b : Brc) (o : Bool) (d : Int) (event : Nat → EventDetail) {test : Joint → Bool} {js : List Joint}
    (h : ¬js.any test = true) : b.askMask o d event (jointMask test js) = b := by
  rw [Brc.askMask, if_pos ((jointMask_eq_zero test js).mpr (by simpa using h))]

section
variable {forward : Bool} {s : State}

theorem countedModel_fires (h : s.fires) : s.countedModel false = s.stk.fired := by
  simp [State.countedModel, Stk.fired, h.1]

theorem countedModel_unfired (h : ¬s.fires) : s.countedModel false = s.stk.counted false := by
  have run : (s.stk.reverseRun || decide (s.gst.settings.unlockAngle ≤ ((s.stk.counted false).aR : Int))) =
      (s.stk.counted false).reverseRun := by
    show _ = s.stk.reverseRun
    cases hr : s.stk.reverseRun
    · simpa [State.fires, hr] using h
    · rfl
  rw [State.countedModel, run]
  rfl

/-- On a count without an evaluation the STK counts, and asks for and raises nothing (R15 to R19). -/
theorem stkCount_stands (h : ¬s.evaluatesAt forward) :
    stkCount forward s = (s.withStk (s.countedModel forward), none) ∧ s.countRaises forward = [] ∧
      ∀ d, s.jointsAsked forward d = s.brc := by
  cases forward with
  | true =>
    have none : ¬s.locksOne := fun lock => h (.inl ⟨rfl, lock⟩)
    refine ⟨stkCount_unlocked none, by simp [State.countRaises], fun d => ?_⟩
    by_cases reached : s.gst.settings.lockAngle ≤ ((s.stk.counted true).aF : Int)
    · rw [State.jointsAsked, if_pos ⟨rfl, reached⟩, Brc.askMask_none _ _ _ _ fun any => none ⟨reached, any⟩]
    · simp [State.jointsAsked, reached]
  | false =>
    by_cases fires : s.fires
    · have still : ¬(s.phc.phase = .releasing ∨ s.stk.joints.any Joint.isLocked = true) := fun k => h (.inr ⟨rfl, fires, k⟩)
      obtain ⟨phase, lost⟩ := not_or.mp still
      have keeps : ¬s.frees := fun k => phase k.1
      refine ⟨by rw [stkCount_fired fires phase lost, countedModel_fires fires], ?_, fun d => ?_⟩
      · rw [State.countRaises, if_pos ⟨rfl, fires, keeps⟩, State.firingRaises, if_neg lost]
      · rw [State.jointsAsked, if_neg (by simp), if_neg fun k => keeps k.2, if_pos ⟨rfl, fires⟩,
          Brc.askMask_none _ _ _ _ lost]
    · refine ⟨by rw [stkCount_unfired fires, countedModel_unfired fires], ?_, fun d => ?_⟩
      · rw [State.countRaises, if_neg fun k => fires k.2.1]
      · rw [State.jointsAsked, if_neg (by simp), if_neg fun k => fires k.1.2, if_neg fun k => fires k.2]

/-- On a count that calls for one, the STK evaluates the string model with the joints its rules have changed, and asks for
their record (R17 to R19). -/
theorem stkCount_evaluates (h : s.evaluatesAt forward) : ∃ c, stkCount forward s = (c, some (s.countRaises forward)) ∧
    CountEvaluated s { s.countedModel forward with joints := s.countedJoints forward } c ∧
    c.brc = s.jointsAsked forward c.stk.depth := by
  obtain ⟨rfl, lock⟩ | ⟨rfl, fires, evaluates⟩ := h
  · refine ⟨_, stkCount_locked lock, countEvaluated_after s _ _ _, ?_⟩
    rw [askJoints_askMask, (askJoints_effect _ _ _).stk_eq, State.jointsAsked, if_pos ⟨rfl, lock.1⟩]
    rfl
  · have before := fun event mask js => countEvaluated_before s { s.stk.fired with joints := js } event mask
    have records : ∀ (u : State), (evaluate u).brc = u.brc := fun _ => rfl
    rw [countedModel_fires fires]
    by_cases frees : s.frees
    · have raises : s.countRaises false = [] := by rw [State.countRaises, if_neg fun k => k.2.2 frees]
      rw [raises]
      refine ⟨_, stkCount_freed fires frees, ?_, ?_⟩
      · rw [State.countedJoints, if_neg Bool.false_ne_true, if_pos frees]
        exact before _ _ _
      · rw [records, askJoints_askMask, State.jointsAsked, if_neg (by simp), if_pos ⟨⟨rfl, fires⟩, frees⟩]
        rfl
    · have raises : s.countRaises false = s.firingRaises := by rw [State.countRaises, if_pos ⟨rfl, fires, frees⟩]
      rw [raises]
      refine ⟨_, stkCount_doubted fires frees evaluates, ?_, ?_⟩
      · rw [State.countedJoints, if_neg Bool.false_ne_true, if_neg frees]
        exact before _ _ _
      · rw [records, askJoints_askMask, State.jointsAsked, if_neg (by simp), if_neg fun k => frees k.2,
          if_pos ⟨rfl, fires⟩]
        rfl

theorem countRaises_subset : s.countRaises forward ⊆ [.chainOpen, .reverseOverrun, .unlockUnderLoad] := by
  unfold State.countRaises State.firingRaises
  intro src
  split_ifs <;> simp +contextual [or_imp]
end

/-! What the STK hands on. -/

/-- The part once the blocks behind the STK have taken an angle count, up to the MSU's turn mark (entry 15). -/
def countHanded (forward : Bool) (old : Stk) (raised : Option (List Source)) (c : State) : State :=
  brcDepth old.bottomHole (phcCount forward (phcAfterEvaluation old (handCount raised c)))

section
variable (forward : Bool) (old : Stk) (raised : Option (List Source)) (c : State)

theorem countHanded_effect :
    Effect [.phc, .znt, .faults, .brc, .env, .grants, .pif] c (countHanded forward old raised c) :=
  ((handCount_effect raised c).mono (by simp)).trans (((phcAfterEvaluation_effect old _).mono (by simp)).trans
    (((phcCount_effect forward _).mono (by simp)).trans ((brcDepth_effect _ _).mono (by simp))))

theorem countHanded_entry (x : Source) : (countHanded forward old raised c).entry x = (handCount raised c).entry x := by
  rw [countHanded, (brcDepth_effect _ _).entry_eq, (phcCount_effect _ _).entry_eq, (phcAfterEvaluation_effect _ _).entry_eq]

/-- The PHC before it counts: its evaluation in HOIST made (R65). -/
theorem handCount_advanced_phc : (phcAfterEvaluation old (handCount raised c)).phc =
    advancedPhc c.gst.settings c.stk (modelMoved old c.stk) c.phc := by
  have e := handCount_effect raised c
  rw [phcAfterEvaluation_phc, e.gst_eq, e.stk_eq, e.phc_eq]

theorem advancedPhc_idle {p : Phc} (idle : p.op = none) (t : Settings) (k : Stk) (b : Bool) :
    (advancedPhc t k b p).op = none := by
  unfold advancedPhc
  dsimp only
  split_ifs
  · rfl
  · exact idle
  · exact idle

/-- The PHC's count is told by the PHC, the string model, the settings and the session (R54, R55, R58, R59). -/
theorem phcCount_phc_congr (forward : Bool) {s t : State} (phc : t.phc = s.phc) (stk : t.stk = s.stk) (gst : t.gst = s.gst)
    (session : t.znt.sessionOpen = s.znt.sessionOpen) : (phcCount forward t).phc = (phcCount forward s).phc := by
  have engaged : t.engagedPhase = s.engagedPhase := by rw [State.engagedPhase, State.engagedPhase, stk, session]
  have released : t.releasedPhase = s.releasedPhase := by rw [State.releasedPhase, State.releasedPhase, stk, phc]
  have arm : t.armAtEntry = s.armAtEntry := by rw [State.armAtEntry, State.armAtEntry, stk, gst]
  rw [phcCount_phc, phcCount_phc, engaged, released, arm, gst, phc]

theorem phcCount_idle (forward : Bool) {s : State} (idle : s.phc.op = none) : phcCount forward s = s := by
  rw [phcCount, idle]

/-- Without an operation the phase moves by the automatic advance alone (R65). -/
theorem countHanded_phc_idle (idle : c.phc.op = none) : (countHanded forward old raised c).phc =
    advancedPhc c.gst.settings c.stk (modelMoved old c.stk) c.phc := by
  have still := advancedPhc_idle idle c.gst.settings c.stk (modelMoved old c.stk)
  rw [← handCount_advanced_phc old raised c] at still ⊢
  rw [countHanded, (brcDepth_effect _ _).phc_eq, phcCount_idle _ still]

/-- In flight, the operation counts on the joints as the STK leaves them (R54, R55, R58, R59). -/
theorem countHanded_phc_turning (turning : c.phc.phase ≠ .hoist) : (countHanded forward old raised c).phc =
    (phcCount forward c).phc := by
  have e := (handCount_effect raised c).mono (d := [.phc, .znt, .faults, .brc, .env, .grants, .pif]) (by simp)
  have k := e.trans ((phcAfterEvaluation_effect old (handCount raised c)).mono (by simp))
  rw [countHanded, (brcDepth_effect _ _).phc_eq]
  exact phcCount_phc_congr forward (by rw [handCount_advanced_phc, advancedPhc_of_not_hoist turning]) k.stk_eq k.gst_eq
    k.sessionOpen_eq
end

/-! The records. -/

theorem markRecords_self (t : Znt) (mask : List Nat) : t.markRecords mask mask = [] := by
  have none : (mask.filter fun i => (t.zone i).mark && !mask.contains i) = [] :=
    List.filter_eq_nil_iff.mpr fun i hi => by simp [hi]
  rw [Znt.markRecords, none]
  rfl

/-- The records of what the STK hands on: the zones' and the sources raised, none where it does not evaluate (R120, R134,
R151). -/
theorem handCount_brc {raised : Option (List Source)} (h : Source.depthDisagree ∉ raised.getD []) (s : State) :
    (handCount raised s).brc = s.brc.askAll s.znt.sessionOpen s.stk.depth
      (s.znt.markRecords s.znt.mask (handCount raised s).znt.mask ++
        ((if s.lines.xrst then [] else raised.getD []) ++ newlyPresent s (handCount raised s)).map .faultRaised) := by
  cases raised with
  | some raised => exact handOn_brc h s
  | none =>
    have e := recompute_effect s
    have new : newlyPresent s (recompute s) = [] := newlyPresent_of_same fun src => by rw [e.entry_eq]
    rw [handCount, e.brc_eq, e.znt_eq, new, markRecords_self, Option.getD_none, ite_self]
    rfl

theorem engagedPhase_ne (s : State) : s.engagedPhase ≠ .engaging := by
  obtain h | h := engagedPhase_cases s <;> simp [h]

theorem releasedPhase_ne (s : State) : s.releasedPhase ≠ .releasing := by
  obtain h | h := releasedPhase_cases s <;> simp [h]

/-- The PHC's count asks for the PHASE_CHANGE of a completed operation and no other record (R55, R59). -/
theorem phcCount_brc {forward : Bool} {s : State}
    (turning : s.phc.op.isSome → s.phc.phase = .engaging ∨ s.phc.phase = .releasing) : (phcCount forward s).brc =
    s.brc.askAll s.znt.sessionOpen s.stk.depth (phaseRecord s.phc.phase (phcCount forward s).phc.phase) := by
  have completed : ∀ (u : State) (p : Phase), u.phc.phase = s.phc.phase → p ≠ s.phc.phase → u.brc = s.brc →
      u.znt = s.znt → u.stk = s.stk → (changePhase p u).brc =
        s.brc.askAll s.znt.sessionOpen s.stk.depth (phaseRecord s.phc.phase (changePhase p u).phc.phase) :=
    fun u p phase other brc znt stk => by
      rw [changePhase_brc, changePhase_phase, phaseRecord, if_neg other, phase, brc, znt, stk]
  have stood : ∀ u : State, u.phc.phase = s.phc.phase → u.brc = s.brc → u.brc =
      s.brc.askAll s.znt.sessionOpen s.stk.depth (phaseRecord s.phc.phase u.phc.phase) := fun u phase brc => by
    rw [phaseRecord, if_pos phase, brc]
    rfl
  unfold phcCount
  cases op : s.phc.op with
  | none => exact stood s rfl rfl
  | some o =>
    dsimp only
    split
    · split
      · next engaging =>
        split
        · exact completed _ _ rfl (fun same => engagedPhase_ne _ (same.trans (of_decide_eq_true engaging))) rfl rfl rfl
        · exact stood _ rfl rfl
      · next engaging =>
        have phase : s.phc.phase = .releasing := (turning (by simp [op])).resolve_left (by simpa using engaging)
        split
        · exact completed _ _ rfl (fun same => releasedPhase_ne _ (same.trans phase)) rfl rfl rfl
        · exact stood _ rfl rfl
    · exact stood _ rfl rfl

/-- The automatic advance and the completion of an operation exclude each other, so that the phase moves once at most
(R46, R65). -/
theorem countHanded_phaseRecords (forward : Bool) (old : Stk) (raised : Option (List Source)) {c : State}
    (phases : PhaseInv c) :
    let advanced := phcAfterEvaluation old (handCount raised c)
    let counted := phcCount forward advanced
    (advanced.phc.op.isSome → advanced.phc.phase = .engaging ∨ advanced.phc.phase = .releasing) ∧
      phaseRecord c.phc.phase advanced.phc.phase ++ phaseRecord advanced.phc.phase counted.phc.phase =
        phaseRecord c.phc.phase counted.phc.phase := by
  intro advanced counted
  have phc : advanced.phc = _ := handCount_advanced_phc old raised c
  have self : ∀ p : Phase, phaseRecord p p = [] := fun p => if_pos rfl
  cases op : c.phc.op with
  | none =>
    have idle : advanced.phc.op = none := by rw [phc]; exact advancedPhc_idle op _ _ _
    refine ⟨by simp [idle], ?_⟩
    rw [show counted = advanced from phcCount_idle forward idle, self, List.append_nil]
  | some o =>
    have turning := phases.1.mp (by rw [op]; rfl)
    have same : advanced.phc = c.phc := by
      rw [phc, advancedPhc_of_not_hoist (by obtain h | h := turning <;> simp [h])]
    rw [same]
    exact ⟨fun _ => turning, by rw [self, List.nil_append]⟩

/-- The records of an angle count behind the record of its joints: the zones', the sources', the PHASE_CHANGE and the STEP
record (R120, R134, R151, R153). -/
theorem countHanded_brc {forward : Bool} {raised : Option (List Source)} {s c : State}
    (h : Source.depthDisagree ∉ raised.getD []) (before : Effect [.msu, .stk, .brc] s c) (phases : PhaseInv s) :
    (countHanded forward s.stk raised c).brc =
      (c.brc.eventsAsked s (countHanded forward s.stk raised c) ((if s.lines.xrst then [] else raised.getD []) ++
        newlyPresent s (countHanded forward s.stk raised c))).stepAsked s (countHanded forward s.stk raised c) := by
  have new : newlyPresent s (countHanded forward s.stk raised c) = newlyPresent c (handCount raised c) :=
    newlyPresent_congr (fun src => (before.entry_eq src).symm) (countHanded_entry _ _ _ _)
  have handed := handCount_effect raised c
  have advanced := phcAfterEvaluation_effect s.stk (handCount raised c)
  have counted := phcCount_effect forward (phcAfterEvaluation s.stk (handCount raised c))
  have stepped := brcDepth_effect s.stk.bottomHole (phcCount forward (phcAfterEvaluation s.stk (handCount raised c)))
  obtain ⟨turning, moves⟩ := countHanded_phaseRecords forward s.stk raised
    ((phaseInv_iff c).mpr (by rw [before.phc_eq]; exact (phaseInv_iff s).mp phases))
  rw [new]
  unfold countHanded
  rw [brcDepth_brc (s0 := s) _ rfl (by rw [counted.sessionOpen_eq, advanced.sessionOpen_eq, handed.sessionOpen_eq,
    before.sessionOpen_eq]), phcCount_brc turning, phcAfterEvaluation_brc, handCount_brc h, advanced.stk_eq,
    advanced.sessionOpen_eq, handed.stk_eq, handed.sessionOpen_eq, handed.phc_eq, ← Brc.askAll_append,
    ← Brc.askAll_append, List.append_assoc, moves, Brc.eventsAsked_eq, stepped.stk_eq, counted.stk_eq, advanced.stk_eq,
    handed.stk_eq, stepped.znt_eq, counted.znt_eq, advanced.znt_eq, stepped.phc_eq, before.znt_eq, before.phc_eq,
    before.lines_eq, List.append_assoc]
  exact (Brc.stepAsked_congr _ rfl rfl (by rw [stepped.gst_eq]) (by rw [stepped.stk_eq])).symm

theorem phcCount_fifo (forward : Bool) (s : State) : ∃ more, (phcCount forward s).brc.fifo = s.brc.fifo ++ more := by
  have changed : ∀ (p : Phase) (u : State), u.brc = s.brc → ∃ more, (changePhase p u).brc.fifo = s.brc.fifo ++ more :=
    fun p u brc => by
      rw [changePhase_brc, ← brc]
      exact Brc.askAll_fifo _ _ _ _
  have stood : ∃ more, s.brc.fifo = s.brc.fifo ++ more := ⟨[], (List.append_nil _).symm⟩
  unfold phcCount
  split
  · exact stood
  · dsimp only
    split_ifs
    · exact changed _ _ rfl
    · exact stood
    · exact changed _ _ rfl
    · exact stood
    · exact stood

/-- No record held is lost by the blocks behind the STK (R148, R149). -/
theorem countHanded_fifo (forward : Bool) (old : Stk) {raised : Option (List Source)}
    (h : Source.depthDisagree ∉ raised.getD []) (c : State) : ∃ more, (countHanded forward old raised c).brc.fifo = c.brc.fifo ++ more := by
  obtain ⟨w, hw⟩ := Brc.askAll_fifo c.brc c.znt.sessionOpen c.stk.depth
    (c.znt.markRecords c.znt.mask (handCount raised c).znt.mask ++
      ((if c.lines.xrst then [] else raised.getD []) ++ newlyPresent c (handCount raised c)).map .faultRaised)
  rw [← handCount_brc h] at hw
  obtain ⟨x, hx⟩ := Brc.askAll_fifo (handCount raised c).brc (handCount raised c).znt.sessionOpen
    (handCount raised c).stk.depth (phaseRecord (handCount raised c).phc.phase
      (phcAfterEvaluation old (handCount raised c)).phc.phase)
  rw [← phcAfterEvaluation_brc] at hx
  obtain ⟨y, hy⟩ := phcCount_fifo forward (phcAfterEvaluation old (handCount raised c))
  obtain ⟨z, hz⟩ := brcDepth_fifo old.bottomHole (phcCount forward (phcAfterEvaluation old (handCount raised c)))
  exact ⟨w ++ x ++ y ++ z, by simp [countHanded, hz, hy, hx, hw]⟩

/-! The fault table. -/

theorem handCount_condition_of_ne {x : Source} (h : x ≠ .depthDisagree) (raised : Option (List Source)) (s : State) :
    ((handCount raised s).entry x).condition = (s.entry x).condition := by
  cases raised with
  | none => exact congrArg FaultEntry.condition (recompute_entry s x)
  | some raised => exact handOn_condition_of_ne h raised s

/-- The decision of DEPTH_DISAGREE is read off its condition, its latch, the string model and the settings (R14). -/
theorem DisagreementDecided.congr_kept {s s' t t' : State} (h : DisagreementDecided s t) (lines : s'.lines = s.lines)
    (before : s'.entry .depthDisagree = s.entry .depthDisagree)
    (condition : (t'.entry .depthDisagree).condition = (t.entry .depthDisagree).condition)
    (latched : (t'.entry .depthDisagree).latched = (t.entry .depthDisagree).latched)
    (gst : t'.gst.settings = t.gst.settings) (stk : t'.stk.disagreement = t.stk.disagreement) :
    DisagreementDecided s' t' := by
  unfold DisagreementDecided at *
  rw [lines, before, condition, latched, gst, stk]
  exact h

theorem handCount_entry_of_ne {raised : Option (List Source)} {x : Source} (h : x ≠ .depthDisagree)
    (hr : x ∉ raised.getD []) (s : State) : (handCount raised s).entry x = s.entry x := by
  cases raised with
  | none => exact recompute_entry s x
  | some raised => exact handOn_entry_of_ne h hr s

/-- A source the STK raises is latched, outside XRST (R134, R146). -/
theorem handOn_latched {raised : List Source} {x : Source} (h : x ∈ raised) (other : x ≠ .depthDisagree) (s : State)
    (released : s.lines.xrst = false) : ((handOn raised s).entry x).latched = true := by
  rw [handOn, decideCondition_entry_of_ne other]
  exact raiseAll_latched h _ (by rw [(recompute_effect _).lines_eq, (zntReevaluate_effect _).lines_eq, released])

/-! The MSU. -/

/-- An angle count that stands a revolution from the mark reference, outside XRST (R40). -/
abbrev State.marks (s : State) : Prop := s.lines.xrst = false ∧ 1440 ≤ |(s.msu.angle - s.msu.markRef).toInt|

theorem angleUsed_unmarked {s : State} (h : ¬s.marks) :
    angleUsed s = if s.lines.xrst then s else s.withMsu s.msu.endRest := by
  unfold angleUsed
  split
  · rfl
  · next released =>
    have mark : ¬s.msu.endRest.atMark = true := fun k =>
      h ⟨by simpa using released, of_decide_eq_true k⟩
    exact if_neg mark

theorem angleUsed_marked {s : State} (h : s.marks) : angleUsed s = takeTurnMark (s.withMsu s.msu.endRest) := by
  have mark : s.msu.endRest.atMark = true := decide_eq_true h.2
  unfold angleUsed
  rw [h.1, if_neg Bool.false_ne_true]
  exact if_pos mark

/-- A record asked for leaves the accumulators and the turn divider, and does not read them (R148). -/
theorem Brc.ask_counts (b : Brc) (acc : Accumulators) (divider : Nat) (o : Bool) (f t : Int) (d : RecordBody) :
    { b with acc := acc, turnDivider := divider }.ask o f t d =
      { b.ask o f t d with acc := acc, turnDivider := divider } := by
  unfold Brc.ask
  split_ifs <;> rfl

theorem Brc.turnAsked_fifo (b : Brc) (drilling : Bool) (dTurn d : Int) :
    ∃ more, (b.turnAsked drilling dTurn d).fifo = b.fifo ++ more := by
  unfold Brc.turnAsked
  dsimp only
  split_ifs
  · exact ⟨[], (List.append_nil _).symm⟩
  · exact Brc.ask_fifo b _ _ _ _
  · exact ⟨[], (List.append_nil _).symm⟩

theorem Brc.turnMark_eq (b : Brc) (drilling : Bool) (dTurn d : Int) :
    b.turnMark drilling dTurn d = b.turnAsked drilling dTurn d := by
  unfold Brc.turnMark Brc.turnAsked
  cases drilling
  · rfl
  · rw [if_neg (by decide : ¬(!true) = true), if_neg (by decide : ¬true = false)]
    dsimp only
    rw [Brc.ask_counts]
    rfl
section
variable (s : State)

theorem takeTurnMark_entry (x : Source) : (takeTurnMark s).entry x = (s.entry x).boundary := by
  rw [takeTurnMark, (brcTurnMark_effect _).entry_eq, takeBoundary_entry]
  rfl

theorem takeTurnMark_brc : (takeTurnMark s).brc = if s.znt.sessionOpen = true then
    s.brc.turnAsked (decide (s.phc.phase = .drill)) s.gst.settings.dTurn s.stk.bottomHole else s.brc := by
  have e := ((withMsu_effect s { s.msu with markRef := s.msu.angle }).mono (d := [.msu, .faults, .env, .grants, .pif])
    (by simp)).trans ((takeBoundary_effect _).mono (by simp))
  unfold takeTurnMark brcTurnMark
  rw [e.sessionOpen_eq, e.brc_eq, e.phc_eq, e.gst_eq, e.stk_eq, Brc.turnMark_eq]
  split
  · rfl
  · exact e.brc_eq

/-- Rest, its timer and the mark reference after an angle count; while XRST is asserted they stand (R40, R42). -/
theorem angleUsed_msu : (angleUsed s).msu = { s.msu with
    rest := s.lines.xrst && s.msu.rest
    restTimer := if s.lines.xrst then s.msu.restTimer else some 200
    markRef := if s.marks then s.msu.angle else s.msu.markRef } := by
  by_cases h : s.marks
  · rw [angleUsed_marked h, takeTurnMark, (brcTurnMark_effect _).msu_eq, (takeBoundary_effect _).msu_eq, if_pos h, h.1]
    rfl
  · rw [angleUsed_unmarked h, if_neg h]
    cases s.lines.xrst <;> rfl

theorem angleUsed_kept (x : Source) : ((angleUsed s).entry x).condition = (s.entry x).condition ∧
    ((angleUsed s).entry x).latched = (s.entry x).latched := by
  by_cases h : s.marks
  · rw [angleUsed_marked h, takeTurnMark_entry]
    exact FaultEntry.boundary_kept _
  · rw [angleUsed_unmarked h]
    split <;> exact ⟨rfl, rfl⟩

theorem angleUsed_entry {s : State} (h : ¬s.marks) (x : Source) : (angleUsed s).entry x = s.entry x := by
  rw [angleUsed_unmarked h]
  split <;> rfl

/-- The TURN record and the turns counted, at a turn mark with the session OPEN (R154). -/
theorem angleUsed_brc : (angleUsed s).brc = if s.znt.sessionOpen = true ∧ s.marks then
    s.brc.turnAsked (decide (s.phc.phase = .drill)) s.gst.settings.dTurn s.stk.bottomHole else s.brc := by
  by_cases h : s.marks
  · rw [angleUsed_marked h, takeTurnMark_brc]
    simp only [eq_true h, and_true]
    rfl
  · rw [if_neg fun k => h k.2, angleUsed_unmarked h]
    split <;> rfl
end

theorem angleUsed_fifo (s : State) : ∃ more, (angleUsed s).brc.fifo = s.brc.fifo ++ more := by
  rw [angleUsed_brc]
  split
  · exact Brc.turnAsked_fifo _ _ _ _
  · exact ⟨[], (List.append_nil _).symm⟩

theorem newlyPresent_of_conditions {s t t' : State}
    (h : ∀ src, (t'.entry src).condition = (t.entry src).condition) : newlyPresent s t' = newlyPresent s t := by
  simp only [newlyPresent, h]

/-! The event, whole. -/

/-- The part at an angle count before the blocks take it: the decoder's reference and the counter (R29). -/
def State.angleMoved (s : State) (pair : Pair) (forward : Bool) : State :=
  s.withMsu (({ s.msu with angleRef := pair } : Msu).countAngle forward)

/-- The records of an angle count that leaves `t`, up to its turn mark (R151). -/
def State.countRecords (forward : Bool) (s t : State) : Brc :=
  ((s.jointsAsked forward t.stk.depth).eventsAsked s t ((if s.lines.xrst then [] else s.countRaises forward) ++
    newlyPresent s t)).stepAsked s t

/-- What an angle count leaves, from the state before it (R15 to R19, R40, R42, R151). -/
structure AngleTaken (pair : Pair) (forward : Bool) (s t : State) : Prop where
  msu : t.msu = { (s.angleMoved pair forward).msu with
    rest := s.lines.xrst && s.msu.rest
    restTimer := if s.lines.xrst then s.msu.restTimer else some 200
    markRef := if (s.angleMoved pair forward).marks then (s.angleMoved pair forward).msu.angle else s.msu.markRef }
  stands : ¬s.evaluatesAt forward →
    t.stk = s.countedModel forward ∧ (t.entry .depthDisagree).condition = (s.entry .depthDisagree).condition
  evaluates : s.evaluatesAt forward →
    Evaluated { s.countedModel forward with joints := s.countedJoints forward } s t ∧ DisagreementDecided s t
  conditions : ∀ src, src ≠ .depthDisagree → (t.entry src).condition = (s.entry src).condition
  entries : ¬(s.angleMoved pair forward).marks → ∀ src, src ≠ .depthDisagree → src ∉ s.countRaises forward →
    t.entry src = s.entry src
  latched : s.lines.xrst = false → ∀ src ∈ s.countRaises forward, (t.entry src).latched = true
  idle : s.phc.op = none → t.phc = advancedPhc s.gst.settings t.stk (modelMoved s.stk t.stk) s.phc
  turning : s.phc.phase ≠ .hoist → t.phc = (phcCount forward (s.withStk t.stk)).phc
  whole : Effect [.msu, .stk, .phc, .znt, .env, .grants, .faults, .brc, .pif] s t
  fifo : ∃ more, t.brc.fifo = (s.jointsAsked forward t.stk.depth).fifo ++ more
  brc : PhaseInv s → t.brc = if s.znt.sessionOpen = true ∧ (s.angleMoved pair forward).marks then
    (s.countRecords forward t).turnAsked (decide (t.phc.phase = .drill)) s.gst.settings.dTurn t.stk.bottomHole
    else s.countRecords forward t

theorem angleMoved_effect (s : State) (pair : Pair) (forward : Bool) : Effect [.msu] s (s.angleMoved pair forward) :=
  withMsu_effect s _

/-- The STK's outcome, whether it evaluates or not. -/
theorem stkCount_outcome (forward : Bool) (s : State) : ∃ c raised, stkCount forward s = (c, raised) ∧
    Effect [.stk, .brc] s c ∧ raised.getD [] = s.countRaises forward ∧ c.brc = s.jointsAsked forward c.stk.depth ∧
    (¬s.evaluatesAt forward → raised = none ∧ c.stk = s.countedModel forward) ∧
    (s.evaluatesAt forward → raised = some (s.countRaises forward) ∧
      CountEvaluated s { s.countedModel forward with joints := s.countedJoints forward } c) := by
  by_cases h : s.evaluatesAt forward
  · obtain ⟨c, count, evaluated, brc⟩ := stkCount_evaluates h
    exact ⟨c, _, count, evaluated.effect, rfl, brc, fun k => absurd h k, fun _ => ⟨rfl, evaluated⟩⟩
  · obtain ⟨count, raises, brc⟩ := stkCount_stands h
    exact ⟨_, _, count, (withStk_effect _ _).mono (by simp), raises.symm, (brc _).symm, fun _ => ⟨rfl, rfl⟩,
      fun k => absurd k h⟩

theorem angleTaken (pair : Pair) (forward : Bool) (s : State) :
    AngleTaken pair forward s (settle (angleCounted forward (s.withMsu { s.msu with angleRef := pair }))) := by
  obtain ⟨c, raised, count, ce, raises, asked, stands, evaluates⟩ := stkCount_outcome forward (s.angleMoved pair forward)
  have counted : angleCounted forward (s.withMsu { s.msu with angleRef := pair }) =
      angleUsed (countHanded forward s.stk (stkCount forward (s.angleMoved pair forward)).2
        (stkCount forward (s.angleMoved pair forward)).1) := rfl
  rw [counted, count]
  have we := angleMoved_effect s pair forward
  have notDisagree : Source.depthDisagree ∉ raised.getD [] := fun k => by
    rw [raises] at k
    simpa using countRaises_subset k
  have before : Effect [.msu, .stk, .brc] s c := (we.mono (by simp)).trans (ce.mono (by simp))
  have handed := countHanded_effect forward s.stk raised c
  have records := fun h => countHanded_brc (forward := forward) notDisagree before h
  have entry := countHanded_entry forward s.stk raised c
  have idle := countHanded_phc_idle forward s.stk raised c
  have turning := countHanded_phc_turning forward s.stk raised c
  have more := countHanded_fifo forward s.stk notDisagree c
  generalize countHanded forward s.stk raised c = d at *
  have used := angleUsed_effect d
  have session : d.znt.sessionOpen = s.znt.sessionOpen := handed.sessionOpen_eq.trans before.sessionOpen_eq
  have stk : (angleUsed d).stk = c.stk := used.stk_eq.trans handed.stk_eq
  have msu : d.msu = (s.angleMoved pair forward).msu := handed.msu_eq.trans ce.msu_eq
  have lines : d.lines = s.lines := handed.lines_eq.trans before.lines_eq
  have gst : d.gst = s.gst := handed.gst_eq.trans before.gst_eq
  have marks : d.marks ↔ (s.angleMoved pair forward).marks := by
    rw [State.marks, State.marks, msu, lines]
    rfl
  have scale : SameScale (s.angleMoved pair forward) (angleUsed d) := by
    refine ⟨?_, ?_, ?_⟩
    · rw [used.gst_eq, gst]; rfl
    · rw [(angleUsed_mm d).1, msu]
    · rw [(angleUsed_mm d).2, msu]
  have condition : ∀ src, ((angleUsed d).entry src).condition = ((handCount raised c).entry src).condition := fun src => by
    rw [(angleUsed_kept d src).1, entry]
  exact {
    msu := by
      rw [settle_msu, angleUsed_msu]
      simp only [marks, msu, lines]
      rfl
    stands := fun h => by
      obtain ⟨rfl, model⟩ := stands h
      refine ⟨by rw [settle_stk, stk, model]; rfl, ?_⟩
      rw [settle_entry, condition, handCount, recompute_entry, before.entry_eq]
    evaluates := fun h => by
      obtain ⟨rfl, evaluated⟩ := evaluates h
      refine ⟨(evaluated.evaluated (s' := s) rfl scale stk).settled, ?_⟩
      refine (handOn_disagreement (s := c) notDisagree).congr_kept before.lines_eq.symm (before.entry_eq _).symm
        (condition _) ?_ ?_ ?_
      · rw [settle_entry, (angleUsed_kept d _).2, entry]
        rfl
      · rw [settle_gst, used.gst_eq, handed.gst_eq, (handOn_effect _ c).gst_eq]
      · rw [settle_stk, stk, (handOn_effect _ c).stk_eq]
    conditions := fun src hs => by
      rw [settle_entry, condition, handCount_condition_of_ne hs, before.entry_eq]
    entries := fun unmarked src hs hr => by
      rw [settle_entry, angleUsed_entry (mt marks.mp unmarked), entry, handCount_entry_of_ne hs (by rwa [raises]),
        before.entry_eq]
    latched := fun released src hr => by
      have evaluating : s.evaluatesAt forward := by
        by_contra none
        rw [(stkCount_stands none).2.1] at hr
        exact List.not_mem_nil hr
      obtain ⟨rfl, -⟩ := evaluates evaluating
      rw [settle_entry, (angleUsed_kept d src).2, entry]
      exact handOn_latched hr (fun h => notDisagree (h ▸ hr)) c (before.lines_eq ▸ released)
    idle := fun none => by
      rw [settle_phc, settle_stk, used.phc_eq, idle (by rw [before.phc_eq, none]), before.gst_eq, before.phc_eq, stk]
    turning := fun h => by
      rw [settle_phc, settle_stk, used.phc_eq, turning (by rwa [before.phc_eq]), stk]
      exact phcCount_phc_congr forward before.phc_eq rfl before.gst_eq before.sessionOpen_eq
    whole := (before.mono (by simp)).trans ((handed.mono (by simp)).trans ((used.mono (by simp)).trans
      ((settle_effect _).mono (by simp))))
    fifo := by
      obtain ⟨x, hx⟩ := more
      obtain ⟨y, hy⟩ := angleUsed_fifo d
      rw [settle_brc, settle_stk, stk, hy, hx, asked, List.append_assoc]
      exact ⟨_, rfl⟩
    brc := fun phases => by
      have new : newlyPresent s (settle (angleUsed d)) = newlyPresent s d :=
        newlyPresent_of_conditions fun src => (angleUsed_kept d src).1
      have step : ∀ b : Brc, b.stepAsked s (settle (angleUsed d)) = b.stepAsked s d := fun b =>
        b.stepAsked_congr rfl rfl (by rw [settle_gst, used.gst_eq]) (by rw [settle_stk, used.stk_eq])
      have events : ∀ (b : Brc) (x : List Source), b.eventsAsked s (settle (angleUsed d)) x = b.eventsAsked s d x :=
        fun b x => b.eventsAsked_congr x rfl rfl (by rw [settle_znt, used.znt_eq]) (by rw [settle_phc, used.phc_eq])
          (by rw [settle_stk, used.stk_eq])
      have recorded : State.countRecords forward s (settle (angleUsed d)) = d.brc := by
        rw [records phases, State.countRecords, new, step, events, settle_stk, stk, raises, asked]
        rfl
      rw [recorded, settle_brc, angleUsed_brc, session, gst, settle_phc, used.phc_eq, settle_stk, used.stk_eq]
      simp only [marks] }

end Sys2Proof.Machine
end

