-- ==== Sys2Proof/Proofs/AngleRules.lean ====
section
/-! The lock rule and the release rule, and the angle counts whole (R15 to R19, R40, R42, R54, R58). -/

namespace Sys2Proof.Machine

theorem exec_angleCountChange {pair : Pair} {forward : Bool} {s : State}
    (count : decodeCount s.msu.angleRef pair = some forward) : exec (.angleCountChange pair) s =
      .next (settle (angleCounted forward (s.withMsu { s.msu with angleRef := pair }))) := by
  simp only [exec, execAngleCountChange, count]
  rfl

theorem evaluatesAt_forward {s : State} : s.evaluatesAt true ↔ s.locksOne := by simp [State.evaluatesAt]

theorem evaluatesAt_reverse {s : State} : s.evaluatesAt false ↔
    s.fires ∧ (s.phc.phase = .releasing ∨ s.stk.joints.any Joint.isLocked = true) := by simp [State.evaluatesAt]

/-- What a firing raises that takes a joint from LOCKED to UNCERTAIN (R18 to R20). -/
theorem countRaises_lost {s : State} (fires : s.fires) (keeps : ¬s.frees) (lost : s.stk.joints.any Joint.isLocked = true) :
    s.countRaises false = (if s.phc.phase = .drill ∨ s.phc.phase = .releasing then [.chainOpen] else []) ++
      [if s.phc.phase = .releasing then .unlockUnderLoad else .reverseOverrun] := by
  rw [State.countRaises, if_pos ⟨rfl, fires, keeps⟩, State.firingRaises, if_pos lost]
  split_ifs <;> rfl

/-- Every other count raises nothing (R18 to R20). -/
theorem countRaises_none {forward : Bool} {s : State}
    (h : ¬((forward = false ∧ s.fires) ∧ ¬s.frees ∧ s.stk.joints.any Joint.isLocked = true)) : s.countRaises forward = [] := by
  unfold State.countRaises State.firingRaises
  split
  · next firing =>
    obtain ⟨reverse, fires, keeps⟩ := firing
    rw [if_neg fun lost => h ⟨⟨reverse, fires⟩, keeps, lost⟩]
  · rfl

/-! The joints. -/

theorem doubted_state (j : Joint) : j.doubted.state = if j.isLocked then .uncertain else j.state := by
  unfold Joint.doubted
  split <;> rfl

theorem doubted_states (js : List Joint) :
    (js.map Joint.doubted).map Joint.state = js.map fun j => if j.isLocked then .uncertain else j.state := by
  rw [List.map_map]
  exact List.map_congr_left fun j _ => doubted_state j

/-- With no joint LOCKED nothing is doubted (R19). -/
theorem undoubted_states {js : List Joint} (h : ¬js.any Joint.isLocked = true) :
    js.map Joint.state = js.map fun j => if j.isLocked then .uncertain else j.state := by
  refine List.map_congr_left fun j hj => ?_
  rw [if_neg fun locked => h (List.any_eq_true.mpr ⟨j, hj, locked⟩)]

/-- The state the lock rule gives a joint (R17). -/
def Joint.lockedState (j : Joint) : JointState :=
  if j.isLocked then j.state else match j.aligned with | some p => .locked p | none => j.state

theorem lock_state (j : Joint) (g : JointGeometry) : (j.lock g).state = j.lockedState := by
  unfold Joint.lock Joint.lockedState
  split
  · rfl
  · cases j.aligned <;> rfl

theorem lockAll_states {js : List Joint} {gs : List JointGeometry} (h : js.length ≤ gs.length) :
    (lockAll js gs).map Joint.state = js.map Joint.lockedState := by
  rw [lockAll_of_length h]
  induction js generalizing gs with
  | nil => rfl
  | cons j js ih =>
    cases gs with
    | nil => simp at h
    | cons g gs =>
      rw [List.zipWith_cons_cons, List.map_cons, List.map_cons, lock_state, ih (by simpa using h)]

/-- With no joint to lock the lock rule would change no state (R17). -/
theorem unlockable_states {js : List Joint} (h : ¬js.any Joint.lockable = true) :
    js.map Joint.state = js.map Joint.lockedState := by
  refine List.map_congr_left fun j hj => ?_
  have no : j.lockable = false := by
    by_contra k
    exact h (List.any_eq_true.mpr ⟨j, hj, by simpa using k⟩)
  unfold Joint.lockedState
  cases locked : j.isLocked
  · have none : j.aligned = none := by simpa [Joint.lockable, locked] using no
    rw [none]
    rfl
  · rfl

section
variable {pair : Pair} {forward : Bool} {s t : State} (h : AngleTaken pair forward s t)
include h

/-- The record of the joints comes first among the event's (R151). -/
theorem AngleTaken.recorded {depth : Int} {event : Nat → EventDetail} {mask : Nat}
    (asked : s.jointsAsked forward t.stk.depth = s.brc.askMask s.znt.sessionOpen depth event mask) (named : mask ≠ 0)
    (session : s.znt.sessionOpen = true) (room : s.brc.fifo.length < 512) (noGap : s.brc.gap.pending = false) :
    ∃ more, t.brc.fifo = s.brc.fifo ++ ⟨s.brc.seqCounter, depth, depth, .event (event mask)⟩ :: more := by
  obtain ⟨more, fifo⟩ := h.fifo
  refine ⟨more, ?_⟩
  rw [fifo, asked, Brc.askMask, if_neg named, session, Brc.ask_of_room room noGap, Brc.append, List.append_assoc]
  rfl

theorem AngleTaken.accumulators : t.stk.aF = (s.countedModel forward).aF ∧ t.stk.aR = (s.countedModel forward).aR ∧
    t.stk.reverseRun = (s.countedModel forward).reverseRun := by
  by_cases evaluates : s.evaluatesAt forward
  · have evaluated := (h.evaluates evaluates).1
    exact ⟨evaluated.aF, evaluated.aR, evaluated.reverseRun⟩
  · rw [(h.stands evaluates).1]
    exact ⟨rfl, rfl, rfl⟩

theorem AngleTaken.stands_states (stands : ¬s.evaluatesAt forward) : t.jointStates = s.jointStates := by
  rw [State.jointStates, State.jointStates, (h.stands stands).1, State.countedModel]
  exact congrArg (List.map Joint.state) (counted_joints s.stk forward)
end

/-- The lock rule (R17). -/
theorem lockRule_taken {pair : Pair} {s t : State} (h : AngleTaken pair true s t) (table : TableInv s)
    (reached : s.gst.settings.lockAngle ≤ ((s.stk.counted true).aF : Int)) :
    t.jointStates = s.stk.joints.map Joint.lockedState ∧
    (jointMask Joint.lockable s.stk.joints ≠ 0 → s.znt.sessionOpen = true → s.brc.fifo.length < 512 →
      s.brc.gap.pending = false → ∃ more, t.brc.fifo = s.brc.fifo ++
        ⟨s.brc.seqCounter, t.stk.depth, t.stk.depth, .event (.locked (jointMask Joint.lockable s.stk.joints))⟩ :: more) ∧
    if jointMask Joint.lockable s.stk.joints = 0 then t.stk = s.stk.counted true
    else Evaluated { s.stk.counted true with joints := List.zipWith Joint.lock s.stk.joints s.jointGeometry } s t := by
  have lengths := table.table.length_eq.le
  refine ⟨?_, h.recorded (by rw [State.jointsAsked, if_pos ⟨rfl, reached⟩]), ?_⟩
  · by_cases any : s.stk.joints.any Joint.lockable = true
    · rw [(h.evaluates (.inl ⟨rfl, reached, any⟩)).1.states]
      exact lockAll_states lengths
    · rw [h.stands_states fun k => any (evaluatesAt_forward.mp k).2]
      exact unlockable_states any
  · by_cases any : s.stk.joints.any Joint.lockable = true
    · rw [if_neg (by simp [jointMask_eq_zero, any]), ← lockAll_of_length lengths]
      exact (h.evaluates (.inl ⟨rfl, reached, any⟩)).1
    · rw [if_pos (by simpa [jointMask_eq_zero] using any)]
      exact (h.stands fun k => any (evaluatesAt_forward.mp k).2).1

/-- A firing of the release rule that frees the joints (R18). -/
theorem releaseFreed_taken {pair : Pair} {s t : State} (h : AngleTaken pair false s t) (fires : s.fires) (frees : s.frees) :
    t.jointStates = s.stk.joints.map (fun _ => .free) ∧
    s.jointsAsked false t.stk.depth =
      s.brc.askMask s.znt.sessionOpen s.stk.depth .freed (jointMask (fun j => !j.isFree) s.stk.joints) ∧
    Evaluated { s.stk.fired with joints := s.stk.joints.map Joint.freed } s t := by
  have evaluated := (h.evaluates (.inr ⟨rfl, fires, .inl frees.1⟩)).1
  rw [countedModel_fires fires, State.countedJoints, if_neg Bool.false_ne_true, if_pos frees] at evaluated
  refine ⟨?_, by rw [State.jointsAsked, if_neg (by simp), if_pos ⟨⟨rfl, fires⟩, frees⟩], evaluated⟩
  rw [evaluated.states, List.map_map]
  rfl

/-- A firing of the release rule that leaves the joints in doubt (R18, R19). -/
theorem releaseDoubted_taken {pair : Pair} {s t : State} (h : AngleTaken pair false s t) (fires : s.fires) (keeps : ¬s.frees) :
    t.jointStates = s.stk.joints.map (fun j => if j.isLocked then .uncertain else j.state) ∧
    s.jointsAsked false t.stk.depth =
      s.brc.askMask s.znt.sessionOpen s.stk.depth .uncertain (jointMask Joint.isLocked s.stk.joints) ∧
    if s.phc.phase = .releasing ∨ s.stk.joints.any Joint.isLocked = true then
      Evaluated { s.stk.fired with joints := s.stk.joints.map Joint.doubted } s t
    else t.stk = s.stk.fired := by
  refine ⟨?_, by rw [State.jointsAsked, if_neg (by simp), if_neg fun k => keeps k.2, if_pos ⟨rfl, fires⟩], ?_⟩
  all_goals by_cases evaluates : s.phc.phase = .releasing ∨ s.stk.joints.any Joint.isLocked = true
  · rw [(h.evaluates (.inr ⟨rfl, fires, evaluates⟩)).1.states, State.countedJoints, if_neg Bool.false_ne_true, if_neg keeps]
    exact doubted_states _
  · rw [h.stands_states fun k => evaluates (evaluatesAt_reverse.mp k).2]
    exact undoubted_states (not_or.mp evaluates).2
  · rw [if_pos evaluates]
    have evaluated := (h.evaluates (.inr ⟨rfl, fires, evaluates⟩)).1
    rwa [countedModel_fires fires, State.countedJoints, if_neg Bool.false_ne_true, if_neg keeps] at evaluated
  · rw [if_neg evaluates, (h.stands fun k => evaluates (evaluatesAt_reverse.mp k).2).1, countedModel_fires fires]

/-- Settles O37: each count by whether its rule applies. -/
theorem lockAndReleaseRules : Obligations.LockAndReleaseRules := by
  refine ⟨fun pair s table count => ?_, fun pair s count => ?_⟩
  · refine ⟨_, exec_angleCountChange count, ?_⟩
    have h := angleTaken pair true s
    generalize settle (angleCounted true (s.withMsu { s.msu with angleRef := pair })) = t at h ⊢
    have limit : ((min 65535 (s.stk.aF + 1) : Nat) : Int) = ((s.stk.counted true).aF : Int) := rfl
    by_cases reached : s.gst.settings.lockAngle ≤ ((s.stk.counted true).aF : Int)
    · refine (if_pos (by push_cast at limit ⊢; rwa [limit])).mpr ?_
      exact lockRule_taken h table reached
    · refine (if_neg (by push_cast at limit ⊢; rwa [limit])).mpr ?_
      have stands : ¬s.evaluatesAt true := fun k => reached (evaluatesAt_forward.mp k).1
      exact ⟨h.stands_states stands, (h.stands stands).1⟩
  · refine ⟨_, exec_angleCountChange count, ?_⟩
    have h := angleTaken pair false s
    generalize settle (angleCounted false (s.withMsu { s.msu with angleRef := pair })) = t at h ⊢
    by_cases fires : s.fires
    · have still : ¬(((min 65535 (s.stk.aR + 1) : Nat) : Int) < s.gst.settings.unlockAngle ∨ s.stk.reverseRun = true) := by
        rintro (below | run)
        · exact absurd fires.1 (not_le.mpr below)
        · exact absurd fires.2 (by simp [run])
      refine (if_neg still).mpr ⟨?_, ?_⟩
      · rw [h.accumulators.2.2, countedModel_fires fires]
        rfl
      · by_cases frees : s.frees
        · obtain ⟨states, asked, evaluated⟩ := releaseFreed_taken h fires frees
          exact (if_pos frees).mpr ⟨states, h.recorded asked, evaluated⟩
        · obtain ⟨states, asked, evaluated⟩ := releaseDoubted_taken h fires frees
          refine (if_neg frees).mpr ⟨states, h.recorded asked, evaluated, fun lost released => ?_⟩
          have raises := countRaises_lost fires frees lost
          exact ⟨h.latched released _ (by simp [raises]), fun phase => h.latched released _ (by simp [raises, phase])⟩
    · refine (if_pos ?_).mpr ?_
      · by_contra still
        obtain ⟨above, run⟩ := not_or.mp still
        exact fires ⟨not_lt.mp above, by simpa using run⟩
      · have stands : ¬s.evaluatesAt false := fun k => fires (evaluatesAt_reverse.mp k).1
        exact ⟨h.stands_states stands, (h.stands stands).1.trans (countedModel_unfired fires)⟩

end Sys2Proof.Machine
end

