-- ==== Sys2Proof/Proofs/AngleEvents.lean ====
section
/-! An angle line change, whole: its counts, its rest and turn mark, its evaluation, its operation and its records
(R40, R42, R54, R58, R151). -/

namespace Sys2Proof.Machine

section
variable {pair : Pair} {forward : Bool} {s t : State} (h : AngleTaken pair forward s t)
include h

theorem AngleTaken.aF : t.stk.aF = if forward then min 65535 (s.stk.aF + 1) else 0 := by
  rw [h.accumulators.1]
  cases forward <;> rfl

theorem AngleTaken.aR : t.stk.aR = if forward then 0 else min 65535 (s.stk.aR + 1) := by
  rw [h.accumulators.2.1]
  cases forward <;> rfl

/-- What the evaluation of a count leaves, with the joints as it leaves them (R17 to R19). -/
theorem AngleTaken.evaluated (evaluates : s.evaluatesAt forward) :
    Evaluated { s.countedModel forward with joints := t.stk.joints } s t ∧ DisagreementDecided s t := by
  obtain ⟨evaluated, decided⟩ := h.evaluates evaluates
  refine ⟨{
    rest := ?_, depth := evaluated.depth, states := rfl, lockedStand := fun j x hx _ => hx
    outside := fun hq => ⟨rfl, (evaluated.outside hq).2⟩, held := evaluated.held, bottomHole := evaluated.bottomHole }, decided⟩
  exact congrArg (fun k : Stk => { k with joints := t.stk.joints }) evaluated.rest

theorem AngleTaken.fires_iff : (forward = false ∧ s.gst.settings.unlockAngle ≤ (t.stk.aR : Int) ∧ s.stk.reverseRun = false) ↔
    forward = false ∧ s.fires := by
  refine and_congr_right fun reverse => ?_
  subst reverse
  rw [h.accumulators.2.1]
  exact Iff.rfl

theorem AngleTaken.locks_iff : (forward = true ∧ s.gst.settings.lockAngle ≤ (t.stk.aF : Int)) ↔
    forward = true ∧ s.gst.settings.lockAngle ≤ ((s.stk.counted true).aF : Int) := by
  refine and_congr_right fun ahead => ?_
  subst ahead
  rw [h.accumulators.1]
  exact Iff.rfl

theorem AngleTaken.evaluates_iff : ((forward = true ∧ s.gst.settings.lockAngle ≤ (t.stk.aF : Int)) ∧
      s.stk.joints.any (fun j => !j.isLocked && j.aligned.isSome) = true) ∨
    ((forward = false ∧ s.gst.settings.unlockAngle ≤ (t.stk.aR : Int) ∧ s.stk.reverseRun = false) ∧
      (s.phc.phase = .releasing ∨ s.stk.joints.any Joint.isLocked = true)) ↔ s.evaluatesAt forward := by
  rw [h.locks_iff, h.fires_iff, and_assoc, and_assoc]
  exact Iff.rfl

theorem AngleTaken.counted : { s.stk with
    aF := t.stk.aF, aR := t.stk.aR
    reverseRun := !forward && (s.stk.reverseRun || decide (forward = false ∧ s.gst.settings.unlockAngle ≤ (t.stk.aR : Int) ∧
      s.stk.reverseRun = false)) } = s.countedModel forward := by
  rw [h.accumulators.1, h.accumulators.2.1]
  cases forward
  · have run : (s.stk.reverseRun || decide (false = false ∧
        s.gst.settings.unlockAngle ≤ ((s.countedModel false).aR : Int) ∧ s.stk.reverseRun = false)) =
        (s.countedModel false).reverseRun := by
      show _ = (s.stk.reverseRun || decide (s.gst.settings.unlockAngle ≤ ((s.countedModel false).aR : Int)))
      cases s.stk.reverseRun <;> simp
    rw [run]
    rfl
  · rfl

theorem AngleTaken.asked : s.jointsAsked forward t.stk.depth =
    if forward = true ∧ s.gst.settings.lockAngle ≤ (t.stk.aF : Int) then
      s.brc.askMask s.znt.sessionOpen t.stk.depth .locked (jointMask Joint.lockable s.stk.joints)
    else if (forward = false ∧ s.gst.settings.unlockAngle ≤ (t.stk.aR : Int) ∧ s.stk.reverseRun = false) ∧ s.frees then
      s.brc.askMask s.znt.sessionOpen s.stk.depth .freed (jointMask (fun j => !j.isFree) s.stk.joints)
    else if forward = false ∧ s.gst.settings.unlockAngle ≤ (t.stk.aR : Int) ∧ s.stk.reverseRun = false then
      s.brc.askMask s.znt.sessionOpen s.stk.depth .uncertain (jointMask Joint.isLocked s.stk.joints)
    else s.brc := by
  simp only [h.locks_iff, h.fires_iff]
  rfl

theorem AngleTaken.raised : (if s.lines.xrst then [] else s.countRaises forward) =
    if (forward = false ∧ s.gst.settings.unlockAngle ≤ (t.stk.aR : Int) ∧ s.stk.reverseRun = false) ∧ ¬s.frees ∧
        s.stk.joints.any Joint.isLocked = true ∧ s.lines.xrst = false then
      (if s.phc.phase = .drill ∨ s.phc.phase = .releasing then [.chainOpen] else []) ++
        [if s.phc.phase = .releasing then Source.unlockUnderLoad else .reverseOverrun]
    else [] := by
  simp only [h.fires_iff]
  cases released : s.lines.xrst
  · rw [if_neg Bool.false_ne_true]
    by_cases raises : (forward = false ∧ s.fires) ∧ ¬s.frees ∧ s.stk.joints.any Joint.isLocked = true
    · obtain ⟨⟨rfl, fires⟩, keeps, lost⟩ := raises
      rw [if_pos ⟨⟨rfl, fires⟩, keeps, lost, rfl⟩, countRaises_lost fires keeps lost]
    · rw [countRaises_none raises, if_neg fun k => raises ⟨k.1, k.2.1, k.2.2.1⟩]
  · simp
end

/-! The operation. -/

section
variable {forward : Bool} {s : State} {o : Operation} (op : s.phc.op = some o)
include op

/-- A count in ENGAGING (R54, R55). -/
theorem phcCount_engaging (engaging : s.phc.phase = .engaging) : (phcCount forward s).phc =
    if forward = false then { s.phc with op := some { o with angle := 0 } }
    else if ((min 65535 (o.angle + 1) : Nat) : Int) < s.gst.settings.lockAngle then
      { s.phc with op := some { o with angle := min 65535 (o.angle + 1) } }
    else ⟨if chainClosed s.stk.joints = true ∧ s.znt.sessionOpen = true ∧ s.stk.quality ≠ .none then .drill else .free,
      none, none, false, false⟩ := by
  rw [phcCount_phc, op]
  dsimp only
  cases forward
  · rw [if_neg (by simp [engaging]), if_pos rfl]
  · have counted : o.turned = ⟨min 65535 (o.angle + 1), o.timer⟩ := rfl
    simp only [counted, engaging, decide_true, if_true, Bool.true_eq_false, if_false]
    by_cases below : ((min 65535 (o.angle + 1) : Nat) : Int) < s.gst.settings.lockAngle
    · rw [if_pos below, if_neg (not_le.mpr below)]
    · rw [if_neg below, if_pos (not_lt.mp below)]
      have arm : decide (s.engagedPhase = .hoist) = false := by
        obtain p | p := engagedPhase_cases s <;> simp [p]
      rw [arm, State.engagedPhase]
      rfl

/-- A count in RELEASING (R58, R59). -/
theorem phcCount_releasing {r : ReleaseTarget} (target : s.phc.target = some r) (releasing : s.phc.phase = .releasing) :
    (phcCount forward s).phc =
    if forward = true then { s.phc with op := some { o with angle := 0 } }
    else if ((min 65535 (o.angle + 1) : Nat) : Int) < s.gst.settings.unlockAngle then
      { s.phc with op := some { o with angle := min 65535 (o.angle + 1) } }
    else ⟨if allFree s.stk.joints = true ∧ r = .hoist then .hoist else .free, none, none, false,
      decide ((allFree s.stk.joints = true ∧ r = .hoist) ∧ s.stk.quality = .valid ∧
        s.gst.settings.spinOffLevel < s.stk.depth)⟩ := by
  have notEngaging : s.phc.phase ≠ .engaging := by simp [releasing]
  rw [phcCount_phc, op]
  dsimp only
  cases forward
  · have counted : o.turned = ⟨min 65535 (o.angle + 1), o.timer⟩ := rfl
    simp only [counted, notEngaging, decide_false, if_true, Bool.false_eq_true, if_false]
    by_cases below : ((min 65535 (o.angle + 1) : Nat) : Int) < s.gst.settings.unlockAngle
    · rw [if_pos below, if_neg (not_le.mpr below)]
    · rw [if_neg below, if_pos (not_lt.mp below)]
      have phase : s.releasedPhase = if allFree s.stk.joints = true ∧ r = .hoist then .hoist else .free := by
        rw [State.releasedPhase, target]
        cases r <;> simp [ReleaseTarget.phase]
      rw [phase]
      by_cases hoists : allFree s.stk.joints = true ∧ r = .hoist
      · simp [hoists, State.armAtEntry]
      · simp [hoists]
  · rw [if_neg (by simp [releasing]), if_pos rfl]
end

/-- An equation by cases, case by case. -/
theorem eq_of_ite_cases {α : Type} {c d : Prop} [Decidable c] [Decidable d] {x a b e : α}
    (h : x = if c then a else if d then b else e) : if c then x = a else if d then x = b else x = e := by
  split_ifs at h ⊢ <;> exact h

/-- Settles O36: what `AngleTaken` says of the event, in the statement's terms. -/
theorem angleCountsAreCounted : Obligations.AngleCountsAreCounted := by
  refine ⟨fun pair s count => ?_, fun pair forward s count => ?_⟩
  · refine ⟨settle (s.withMsu { s.msu with angleRef := pair }), by simp only [exec, execAngleCountChange, count]; rfl, rfl, ?_⟩
    exact ((withMsu_effect s _).trans ((settle_effect _).mono (by simp))).keeps
  · refine ⟨_, exec_angleCountChange count, ?_⟩
    have h := angleTaken pair forward s
    generalize settle (angleCounted forward (s.withMsu { s.msu with angleRef := pair })) = t at h ⊢
    intro angle marks locks fires lost evaluates counted
    have model : counted = s.countedModel forward := h.counted
    have evaluating : evaluates ↔ s.evaluatesAt forward := h.evaluates_iff
    refine ⟨h.msu, h.aF, h.aR, ?_, ?_, ?_, h.conditions, ?_, h.idle, h.whole.answers, h.whole.keeps, ?_, ?_, ?_⟩
    · rintro rfl
      rw [h.accumulators.2.2]
      rfl
    · rw [model, evaluating]
      exact h.evaluated
    · rw [model, evaluating]
      exact h.stands
    · intro unmarked src other
      simp only [List.mem_cons, not_or] at other
      refine h.entries unmarked src other.1 fun raised => ?_
      simpa [other] using countRaises_subset raised
    · intro phases k frees asked joints raised evaluated
      have joined : s.jointsAsked forward t.stk.depth = joints := h.asked
      have all : s.countRecords forward t = evaluated := by
        rw [State.countRecords, h.raised, joined]
        rfl
      rw [h.brc phases, all]
      rfl
    · intro engaging o op
      exact eq_of_ite_cases ((h.turning (by simp [engaging])).trans (phcCount_engaging (s := s.withStk t.stk) op engaging))
    · intro releasing o r op target
      exact eq_of_ite_cases ((h.turning (by simp [releasing])).trans
        (phcCount_releasing (s := s.withStk t.stk) op target releasing))

end Sys2Proof.Machine
end

