-- ==== Sys2Proof/Proofs/SettingsWritten.lean ====
section
/-! The settings: what a SET writes, and what a changed setting hands on, reader by reader (R9, R14, R66, R153, R166). -/

namespace Sys2Proof.Machine

/-! The values. -/

section
variable (t : Settings) (v w : Setting) (x : Int)

theorem Settings.get_put_self (code : v = .autoAdvance → x = 0 ∨ x = 1) : (t.put v x).get v = x := by
  cases v
  case autoAdvance => obtain rfl | rfl := code rfl <;> rfl
  all_goals rfl

theorem Settings.get_put_of_ne {v w : Setting} (h : w ≠ v) : (t.put v x).get w = t.get w := by
  cases v <;> cases w <;> trivial

/-- A value brought within its range (R166). -/
theorem Settings.bring_eq : t.bring v x =
    if v = .reverseMargin then min (clamp v.range.1 v.range.2 x) (t.unlockAngle - 1) else clamp v.range.1 v.range.2 x := by
  cases v <;> rfl

/-- Auto-advance is brought to a flag (R166). -/
theorem Settings.bring_flag : v = .autoAdvance → t.bring v x = 0 ∨ t.bring v x = 1 := by
  rintro rfl
  show clamp 0 1 x = 0 ∨ clamp 0 1 x = 1
  unfold clamp
  omega

theorem Settings.write_of_ne {v : Setting} (h : v ≠ .unlockAngle) : t.write v x = t.put v x := by
  rw [Settings.write, if_neg h]

/-- What a SET leaves of each setting: a lower unlock angle takes the reverse margin with it (R166). -/
theorem Settings.get_write (code : v = .autoAdvance → x = 0 ∨ x = 1) : (t.write v x).get w =
    if w = v then x
    else if w = .reverseMargin ∧ v = .unlockAngle ∧ x - 1 < t.reverseMargin then x - 1 else t.get w := by
  by_cases unlock : v = .unlockAngle
  · subst unlock
    by_cases margin : w = .reverseMargin
    · subst margin
      show min t.reverseMargin (x - 1) = _
      simp only [reduceCtorEq, if_false, true_and]
      split
      · omega
      · exact min_eq_left (by omega)
    · have others : (t.write .unlockAngle x).get w = (t.put .unlockAngle x).get w :=
        Settings.get_put_of_ne (t.put .unlockAngle x) (min t.reverseMargin (x - 1)) margin
      simp only [margin, false_and, if_false, others]
      split
      · next h => rw [h, Settings.get_put_self _ _ _ code]
      · next h => exact Settings.get_put_of_ne t x h
  · rw [Settings.write_of_ne t x unlock]
    simp only [unlock, false_and, and_false, if_false]
    split
    · next h => rw [h, Settings.get_put_self _ _ _ code]
    · next h => exact Settings.get_put_of_ne t x h
end

theorem SettingItem.ofNumber_value {k : Nat} {v : Setting} (low : 1 ≤ k) (h : Setting.all[k - 1]? = some v) :
    SettingItem.ofNumber k = some (.value v) := by
  have high : k - 1 < 35 := (List.getElem?_eq_some_iff.mp h).1
  rw [SettingItem.ofNumber, if_pos ⟨low, by omega⟩, h]
  rfl

/-! What is handed on. -/

theorem withSettings_effect (s : State) (t : Settings) : Effect [.gst] s (s.withSettings t) := withGst_effect s _

theorem slackChanged_effect (s : State) :
    Effect [.stk, .phc, .znt, .env, .grants, .faults, .brc, .pif] s (slackChanged s) :=
  ((evaluateAnew_effect s).mono (by simp)).trans ((afterEvaluation_effect s.stk [] (evaluateAnew s)).mono (by simp))

theorem recordStepChanged_effect (s : State) : Effect [.brc] s (recordStepChanged s) := by
  unfold recordStepChanged
  split
  · exact withBrc_effect s _
  · exact .refl s

theorem settingChanged_effect (v : Setting) (s : State) :
    Effect [.stk, .phc, .znt, .env, .grants, .faults, .brc, .pif] s (settingChanged v s) := by
  have advanced := (advanceEvaluate_effect s).mono (d := [.stk, .phc, .znt, .env, .grants, .faults, .brc, .pif]) (by simp)
  cases v
  case lSlack => exact slackChanged_effect s
  case depthTolerance => exact (decideCondition_effect _ _ s).mono (by simp)
  case recordStep => exact (recordStepChanged_effect s).mono (by simp)
  case spinOffLevel => exact advanced
  case autoAdvance =>
    simp only [settingChanged]
    split
    · exact advanced
    · exact .refl s
  all_goals exact .refl s

/-- The settings written and the envelope recomputed (R72, R166). -/
def State.resettled (s : State) (t : Settings) : State := recompute (s.withSettings t)

theorem resettled_effect (s : State) (t : Settings) : Effect [.gst, .env, .grants, .pif] s (s.resettled t) :=
  ((withSettings_effect s t).mono (by simp)).trans ((recompute_effect _).mono (by simp))

theorem resettled_gst (s : State) (t : Settings) : (s.resettled t).gst = { s.gst with settings := t } :=
  (recompute_effect _).gst_eq

theorem settingWritten_eq (v : Setting) (x : Int) (s : State) : settingWritten v x s =
    if s.gst.settings.get v = x then s.resettled (s.gst.settings.write v x)
    else settingChanged v (s.resettled (s.gst.settings.write v x)) := rfl

theorem settingWritten_effect (v : Setting) (x : Int) (s : State) :
    Effect [.gst, .stk, .phc, .znt, .env, .grants, .faults, .brc, .pif] s (settingWritten v x s) := by
  rw [settingWritten_eq]
  have written := (resettled_effect s (s.gst.settings.write v x)).mono
    (d := [.gst, .stk, .phc, .znt, .env, .grants, .faults, .brc, .pif]) (by simp)
  split
  · exact written
  · exact written.trans ((settingChanged_effect v _).mono (by simp))

theorem settingWritten_gst (v : Setting) (x : Int) (s : State) :
    (settingWritten v x s).gst = { s.gst with settings := s.gst.settings.write v x } := by
  rw [settingWritten_eq]
  split
  · exact resettled_gst _ _
  · rw [(settingChanged_effect v _).gst_eq, resettled_gst]

/-- A setting with no reader beside the ENV, or the value held, hands nothing on (R166; entry 32). -/
theorem settingWritten_still {v : Setting} {x : Int} {s : State} (h : s.gst.settings.get v = x ∨
    v ∉ [Setting.lSlack, .depthTolerance, .recordStep, .spinOffLevel, .autoAdvance]) :
    settingWritten v x s = s.resettled (s.gst.settings.write v x) := by
  rw [settingWritten_eq]
  split
  · rfl
  · next changed =>
    have other := h.resolve_left changed
    cases v
    case lSlack | depthTolerance | recordStep | spinOffLevel | autoAdvance => simp at other
    all_goals rfl

theorem settingWritten_changed {v : Setting} {x : Int} {s : State} (h : x ≠ s.gst.settings.get v) :
    settingWritten v x s = settingChanged v (s.resettled (s.gst.settings.write v x)) := by
  rw [settingWritten_eq, if_neg h.symm]

end Sys2Proof.Machine
end

