-- ==== Sys2Proof/Proofs/SetRequests.lean ====
section
/-! SET of a setting of 1 to 35: its value, its answer and what it hands on (R166). -/

namespace Sys2Proof.Machine

/-! Each reader's part. -/

section
variable (w : State)

/-- A changed L_slack: tautness is re-decided and the string model evaluated (R9, R11). -/
theorem slackChanged_from : EvaluatedFrom { w.stk with taut := w.ropeTaut } w.brc w (slackChanged w) :=
  afterEvaluation_from (s := w) (u := w.withStk { w.stk with taut := w.ropeTaut }) rfl rfl (fun _ => rfl) rfl

theorem slackChanged_phc : (slackChanged w).phc =
    advancedPhc w.gst.settings (slackChanged w).stk (modelMoved w.stk (slackChanged w).stk) w.phc :=
  afterEvaluation_evaluate_phc w (w.withStk { w.stk with taut := w.ropeTaut })

theorem toleranceChanged_decided : DisagreementDecided w (toleranceChanged w) := decideCondition_disagreement w

theorem toleranceChanged_only : OnlyDisagreement w (toleranceChanged w) := fun _ h =>
  decideCondition_entry_of_ne h _ w

/-- A changed depth tolerance asks for the record of DEPTH_DISAGREE where it becomes present (R134). -/
theorem toleranceChanged_brc : (toleranceChanged w).brc =
    w.brc.askAll w.znt.sessionOpen w.stk.depth ((newlyPresent w (toleranceChanged w)).map .faultRaised) := by
  have only := newlyPresent_of_only (s := w) (t := toleranceChanged w) fun src h => by rw [toleranceChanged_only w src h]
  rw [only, toleranceChanged, decideCondition_brc, becomes_iff_condition]
  split <;> rfl

/-- A changed record step moves the next step boundary of an OPEN session (R153). -/
theorem recordStepChanged_brc : (recordStepChanged w).brc = if w.znt.sessionOpen then { w.brc with
    nextStep := w.gst.settings.recordStep * w.stk.bottomHole.fdiv w.gst.settings.recordStep + w.gst.settings.recordStep }
    else w.brc := by
  unfold recordStepChanged
  split <;> rfl
end

/-- The records of an event that moves no zone, in the terms of `eventsAsked` (R151). -/
theorem Brc.eventsAsked_unzoned (b : Brc) {s t : State} (mask : t.znt.mask = s.znt.mask) (depth : t.stk.depth = s.stk.depth)
    (raised : List Source) : b.eventsAsked s t raised = b.askAll s.znt.sessionOpen s.stk.depth
      (raised.map .faultRaised ++ phaseRecord s.phc.phase t.phc.phase) := by
  rw [Brc.eventsAsked_eq, mask, markRecords_self, depth, List.nil_append]

theorem advancedPhc_unevaluated (t : Settings) (k : Stk) (p : Phc) : advancedPhc t k false p = p := by simp [advancedPhc]

/-- An evaluation told from a state with other settings (R166). -/
theorem EvaluatedFrom.resettled {k : Stk} {b : Brc} {s w t : State} (h : EvaluatedFrom k b w t)
    (e : Effect [.gst, .env, .grants, .pif] s w) : EvaluatedFrom k b s t := by
  have new : newlyPresent s t = newlyPresent w t := newlyPresent_congr (fun src => (e.entry_eq src).symm) fun _ => rfl
  refine ⟨h.evaluated.congr e.sessionOpen_eq.symm rfl rfl rfl rfl,
    h.decided.congr e.lines_eq.symm (e.entry_eq _).symm rfl rfl rfl, fun src hs => (h.only src hs).trans (e.entry_eq src), ?_⟩
  rw [h.brc, new, b.eventsAsked_congr _ e.znt_eq (by rw [e.phc_eq]) rfl rfl rfl]
  exact Brc.stepAsked_congr _ e.sessionOpen_eq (by rw [e.stk_eq]) rfl rfl

/-! What a SET of a setting with a reader leaves. -/

section
variable {x : Int} {s : State}

theorem settingWritten_slack (changed : x ≠ s.gst.settings.lSlack) :
    EvaluatedFrom { s.stk with taut := decide (x ≤ s.msu.channels.rl.value) && !s.msu.channels.rl.holding } s.brc s
        (settingWritten .lSlack x s) ∧
      (settingWritten .lSlack x s).phc = advancedPhc s.gst.settings (settingWritten .lSlack x s).stk
        (modelMoved s.stk (settingWritten .lSlack x s).stk) s.phc := by
  have e := resettled_effect s (s.gst.settings.write .lSlack x)
  have gst := resettled_gst s (s.gst.settings.write .lSlack x)
  have advance : ∀ k b p, advancedPhc (s.gst.settings.write .lSlack x) k b p = advancedPhc s.gst.settings k b p :=
    fun _ _ _ => rfl
  rw [settingWritten_changed changed]
  generalize s.resettled (s.gst.settings.write .lSlack x) = w at *
  have taut : w.ropeTaut = (decide (x ≤ s.msu.channels.rl.value) && !s.msu.channels.rl.holding) := by
    rw [State.ropeTaut, gst, e.msu_eq]
    rfl
  have evaluated := (slackChanged_from w).resettled e
  have phc := slackChanged_phc w
  rw [e.stk_eq, e.brc_eq, taut] at evaluated
  rw [e.stk_eq, e.phc_eq, gst, advance] at phc
  exact ⟨evaluated, phc⟩

theorem settingWritten_tolerance (changed : x ≠ s.gst.settings.depthTolerance) (released : s.lines.xrst = false) :
    let t := settingWritten .depthTolerance x s
    (t.entry .depthDisagree).condition = decide (x < |s.stk.disagreement|) ∧
    ((s.entry .depthDisagree).condition = false → x < |s.stk.disagreement| → (t.entry .depthDisagree).latched = true) ∧
    OnlyDisagreement s t ∧ t.brc = s.brc.eventsAsked s t (newlyPresent s t) ∧
    Effect [.gst, .faults, .brc, .env, .grants, .pif] s t := by
  intro t
  have e := resettled_effect s (s.gst.settings.write .depthTolerance x)
  have gst := resettled_gst s (s.gst.settings.write .depthTolerance x)
  have written : t = toleranceChanged (s.resettled (s.gst.settings.write .depthTolerance x)) := settingWritten_changed changed
  rw [written]
  generalize s.resettled (s.gst.settings.write .depthTolerance x) = w at *
  have k : Effect [.faults, .brc, .env, .grants, .pif] w (toleranceChanged w) := decideCondition_effect _ _ w
  have decided := (toleranceChanged_decided w).congr (s' := s) (t' := toleranceChanged w) e.lines_eq.symm
    (e.entry_eq _).symm rfl rfl rfl
  have brc := toleranceChanged_brc w
  have only := toleranceChanged_only w
  have new : newlyPresent s (toleranceChanged w) = newlyPresent w (toleranceChanged w) :=
    newlyPresent_congr (fun src => (e.entry_eq src).symm) fun _ => rfl
  obtain ⟨condition, latched⟩ := decided
  rw [released, k.gst_eq, gst, k.stk_eq, e.stk_eq] at condition
  refine ⟨condition, fun was now => latched was ?_, fun src hs => (only src hs).trans (e.entry_eq src), ?_,
    (e.mono (by simp)).trans (k.mono (by simp))⟩
  · rw [condition]
    exact decide_eq_true now
  · rw [brc, new, Brc.eventsAsked_unzoned _ (by rw [k.znt_eq, e.znt_eq]) (by rw [k.stk_eq, e.stk_eq]), e.brc_eq, e.znt_eq,
      e.stk_eq, k.phc_eq, e.phc_eq, phaseRecord, if_pos rfl, List.append_nil]

theorem settingWritten_recordStep (changed : x ≠ s.gst.settings.recordStep) :
    let t := settingWritten .recordStep x s
    t.brc = (if s.znt.sessionOpen then { s.brc with nextStep := x * s.stk.bottomHole.fdiv x + x } else s.brc) ∧
    Effect [.gst, .brc, .env, .grants, .pif] s t := by
  intro t
  have e := resettled_effect s (s.gst.settings.write .recordStep x)
  have gst := resettled_gst s (s.gst.settings.write .recordStep x)
  have written : t = recordStepChanged (s.resettled (s.gst.settings.write .recordStep x)) := settingWritten_changed changed
  rw [written]
  generalize s.resettled (s.gst.settings.write .recordStep x) = w at *
  refine ⟨?_, (e.mono (by simp)).trans ((recordStepChanged_effect w).mono (by simp))⟩
  rw [recordStepChanged_brc, gst, e.znt_eq, e.stk_eq, e.brc_eq]
  rfl

/-- The PHC evaluated after a changed setting (R66). -/
theorem advanceEvaluate_resettled {w : State} (e : Effect [.gst, .env, .grants, .pif] s w) :
    (advanceEvaluate w).phc = advancedPhc (advanceEvaluate w).gst.settings s.stk true s.phc ∧
    (advanceEvaluate w).brc = s.brc.eventsAsked s (advanceEvaluate w) [] ∧
    Effect [.gst, .phc, .brc, .env, .grants, .pif] s (advanceEvaluate w) := by
  have k := advanceEvaluate_effect w
  refine ⟨?_, ?_, (e.mono (by simp)).trans (k.mono (by simp))⟩
  · rw [k.gst_eq, advanceEvaluate_phc, e.stk_eq, e.phc_eq]
  · rw [Brc.eventsAsked_unzoned _ (by rw [k.znt_eq, e.znt_eq]) (by rw [k.stk_eq, e.stk_eq]), advanceEvaluate_brc, e.brc_eq,
      e.znt_eq, e.stk_eq, e.phc_eq]
    rfl

/-- Where the PHC does not evaluate it asks for no record (R66). -/
theorem resettled_unadvanced {w : State} (e : Effect [.gst, .env, .grants, .pif] s w) :
    w.phc = advancedPhc w.gst.settings s.stk false s.phc ∧ w.brc = s.brc.eventsAsked s w [] ∧
    Effect [.gst, .phc, .brc, .env, .grants, .pif] s w := by
  refine ⟨by rw [advancedPhc_unevaluated, e.phc_eq], ?_, e.mono (by simp)⟩
  rw [Brc.eventsAsked_unzoned _ (by rw [e.znt_eq]) (by rw [e.stk_eq]), e.brc_eq, e.phc_eq, phaseRecord, if_pos rfl]
  rfl

theorem settingWritten_advance {v : Setting} (reader : v = .spinOffLevel ∨ v = .autoAdvance)
    (code : v = .autoAdvance → x = 0 ∨ x = 1) :
    let t := settingWritten v x s
    t.phc = advancedPhc t.gst.settings s.stk (decide (x ≠ s.gst.settings.get v ∧ (v = .autoAdvance → x = 1))) s.phc ∧
    t.brc = s.brc.eventsAsked s t [] ∧ Effect [.gst, .phc, .brc, .env, .grants, .pif] s t := by
  intro t
  have e := resettled_effect s (s.gst.settings.write v x)
  have gst := resettled_gst s (s.gst.settings.write v x)
  by_cases changed : x = s.gst.settings.get v
  · have written : t = s.resettled (s.gst.settings.write v x) := settingWritten_still (.inl changed.symm)
    rw [written, decide_eq_false fun k => k.1 changed]
    exact resettled_unadvanced e
  · have written : t = settingChanged v (s.resettled (s.gst.settings.write v x)) := settingWritten_changed changed
    rw [written]
    obtain rfl | rfl := reader
    · rw [decide_eq_true ⟨changed, by simp⟩]
      exact advanceEvaluate_resettled e
    · obtain rfl | rfl := code rfl
      · rw [decide_eq_false (by simp)]
        have off : (s.resettled (s.gst.settings.write .autoAdvance 0)).gst.settings.autoAdvance = false := by rw [gst]; rfl
        rw [settingChanged, off, if_neg Bool.false_ne_true]
        exact resettled_unadvanced e
      · rw [decide_eq_true ⟨changed, fun _ => rfl⟩]
        have on : (s.resettled (s.gst.settings.write .autoAdvance 1)).gst.settings.autoAdvance = true := by rw [gst]; rfl
        rw [settingChanged, on, if_pos rfl]
        exact advanceEvaluate_resettled e
end

/-- SET of a setting of 1 to 35 with a B it takes: the value brought within its range, and the answer (R166). -/
theorem serveSet_value {v : Setting} {a b : Word} (low : 1 ≤ a.toNat) (named : Setting.all[a.toNat - 1]? = some v)
    (good : v = .autoAdvance → b.toNat ≤ 1) (s : State) :
    let x := s.gst.settings.bring v (v.read b)
    serveSet a b s = (settingWritten v x s, answer
      (if x ≠ v.read b ∨ (v = .unlockAngle ∧ x - 1 < s.gst.settings.reverseMargin) then .clamped else .ok) x
      (s.gst.settings.get v)) := by
  intro x
  have code : settingCodeGood v b = true := by
    cases v
    case autoAdvance => exact decide_eq_true (good rfl)
    all_goals rfl
  have moved : ((decide ((s.gst.settings.write v x).reverseMargin ≠ s.gst.settings.reverseMargin) &&
      decide (v = .unlockAngle)) = true) ↔ (v = .unlockAngle ∧ x - 1 < s.gst.settings.reverseMargin) := by
    rw [Bool.and_eq_true, decide_eq_true_eq, decide_eq_true_eq, and_comm]
    refine and_congr_right fun unlock => ?_
    subst unlock
    show min s.gst.settings.reverseMargin (x - 1) ≠ _ ↔ _
    omega
  rw [serveSet, SettingItem.ofNumber_value low named]
  dsimp only
  unfold setValue
  dsimp only
  rw [code]
  exact congrArg (fun c => (settingWritten v x s, answer c x (s.gst.settings.get v))) (if_congr (or_congr_right moved) rfl rfl)

/-- Settles O12, reader by reader. -/
theorem setWritesTheSetting : Obligations.SetWritesTheSetting := by
  intro v a b s ready low named good old read inRange x moved
  refine ⟨_, exec_cabRequest (c := .set) ready rfl rfl rfl a b, ?_⟩
  have brought : s.gst.settings.bring v (v.read b) = x := Settings.bring_eq _ v _
  have flag : v = .autoAdvance → x = 0 ∨ x = 1 := fun h => by
    rw [← brought]
    exact Settings.bring_flag _ v _ h
  have served := serveSet_value low named good (s.frameEnded .cab)
  dsimp only at served
  rw [frameEnded_gst, brought] at served
  rw [show serve .cab .set ⟨Cmd.set.code, a, b, false, s.brc.oldest⟩ (s.frameEnded .cab) = _ from served]
  have e := settingWritten_effect v x (s.frameEnded .cab)
  have gst := settingWritten_gst v x (s.frameEnded .cab)
  have still : (old.get v = x ∨ v ∉ [Setting.lSlack, .depthTolerance, .recordStep, .spinOffLevel, .autoAdvance]) →
      Effect [.gst, .env, .grants, .pif] (s.frameEnded .cab) (settingWritten v x (s.frameEnded .cab)) := fun h => by
    rw [settingWritten_still (s := s.frameEnded .cab) h]
    exact resettled_effect _ _
  have slack := settingWritten_slack (x := x) (s := s.frameEnded .cab)
  have tolerance := settingWritten_tolerance (x := x) (s := s.frameEnded .cab)
  have recordStep := settingWritten_recordStep (x := x) (s := s.frameEnded .cab)
  have advance := fun h => settingWritten_advance (s := s.frameEnded .cab) (v := v) h flag
  clear_value x
  have alone : Effect [.gst, .env, .grants, .pif] (s.frameEnded .cab) (settingWritten v x (s.frameEnded .cab)) →
      ∀ y, (settle (cabEnded (settingWritten v x (s.frameEnded .cab), y))).phc = { s.phc with releaseLatch := false } ∧
        KeepsAllBut [.phc, .env, .grants, .gst, .pif] s (settle (cabEnded (settingWritten v x (s.frameEnded .cab), y))) :=
    fun k y => ⟨by rw [settle_phc, cabEnded_phc, k.phc_eq, frameEnded_phc],
      cabEnded_keeps (r := (_, y)) k (by simp) (by simp)⟩
  refine ⟨cabEnded_answered e, fun w _ => ?_, ?_, ?_, ?_, fun held => alone (still (.inl held.symm)) _,
    fun other => alone (still (.inr other)) _, ?_, ?_, ?_, fun reader => ?_⟩
  · rw [settle_gst, cabEnded_gst, gst]
    exact Settings.get_write _ v w x flag
  · rw [settle_gst, cabEnded_gst, gst]
    rfl
  · rw [settle_msu, cabEnded_msu, e.msu_eq, frameEnded_msu]
  · rw [settle_lines, cabEnded_lines, e.lines_eq, frameEnded_lines]
  · rintro rfl changed
    obtain ⟨from_, phc⟩ := slack changed
    generalize settingWritten .lSlack x (s.frameEnded .cab) = f at e from_ phc ⊢
    have all := fun y => from_.cab (r := (f, y))
    refine ⟨(all _).evaluated, (all _).decided, (all _).only, (all _).brc, cabEnded_keeps e (by simp) (by simp), ?_⟩
    rw [settle_phc, cabEnded_phc, phc]
    rfl
  · rintro rfl changed
    obtain ⟨condition, latched, only, brc, effect⟩ := tolerance changed ready.1.1
    generalize settingWritten .depthTolerance x (s.frameEnded .cab) = f at condition latched only brc effect ⊢
    refine ⟨condition, latched, only, brc, ?_, cabEnded_keeps effect (by simp) (by simp)⟩
    rw [settle_phc, cabEnded_phc, effect.phc_eq, frameEnded_phc]
  · rintro rfl changed
    obtain ⟨brc, effect⟩ := recordStep changed
    generalize settingWritten .recordStep x (s.frameEnded .cab) = f at brc effect ⊢
    refine ⟨brc, ?_, cabEnded_keeps effect (by simp) (by simp)⟩
    rw [settle_phc, cabEnded_phc, effect.phc_eq, frameEnded_phc]
  · obtain ⟨phc, brc, effect⟩ := advance reader
    generalize settingWritten v x (s.frameEnded .cab) = f at phc brc effect ⊢
    refine ⟨?_, brc, cabEnded_keeps effect (by simp) (by simp)⟩
    rw [settle_phc, cabEnded_phc, phc]
    rfl

end Sys2Proof.Machine
end

