-- ==== Sys2Proof/Proofs/SettingsDefaults.lean ====
section
/-! SETTINGS_DEFAULT: the defaults written and made pending, and what their changes hand on (R167; entry 36). -/

namespace Sys2Proof.Machine

/-! The fault table's settings, which no raise and no evaluation changes (R141, R142). -/

/-- The group mode in force and the pending one. -/
def Fsv.group (f : Fsv) : GroupMode × Option GroupMode := (f.groupMode, f.pendingGroupMode)

section
variable {s : State}

theorem handLimitReach_group : (handLimitReach s).fsv.group = s.fsv.group := by
  unfold handLimitReach
  dsimp only
  split
  · rfl
  · rw [recompute_fsv]; rfl

theorem beginOverride_group (src : Source) (a : OverrideAction) : (beginOverride src a s).fsv.group = s.fsv.group := by
  have drops : ∀ (ds : List Drive) (t : State), (ds.foldl latchedDropBegins t).fsv = t.fsv := by
    intro ds
    induction ds with
    | nil => exact fun _ => rfl
    | cons d ds ih => exact fun t => (ih _).trans (latchedDropBegins_fsv t d)
  cases a with
  | limit => rw [beginOverride, handLimitReach_group]; rfl
  | drop =>
    simp only [beginOverride]
    split
    · rw [drops]; rfl
    · rfl

theorem raise_group (src : Source) : (raise src s).fsv.group = s.fsv.group := by
  unfold raise
  split
  · rfl
  · dsimp only
    split
    · rw [beginOverride_group]; rfl
    all_goals rfl

theorem decideCondition_group (src : Source) (b : Bool) : (decideCondition src b s).fsv.group = s.fsv.group := by
  unfold decideCondition
  split
  · rfl
  · dsimp only
    split
    · rw [raise_group]; rfl
    · rfl

theorem slackChanged_group : (slackChanged s).fsv.group = s.fsv.group := by
  rw [slackChanged, afterEvaluation, brcDepth_fsv, phcAfterEvaluation_fsv, handOn, decideCondition_group]
  show (recompute (zntReevaluate (evaluateAnew s))).fsv.group = _
  rw [recompute_fsv, zntReevaluate_fsv]
  rfl
end

/-- A condition decided as it is changes nothing (R133). -/
theorem decideCondition_held {src : Source} {b : Bool} {s : State} (h : (s.entry src).condition = b) :
    decideCondition src b s = s := by
  have same : s.withEntry src { s.entry src with condition := b } = s := by
    subst h
    show s.withFsv { s.fsv with table := s.fsv.table.set src.idx s.fsv.table[src.idx] } = s
    have table : s.fsv.table.set src.idx s.fsv.table[src.idx] = s.fsv.table := Vector.set_getElem_self src.idx.isLt
    rw [table]
    rfl
  unfold decideCondition
  split
  · rfl
  · dsimp only
    rw [if_neg (by simp [h]), same]

/-! What the changes hand on. -/

/-- What the change of a setting with a reader hands on in PARKED: the sources but DEPTH_DISAGREE, its own settings, the group
mode and the PHC stand, the records are those of the event, and the envelope follows (R14, R72, R151). -/
structure Handed (r f : State) : Prop where
  only : OnlyDisagreement r f
  settings : (f.entry .depthDisagree).mode = (r.entry .depthDisagree).mode ∧
    (f.entry .depthDisagree).action = (r.entry .depthDisagree).action ∧
    (f.entry .depthDisagree).pendingMode = (r.entry .depthDisagree).pendingMode ∧
    (f.entry .depthDisagree).pendingAction = (r.entry .depthDisagree).pendingAction
  group : f.fsv.group = r.fsv.group
  phc : f.phc = r.phc
  brc : f.brc = (r.brc.eventsAsked r f (newlyPresent r f)).stepAsked r f
  current : Current r → Current f
  effect : Effect [.stk, .phc, .znt, .env, .grants, .faults, .brc, .pif] r f

/-- The modes and the actions, in force and pending, of every source stand (R141). -/
theorem Handed.settings_all {r f : State} (h : Handed r f) (src : Source) : (f.entry src).mode = (r.entry src).mode ∧
    (f.entry src).action = (r.entry src).action ∧ (f.entry src).pendingMode = (r.entry src).pendingMode ∧
    (f.entry src).pendingAction = (r.entry src).pendingAction := by
  by_cases hs : src = .depthDisagree
  · rw [hs]
    exact h.settings
  · rw [h.only src hs]
    exact ⟨rfl, rfl, rfl, rfl⟩

theorem Handed.refl (r : State) : Handed r r where
  only := fun _ _ => rfl
  settings := ⟨rfl, rfl, rfl, rfl⟩
  group := rfl
  phc := rfl
  brc := by
    rw [Brc.stepAsked_of_not_deeper _ le_rfl, Brc.eventsAsked_unzoned _ rfl rfl, newlyPresent_of_same fun _ => rfl,
      phaseRecord, if_pos rfl]
    rfl
  current := id
  effect := .refl r

theorem decideCondition_settings (src : Source) (b : Bool) (s : State) :
    let e := (decideCondition src b s).entry src
    e.mode = (s.entry src).mode ∧ e.action = (s.entry src).action ∧ e.pendingMode = (s.entry src).pendingMode ∧
      e.pendingAction = (s.entry src).pendingAction := by
  obtain ⟨o, entry, -⟩ := decideCondition_entry src b s
  intro e
  rw [show e = _ from entry]
  exact ⟨rfl, rfl, rfl, rfl⟩

theorem toleranceChanged_handed (r : State) : Handed r (toleranceChanged r) where
  only := toleranceChanged_only r
  settings := decideCondition_settings _ _ r
  group := decideCondition_group _ _
  phc := (decideCondition_effect _ _ r).phc_eq
  brc := by
    have e : Effect [.faults, .brc, .env, .grants, .pif] r (toleranceChanged r) := decideCondition_effect _ _ r
    rw [Brc.stepAsked_of_not_deeper _ (by rw [e.stk_eq]), Brc.eventsAsked_unzoned _ (by rw [e.znt_eq]) (by rw [e.stk_eq]),
      toleranceChanged_brc, phaseRecord, if_pos (by rw [e.phc_eq]), List.append_nil]
  current := fun h => decideCondition_current h _ _
  effect := (decideCondition_effect _ _ r).mono (by simp)

theorem slackChanged_settings (r : State) :
    let e := (slackChanged r).entry .depthDisagree
    e.mode = (r.entry .depthDisagree).mode ∧ e.action = (r.entry .depthDisagree).action ∧
      e.pendingMode = (r.entry .depthDisagree).pendingMode ∧ e.pendingAction = (r.entry .depthDisagree).pendingAction := by
  have same := raised_entry (raised := []) (by simp) (evaluateAnew r)
  have decided := decideCondition_settings .depthDisagree (evaluateAnew r).depthDisagrees
    (raiseAll [] (recompute (zntReevaluate (evaluateAnew r))))
  rw [same, (evaluateAnew_effect r).entry_eq] at decided
  intro e
  rw [show e = _ from afterEvaluation_entry r.stk [] (evaluateAnew r) .depthDisagree]
  exact decided

theorem slackChanged_handed {r : State} (parked : r.phc.phase = .parked) : Handed r (slackChanged r) where
  only := (slackChanged_from r).only
  settings := slackChanged_settings r
  group := slackChanged_group
  phc := by rw [slackChanged_phc, advancedPhc_of_not_hoist (by simp [parked])]
  brc := (slackChanged_from r).brc
  current := fun _ => afterEvaluation_current _ _ _
  effect := slackChanged_effect r

/-- After an evaluation the depth tolerance decides nothing anew (R14). -/
theorem toleranceChanged_slackChanged {r : State} (released : r.lines.xrst = false) :
    toleranceChanged (slackChanged r) = slackChanged r := by
  refine decideCondition_held ?_
  rw [(slackChanged_from r).decided.1, released]
  rfl

/-- The readers of the changed settings, behind the record step's (R167; entry 36): `slack` and `tolerance` say which of the
two settings changed. -/
theorem handedIf_handed {r : State} (parked : r.phc.phase = .parked) (released : r.lines.xrst = false)
    (slack tolerance : Bool) :
    let f := handedIf tolerance toleranceChanged (handedIf slack slackChanged r)
    Handed r f ∧
    (if slack then Evaluated { r.stk with taut := r.ropeTaut } r f else f.stk = r.stk ∧ f.znt = r.znt) ∧
    (if slack || tolerance then DisagreementDecided r f else f.entry .depthDisagree = r.entry .depthDisagree) := by
  cases slack
  · cases tolerance
    · exact ⟨.refl r, ⟨rfl, rfl⟩, rfl⟩
    · have e : Effect [.faults, .brc, .env, .grants, .pif] r (toleranceChanged r) := decideCondition_effect _ _ r
      exact ⟨toleranceChanged_handed r, ⟨e.stk_eq, e.znt_eq⟩, toleranceChanged_decided r⟩
  · have same : handedIf tolerance toleranceChanged (slackChanged r) = slackChanged r := by
      cases tolerance
      · rfl
      · exact toleranceChanged_slackChanged released
    intro f
    have whole : f = slackChanged r := same
    rw [whole]
    exact ⟨slackChanged_handed parked, (slackChanged_from r).evaluated, (slackChanged_from r).decided⟩

/-! The defaults written. -/

/-- Each entry with its defaults pending (R167). -/
theorem foldl_defaulted_entry (srcs : List Source) (nodup : srcs.Nodup) (f : Fsv) (x : Source) :
    (srcs.foldl (fun g src => g.withEntry src ((g.entry src).defaulted src)) f).entry x =
      if x ∈ srcs then (f.entry x).defaulted x else f.entry x := by
  induction srcs generalizing f with
  | nil => rfl
  | cons src srcs ih =>
    obtain ⟨fresh, nodup⟩ := List.nodup_cons.mp nodup
    rw [List.foldl_cons, ih nodup]
    by_cases h : x = src
    · subst h
      rw [if_neg fresh, if_pos (List.mem_cons_self ..), Fsv.entry_withEntry_self]
    · rw [Fsv.entry_withEntry_of_ne f _ h]
      simp [h]

theorem defaulted_table (f : Fsv) : f.defaulted.table =
    (Source.all.foldl (fun g src => g.withEntry src ((g.entry src).defaulted src)) f).table := by
  unfold Fsv.defaulted
  rfl

theorem defaulted_entry (f : Fsv) (x : Source) : f.defaulted.entry x = (f.entry x).defaulted x := by
  have folded := foldl_defaulted_entry Source.all (by decide) f x
  rw [if_pos (by cases x <;> decide)] at folded
  rw [← folded, Fsv.entry, defaulted_table, ← Fsv.entry]

theorem defaulted_group (f : Fsv) : f.defaulted.group = (f.groupMode, pendingDefault f.groupMode .isolate) := by
  rw [Fsv.group, Fsv.defaulted]

/-- The part with the defaults written, pending and in the envelope (R72, R167). -/
def State.withDefaults (s : State) : State := recompute ((s.withSettings .default).withFsv s.fsv.defaulted)

theorem withDefaults_effect (s : State) : Effect [.gst, .faults, .env, .grants, .pif] s s.withDefaults := by
  have pending : Effect [.faults] (s.withSettings .default) ((s.withSettings .default).withFsv s.fsv.defaulted) :=
    withFsvSameStall_effect _ _ (by unfold Fsv.defaulted; rfl) (by unfold Fsv.defaulted; rfl)
  exact ((withSettings_effect s .default).mono (by simp)).trans ((pending.mono (by simp)).trans
    ((recompute_effect _).mono (by simp)))

theorem withDefaults_gst (s : State) : s.withDefaults.gst = { s.gst with settings := .default } :=
  (recompute_effect _).gst_eq

theorem withDefaults_entry (s : State) (x : Source) : s.withDefaults.entry x = (s.entry x).defaulted x := by
  rw [State.withDefaults, recompute_entry, withFsv_entry, defaulted_entry]
  rfl

theorem withDefaults_group (s : State) : s.withDefaults.fsv.group = (s.fsv.groupMode, pendingDefault s.fsv.groupMode .isolate) := by
  rw [State.withDefaults, recompute_fsv, State.withFsv_fsv, defaulted_group]

theorem withDefaults_current (s : State) : Current s.withDefaults := recompute_current _

/-- The step boundary an OPEN session has once the record step is at its default (R153). -/
def State.defaultStep (s : State) : Brc :=
  if s.znt.sessionOpen ∧ s.gst.settings.recordStep ≠ Settings.default.recordStep then
    { s.brc with nextStep := Settings.default.recordStep * s.stk.bottomHole.fdiv Settings.default.recordStep +
        Settings.default.recordStep }
  else s.brc

/-- What a SETTINGS_DEFAULT has written, with the record step handed on, before the other readers take their changes (R153,
R167; entry 36). -/
structure DefaultsWritten (s r : State) : Prop where
  gst : r.gst = { s.gst with settings := .default }
  entry : ∀ x, r.entry x = (s.entry x).defaulted x
  group : r.fsv.group = (s.fsv.groupMode, pendingDefault s.fsv.groupMode .isolate)
  brc : r.brc = s.defaultStep
  current : Current r
  effect : Effect [.gst, .faults, .env, .grants, .pif, .brc] s r

theorem defaultsWritten (s : State) : DefaultsWritten s
    (handedIf (s.gst.settings.offDefault .recordStep) recordStepChanged s.withDefaults) := by
  have e := withDefaults_effect s
  have gst := withDefaults_gst s
  have entry := withDefaults_entry s
  have group := withDefaults_group s
  have current := withDefaults_current s
  generalize s.withDefaults = w at *
  have off : s.gst.settings.offDefault .recordStep = true ↔ s.gst.settings.recordStep ≠ Settings.default.recordStep :=
    decide_eq_true_iff
  by_cases changed : s.gst.settings.offDefault .recordStep = true
  · have k := recordStepChanged_effect w
    have brc := recordStepChanged_brc w
    have fsv : (recordStepChanged w).fsv = w.fsv := by
      unfold recordStepChanged
      split <;> rfl
    rw [handedIf, if_pos changed]
    generalize recordStepChanged w = r at *
    refine ⟨k.gst_eq.trans gst, fun x => (k.entry_eq x).trans (entry x), by rw [fsv, group], ?_, current.effect k,
      (e.mono (by simp)).trans (k.mono (by simp))⟩
    rw [brc, gst, e.znt_eq, e.stk_eq, e.brc_eq, State.defaultStep]
    simp only [off.mp changed, ne_eq, not_false_eq_true, and_true]
  · rw [handedIf, if_neg changed]
    refine ⟨gst, entry, group, ?_, current, e.mono (by simp)⟩
    rw [e.brc_eq, State.defaultStep, if_neg fun k => changed (off.mpr k.2)]

theorem cabEnded_current {f : State} (h : Current f) (a : Answer) : Current (cabEnded (f, a)) := h

/-- A SETTINGS_DEFAULT taken: the defaults written, then the readers of L_slack and of the depth tolerance, each where its
setting changed (R9, R11, R14, R167; entry 36). -/
theorem defaultsTaken_handed {s : State} (parked : s.phc.phase = .parked) (released : s.lines.xrst = false) :
    ∃ r, DefaultsWritten s r ∧ Handed r (defaultsTaken s) ∧
    (if s.gst.settings.lSlack = Settings.default.lSlack then
      (defaultsTaken s).stk = s.stk ∧ (defaultsTaken s).znt = s.znt
    else Evaluated { s.stk with
      taut := decide (Settings.default.lSlack ≤ s.msu.channels.rl.value) && !s.msu.channels.rl.holding } s (defaultsTaken s)) ∧
    (if s.gst.settings.lSlack ≠ Settings.default.lSlack ∨ s.gst.settings.depthTolerance ≠ Settings.default.depthTolerance
      then DisagreementDecided r (defaultsTaken s)
    else (defaultsTaken s).entry .depthDisagree = r.entry .depthDisagree) := by
  have written := defaultsWritten s
  have taken := defaultsTaken_eq s parked
  dsimp only at taken
  rw [← State.withDefaults] at taken
  rw [taken]
  generalize handedIf (s.gst.settings.offDefault .recordStep) recordStepChanged s.withDefaults = r at written ⊢
  have e := written.effect
  obtain ⟨handed, string, decided⟩ := handedIf_handed (r := r) (by rw [e.phc_eq]; exact parked)
    (by rw [e.lines_eq]; exact released) (s.gst.settings.offDefault .lSlack) (s.gst.settings.offDefault .depthTolerance)
  generalize handedIf (s.gst.settings.offDefault .depthTolerance) toleranceChanged
    (handedIf (s.gst.settings.offDefault .lSlack) slackChanged r) = f at handed string decided ⊢
  have slackened : s.gst.settings.offDefault .lSlack = true ↔ s.gst.settings.lSlack ≠ Settings.default.lSlack :=
    decide_eq_true_iff
  have tolerated : s.gst.settings.offDefault .depthTolerance = true ↔
    s.gst.settings.depthTolerance ≠ Settings.default.depthTolerance := decide_eq_true_iff
  have taut : r.ropeTaut = (decide (Settings.default.lSlack ≤ s.msu.channels.rl.value) && !s.msu.channels.rl.holding) := by
    rw [State.ropeTaut, written.gst, e.msu_eq]
  refine ⟨r, written, handed, ?_, ?_⟩
  · by_cases slack : s.gst.settings.lSlack = Settings.default.lSlack
    · rw [if_neg fun k => slackened.mp k slack, e.stk_eq, e.znt_eq] at string
      rwa [if_pos slack]
    · rw [if_pos (slackened.mpr slack), taut, e.stk_eq] at string
      rw [if_neg slack]
      exact string.congr e.sessionOpen_eq.symm rfl rfl rfl rfl
  · simpa only [Bool.or_eq_true, slackened, tolerated] using decided

/-- The records of a SETTINGS_DEFAULT, from the step boundary it leaves (R151, R153). -/
theorem DefaultsWritten.records {s r f : State} (written : DefaultsWritten s r) (handed : Handed r f) :
    f.brc = (s.defaultStep.eventsAsked s f (newlyPresent s f)).stepAsked s f := by
  have e := written.effect
  have new : newlyPresent s f = newlyPresent r f := by
    have conditions : ∀ src, (r.entry src).condition = (s.entry src).condition := fun src => by
      rw [written.entry]
      rfl
    simp only [newlyPresent, conditions]
  rw [new, handed.brc, written.brc, Brc.eventsAsked_congr (s := s) (s' := r) _ _ e.znt_eq (by rw [e.phc_eq]) rfl rfl rfl]
  exact Brc.stepAsked_congr _ e.sessionOpen_eq (by rw [e.stk_eq]) rfl rfl

/-- Settles O14: the refusals in order, then what the readers of the changed settings leave. -/
theorem settingsDefaultRestores : Obligations.SettingsDefaultRestores := by
  intro a b s ready
  refine ⟨_, exec_cabRequest (c := .settingsDefault) ready rfl rfl rfl a b, ?_⟩
  simp only [serve, serveSettingsDefault, frameEnded_phc, State.phaseCode]
  by_cases bad : a ≠ 0 ∨ b ≠ 0
  · simp only [eq_true bad, if_true]
    exact cabEnded_refused s _ _ _
  simp only [eq_false bad, if_false]
  by_cases phase : s.phc.phase ≠ .parked
  · simp only [eq_true phase, if_true]
    exact cabEnded_refused s _ _ _
  simp only [eq_false phase, if_false]
  obtain ⟨r, written, handed, string, decided⟩ :=
    defaultsTaken_handed (s := s.frameEnded .cab) (not_not.mp phase) ready.1.1
  have records := written.records handed
  have settings := handed.settings_all
  have e := written.effect
  have entry : ∀ src, r.entry src = (s.entry src).defaulted src := written.entry
  generalize defaultsTaken (s.frameEnded .cab) = f at handed string decided records settings ⊢
  have whole : Effect [.stk, .phc, .znt, .env, .grants, .faults, .brc, .gst, .pif] (s.frameEnded .cab) f :=
    (e.mono (by simp)).trans (handed.effect.mono (by simp))
  have group : f.fsv.group = _ := handed.group.trans written.group
  refine ⟨cabEnded_answered whole, ?_, ?_, ⟨?_, ?_, ?_, ?_, records, ?_⟩, cabEnded_keeps whole (by simp) (by simp),
    congrArg Prod.fst group, (congrArg Prod.snd group).trans (if_congr eq_comm rfl rfl), fun src => ?_⟩
  · rw [settle_gst, cabEnded_gst, handed.effect.gst_eq, written.gst]
    rfl
  · rw [settle_phc, cabEnded_phc, handed.phc, e.phc_eq, frameEnded_phc]
  · by_cases slack : s.gst.settings.lSlack = Settings.default.lSlack
    · exact (if_pos slack).mpr ((if_pos slack).mp string)
    · exact (if_neg slack).mpr (((if_neg slack).mp string).congr rfl rfl rfl rfl rfl)
  · rw [settle_entry, cabEnded_entry]
    by_cases changed : s.gst.settings.lSlack ≠ Settings.default.lSlack ∨
      s.gst.settings.depthTolerance ≠ Settings.default.depthTolerance
    · rw [((if_pos changed).mp decided).1, e.lines_eq, frameEnded_lines, ready.1.1, handed.effect.gst_eq, written.gst]
      exact (if_pos changed).symm
    · rw [(if_neg changed).mp decided, entry]
      exact (if_neg changed).symm
  · rw [settle_entry, cabEnded_entry]
    intro was now
    split at decided
    · exact decided.2 (by rw [entry]; exact was) now
    · rw [decided, entry] at now
      exact absurd (was.symm.trans now) Bool.false_ne_true
  · intro src hs
    rw [settle_entry, cabEnded_entry, handed.only src hs, entry]
    exact ⟨rfl, rfl, rfl⟩
  · exact settle_current (cabEnded_current (handed.current written.current) _)
  · obtain ⟨mode, action, pendingMode, pendingAction⟩ := settings src
    rw [settle_entry, cabEnded_entry, mode, action, pendingMode, pendingAction, entry]
    exact ⟨rfl, rfl, rfl, rfl⟩

end Sys2Proof.Machine
end

