-- ==== Sys2Proof/Proofs/Supervised.lean ====
section
/-! What every operation but a boundary and a reset leaves of the FSV: the modes, the actions, the group mode and the overrides
in force, and, but for SET and SETTINGS_DEFAULT, the pending values (R44, R141, R142). -/

namespace Sys2Proof.Machine

/-! What stands between boundaries. -/

/-- An entry whose mode and action are as they were and whose override, if it had one, goes on. -/
structure FaultEntry.GoesOn (e x : FaultEntry) : Prop where
  mode : x.mode = e.mode
  action : x.action = e.action
  override : ∀ o, e.override = some o → x.override = some o

/-- The group mode, the modes and the actions in force are as they were, and every override in force goes on. -/
structure InForceStands (s t : State) : Prop where
  groupMode : t.fsv.groupMode = s.fsv.groupMode
  entry : ∀ src, (s.entry src).GoesOn (t.entry src)

/-- With what is in force the pending values stand too: what every event leaves that sets none (R141, R142). -/
structure Supervised (s t : State) : Prop extends InForceStands s t where
  pendingGroupMode : t.fsv.pendingGroupMode = s.fsv.pendingGroupMode
  pending : ∀ src, (t.entry src).pendingMode = (s.entry src).pendingMode ∧
    (t.entry src).pendingAction = (s.entry src).pendingAction

theorem FaultEntry.GoesOn.refl (e : FaultEntry) : e.GoesOn e := ⟨rfl, rfl, fun _ h => h⟩

theorem FaultEntry.GoesOn.trans {e x y : FaultEntry} (h : e.GoesOn x) (k : x.GoesOn y) : e.GoesOn y :=
  ⟨k.mode.trans h.mode, k.action.trans h.action, fun o ho => k.override o (h.override o ho)⟩

theorem InForceStands.trans {s t u : State} (h : InForceStands s t) (k : InForceStands t u) : InForceStands s u :=
  ⟨k.groupMode.trans h.groupMode, fun src => (h.entry src).trans (k.entry src)⟩

theorem Supervised.trans {s t u : State} (h : Supervised s t) (k : Supervised t u) : Supervised s u :=
  ⟨h.toInForceStands.trans k.toInForceStands, k.pendingGroupMode.trans h.pendingGroupMode, fun src =>
    ⟨(k.pending src).1.trans (h.pending src).1, (k.pending src).2.trans (h.pending src).2⟩⟩

/-- Where the group modes and every entry but one are as they were, that entry decides. -/
theorem Supervised.of_entry {s t : State} (src : Source) (group : t.fsv.group = s.fsv.group)
    (others : ∀ x, x ≠ src → t.entry x = s.entry x) (entry : (s.entry src).GoesOn (t.entry src))
    (pending : (t.entry src).pendingMode = (s.entry src).pendingMode ∧
      (t.entry src).pendingAction = (s.entry src).pendingAction) : Supervised s t := by
  refine ⟨⟨congrArg Prod.fst group, fun x => ?_⟩, congrArg Prod.snd group, fun x => ?_⟩
  all_goals by_cases h : x = src
  · rwa [h]
  · rw [others x h]; exact .refl _
  · rwa [h]
  · rw [others x h]; exact ⟨rfl, rfl⟩

theorem Supervised.of_entries {s t : State} (group : t.fsv.group = s.fsv.group)
    (entry : ∀ src, t.entry src = s.entry src) : Supervised s t :=
  .of_entry .estop group (fun x _ => entry x) (entry .estop ▸ .refl _) (by rw [entry]; exact ⟨rfl, rfl⟩)

theorem Supervised.of_fsv {s t : State} (h : t.fsv = s.fsv) : Supervised s t :=
  .of_entries (by rw [h]) fun src => by rw [State.entry, h, State.entry]

theorem Supervised.refl (s : State) : Supervised s s := .of_fsv rfl

/-- An operation that does not write the fault table. -/
theorem Effect.supervised {c : List Part} {s t : State} (e : Effect c s t) (hc : Part.faults ∉ c := by simp) :
    Supervised s t :=
  .of_entries (by rw [e.fsv_eq hc]; rfl) fun src => e.entry_eq src hc

theorem Supervised.foldl {α : Type} {f : State → α → State} (h : ∀ s a, Supervised s (f s a)) (xs : List α)
    (s : State) : Supervised s (xs.foldl f s) := by
  induction xs generalizing s with
  | nil => exact .refl s
  | cons x xs ih => exact (h s x).trans (ih _)

/-- One entry written with its settings as they were and its override, if any, going on. -/
theorem withEntry_supervised {s : State} {src : Source} {x : FaultEntry} (entry : (s.entry src).GoesOn x)
    (pending : x.pendingMode = (s.entry src).pendingMode ∧ x.pendingAction = (s.entry src).pendingAction) :
    Supervised s (s.withEntry src x) :=
  have written : (s.withEntry src x).entry src = x := State.entry_withEntry_self s src x
  .of_entry src rfl (fun _ h => State.entry_withEntry_of_ne s x h) (by rwa [written]) (by rwa [written])

/-! The operations of the Fault Supervisor, the boundary apart. -/

section
variable (s : State)

/-- An override that begins where none is in force (R134). -/
theorem beginOverride_supervised {s : State} {src : Source} (idle : (s.entry src).override = none) (a : OverrideAction) :
    Supervised s (beginOverride src a s) := by
  have entry := beginOverride_entry src a s
  refine .of_entry src (beginOverride_group src a) (fun x h => by rw [entry, if_neg h]) ?_ ?_
  all_goals rw [entry, if_pos rfl]
  · exact ⟨rfl, rfl, fun o ho => nomatch idle.symm.trans ho⟩
  · exact ⟨rfl, rfl⟩

theorem raise_supervised (src : Source) : Supervised s (raise src s) := by
  have written : Supervised s (s.withEntry src { s.entry src with latched := true }) :=
    withEntry_supervised ⟨rfl, rfl, fun _ h => h⟩ ⟨rfl, rfl⟩
  have asked := written.trans (askEvent_effect (.faultRaised src) _).supervised
  unfold raise
  split
  · exact .refl s
  · dsimp only
    split
    · next idle _ => exact asked.trans (beginOverride_supervised idle _)
    all_goals exact asked

theorem raiseAll_supervised (srcs : List Source) : Supervised s (raiseAll srcs s) :=
  .foldl (f := fun s src => raise src s) (fun s src => raise_supervised s src) srcs s

theorem decideCondition_supervised (src : Source) (b : Bool) : Supervised s (decideCondition src b s) := by
  have written : Supervised s (s.withEntry src { s.entry src with condition := b }) :=
    withEntry_supervised ⟨rfl, rfl, fun _ h => h⟩ ⟨rfl, rfl⟩
  unfold decideCondition
  split
  · exact .refl s
  · dsimp only
    split
    · exact written.trans (raise_supervised _ src)
    · exact written

theorem decideConditions_supervised (cs : List (Source × Bool)) : Supervised s (decideConditions cs s) :=
  .foldl (f := fun s (c : Source × Bool) => decideCondition c.1 c.2 s)
    (fun s c => decideCondition_supervised s c.1 c.2) cs s

theorem withPort_supervised (p : Port) (x : PortState) : Supervised s (s.withPort p x) := .of_fsv rfl

theorem startStallWindow_supervised : Supervised s (startStallWindow s) := .of_entries rfl fun _ => rfl

theorem estopRaised_supervised : Supervised s (estopRaised s) := by
  have decided := decideCondition_supervised s .estop true
  unfold estopRaised
  dsimp only
  split
  · exact decided
  · exact decided.trans (changePhase_effect _ _).supervised

theorem handOn_supervised (raised : List Source) : Supervised s (handOn raised s) :=
  (zntReevaluate_effect s).supervised.trans ((recompute_effect _).supervised.trans
    ((raiseAll_supervised _ raised).trans (decideCondition_supervised _ _ _)))

theorem handCount_supervised (evaluated : Option (List Source)) : Supervised s (handCount evaluated s) := by
  cases evaluated with
  | none => exact (recompute_effect s).supervised
  | some raised => exact handOn_supervised s raised

theorem afterEvaluation_supervised (old : Stk) (raised : List Source) : Supervised s (afterEvaluation old raised s) :=
  (handOn_supervised s raised).trans ((phcAfterEvaluation_effect old _).supervised.trans
    (brcDepth_effect _ _).supervised)

theorem positionCounted_supervised (e : PositionEncoder) (up : Bool) : Supervised s (positionCounted e up s) :=
  (withMsu_effect s _).supervised.trans ((evaluate_effect _).supervised.trans (afterEvaluation_supervised _ s.stk []))

theorem commitCompleted_supervised : Supervised s (commitCompleted s) := by
  have begun : Supervised s (rebuilt s) := .of_fsv rfl
  exact begun.trans ((evaluate_effect _).supervised.trans (afterEvaluation_supervised _ s.stk []))

theorem xrstEnded_supervised : Supervised s (xrstEnded s) := by
  have released : Supervised s (xrstReleased s) := .of_entries rfl fun _ => rfl
  have refreshed := released.trans (xrstRefreshed_effect s).supervised
  rw [xrstEnded_eq, decideEstop]
  split
  · exact refreshed.trans (estopRaised_supervised _)
  · exact refreshed

/-! The requests. -/

theorem refuse_supervised (code : Code) (x y : Int) : Supervised s (refuse code x y s).1 := .refl s

theorem refuseOpen_supervised (code : Code) : Supervised s (refuseOpen code s).1 := .of_fsv rfl

theorem serveAckReset_supervised (p : Port) (a b : Word) : Supervised s (serveAckReset p a b s).1 := by
  unfold serveAckReset
  split
  · split
    · unfold ackCab
      split <;> exact .of_fsv rfl
    · unfold ackDrive
      split <;> exact .of_fsv rfl
  · exact refuseOpen_supervised s _

theorem serveDemand_supervised (p : Port) (a b : Word) : Supervised s (serveDemand p a b s).1 := by
  unfold serveDemand
  split
  · unfold demandOn
    split
    · exact refuse_supervised s _ _ _
    · exact refuse_supervised s _ _ _
    · exact refuse_supervised s _ _ _
    · unfold demandNeutral
      dsimp only
      split_ifs <;> exact .of_fsv rfl
    · exact .of_fsv rfl
  · exact refuse_supervised s _ _ _

theorem servePhase_supervised (a b : Word) : Supervised s (servePhase a b s).1 := by
  unfold servePhase
  split
  · exact refuse_supervised s _ _ _
  split
  · exact refuse_supervised s _ _ _
  next to_ _ =>
  unfold phaseRequested phaseTaken
  split_ifs
  case neg => exact (changePhase_effect to_ s).supervised
  all_goals exact .refl s

/-- An operation started (R53, R57). -/
theorem startOperation_supervised (p : Phase) (angle timer : Nat) (target : Option ReleaseTarget) :
    Supervised s (startOperation angle timer target (changePhase p s)) :=
  (changePhase_effect p s).supervised.trans (startOperation_effect angle timer target _).supervised

theorem serveEngage_supervised (a b : Word) : Supervised s (serveEngage a b s).1 := by
  unfold serveEngage
  dsimp only
  split_ifs
  case neg => exact startOperation_supervised s _ _ _ _
  all_goals exact .refl s

theorem serveReleaseEnable_supervised (a b : Word) : Supervised s (serveReleaseEnable a b s).1 := by
  unfold serveReleaseEnable
  split <;> exact .of_fsv rfl

theorem serveRelease_supervised (a b : Word) : Supervised s (serveRelease a b s).1 := by
  unfold serveRelease
  split
  · exact refuse_supervised s _ _ _
  split
  · exact refuse_supervised s _ _ _
  split
  · exact refuse_supervised s _ _ _
  unfold releaseRequested
  dsimp only
  split_ifs
  case neg => exact startOperation_supervised s _ _ _ _
  all_goals exact .refl s

theorem serveAbortOp_supervised (a b : Word) : Supervised s (serveAbortOp a b s).1 := by
  unfold serveAbortOp
  dsimp only
  split_ifs
  · exact .refl s
  · exact .refl s
  all_goals exact (changePhase_effect _ s).supervised

theorem jointsConfirmed_supervised (a : Word) : Supervised s (jointsConfirmed a s) := by
  unfold jointsConfirmed
  dsimp only
  split
  · exact .refl s
  · exact (withStk_effect s _).supervised.trans ((askEvent_effect _ _).supervised.trans
      ((evaluate_effect _).supervised.trans (afterEvaluation_supervised _ s.stk [])))

theorem serveConfirmFree_supervised (a b : Word) : Supervised s (serveConfirmFree a b s).1 := by
  unfold serveConfirmFree
  split
  · exact refuseOpen_supervised s _
  split_ifs
  case neg => exact jointsConfirmed_supervised s a
  all_goals exact refuseOpen_supervised s _

theorem datumTaken_supervised (d : Int) (g : Geometry) : Supervised s (datumTaken d g s) :=
  (withStk_effect s _).supervised.trans ((evaluate_effect _).supervised.trans (afterEvaluation_supervised _ s.stk []))

theorem serveDatum_supervised (a b : Word) : Supervised s (serveDatum a b s).1 := by
  unfold serveDatum
  dsimp only
  split
  · exact refuse_supervised s _ _ _
  split
  · exact refuse_supervised s _ _ _
  split_ifs
  case neg => exact datumTaken_supervised s _ _
  all_goals exact refuse_supervised s _ _ _

theorem serveOpenPile_supervised (a b : Word) : Supervised s (serveOpenPile a b s).1 := by
  unfold serveOpenPile
  split_ifs <;> exact .of_fsv rfl

theorem serveClosePile_supervised (a b : Word) : Supervised s (serveClosePile a b s).1 := by
  unfold serveClosePile
  dsimp only
  split_ifs <;> exact .of_fsv rfl

theorem serveZoneWrite_supervised (a b : Word) : Supervised s (serveZoneWrite a b s).1 := by
  unfold serveZoneWrite
  split
  swap
  · exact refuse_supervised s _ _ _
  split
  swap
  · exact refuse_supervised s _ _ _
  unfold zoneRequested
  dsimp only
  split
  · exact refuse_supervised s _ _ _
  split
  · exact refuse_supervised s _ _ _
  split
  · exact refuse_supervised s _ _ _
  · exact .of_fsv ((recompute_fsv _).trans (zntReevaluate_fsv _))

theorem serveGeomWrite_supervised (a b : Word) : Supervised s (serveGeomWrite a b s).1 := by
  unfold serveGeomWrite
  split
  · exact refuse_supervised s _ _ _
  split
  · exact refuse_supervised s _ _ _
  · split <;> exact .of_fsv rfl

theorem serveStoreEnable_supervised (a b : Word) : Supervised s (serveStoreEnable a b s).1 := by
  unfold serveStoreEnable
  split <;> exact .of_fsv rfl

theorem serveStoreCommit_supervised (a b : Word) : Supervised s (serveStoreCommit a b s).1 := by
  unfold serveStoreCommit commitRequested
  split_ifs
  case neg => split <;> exact .of_fsv rfl
  all_goals exact .of_fsv rfl

/-- CLEAR_FAULTS clears no override and no setting (R140). -/
theorem serveClearFaults_supervised (a b : Word) : Supervised s (serveClearFaults a b s).1 := by
  unfold serveClearFaults
  split
  · exact refuseOpen_supervised s _
  have cleared : ∀ src, (s.withFsv (s.fsv.clearNamed a)).entry src =
      if a.getLsbD src.idx then { s.entry src with latched := false } else s.entry src := fun src => by
    simp [State.entry, Fsv.entry, Fsv.clearNamed]
  have kept : ∀ src, (s.entry src).GoesOn ((s.withFsv (s.fsv.clearNamed a)).entry src) ∧
      ((s.withFsv (s.fsv.clearNamed a)).entry src).pendingMode = (s.entry src).pendingMode ∧
      ((s.withFsv (s.fsv.clearNamed a)).entry src).pendingAction = (s.entry src).pendingAction := fun src => by
    rw [cleared]
    split
    · exact ⟨⟨rfl, rfl, fun _ h => h⟩, rfl, rfl⟩
    · exact ⟨.refl _, rfl, rfl⟩
  exact ⟨⟨rfl, fun src => (kept src).1⟩, rfl, fun src => (kept src).2⟩

theorem serveRecordRead_supervised (a b : Word) (o : Bool) (l : Record) :
    Supervised s (serveRecordRead a b o l s).1 := by
  unfold serveRecordRead
  dsimp only
  split_ifs <;> exact .of_fsv rfl

/-! SET and SETTINGS_DEFAULT, which leave what is in force and write what is pending (R141, R142, R167). -/

theorem settingChanged_supervised (v : Setting) : Supervised s (settingChanged v s) := by
  have advanced := (advanceEvaluate_effect s).supervised
  cases v
  case lSlack => exact (evaluateAnew_effect s).supervised.trans (afterEvaluation_supervised _ s.stk [])
  case depthTolerance => exact decideCondition_supervised s _ _
  case recordStep => exact (recordStepChanged_effect s).supervised
  case spinOffLevel => exact advanced
  case autoAdvance =>
    simp only [settingChanged]
    split
    · exact advanced
    · exact .refl s
  all_goals exact .refl s

theorem settingWritten_supervised (v : Setting) (x : Int) : Supervised s (settingWritten v x s) := by
  have written := (resettled_effect s (s.gst.settings.write v x)).supervised
  rw [settingWritten_eq]
  split
  · exact written
  · exact written.trans (settingChanged_supervised _ v)

/-- One entry with another pending value. -/
theorem withPendingEntry_inForce {s : State} {src : Source} {x : FaultEntry} (entry : (s.entry src).GoesOn x) :
    InForceStands s (s.withEntry src x) := by
  refine ⟨rfl, fun y => ?_⟩
  by_cases h : y = src
  · rwa [h, State.entry_withEntry_self]
  · rw [State.entry_withEntry_of_ne (h := h)]
    exact .refl _

theorem serveSet_inForce (a b : Word) : InForceStands s (serveSet a b s).1 := by
  have refused : ∀ code, InForceStands s (refuseOpen code s).1 := fun code =>
    (refuseOpen_supervised s code).toInForceStands
  unfold serveSet
  split
  · exact refused _
  · unfold setValue
    dsimp only
    split
    · exact refused _
    · exact (settingWritten_supervised s _ _).toInForceStands
  · unfold setGroupMode
    split
    · exact refused _
    · exact ⟨rfl, fun _ => .refl _⟩
  · unfold setMode
    split
    · exact refused _
    · exact withPendingEntry_inForce ⟨rfl, rfl, fun _ h => h⟩
  · unfold setAction
    split
    · exact refused _
    · exact withPendingEntry_inForce ⟨rfl, rfl, fun _ h => h⟩

theorem defaultHanded_supervised (old : Settings) (v : Setting) : Supervised s (defaultHanded old s v) := by
  unfold defaultHanded
  split
  · exact settingChanged_supervised s v
  · exact .refl s

theorem withDefaults_inForce : InForceStands s s.withDefaults := by
  refine ⟨congrArg Prod.fst (withDefaults_group s), fun src => ?_⟩
  rw [withDefaults_entry]
  exact ⟨rfl, rfl, fun _ h => h⟩

theorem serveSettingsDefault_inForce (a b : Word) : InForceStands s (serveSettingsDefault a b s).1 := by
  unfold serveSettingsDefault
  split_ifs
  · exact (refuse_supervised s _ _ _).toInForceStands
  · exact (refuse_supervised s _ _ _).toInForceStands
  · exact (withDefaults_inForce s).trans
      (Supervised.foldl (fun s v => defaultHanded_supervised s _ v) handingOrder _).toInForceStands

/-! All requests. -/

theorem serve_inForce (p : Port) (c : Cmd) (q : Request) : InForceStands s (serve p c q s).1 := by
  cases c
  case set => exact serveSet_inForce s q.a q.b
  case settingsDefault => exact serveSettingsDefault_inForce s q.a q.b
  all_goals refine Supervised.toInForceStands ?_
  case nop => exact .refl s
  case read => exact .of_fsv rfl
  case ackReset => exact serveAckReset_supervised s p q.a q.b
  case demand => exact serveDemand_supervised s p q.a q.b
  case phase => exact servePhase_supervised s q.a q.b
  case engage => exact serveEngage_supervised s q.a q.b
  case releaseEnable => exact serveReleaseEnable_supervised s q.a q.b
  case release => exact serveRelease_supervised s q.a q.b
  case abortOp => exact serveAbortOp_supervised s q.a q.b
  case confirmFree => exact serveConfirmFree_supervised s q.a q.b
  case datum => exact serveDatum_supervised s q.a q.b
  case openPile => exact serveOpenPile_supervised s q.a q.b
  case closePile => exact serveClosePile_supervised s q.a q.b
  case zoneWrite => exact serveZoneWrite_supervised s q.a q.b
  case geomWrite => exact serveGeomWrite_supervised s q.a q.b
  case storeEnable => exact serveStoreEnable_supervised s q.a q.b
  case storeCommit => exact serveStoreCommit_supervised s q.a q.b
  case clearFaults => exact serveClearFaults_supervised s q.a q.b
  case recordRead => exact serveRecordRead_supervised s q.a q.b q.ones q.latched

theorem takeRequest_inForce (p : Port) (q : Request) : InForceStands s (takeRequest p q s) := by
  have begun := withPort_supervised s p { (s.port p).released with link := false }
  have decided : ∀ u, InForceStands u (decideRequest p q u).1 := fun u => by
    unfold decideRequest
    split
    · exact (Supervised.refl u).toInForceStands
    · exact serve_inForce u p _ q
    · exact (Supervised.refl u).toInForceStands
  exact (begun.toInForceStands.trans (decided _)).trans
    ((withPort_supervised _ p _).trans (clearLatches_effect p q _).supervised).toInForceStands

end

end Sys2Proof.Machine
end

