-- ==== Sys2Proof/Proofs/Boundaries.lean ====
section
/-! The boundary: what it makes of an entry and of the group mode (R136, R142), the turn marks and scans that take one, and
that no other command does (R44). -/

namespace Sys2Proof.Machine

/-! What a boundary makes of an entry and of the group mode. -/

/-- The test by which an override ends at a boundary (R137, R138, R141). -/
theorem FaultEntry.ends_iff (e : FaultEntry) :
    e.ends = true ↔ e.condition = false ∧ (e.mode = .cyclic ∨ e.latched = false ∨ e.action = .none) := by
  simp [FaultEntry.ends, or_assoc]

/-- An override begun leaves the rest of the entry (R136). -/
theorem FaultEntry.beginStep_eq (e : FaultEntry) : e.beginStep = { e with
    override := if e.override.isSome then e.override
      else if e.condition then e.action.override.map fun a => ⟨a, e.mode⟩ else none } := by
  obtain ⟨condition, latched, mode, action, pendingMode, pendingAction, override⟩ := e
  cases override with
  | some o => rfl
  | none => cases condition <;> cases action <;> rfl

/-- The three steps of a boundary in one: the settings installed, the override kept, begun or absent (R136). -/
theorem FaultEntry.boundary_eq (e : FaultEntry) : e.boundary = { e.install with
    override := if e.override.isSome = true ∧ e.install.ends = false then e.override
      else if e.condition then e.install.action.override.map fun a => ⟨a, e.install.mode⟩ else none } := by
  have kept : e.install.override = e.override := rfl
  have condition : e.install.condition = e.condition := rfl
  rw [FaultEntry.boundary, FaultEntry.beginStep_eq, FaultEntry.endStep]
  generalize e.install = x at *
  cases ends : x.ends with
  | false => simp [kept, condition]
  | true => simp [condition]

section
variable (e : FaultEntry)

theorem FaultEntry.boundary_settings : e.boundary.mode = e.pendingMode.getD e.mode ∧
    e.boundary.action = e.pendingAction.getD e.action ∧ e.boundary.pendingMode = none ∧
    e.boundary.pendingAction = none := by
  rw [FaultEntry.boundary_eq]
  exact ⟨rfl, rfl, rfl, rfl⟩

/-- The test of the entry after a boundary is the one the boundary made. -/
theorem FaultEntry.boundary_ends_iff : (e.boundary.condition = false ∧
    (e.boundary.mode = .cyclic ∨ e.boundary.latched = false ∨ e.boundary.action = .none)) ↔ e.install.ends = true := by
  rw [FaultEntry.ends_iff, FaultEntry.boundary_eq]

variable {e}

theorem FaultEntry.boundary_ended (h : e.install.ends = true) : e.boundary.override = none := by
  have absent : e.condition = false := (e.install.ends_iff.mp h).1
  simp [FaultEntry.boundary_eq, h, absent]

theorem FaultEntry.boundary_goesOn {o : Override} (inForce : e.override = some o) (h : ¬e.install.ends = true) :
    e.boundary.override = some o := by
  simp [FaultEntry.boundary_eq, inForce, h]

theorem Action.override_isSome {a : Action} (h : a ≠ .none) : a.override.isSome = true := by
  cases a
  · exact absurd rfl h
  all_goals rfl

/-- A condition present has an override after a boundary if its action asks for one (R136). -/
theorem FaultEntry.boundary_present (present : e.condition = true) (acts : e.install.action ≠ .none) :
    e.boundary.override.isSome = true := by
  have going : e.install.ends = false := by simp [FaultEntry.ends, FaultEntry.install, present]
  cases inForce : e.override with
  | some o => rw [FaultEntry.boundary_goesOn inForce (by simp [going])]; rfl
  | none => simpa [FaultEntry.boundary_eq, inForce, present] using Action.override_isSome acts
end

/-- A boundary installs the pending group mode (R142). -/
theorem takeBoundary_group (s : State) :
    (takeBoundary s).fsv.group = (s.fsv.pendingGroupMode.getD s.fsv.groupMode, none) := by
  simp only [takeBoundary, drivesInOrder, List.foldl_cons, List.foldl_nil, handHolds_fsv]
  rw [handDropReach, State.withFsv_fsv]
  exact handLimitReach_group.trans rfl

/-- An event that ends with a boundary: up to it, at `u`, the settings stood, in force and pending, and after it the fault
table is the one it left. -/
structure EndsInBoundary (s u t : State) : Prop where
  before : Supervised s u
  group : t.fsv.group = (takeBoundary u).fsv.group
  entry : ∀ src, t.entry src = (takeBoundary u).entry src

/-- A later operation that does not write the fault table. -/
theorem EndsInBoundary.effect {c : List Part} {s u t v : State} (h : EndsInBoundary s u t) (e : Effect c t v)
    (hc : Part.faults ∉ c := by simp) : EndsInBoundary s u v :=
  ⟨h.before, Eq.trans (by rw [e.fsv_eq hc]; rfl) h.group, fun src => (e.entry_eq src hc).trans (h.entry src)⟩

section
variable {s u t : State} (h : EndsInBoundary s u t)
include h

theorem EndsInBoundary.groupModes :
    t.fsv.groupMode = s.fsv.pendingGroupMode.getD s.fsv.groupMode ∧ t.fsv.pendingGroupMode = none := by
  have group := h.group
  rw [takeBoundary_group, h.before.pendingGroupMode, h.before.groupMode] at group
  exact ⟨congrArg Prod.fst group, congrArg Prod.snd group⟩

/-- The entry that the boundary met has the settings the event found, in force and pending, and its overrides. -/
theorem EndsInBoundary.entry_eq (src : Source) : ∃ e : FaultEntry, (s.entry src).GoesOn e ∧
    e.pendingMode = (s.entry src).pendingMode ∧ e.pendingAction = (s.entry src).pendingAction ∧
    t.entry src = e.boundary := by
  obtain ⟨pendingMode, pendingAction⟩ := h.before.pending src
  exact ⟨u.entry src, h.before.entry src, pendingMode, pendingAction, by rw [h.entry, takeBoundary_entry]⟩
end

/-! The events that are boundaries, and those events where they are none. -/

/-- A scan up to its boundary: the conditions decided and the warnings taken (R36, R130). -/
def scanDecided (r : Readings) (s : State) : State :=
  takeScanWarnings (decideConditions (scanMeasured r s).scanConditions (scanMeasured r s))

theorem scanDecided_supervised (r : Readings) (s : State) : Supervised s (scanDecided r s) :=
  (scanned_effect r s).supervised.trans ((evaluate_effect _).supervised.trans
    ((scanMeasured_effect r s).supervised.trans ((decideConditions_supervised _ _).trans
      (takeScanWarnings_effect _).supervised)))

/-- A scan takes its boundary by the rest state it finds (R44). -/
theorem scanSupervised_eq (r : Readings) (s : State) : scanSupervised (scanMeasured r s) =
    if s.msu.rest then takeBoundary (scanDecided r s) else scanDecided r s := by
  have msu : (scanDecided r s).msu = (evaluate (scanned r s)).msu := by
    rw [scanDecided, (takeScanWarnings_effect _).msu_eq, (decideConditions_effect _ _).msu_eq,
      (scanMeasured_effect r s).msu_eq]
  have rest : (scanDecided r s).msu.rest = s.msu.rest := by rw [msu]; rfl
  rw [← rest]
  rfl

/-- What the blocks in front of the MSU make of an angle count moves no setting and takes no mark (R40). -/
theorem angleCounted_eq (pair : Pair) (forward : Bool) (s : State) : ∃ d,
    angleCounted forward (s.withMsu { s.msu with angleRef := pair }) = angleUsed d ∧ Supervised s d ∧
      (d.marks ↔ (s.angleMoved pair forward).marks) := by
  have moved := angleMoved_effect s pair forward
  have counted := stkCount_effect forward (s.angleMoved pair forward)
  have handed := handCount_supervised (stkCount forward (s.angleMoved pair forward)).1
    (stkCount forward (s.angleMoved pair forward)).2
  have behind := countHanded_effect forward s.stk (stkCount forward (s.angleMoved pair forward)).2
    (stkCount forward (s.angleMoved pair forward)).1
  refine ⟨_, rfl, moved.supervised.trans (counted.supervised.trans (handed.trans
    ((phcAfterEvaluation_effect s.stk _).supervised.trans ((phcCount_effect forward _).supervised.trans
      (brcDepth_effect s.stk.bottomHole _).supervised)))), ?_⟩
  rw [State.marks, State.marks, ← counted.msu_eq, ← counted.lines_eq, ← behind.msu_eq, ← behind.lines_eq]
  rfl

theorem takesBoundary_scan {r : Readings} {s : State} :
    TakesBoundary (.scanCompletion r) s ↔ s.lines.xrst = false ∧ s.msu.rest = true := by
  simp [TakesBoundary]

theorem takesBoundary_angle {pair : Pair} {forward : Bool} {s : State}
    (count : decodeCount s.msu.angleRef pair = some forward) :
    TakesBoundary (.angleCountChange pair) s ↔ (s.angleMoved pair forward).marks := by
  constructor
  · rintro ⟨released, ⟨r, row, -⟩ | ⟨_, way, row, decoded, turned⟩⟩
    · exact nomatch row
    · obtain rfl : pair = _ := by injection row
      obtain rfl : forward = way := Option.some.inj (count.symm.trans decoded)
      exact ⟨released, turned⟩
  · rintro ⟨released, turned⟩
    exact ⟨released, .inr ⟨pair, forward, rfl, count, turned⟩⟩

theorem scanTaken_endsInBoundary (r : Readings) {s : State} (rest : s.msu.rest = true) :
    EndsInBoundary s (scanDecided r s) (scanTaken r s) := by
  have taken : scanSupervised (scanMeasured r s) = takeBoundary (scanDecided r s) := by
    rw [scanSupervised_eq, if_pos rest]
  have start : EndsInBoundary s (scanDecided r s) (scanSupervised (scanMeasured r s)) :=
    ⟨scanDecided_supervised r s, by rw [taken], fun _ => by rw [taken]⟩
  exact start.effect (scanTaken_behind r s)

theorem scanTaken_supervised (r : Readings) {s : State} (rest : s.msu.rest = false) : Supervised s (scanTaken r s) := by
  have decided := scanDecided_supervised r s
  have taken : scanSupervised (scanMeasured r s) = scanDecided r s := by
    rw [scanSupervised_eq, if_neg (by simp [rest])]
  rw [← taken] at decided
  exact decided.trans (scanTaken_behind r s).supervised

theorem angleUsed_endsInBoundary {s d : State} (before : Supervised s d) (marks : d.marks) :
    ∃ u, EndsInBoundary s u (angleUsed d) := by
  have rested := (withMsu_effect d d.msu.endRest).trans
    (withMsu_effect (d.withMsu d.msu.endRest) { d.msu.endRest with markRef := d.msu.endRest.angle })
  rw [angleUsed_marked marks]
  exact ⟨_, EndsInBoundary.effect ⟨before.trans rested.supervised, rfl, fun _ => rfl⟩ (brcTurnMark_effect _)⟩

theorem angleUsed_supervised {d : State} (unmarked : ¬d.marks) : Supervised d (angleUsed d) := by
  rw [angleUsed_unmarked unmarked]
  split
  · exact .refl d
  · exact (withMsu_effect d _).supervised

theorem scanCompletion_supervised {r : Readings} {s t : State} (h : exec (.scanCompletion r) s = .next t)
    (noBoundary : ¬TakesBoundary (.scanCompletion r) s) : Supervised s t := by
  rw [takesBoundary_scan] at noBoundary
  simp only [exec, execScanCompletion] at h
  split at h <;> obtain rfl : settle _ = t := by injection h
  · exact (settle_effect s).supervised
  · next released =>
    have rest : s.msu.rest = false := by
      by_contra k
      exact noBoundary ⟨by simpa using released, by simpa using k⟩
    exact (scanTaken_supervised r rest).trans (settle_effect _).supervised

theorem angleCountChange_supervised {pair : Pair} {s t : State} (h : exec (.angleCountChange pair) s = .next t)
    (noBoundary : ¬TakesBoundary (.angleCountChange pair) s) : Supervised s t := by
  cases count : decodeCount s.msu.angleRef pair with
  | none =>
    simp only [exec, execAngleCountChange, count] at h
    obtain rfl : settle _ = t := by injection h
    exact (withMsu_effect s _).supervised.trans (settle_effect _).supervised
  | some forward =>
    rw [exec_angleCountChange count] at h
    obtain rfl : settle _ = t := by injection h
    obtain ⟨d, counted, before, marks⟩ := angleCounted_eq pair forward s
    rw [takesBoundary_angle count, ← marks] at noBoundary
    rw [counted]
    exact before.trans ((angleUsed_supervised noBoundary).trans (settle_effect _).supervised)

/-- A turn mark and a scan at rest end with a boundary (R44). -/
theorem exec_endsInBoundary {i : Instr} {s : State} (h : TakesBoundary i s) :
    ∃ u t, exec i s = .next t ∧ EndsInBoundary s u t := by
  obtain ⟨released, ⟨r, rfl, rest⟩ | ⟨pair, forward, rfl, count, turned⟩⟩ := h
  · exact ⟨_, settle (scanTaken r s), by simp [exec, execScanCompletion, released, done],
      (scanTaken_endsInBoundary r rest).effect (settle_effect _)⟩
  · obtain ⟨d, counted, before, marks⟩ := angleCounted_eq pair forward s
    obtain ⟨u, ends⟩ := angleUsed_endsInBoundary before (marks.mpr ⟨released, turned⟩)
    refine ⟨u, _, exec_angleCountChange count, ?_⟩
    rw [counted]
    exact ends.effect (settle_effect _)

/-- No other command but a reset touches what is in force (R44). -/
theorem exec_inForce {i : Instr} {s t : State} (h : exec i s = .next t) (noBoundary : ¬TakesBoundary i s)
    (notPor : ∀ l, i ≠ .por l) (notXrst : i ≠ .xrstAssert) : InForceStands s t := by
  obtain ⟨u, rfl, acted⟩ := exec_acted h
  have settled := (settle_effect u).supervised
  cases acted with
  | nothing => exact settled.toInForceStands
  | started l => exact absurd rfl (notPor l)
  | xrstAsserted => exact absurd rfl notXrst
  | requestTaken _ p q => exact (takeRequest_inForce s p q).trans settled.toInForceStands
  | angleChanged | angleCounted => exact (angleCountChange_supervised h noBoundary).toInForceStands
  | scanTaken => exact (scanCompletion_supervised h noBoundary).toInForceStands
  | xrstEnded => exact ((xrstEnded_supervised s).trans settled).toInForceStands
  | estopSeen => exact ((withLines_effect s _).supervised.trans settled).toInForceStands
  | estopRaised =>
    exact ((withLines_effect s _).supervised.trans ((estopRaised_supervised _).trans settled)).toInForceStands
  | estopReleased =>
    exact ((withLines_effect s { s.lines with estop := false }).supervised.trans
      ((decideCondition_supervised _ _ _).trans settled)).toInForceStands
  | positionChanged => exact ((withMsu_effect s _).supervised.trans settled).toInForceStands
  | positionCounted e pair up =>
    exact ((withMsu_effect s _).supervised.trans ((positionCounted_supervised _ e up).trans settled)).toInForceStands
  | windowExpired cs =>
    exact ((withMsu_effect s (s.msu.formSpeed s.gst.active)).supervised.trans
      ((decideConditions_supervised _ cs).trans settled)).toInForceStands
  | rested => exact ((withMsu_effect s _).supervised.trans settled).toInForceStands
  | stallExpired b =>
    exact ((decideCondition_supervised s .stall b).trans ((startStallWindow_supervised _).trans settled)).toInForceStands
  | operationTimedOut =>
    exact ((raise_supervised s .opTimeout).trans ((changePhase_effect _ _).supervised.trans settled)).toInForceStands
  | grantExpired d => exact ((withdraw_effect d .grantExpired s).supervised.trans settled).toInForceStands
  | commitCompleted => exact ((commitCompleted_supervised s).trans settled).toInForceStands
  | portWritten _ p x => exact ((withPort_supervised s p x).trans settled).toInForceStands

/-- Settles O49: the boundary entry by entry where one is taken, and what is in force everywhere else. -/
theorem boundariesComeFromMarksAndScans : Obligations.BoundariesComeFromMarksAndScans := by
  refine ⟨fun i s taken => ?_, fun i s t noBoundary notPor notXrst h => ?_⟩
  · obtain ⟨u, t, h, ends⟩ := exec_endsInBoundary taken
    obtain ⟨mode, pending⟩ := ends.groupModes
    refine ⟨t, h, mode, pending, fun src => ?_⟩
    obtain ⟨e, goesOn, pendingMode, pendingAction, entry⟩ := ends.entry_eq src
    obtain ⟨mode, action, noMode, noAction⟩ := e.boundary_settings
    have same : e.boundary.condition = e.condition := (e.boundary_kept).1
    intro before after ended
    have installed : after = e.boundary := entry
    have test : ended ↔ e.install.ends = true := by
      rw [← e.boundary_ends_iff, ← installed]
    simp only [test, installed]
    refine ⟨?_, ?_, noMode, noAction, FaultEntry.boundary_ended, fun o inForce goes => ?_, fun present acts => ?_⟩
    · rw [mode, pendingMode, goesOn.mode]
    · rw [action, pendingAction, goesOn.action]
    · exact FaultEntry.boundary_goesOn (goesOn.override o inForce) goes
    · exact FaultEntry.boundary_present (same ▸ present) (fun k => acts (action.trans k))
  · obtain ⟨group, entry⟩ := exec_inForce h noBoundary notPor notXrst
    exact ⟨group, fun src => ⟨(entry src).mode, (entry src).action, (entry src).override⟩⟩

end Sys2Proof.Machine
end

