-- ==== Sys2Proof/Proofs/Windows.lean ====
section
/-! The records of a list of decisions (R134), and the expiries of the speed window, the rest timer and the stall window
(R38, R42, R131, R132). -/

namespace Sys2Proof.Machine

/-! Decisions and their records. -/

/-- A decision leaves whether another source becomes present (R134). -/
theorem becomes_after {src x : Source} (h : x ≠ src) (b c : Bool) (s : State) :
    (decideCondition src b s).becomes x c = s.becomes x c := by
  rw [State.becomes, State.becomes, (decideCondition_effect src b s).lines_eq, decideCondition_entry_of_ne h]

/-- The sources of a list of decisions whose conditions become present (R134). -/
def State.becoming (s : State) (cs : List (Source × Bool)) : List Source :=
  (cs.filter fun c => s.becomes c.1 c.2).map Prod.fst

/-- Decisions on different sources ask for the record of each that becomes present, in their order (R134). -/
theorem decideConditions_brc {cs : List (Source × Bool)} (nodup : (cs.map Prod.fst).Nodup) (s : State) :
    (decideConditions cs s).brc =
      s.brc.askAll s.znt.sessionOpen s.stk.depth ((s.becoming cs).map .faultRaised) := by
  induction cs generalizing s with
  | nil => rfl
  | cons c cs ih =>
    obtain ⟨fresh, nodup⟩ := List.nodup_cons.mp nodup
    have e := decideCondition_effect c.1 c.2 s
    have other : ∀ d ∈ cs, d.1 ≠ c.1 := fun d hd same => fresh (same ▸ List.mem_map_of_mem hd)
    have later : (decideCondition c.1 c.2 s).becoming cs = s.becoming cs :=
      congrArg (List.map Prod.fst) (List.filter_congr fun d hd => becomes_after (other d hd) _ _ s)
    have tail := ih nodup (decideCondition c.1 c.2 s)
    rw [later, e.sessionOpen_eq, e.stk_eq, decideCondition_brc, ← Brc.askAll_append] at tail
    refine tail.trans ?_
    rw [State.becoming, State.becoming, List.filter_cons]
    split <;> rfl

/-- A list without repetition filters as any part of it that holds all that pass. -/
theorem filter_eq_of_sublist {α : Type} {xs ys : List α} {p : α → Bool} (h : xs.Sublist ys) (nodup : ys.Nodup)
    (only : ∀ y ∈ ys, p y = true → y ∈ xs) : ys.filter p = xs.filter p := by
  induction h with
  | slnil => rfl
  | @cons xs ys y part ih =>
    obtain ⟨fresh, nodup⟩ := List.nodup_cons.mp nodup
    have fails : ¬p y = true := fun passes => fresh (part.subset (only y (List.mem_cons_self ..) passes))
    rw [List.filter_cons_of_neg fails, ih nodup fun z hz => only z (List.mem_cons_of_mem y hz)]
  | @cons_cons xs ys y part ih =>
    obtain ⟨fresh, nodup⟩ := List.nodup_cons.mp nodup
    have rest := ih nodup fun z hz passes =>
      (List.mem_cons.mp (only z (List.mem_cons_of_mem y hz) passes)).resolve_left fun same => fresh (same ▸ hz)
    rw [List.filter_cons, List.filter_cons, rest]

/-- The condition a decision leaves, and whether it is new, where decisions are taken (R130, R146). -/
theorem decideConditions_condition {cs : List (Source × Bool)} (nodup : (cs.map Prod.fst).Nodup) {s : State}
    (running : s.lines.xrst = false) {x : Source} {b : Bool} (h : (x, b) ∈ cs) :
    ((decideConditions cs s).entry x).condition = b := by
  obtain ⟨o, ho⟩ := decideConditions_entry nodup h s
  rw [ho, running]
  rfl

/-- The sources that decisions in rising number make present are those that become so one by one (R134). -/
theorem newlyPresent_decideConditions {cs : List (Source × Bool)} (rising : (cs.map Prod.fst).Sublist Source.all)
    {s : State} (running : s.lines.xrst = false) : newlyPresent s (decideConditions cs s) = s.becoming cs := by
  have all : Source.all.Nodup := by decide
  have nodup := rising.nodup all
  have decided : ∀ c ∈ cs, (((decideConditions cs s).entry c.1).condition && !(s.entry c.1).condition) =
      s.becomes c.1 c.2 := fun c hc => by
    rw [decideConditions_condition nodup running hc, State.becomes, running]
    rfl
  rw [newlyPresent, filter_eq_of_sublist rising all fun x _ new => ?_, List.filter_map]
  · exact congrArg (List.map Prod.fst) (List.filter_congr decided)
  · by_contra undecided
    rw [decideConditions_entry_of_notMem undecided] at new
    cases present : (s.entry x).condition <;> simp [present] at new

/-- Decisions in rising number leave the records of the event they are (R134, R151). -/
theorem decideConditions_records {cs : List (Source × Bool)} (rising : (cs.map Prod.fst).Sublist Source.all)
    {s : State} (running : s.lines.xrst = false) : (decideConditions cs s).brc =
      s.brc.eventsAsked s (decideConditions cs s) (newlyPresent s (decideConditions cs s)) := by
  have e := decideConditions_effect cs s
  rw [Brc.eventsAsked_unzoned _ (by rw [e.znt_eq]) (by rw [e.stk_eq]), newlyPresent_decideConditions rising running,
    decideConditions_brc (rising.nodup (by decide)), phaseRecord, if_pos (by rw [e.phc_eq]), List.append_nil]

/-! The expiries. -/

/-- The conditions the speed window owns, once the payout speed is formed (R131). -/
def State.speedConditions (s : State) : List (Source × Bool) :=
  [(.ropeSlack, s.ropeSlack), (.stopOverspeed, s.stopOverspeed)]

/-- The part with the payout speed of the window that ends here (R38). -/
def speedFormed (s : State) : State := s.withMsu (s.msu.formSpeed s.gst.active)

theorem exec_windowExpiry (s : State) : exec .windowExpiry s = .next (settle
    (if s.lines.xrst then s else decideConditions (speedFormed s).speedConditions (speedFormed s))) := by
  simp only [exec, execWindowExpiry]
  split <;> rfl

theorem exec_stallWindowExpiry (s : State) : exec .stallWindowExpiry s = .next (settle
    (if s.lines.xrst then s else startStallWindow (decideConditions [(.stall, s.stalled)] s))) := by
  simp only [exec, execStallWindowExpiry]
  split <;> rfl

theorem exec_restTimerExpiry (s : State) : exec .restTimerExpiry s = .next (settle (s.withMsu
    (if s.msu.restTimer = none then s.msu else { s.msu with rest := true, restTimer := none }))) := by
  simp only [exec, execRestTimerExpiry]
  cases s.msu.restTimer <;> rfl

/-- The speed window's expiry outside XRST (R38, R131). -/
theorem speedWindow_expires {s : State} (running : s.lines.xrst = false) :
    let w := speedFormed s
    let t := decideConditions w.speedConditions w
    t.msu = s.msu.formSpeed s.gst.active ∧ (t.entry .ropeSlack).condition = w.ropeSlack ∧
    (t.entry .stopOverspeed).condition = w.stopOverspeed ∧
    (∀ src, src ≠ .ropeSlack → src ≠ .stopOverspeed → t.entry src = s.entry src) ∧
    t.brc = s.brc.eventsAsked s t (newlyPresent s t) ∧ Effect [.msu, .env, .grants, .faults, .brc, .pif] s t := by
  intro w t
  have rising : [Source.ropeSlack, .stopOverspeed].Sublist Source.all := by decide
  have condition : ∀ {x b}, (x, b) ∈ w.speedConditions → (t.entry x).condition = b :=
    decideConditions_condition (s := w) (cs := w.speedConditions) (rising.nodup (by decide)) running
  have decided := decideConditions_effect w.speedConditions w
  refine ⟨decided.msu_eq, condition (by simp [State.speedConditions]),
    condition (by simp [State.speedConditions]), fun src slack overspeed => ?_,
    decideConditions_records (cs := w.speedConditions) (s := w) rising running,
    ((withMsu_effect s _).mono (by simp)).trans (decided.mono (by simp))⟩
  exact decideConditions_entry_of_notMem (by simp [State.speedConditions, slack, overspeed]) w

/-- The stall window's expiry outside XRST (R132). -/
theorem stallWindow_expires {s : State} (running : s.lines.xrst = false) :
    let t := startStallWindow (decideConditions [(.stall, s.stalled)] s)
    (t.entry .stall).condition = s.stalled ∧ t.fsv.stallRef = s.msu.angle ∧
    t.fsv.stallTimer = s.gst.settings.stallTime.toNat ∧ (∀ src, src ≠ .stall → t.entry src = s.entry src) ∧
    t.brc = s.brc.eventsAsked s t (newlyPresent s t) ∧ Effect [.env, .grants, .faults, .stall, .brc, .pif] s t := by
  intro t
  have rising : [Source.stall].Sublist Source.all := by decide
  have decided := decideConditions_effect [(.stall, s.stalled)] s
  refine ⟨decideConditions_condition (cs := [(.stall, s.stalled)]) (rising.nodup (by decide)) running (by simp),
    congrArg Msu.angle decided.msu_eq, congrArg (fun g : Gst => g.settings.stallTime.toNat) decided.gst_eq, fun src h => ?_,
    decideConditions_records (cs := [(.stall, s.stalled)]) rising running,
    (decided.mono (by simp)).trans ((withFsv_effect _ _).mono (by simp))⟩
  exact decideConditions_entry_of_notMem (cs := [(.stall, s.stalled)]) (by simp [h]) s

theorem ropeSlack_eq (s : State) : s.ropeSlack = decide ((s.phc.phase = .free ∨ s.phc.phase = .hoist) ∧
    0 < s.msu.speed ∧ s.env.measured.lR < s.gst.settings.lSlack) := by
  simp only [State.ropeSlack, Bool.decide_and, Bool.decide_or, Bool.and_assoc]

theorem stalled_eq (s : State) : s.stalled = decide (s.phc.phase = .drill ∧ (s.grant .rotary).isActive = true ∧
    0 < (s.grant .rotary).granted ∧ (s.msu.angle - s.fsv.stallRef).toInt < 36 ∧
    s.env.computed.tFwd * 9 ≤ s.env.measured.tMeas * 10) := by
  simp only [State.stalled, Bool.decide_and, Bool.and_assoc, Bool.decide_eq_true]
  rfl

/-- Settles O40: each expiry by whether its timer runs. -/
theorem windowsAndRestExpire : Obligations.WindowsAndRestExpire := by
  refine ⟨fun s => ⟨_, exec_windowExpiry s, ?_⟩, fun s => ⟨_, exec_restTimerExpiry s, ?_, rfl⟩,
    fun s => ⟨_, exec_stallWindowExpiry s, ?_⟩⟩
  · cases running : s.lines.xrst with
    | true => exact (settle_effect s).keeps
    | false =>
      obtain ⟨msu, slack, overspeed, others, records, effect⟩ := speedWindow_expires running
      have whole := effect.trans ((settle_effect _).mono (by simp))
      exact ⟨msu, slack.trans (ropeSlack_eq _), overspeed, others, whole.answers, records, whole.keeps⟩
  · exact ((withMsu_effect s _).trans ((settle_effect _).mono (by simp))).keeps
  · cases running : s.lines.xrst with
    | true => exact (settle_effect s).keeps
    | false =>
      obtain ⟨condition, ref, timer, others, records, effect⟩ := stallWindow_expires running
      have whole := effect.trans ((settle_effect _).mono (by simp))
      exact ⟨condition.trans (stalled_eq s), ref, timer, others, whole.answers, records, whole.keeps⟩

end Sys2Proof.Machine
end

