-- ==== Sys2Proof/Proofs/Milliseconds.lean ====
section
/-! The millisecond of an empty queue: the timers that count down, the expiries that are due, and their free order (entries
2 to 4; R46, R106, R164, R171). -/

namespace Sys2Proof.Machine

/-! Commands taken one after the other. -/

/-- Every command answers with a next state: there is no fault, and no refusal is raised. -/
theorem exec_answers (i : Instr) (s : State) : ∃ t, exec i s = .next t := by
  have either : ∀ (p : Prop) [Decidable p] (u v : State), ∃ t, (if p then done u else done v) = .next t :=
    fun p _ u v => by split <;> exact ⟨_, rfl⟩
  cases i
  case xrstAssert | xrstEnd | estopAssert | scanCompletion | windowExpiry | stallWindowExpiry | commitCompletion =>
    exact either _ _ _
  case positionCountChange e pair =>
    simp only [exec, execPositionCountChange]
    split <;> exact ⟨_, rfl⟩
  case angleCountChange pair =>
    simp only [exec, execAngleCountChange]
    split <;> exact ⟨_, rfl⟩
  case restTimerExpiry => exact ⟨_, exec_restTimerExpiry s⟩
  case opTimerExpiry =>
    simp only [exec, execOpTimerExpiry]
    split <;> exact ⟨_, rfl⟩
  case grantExpired d =>
    simp only [exec, execGrantExpired]
    split
    · exact either _ _ _
    all_goals exact ⟨_, rfl⟩
  all_goals exact ⟨_, rfl⟩

theorem exec_afterCommand (s : State) (i : Instr) : exec i s = .next (afterCommand s i) := by
  obtain ⟨t, h⟩ := exec_answers i s
  rw [afterCommand, h]

theorem runs_eq (order : List Instr) (s : State) : runs order s = .next (order.foldl afterCommand s) := by
  induction order generalizing s with
  | nil => rfl
  | cons i order ih =>
    rw [runs, exec_afterCommand]
    exact ih (afterCommand s i)

/-! The free order. -/

theorem insertAt_perm {α : Type} (x : α) (n : Nat) (xs : List α) : (insertAt x n xs).Perm (x :: xs) := by
  induction xs generalizing n with
  | nil => cases n <;> exact .refl _
  | cons y ys ih =>
    cases n with
    | zero => exact .refl _
    | succ n => exact ((ih n).cons y).trans (.swap x y ys)

/-- A shuffle loses no expiry and repeats none (entry 3). -/
theorem shuffle_perm (slot : Nat → Nat) (xs : List Instr) : (shuffle slot xs).Perm xs := by
  induction xs with
  | nil => exact .refl _
  | cons x xs ih => exact (insertAt_perm x _ _).trans (ih.cons x)

/-! The expiries due. -/

/-- Every expiry row there is. -/
def expiryRows : List Instr :=
  [.windowExpiry, .restTimerExpiry, .stallWindowExpiry, .opTimerExpiry, .grantExpired .hoist, .grantExpired .crowd,
    .grantExpired .rotary, .commitCompletion, .selectTimeout .cab, .selectTimeout .hoist, .selectTimeout .crowd,
    .selectTimeout .rotary]

/-- Each expiry is due once at most. -/
theorem due_nodup (s : State) : s.due.Nodup := by
  have alone : ∀ (b : Prop) [Decidable b] (i : Instr), (if b then [i] else []).Sublist [i] := fun b _ i => by
    split
    · exact .refl _
    · exact List.nil_sublist _
  have part : s.due.Sublist expiryRows :=
    ((((((alone _ _).append (alone _ _)).append (alone _ _)).append (alone _ _)).append
      (List.filter_sublist.map _)).append (alone _ _)).append (List.filter_sublist.map _)
  exact part.nodup (by decide)

theorem Drive.mem_all (d : Drive) : d ∈ [Drive.hoist, .crowd, .rotary] := by cases d <;> simp

theorem Port.mem_all (p : Port) : p ∈ [Port.cab, .hoist, .crowd, .rotary] := by cases p <;> simp

/-- Which expiries are due, timer by timer. -/
theorem mem_due (s : State) (i : Instr) : i ∈ s.due ↔
    (s.lines.xrst = false ∧
      ((i = .windowExpiry ∧ s.msu.windowTimer = 0) ∨ (i = .restTimerExpiry ∧ s.msu.restTimer = some 0) ∨
        (i = .stallWindowExpiry ∧ s.fsv.stallTimer = 0))) ∨
    (i = .opTimerExpiry ∧ ∃ o, s.phc.op = some o ∧ o.timer = 0) ∨
    (∃ d, i = .grantExpired d ∧ (s.grant d).lapsed = true) ∨
    (i = .commitCompletion ∧ s.gst.commit = some 0) ∨
    ∃ p, i = .selectTimeout p ∧ (s.port p).lapsed = true := by
  have alone : ∀ (b : Prop) [Decidable b] (j : Instr), i ∈ (if b then [j] else []) ↔ i = j ∧ b := fun b _ j => by
    split <;> simp [*]
  have lives : i ∈ ([Drive.hoist, .crowd, .rotary].filter fun d => (s.grant d).lapsed).map .grantExpired ↔
      ∃ d, i = .grantExpired d ∧ (s.grant d).lapsed = true := by
    simp only [List.mem_map, List.mem_filter, Drive.mem_all, true_and]
    exact exists_congr fun d => and_comm.trans (and_congr_left fun _ => eq_comm)
  have selects : i ∈ ([Port.cab, .hoist, .crowd, .rotary].filter fun p => (s.port p).lapsed).map .selectTimeout ↔
      ∃ p, i = .selectTimeout p ∧ (s.port p).lapsed = true := by
    simp only [List.mem_map, List.mem_filter, Port.mem_all, true_and]
    exact exists_congr fun p => and_comm.trans (and_congr_left fun _ => eq_comm)
  simp only [State.due, List.mem_append, alone, lives, selects, Bool.and_eq_true, Bool.not_eq_true',
    decide_eq_true_eq, Option.any_eq_true, or_assoc, and_or_left, and_left_comm (a := s.lines.xrst = false)]

/-! The timers after a millisecond. -/

/-- The part once the timers have counted down and STORE_WP has its free level (entries 2 and 4). -/
def State.elapsed (s : State) : State :=
  (s.countDown.useFree).withLines { s.lines with storeWp := Config.storeWpLevel s.freeCount }

theorem tick_eq (s : State) :
    tick s = (shuffle (Config.expirySlot s.freeCount) s.elapsed.due).foldl afterCommand s.elapsed := rfl

section
variable (s : State)

theorem elapsed_msu : s.elapsed.msu = if s.lines.xrst then s.msu else
    { s.msu with windowTimer := s.msu.windowTimer - 1, restTimer := s.msu.restTimer.map fun n => n - 1 } := rfl

theorem elapsed_fsv : s.elapsed.fsv =
    if s.lines.xrst then s.fsv else { s.fsv with stallTimer := s.fsv.stallTimer - 1 } := rfl

theorem elapsed_grant (d : Drive) : s.elapsed.grant d = (s.grant d).tick := by cases d <;> rfl

theorem elapsed_port (p : Port) : s.elapsed.port p = (s.port p).tick := by cases p <;> rfl

/-- Beside the timers' blocks and STORE_WP nothing moves in a millisecond. -/
theorem elapsed_keeps : KeepsAllBut [.msu, .faults, .stall, .phc, .gst, .grants, .pif, .lines] s s.elapsed := by
  refine ⟨fun x hx => ?_, rfl⟩
  cases x
  case zones => exact ⟨rfl, rfl, rfl⟩
  case stk | znt | env | measured | brc => rfl
  all_goals simp at hx
end

theorem Grant.tick_of_active {g : Grant} {n : Nat} (h : g.state = .active n) :
    g.tick = { g with state := .active (n - 1) } := by rw [Grant.tick, h]

theorem Grant.tick_of_inactive {g : Grant} (h : g.isActive = false) : g.tick = g := by
  unfold Grant.tick
  split
  · next n active => simp [Grant.isActive, active] at h
  all_goals rfl

/-- A life runs out in its last millisecond (R107). -/
theorem Grant.lapsed_tick (g : Grant) : g.tick.lapsed = true ↔ ∃ life ≤ 1, g.state = .active life := by
  rw [Grant.lapsed, decide_eq_true_eq]
  cases h : g.state with
  | active n =>
    rw [Grant.tick_of_active h]
    simp [Nat.sub_eq_zero_iff_le]
  | unacked | neutralWait c => simp [Grant.tick, h]

theorem PortState.tick_of_shifting {p : PortState} {f : Shift} (h : p.frame = .shifting f) :
    p.tick = { p with frame := .shifting { f with timer := f.timer - 1 } } := by rw [PortState.tick, h]

theorem PortState.tick_of_idle {p : PortState} (h : p.inFrame = false) : p.tick = p := by
  unfold PortState.tick
  split
  · next f shifting => simp [PortState.inFrame, shifting] at h
  all_goals rfl

/-- A select times out in the last millisecond of its frame (R171). -/
theorem PortState.lapsed_tick (p : PortState) :
    p.tick.lapsed = true ↔ ∃ f, p.frame = .shifting f ∧ f.timer ≤ 1 := by
  cases h : p.frame with
  | shifting f =>
    rw [PortState.tick_of_shifting h]
    simp [PortState.lapsed, Nat.sub_eq_zero_iff_le]
  | idle | ignored => simp [PortState.tick, PortState.lapsed, h]

/-- A timer that may stand runs out in its last millisecond. -/
theorem map_pred_eq_zero (timer : Option Nat) : (timer.map fun n => n - 1) = some 0 ↔ ∃ n ≤ 1, timer = some n := by
  cases timer <;> simp [Nat.sub_eq_zero_iff_le]

/-- The expiries due are those of the timers with no more than this millisecond left. -/
theorem mem_due_elapsed (s : State) (i : Instr) : i ∈ s.elapsed.due ↔
    (s.lines.xrst = false ∧
      ((i = .windowExpiry ∧ s.msu.windowTimer ≤ 1) ∨ (i = .restTimerExpiry ∧ ∃ n ≤ 1, s.msu.restTimer = some n) ∨
        (i = .stallWindowExpiry ∧ s.fsv.stallTimer ≤ 1))) ∨
    (i = .opTimerExpiry ∧ ∃ o, s.phc.op = some o ∧ o.timer ≤ 1) ∨
    (∃ d, ∃ life ≤ 1, i = .grantExpired d ∧ (s.grant d).state = .active life) ∨
    (i = .commitCompletion ∧ ∃ n ≤ 1, s.gst.commit = some n) ∨
    ∃ p f, i = .selectTimeout p ∧ (s.port p).frame = .shifting f ∧ f.timer ≤ 1 := by
  have lines : s.elapsed.lines.xrst = s.lines.xrst := rfl
  have op : (∃ o, s.elapsed.phc.op = some o ∧ o.timer = 0) ↔ ∃ o, s.phc.op = some o ∧ o.timer ≤ 1 := by
    show (∃ o, (s.phc.op.map fun o => { o with timer := o.timer - 1 }) = some o ∧ o.timer = 0) ↔ _
    cases s.phc.op <;> simp [Nat.sub_eq_zero_iff_le]
  have commit : s.elapsed.gst.commit = some 0 ↔ ∃ n ≤ 1, s.gst.commit = some n := map_pred_eq_zero _
  rw [mem_due, lines, op, commit]
  simp only [elapsed_grant, elapsed_port, Grant.lapsed_tick, PortState.lapsed_tick]
  refine or_congr (and_congr_right fun running => ?_) (or_congr_right (or_congr ?_ (or_congr_right ?_)))
  · rw [elapsed_msu, elapsed_fsv, running, if_neg Bool.false_ne_true, if_neg Bool.false_ne_true]
    simp only [map_pred_eq_zero, Nat.sub_eq_zero_iff_le]
  · exact exists_congr fun d => by tauto
  · exact exists_congr fun p => by tauto

/-- Settles O3: the timers counted down, then the expiries due in the order the shuffle gives. -/
theorem aMillisecondRunsTheTimers : Obligations.AMillisecondRunsTheTimers := by
  intro s idle
  have order := shuffle_perm (Config.expirySlot s.freeCount) s.elapsed.due
  refine ⟨s.elapsed, tick s, shuffle (Config.expirySlot s.freeCount) s.elapsed.due, ?_, ?_, elapsed_msu s, elapsed_fsv s,
    rfl, rfl, fun d n active => ?_, fun d inactive => ?_, fun p f shifting => ?_, fun p still => ?_, rfl, rfl,
    elapsed_keeps s, order.nodup_iff.mpr (due_nodup _), fun i => order.mem_iff.trans (mem_due_elapsed s i)⟩
  · rw [step, idle]
  · rw [runs_eq, tick_eq]
  · rw [elapsed_grant, Grant.tick_of_active active]
  · rw [elapsed_grant, Grant.tick_of_inactive inactive]
  · rw [elapsed_port, PortState.tick_of_shifting shifting]
  · rw [elapsed_port, PortState.tick_of_idle still]

end Sys2Proof.Machine
end

