-- ==== Sys2Proof/Proofs/PortRefusals.lean ====
section
/-! The end of a request on any port: its answer, the latches it clears, and what the PIF refuses before any owner sees it
(R52, R162, R174). -/

namespace Sys2Proof.Machine

/-! The end of a request. -/

/-- The part with the answer of a request pending on its port, before the latches see the frame (R172). -/
def answeredOn (p : Port) (r : State × Answer) : State := r.1.withPort p ((r.1.port p).answered r.2)

section
variable (p : Port) (q : Request) (s : State)

@[simp] theorem clearLatches_pif : (clearLatches p q s).pif = s.pif := by
  unfold clearLatches
  split
  · dsimp only
    split_ifs <;> rfl
  · rfl

/-- The release latch stands at a drive port's frame and at the commands that keep it (R52). -/
theorem clearLatches_phc : (clearLatches p q s).phc =
    if p = .cab ∧ (Cmd.ofCode q.cmd).any Cmd.keepsReleaseLatch = false then { s.phc with releaseLatch := false }
    else s.phc := by
  unfold clearLatches
  split
  · next cab =>
    dsimp only
    cases (Cmd.ofCode q.cmd).any Cmd.keepsReleaseLatch <;> split_ifs <;> simp_all [State.withStoreEnable]
  · next drive => rw [if_neg fun k => drive k.1]

/-- The store enable latch stands at a drive port's frame and at the commands that keep it (R162). -/
theorem clearLatches_gst : (clearLatches p q s).gst =
    if p = .cab ∧ (Cmd.ofCode q.cmd).any Cmd.keepsStoreEnable = false then { s.gst with storeEnable := false }
    else s.gst := by
  unfold clearLatches
  split
  · next cab =>
    dsimp only
    cases (Cmd.ofCode q.cmd).any Cmd.keepsStoreEnable <;> split_ifs <;> simp_all [State.withStoreEnable]
  · next drive => rw [if_neg fun k => drive k.1]
end

section
variable {p : Port} {c : List Part} {s u : State} {r : State × Answer} (e : Effect c (s.frameEnded p) r.1)
include e

/-- The request is answered, and no port but its own moves, where its owner writes no port (R170, R172). -/
theorem answered_alone (pif : u.pif = (answeredOn p r).pif) (hc : Part.pif ∉ c := by simp) :
    AnsweredAlone p r.2 s (settle u) := by
  have served : r.1.pif = (s.frameEnded p).pif := e.kept .pif hc
  have own : r.1.port p = { (s.port p).released with link := false } := by
    rw [State.port, served]
    exact State.port_withPort_self _ _ _
  show (settle u).pif = _
  rw [settle_pif, pif, answeredOn, State.withPort_pif, own, served, State.frameEnded, State.withPort_pif,
    Pif.withPort_withPort]
  rfl

/-- Beside what its owner writes, a request writes its port and what it clears of the latches (R52, R162). -/
theorem answered_keeps {l d : List Part} (latches : Effect l (answeredOn p r) u) (hc : c ⊆ d) (hd : .pif :: l ⊆ d) :
    KeepsAllBut d s (settle u) := by
  refine ⟨fun x hx => ?_, latches.pending.trans e.pending⟩
  have notPif : x ≠ .pif := fun hp => hx (hd (by simp [hp]))
  have ended : x.kept s (s.frameEnded p) := withPort_kept s _ _ x notPif
  have served : x.kept (s.frameEnded p) r.1 := e.kept x fun k => hx (hc k)
  have answered : x.kept r.1 (answeredOn p r) := withPort_kept _ _ _ x notPif
  have cleared : x.kept (answeredOn p r) u := latches.kept x fun k => hx (hd (by simp [k]))
  exact Part.kept_trans (Part.kept_trans (Part.kept_trans ended served) (Part.kept_trans answered cleared))
    ((settle_effect u).kept x (by simp))
end

/-- A request that passes the PIF, from a ready port to the settled state (R170, R174). -/
theorem exec_servedRequest {c : Cmd} {p : Port} {s : State} (ready : PortReady p s) (taken : c.takenOn p = true)
    (acknowledged : (s.port p).rst = false ∨ c.takenUnacknowledged = true) (a b : Word) (e : BitVec 160) :
    let q : Request := ⟨c.code, a, b, decide ((if c = .recordRead then e else 0) ≠ 0), s.brc.oldest⟩
    exec (requestRow c p a b e) s =
      .next (settle (clearLatches p q (answeredOn p (serve p c q (s.frameEnded p))))) := by
  intro q
  rw [exec_requestRow ready, takeRequest_of_passes taken acknowledged]
  rfl

/-! What the PIF refuses. -/

/-- A request that a check of the PIF refuses (R174). -/
theorem takeRequest_of_refused {p : Port} {q : Request} {a : Answer} {s : State}
    (h : pifRefusal p q (s.frameEnded p) = some a) :
    takeRequest p q s = clearLatches p q (answeredOn p (s.frameEnded p, a)) := by
  have decided : decideRequest p q (s.frameEnded p) = (s.frameEnded p, a) := by rw [decideRequest, h]
  show clearLatches p q (answeredOn p (decideRequest p q (s.frameEnded p))) = _
  rw [decided]

/-- What such a request leaves: its answer and, on the cab port, the latches its command clears (R52, R162). -/
structure RefusedByPort (p : Port) (q : Request) (a : Answer) (s t : State) : Prop where
  alone : AnsweredAlone p a s t
  phc : t.phc = if p = .cab ∧ (Cmd.ofCode q.cmd).any Cmd.keepsReleaseLatch = false then { s.phc with releaseLatch := false }
    else s.phc
  gst : t.gst = if p = .cab ∧ (Cmd.ofCode q.cmd).any Cmd.keepsStoreEnable = false then { s.gst with storeEnable := false }
    else s.gst
  keeps : KeepsAllBut [.pif, .phc, .gst] s t

theorem takeRequest_refused {p : Port} {q : Request} {a : Answer} {s : State}
    (h : pifRefusal p q (s.frameEnded p) = some a) : RefusedByPort p q a s (settle (takeRequest p q s)) := by
  rw [takeRequest_of_refused h]
  have stands : Effect [] (s.frameEnded p) (s.frameEnded p, a).1 := .refl _
  exact {
    alone := answered_alone stands (clearLatches_pif _ _ _)
    phc := clearLatches_phc p q _
    gst := clearLatches_gst p q _
    keeps := answered_keeps stands (clearLatches_effect _ _ _) (by simp) (by simp) }

section
variable {p : Port} {q : Request} {a : Answer} {s t : State} (h : RefusedByPort p q a s t)
include h

/-- A drive port's frame clears no latch (R174). -/
theorem RefusedByPort.drive (drive : p ≠ .cab) : t.phc = s.phc ∧ t.gst = s.gst :=
  ⟨h.phc.trans (if_neg fun k => drive k.1), h.gst.trans (if_neg fun k => drive k.1)⟩

theorem RefusedByPort.drive_keeps (drive : p ≠ .cab) : KeepsAllBut [.pif] s t := by
  obtain ⟨phc, gst⟩ := h.drive drive
  refine ⟨fun x hx => ?_, h.keeps.2⟩
  by_cases latch : x = .phc ∨ x = .gst
  · rcases latch with rfl | rfl
    · exact phc
    · exact gst
  · exact h.keeps.1 x (by simp_all)

/-- A cab frame clears both latches where its command keeps neither (R52, R162). -/
theorem RefusedByPort.cab (cab : p = .cab) (release : (Cmd.ofCode q.cmd).any Cmd.keepsReleaseLatch = false)
    (enable : (Cmd.ofCode q.cmd).any Cmd.keepsStoreEnable = false) : LatchesCleared s t :=
  ⟨h.phc.trans (if_pos ⟨cab, release⟩), h.gst.trans (if_pos ⟨cab, enable⟩)⟩

/-- Whatever its command, a frame writes nothing of the PHC and the GST but the latches (R52, R162). -/
theorem RefusedByPort.onlyLatches : OnlyLatches s t := by
  refine ⟨?_, ?_⟩
  · rw [h.phc]; split_ifs <;> rfl
  · rw [h.gst]; split_ifs <;> rfl
end

/-- The row of a request that the PIF refuses (R174). -/
theorem exec_refusedRequest {c : Cmd} {p : Port} {s : State} (ready : PortReady p s) (a b : Word) (e : BitVec 160)
    {ans : Answer} (h : ∀ q : Request, q.cmd = c.code → pifRefusal p q (s.frameEnded p) = some ans) :
    ∃ t q, exec (requestRow c p a b e) s = .next t ∧ Cmd.ofCode q.cmd = some c ∧ RefusedByPort p q ans s t :=
  ⟨_, _, exec_requestRow ready a b e, Cmd.ofCode_code c, takeRequest_refused (h _ rfl)⟩

/-- A code of no command is no command's (R174, check 1). -/
theorem ofCode_of_notMem {cmd : Byte} (h : cmd ∉ Cmd.all.map Cmd.code) : Cmd.ofCode cmd = none := by
  rw [Cmd.ofCode, List.find?_eq_none]
  intro c mem same
  exact h (List.mem_map.mpr ⟨c, mem, by simpa using same⟩)

theorem exec_badCmd {p : Port} {cmd : Byte} {s : State} (ready : PortReady p s) (a b : Word) :
    exec (.badCmd p cmd a b) s = .next (settle (takeRequest p ⟨cmd, a, b, false, .nothing⟩ s)) :=
  congrArg (fun t => Host.Outcome.next (settle t)) (selectRises_of_ready ready _)

/-- The commands a drive port takes without DEMAND, and the cab port takes before it has acknowledged a reset, are NOP, READ
and ACK_RESET (R174, checks 2 and 3). -/
theorem ownedByCab {c : Cmd} (h : c ∉ [.nop, .read, .ackReset, .demand]) :
    (∀ p, p ≠ .cab → c.takenOn p = false) ∧ c.takenOn .cab = true ∧ c.takenUnacknowledged = false := by
  cases c <;> simp_all [Cmd.takenOn, Cmd.takenUnacknowledged]

/-- Settles O11: check by check, what the PIF answers and the latches the frame clears. -/
theorem requestsRefusedByThePort : Obligations.RequestsRefusedByThePort := by
  refine ⟨fun p cmd a b s ready unknown => ?_, fun c p a b e s ready => ⟨fun drive owned => ?_, ?_, ?_⟩⟩
  · have code := ofCode_of_notMem unknown
    have refused : RefusedByPort p ⟨cmd, a, b, false, .nothing⟩ (answer .badCmd cmd.toNat 0) s _ :=
      takeRequest_refused (by simp only [pifRefusal, code])
    refine ⟨_, exec_badCmd ready a b, refused.alone, refused.keeps, ?_⟩
    split
    · next cab => exact refused.cab cab (by simp [code]) (by simp [code])
    · next drive => exact refused.drive drive
  · obtain ⟨t, q, taken, -, refused⟩ := exec_refusedRequest (c := c) ready a b e
      (ans := answer .wrongPort c.code.toNat p.number) fun q hq => by
        simp [pifRefusal, hq, (ownedByCab owned).1 p drive]
    exact ⟨t, taken, refused.alone, refused.drive_keeps drive⟩
  · rintro rfl rfl
    obtain ⟨t, q, taken, code, refused⟩ := exec_refusedRequest (c := .demand) ready a b e
      (ans := answer .wrongPort Cmd.demand.code.toNat Port.cab.number) fun q hq => by
        simp [pifRefusal, hq, Cmd.takenOn]
    exact ⟨t, taken, refused.alone, refused.cab rfl (by rw [code]; rfl) (by rw [code]; rfl), refused.keeps⟩
  · rintro rfl owned unacknowledged
    obtain ⟨-, onCab, needsAck⟩ := ownedByCab owned
    obtain ⟨t, q, taken, code, refused⟩ := exec_refusedRequest (c := c) ready a b e
      (ans := answer .restarted 0 0) fun q hq => by
        simp [pifRefusal, hq, onCab, needsAck, unacknowledged]
    refine ⟨t, taken, refused.alone, refused.keeps, refused.onlyLatches, fun clears => ?_, fun clears => ?_⟩
    · have release : Cmd.keepsReleaseLatch c = false := by cases c <;> simp_all [Cmd.keepsReleaseLatch]
      rw [refused.phc, code, if_pos ⟨rfl, release⟩]
    · have enable : Cmd.keepsStoreEnable c = false := by cases c <;> simp_all [Cmd.keepsStoreEnable]
      rw [refused.gst, code, if_pos ⟨rfl, enable⟩]

end Sys2Proof.Machine
end

