-- ==== Sys2Proof/Proofs/Withdrawals.lean ====
section
/-! The grants and the pending answers drive by drive: what a re-clamp, a withdrawal and an entry to PARKED leave of a
record and of its port (R48, R99, R103, R104). -/

namespace Sys2Proof.Machine

/-! One drive at a time. -/

theorem Drive.port_injective {d e : Drive} (h : d.port = e.port) : d = e := by
  cases d <;> cases e <;> simp_all [Drive.port]

theorem Drive.cab_ne_port (d : Drive) : Port.cab ≠ d.port := by cases d <;> simp [Drive.port]

/-- The record and the port of a drive are as they were. -/
structure SameDrive (d : Drive) (s t : State) : Prop where
  grant : t.grant d = s.grant d
  port : t.port d.port = s.port d.port

theorem SameDrive.refl (d : Drive) (s : State) : SameDrive d s s := ⟨rfl, rfl⟩

theorem SameDrive.trans {d : Drive} {s t u : State} (h : SameDrive d s t) (k : SameDrive d t u) : SameDrive d s u :=
  ⟨k.grant.trans h.grant, k.port.trans h.port⟩

/-- The records of the other drives, and every port but the drive's own, are as they were. -/
structure OnlyDrive (d : Drive) (s t : State) : Prop where
  grants : OtherGrantsKept d s t
  ports : ∀ q, q ≠ d.port → t.port q = s.port q

section
variable {d : Drive} {s t u : State}

theorem OnlyDrive.refl (d : Drive) (s : State) : OnlyDrive d s s := ⟨fun _ _ => rfl, fun _ _ => rfl⟩

theorem OnlyDrive.trans (h : OnlyDrive d s t) (k : OnlyDrive d t u) : OnlyDrive d s u :=
  ⟨fun e he => (k.grants e he).trans (h.grants e he), fun q hq => (k.ports q hq).trans (h.ports q hq)⟩

theorem OnlyDrive.same (h : OnlyDrive d s t) {e : Drive} (ne : e ≠ d) : SameDrive e s t :=
  ⟨h.grants e ne, h.ports _ (mt Drive.port_injective ne)⟩
end

section
variable (d : Drive) (s : State)

@[simp] theorem withGrant_port (g : Grant) (q : Port) : (s.withGrant d g).port q = s.port q := rfl

@[simp] theorem rewriteAnswer_grant (a : Answer) (e : Drive) : (rewriteAnswer d a s).grant e = s.grant e := rfl

theorem rewriteAnswer_port (a : Answer) : (rewriteAnswer d a s).port d.port = (s.port d.port).rewrite a :=
  State.port_withPort_self _ _ _

theorem withGrant_only (g : Grant) : OnlyDrive d s (s.withGrant d g) :=
  ⟨fun _ he => State.grant_withGrant_of_ne s g he, fun _ _ => rfl⟩

theorem rewriteAnswer_only (a : Answer) : OnlyDrive d s (rewriteAnswer d a s) :=
  ⟨fun _ _ => rfl, fun _ hq => State.port_withPort_of_ne s _ hq⟩

theorem withdraw_only (c : NeutralCause) : OnlyDrive d s (withdraw d c s) :=
  (withGrant_only d s _).trans (rewriteAnswer_only d _ _)

theorem neutralEvent_only (c : NeutralCause) : OnlyDrive d s (neutralEvent c d s) := by
  unfold neutralEvent
  split
  · exact withdraw_only d s c
  · exact withGrant_only d s _
  · exact .refl d s

theorem latchedDropBegins_only : OnlyDrive d s (latchedDropBegins s d) :=
  (neutralEvent_only d s .drop).trans (withGrant_only d _ _)

theorem reclampDrive_only : OnlyDrive d s (reclampDrive s d) := by
  unfold reclampDrive
  dsimp only
  split
  · split
    · exact (withGrant_only d s _).trans (rewriteAnswer_only d _ _)
    · exact .refl d s
  all_goals exact .refl d s
end

/-- An operation taken at every drive in turn does at each drive what it does there alone, and leaves the cab port. -/
theorem foldl_drives {f : State → Drive → State} (only : ∀ s d, OnlyDrive d s (f s d)) (s : State) :
    (∀ d, ∃ u, SameDrive d s u ∧ SameDrive d (f u d) (drivesInOrder.foldl f s)) ∧
      (drivesInOrder.foldl f s).port .cab = s.port .cab := by
  have cab : ∀ (t : State) (d : Drive), (f t d).port .cab = t.port .cab := fun t d => (only t d).ports _ (Drive.cab_ne_port d)
  simp only [drivesInOrder, List.foldl_cons, List.foldl_nil]
  refine ⟨fun d => ?_, by rw [cab, cab, cab]⟩
  cases d
  · exact ⟨s, .refl _ _, ((only _ .crowd).same (by simp)).trans ((only _ .rotary).same (by simp))⟩
  · exact ⟨f s .hoist, (only _ .hoist).same (by simp), (only _ .rotary).same (by simp)⟩
  · exact ⟨f (f s .hoist) .crowd, ((only _ .hoist).same (by simp)).trans ((only _ .crowd).same (by simp)), .refl _ _⟩

/-! A pending answer. -/

theorem answerWithdrawn_iff (d : Drive) (c : NeutralCause) (s t : State) : AnswerWithdrawn d c s t ↔
    t.port d.port = (s.port d.port).rewrite (rewritableAnswer .neutralRequired c.code 2) := Iff.rfl

theorem PortState.rewrite_of_may {p : PortState} (may : p.mayRewrite = true) (a : Answer) :
    p.rewrite a = { p with answer := a } := if_pos may

theorem PortState.rewrite_of_not {p : PortState} (may : ¬p.mayRewrite = true) (a : Answer) : p.rewrite a = p := if_neg may

/-- An answer rewritten by one that may be rewritten again is rewritten by what comes after it alone (R104). -/
theorem PortState.rewrite_rewrite (p : PortState) {a : Answer} (h : a.rewritable = true) (b : Answer) :
    (p.rewrite a).rewrite b = p.rewrite b := by
  by_cases may : p.mayRewrite = true
  · have again : ({ p with answer := a } : PortState).mayRewrite = true := by
      simp only [PortState.mayRewrite, Bool.and_eq_true] at may ⊢
      exact ⟨h, may.2⟩
    rw [PortState.rewrite_of_may may, PortState.rewrite_of_may again, PortState.rewrite_of_may may]
  · rw [PortState.rewrite_of_not may]

/-! The re-clamp. -/

/-- What a re-clamp does at one drive: its state and its hold stand, and an answer it rewrites may be rewritten again;
a record that is not ACTIVE stands, with its port (R103, R104). -/
structure Reclamped (d : Drive) (s t : State) : Prop where
  state : (t.grant d).state = (s.grant d).state
  hold : (t.grant d).hold = (s.grant d).hold
  answer : ∀ b, (t.port d.port).rewrite b = (s.port d.port).rewrite b
  inactive : (s.grant d).isActive = false → SameDrive d s t

theorem Reclamped.trans {d : Drive} {s t u : State} (h : Reclamped d s t) (k : Reclamped d t u) : Reclamped d s u where
  state := k.state.trans h.state
  hold := k.hold.trans h.hold
  answer b := (k.answer b).trans (h.answer b)
  inactive idle := (h.inactive idle).trans (k.inactive (by rw [(h.inactive idle).grant, idle]))

theorem Reclamped.of_same {d : Drive} {s t : State} (h : SameDrive d s t) : Reclamped d s t :=
  ⟨by rw [h.grant], by rw [h.grant], fun _ => by rw [h.port], fun _ => h⟩

theorem reclampDrive_reclamped (d : Drive) (s : State) : Reclamped d s (reclampDrive s d) := by
  unfold reclampDrive
  dsimp only
  split
  · next life active =>
    split
    · exact {
        state := by rw [rewriteAnswer_grant, State.grant_withGrant_self]
        hold := by rw [rewriteAnswer_grant, State.grant_withGrant_self]
        answer := fun b => by rw [rewriteAnswer_port, withGrant_port, PortState.rewrite_rewrite _ rfl]
        inactive := fun h => by rw [Grant.isActive, active] at h; cases h }
    · exact .of_same (.refl d s)
  all_goals exact .of_same (.refl d s)

/-- A recomputation does at each drive what a re-clamp does, and leaves the cab port (R73). -/
theorem recompute_reclamped (s : State) :
    (∀ d, Reclamped d s (recompute s)) ∧ (recompute s).port .cab = s.port .cab := by
  have still : ∀ d, SameDrive d s (s.withEnv s.envelope) := fun _ => ⟨rfl, rfl⟩
  obtain ⟨drives, cab⟩ := foldl_drives (fun t d => reclampDrive_only d t) (s.withEnv s.envelope)
  unfold recompute
  dsimp only
  split
  · refine ⟨fun d => ?_, cab⟩
    obtain ⟨u, before, after⟩ := drives d
    exact ((Reclamped.of_same ((still d).trans before)).trans (reclampDrive_reclamped d u)).trans (.of_same after)
  · exact ⟨fun d => .of_same (still d), rfl⟩

/-! The neutral event. -/

/-- What a neutral event makes of a record (R99). -/
def Grant.neutral (g : Grant) (c : NeutralCause) : Grant :=
  match g.state with
  | .active _ => g.toNeutral c
  | .neutralWait _ => { g with state := .neutralWait c }
  | .unacked => g

section
variable (g : Grant) (c : NeutralCause)

@[simp] theorem Grant.neutral_hold : (g.neutral c).hold = g.hold := by
  unfold Grant.neutral
  split <;> rfl

theorem Grant.neutral_state : (g.neutral c).state = if g.state = .unacked then .unacked else .neutralWait c := by
  unfold Grant.neutral
  split <;> simp_all [Grant.toNeutral]

theorem Grant.neutral_granted : (g.neutral c).granted = if g.isActive then 0 else g.granted := by
  unfold Grant.neutral Grant.isActive
  split <;> simp_all [Grant.toNeutral]

theorem Grant.neutral_inactive : (g.neutral c).isActive = false := by
  rw [Grant.isActive, Grant.neutral_state]
  split_ifs <;> rfl
end

section
variable (c : NeutralCause) (d : Drive) (s : State)

theorem neutralEvent_grant : (neutralEvent c d s).grant d = (s.grant d).neutral c := by
  unfold neutralEvent Grant.neutral
  cases h : (s.grant d).state with
  | active _ => exact State.grant_withGrant_self s d _
  | neutralWait _ => exact State.grant_withGrant_self s d _
  | unacked => rfl

theorem neutralEvent_port : (neutralEvent c d s).port d.port =
    if (s.grant d).isActive then (s.port d.port).rewrite (rewritableAnswer .neutralRequired c.code 2)
    else s.port d.port := by
  unfold neutralEvent Grant.isActive
  cases h : (s.grant d).state with
  | active _ => exact rewriteAnswer_port d _ _
  | neutralWait _ | unacked => rfl
end

/-- What a neutral event with its cause leaves at a drive, whatever re-clamp came before it (R99, R103, R104). -/
structure Neutralized (c : NeutralCause) (d : Drive) (s t : State) : Prop where
  waits : (s.grant d).state ≠ .unacked → (t.grant d).state = .neutralWait c
  inactive : (t.grant d).isActive = false
  granted : (s.grant d).isActive = true → (t.grant d).granted = 0
  ungranted : (s.grant d).isActive = false → (t.grant d).granted = (s.grant d).granted
  withdrawn : (s.grant d).isActive = true → AnswerWithdrawn d c s t
  stands : (s.grant d).isActive = false → t.port d.port = s.port d.port

theorem Neutralized.congr {c : NeutralCause} {d : Drive} {s s' t t' : State} (h : Neutralized c d s t)
    (before : SameDrive d s' s) (after : SameDrive d t t') : Neutralized c d s' t' := by
  obtain ⟨waits, inactive, granted, ungranted, withdrawn, stands⟩ := h
  simp only [answerWithdrawn_iff, before.grant, before.port, ← after.grant, ← after.port] at *
  exact ⟨waits, inactive, granted, ungranted, withdrawn, stands⟩

theorem Grant.isActive_congr {g h : Grant} (same : g.state = h.state) : g.isActive = h.isActive := by
  rw [Grant.isActive, Grant.isActive, same]

theorem neutralEvent_neutralized (c : NeutralCause) {d : Drive} {s u t : State} (before : Reclamped d s u)
    (grant : t.grant d = { (u.grant d).neutral c with hold := (t.grant d).hold })
    (port : t.port d.port = (neutralEvent c d u).port d.port) : Neutralized c d s t := by
  have active : (u.grant d).isActive = (s.grant d).isActive := Grant.isActive_congr before.state
  rw [neutralEvent_port, active] at port
  constructor
  · intro acked
    rw [grant]
    exact (Grant.neutral_state _ c).trans (if_neg (before.state ▸ acked))
  · rw [grant]
    exact (u.grant d).neutral_inactive c
  · intro h
    rw [grant]
    exact ((u.grant d).neutral_granted c).trans (if_pos (active.trans h))
  · intro h
    rw [grant, ← (before.inactive h).grant]
    exact ((u.grant d).neutral_granted c).trans (if_neg (by simp [active, h]))
  · intro h
    rw [if_pos h, before.answer] at port
    exact port
  · intro h
    rw [port, if_neg (by simp [h]), (before.inactive h).port]

/-- Entry to PARKED at every record, after the recomputation of the new phase (R48, R99). -/
theorem changePhase_parked (s : State) : (∀ d, Neutralized .parked d s (changePhase .parked s) ∧
    ((changePhase .parked s).grant d).hold = (s.grant d).hold) ∧ (changePhase .parked s).port .cab = s.port .cab := by
  let w := (askEvent (.phaseChange s.phc.phase .parked)
    (s.withPhc { s.phc with op := none, target := none, releaseLatch := false })).withPhc
    ⟨.parked, none, none, false, s.phc.advanceArm⟩
  obtain ⟨reclamped, cab⟩ := recompute_reclamped w
  obtain ⟨drives, parkedCab⟩ := foldl_drives (fun t d => neutralEvent_only d t .parked) (recompute w)
  have grants : ∀ d, (changePhase .parked s).grant d = (parkGrants (recompute w)).grant d := fun d => rfl
  have ports : ∀ q, (changePhase .parked s).port q = (parkGrants (recompute w)).port q := fun q => rfl
  refine ⟨fun d => ?_, by rw [ports, parkGrants, parkedCab, cab]; rfl⟩
  obtain ⟨u, before, after⟩ := drives d
  have grant : (changePhase .parked s).grant d = (u.grant d).neutral .parked := by
    rw [grants, parkGrants, after.grant, neutralEvent_grant]
  have entered : SameDrive d s w := ⟨rfl, rfl⟩
  have met : Reclamped d s u := ((Reclamped.of_same entered).trans (reclamped d)).trans (.of_same before)
  refine ⟨neutralEvent_neutralized .parked met (by rw [grant]) (by rw [ports, parkGrants, after.port]), ?_⟩
  rw [grant, Grant.neutral_hold, met.hold]

/-- In PARKED every permit is low (R109). -/
theorem settle_permits_parked {s : State} (parked : s.phc.phase = .parked) : (settle s).gru.permits = Permits.low := by
  show s.permitLevels = _
  simp [State.permitLevels, State.permitLevel, parked, Permits.low]

end Sys2Proof.Machine
end

