-- ==== Sys2Proof/Proofs/PhaseRequests.lean ====
section
/-! The requests that move the phase (R48 to R61): what a change of phase leaves at the end of a cab request, said once for
PHASE, ENGAGE, RELEASE and ABORT_OP; and the release latch of RELEASE_ENABLE. -/

namespace Sys2Proof.Machine

/-! A cab request that moves the phase. -/

/-- What a cab request leaves that moves the phase to `to_` and is answered `a`: its PHASE_CHANGE record, the envelope of the
new phase, the store enable latch clear, and nothing else but grants within the envelope (R48, R162). -/
structure PhaseTaken (to_ : Phase) (a : Answer) (s t : State) : Prop where
  answered : Answered .cab a s t
  brc : t.brc = s.brc.ask s.znt.sessionOpen s.stk.depth s.stk.depth (.event (.phaseChange s.phc.phase to_))
  current : t.env = t.envelope
  gst : t.gst = { s.gst with storeEnable := false }
  keeps : KeepsAllBut [.phc, .brc, .env, .grants, .gst, .pif] s t

/-- A change of phase, with what its request writes of the PHC beside the phase, at the end of the request (R48, R53, R57). -/
theorem cabEnded_phaseTaken (to_ : Phase) (s : State) (phc : Phc) (h : phc.phase = to_) (a : Answer) :
    PhaseTaken to_ a s (settle (cabEnded ((changePhase to_ (s.frameEnded .cab)).withPhc phc, a))) := by
  have e := (changePhase_effect to_ (s.frameEnded .cab)).trans ((withPhc_effect _ phc).mono (by simp))
  have current : Current ((changePhase to_ (s.frameEnded .cab)).withPhc phc) :=
    (changePhase_current to_ _).of_inputs rfl rfl rfl (by rw [changePhase_phase]; exact h) rfl rfl rfl rfl
  exact {
    answered := cabEnded_answered (r := (_, a)) e
    brc := (changePhase_brc to_ (s.frameEnded .cab)).trans rfl
    current := settle_current (cabEnded_current current a)
    gst := by rw [settle_gst, cabEnded_gst, e.gst_eq, frameEnded_gst]
    keeps := cabEnded_keeps (r := (_, a)) e (by simp) (by simp) }

/-- A change of phase alone (R48). -/
theorem changePhase_phaseTaken (to_ : Phase) (s : State) (a : Answer) :
    PhaseTaken to_ a s (settle (cabEnded (changePhase to_ (s.frameEnded .cab), a))) :=
  cabEnded_phaseTaken to_ s (changePhase to_ (s.frameEnded .cab)).phc (changePhase_phase to_ _) a

/-- A change of phase that starts an operation (R53, R57). -/
theorem startOperation_phaseTaken (to_ : Phase) (angle timer : Nat) (target : Option ReleaseTarget) (s : State) (a : Answer) :
    PhaseTaken to_ a s (settle (cabEnded (startOperation angle timer target (changePhase to_ (s.frameEnded .cab)), a))) :=
  cabEnded_phaseTaken to_ s { (changePhase to_ (s.frameEnded .cab)).phc with op := some ⟨angle, timer⟩, target := target }
    (changePhase_phase to_ _) a

/-- The PHC as such a request leaves it (R46, R53, R57). -/
theorem startOperation_phc {to_ : Phase} (notHoist : to_ ≠ .hoist) (angle timer : Nat) (target : Option ReleaseTarget)
    (s : State) (a : Answer) :
    (settle (cabEnded (startOperation angle timer target (changePhase to_ (s.frameEnded .cab)), a))).phc =
      ⟨to_, some ⟨angle, timer⟩, target, false, false⟩ := by
  rw [settle_phc, cabEnded_phc, startOperation, State.withPhc_phc, changePhase_phc, decide_eq_false notHoist]
  rfl

/-- One check of a cab request: refused where it fails, and otherwise judged by what follows it (R49, R53, R57, R61). -/
theorem refused_or {s t : State} {code : Code} {x y : Int} {c d : Prop} [Decidable c] [Decidable d] {r : State × Answer}
    {Q : Prop} (h : t = settle (cabEnded (if c then refuse code x y (s.frameEnded .cab) else r))) (same : d ↔ c)
    (rest : ¬d → t = settle (cabEnded r) → Q) : if d then CabAnsweredOnly (answer code x y) s t else Q := by
  by_cases fails : d
  · rw [if_pos fails]
    rw [if_pos (same.mp fails)] at h
    exact h ▸ cabEnded_refused s code x y
  · rw [if_neg fails]
    rw [if_neg (mt same.mpr fails)] at h
    exact rest fails h

/-! PHASE. -/

theorem Phase.ofCode_eq_none_iff (n : Nat) : Phase.ofCode n = none ↔ 6 < n := by
  unfold Phase.ofCode
  split <;> simp_all
  omega

theorem Phase.code_of_ofCode {n : Nat} {p : Phase} (h : Phase.ofCode n = some p) : p.code = n := by
  unfold Phase.ofCode at h
  split at h <;> simp only [Option.some.injEq, reduceCtorEq] at h
  all_goals subst h; rfl

/-- The moves PHASE may ask for are those of the second table of R49. -/
theorem phaseMayMove_iff (from_ to_ : Phase) : phaseMayMove from_ to_ = true ↔ to_.code ∈ phaseTargets from_ := by
  cases from_ <;> cases to_ <;> simp [phaseMayMove, phaseTargets, Phase.code]

/-- A PHASE leaves everything, or makes the change of phase it asks for (R49). -/
theorem servePhase_cases (a b : Word) (s : State) : (servePhase a b s).1 = s ∨
    ∃ to_, servePhase a b s = (changePhase to_ s, answer .ok to_.code s.phaseCode) := by
  unfold servePhase phaseRequested phaseTaken
  split
  · exact .inl rfl
  split
  · exact .inl rfl
  next to_ _ =>
  split_ifs
  case neg => exact .inr ⟨to_, rfl⟩
  all_goals exact .inl rfl

theorem eq_zero_iff_code {a : Word} {p : Phase} (h : p.code = a.toNat) : a = 0 ↔ p = .parked := by
  rw [← BitVec.toNat_inj, ← h]
  cases p <;> simp [Phase.code]

theorem eq_six_iff_code {a : Word} {p : Phase} (h : p.code = a.toNat) : a = 6 ↔ p = .spinOff := by
  rw [← BitVec.toNat_inj, ← h]
  cases p <;> simp [Phase.code]

/-- The state a PHASE leaves on a ready port (R49). -/
theorem exec_phase {s : State} (ready : CabReady s) (a b : Word) : exec (.phase .cab a b) s =
    .next (settle (cabEnded (servePhase a b (s.frameEnded .cab)))) :=
  exec_cabRequest (c := .phase) ready rfl rfl rfl a b

/-- The checks of a PHASE with a phase code, and its answer (R49, R50). -/
theorem phaseRequested_checks {to_ : Phase} {s t : State}
    (h : t = settle (cabEnded (phaseRequested to_ (s.frameEnded .cab)))) :
    if to_.code ∉ phaseTargets s.phc.phase ∨ (to_ ≠ .parked ∧ (s.entry .estop).condition = true) then
      CabAnsweredOnly (answer .wrongPhase s.phc.phase.code to_.code) s t
    else if s.phc.phase = .parked ∧ to_ ≠ .parked ∧ s.gst.active = none then CabAnsweredOnly (answer .noGeometry 0 0) s t
    else if to_ = .spinOff ∧ (s.phc.phase = .parked ∨ s.phc.phase = .free) ∧
        ¬(allFree s.stk.joints = true ∧ s.stk.depth < 0) then
      CabAnsweredOnly (answer .wrongPhase s.phc.phase.code to_.code) s t
    else if s.phc.phase = .parked ∧ to_ = .parked then CabAnsweredOnly (answer .ok 0 0) s t
    else Answered .cab (answer .ok to_.code s.phc.phase.code) s t ∧ t.phc.phase.code = to_.code := by
  unfold phaseRequested at h
  refine refused_or h ?_ fun _ h => refused_or h Iff.rfl fun _ h => refused_or h ?_ fun _ h => ?_
  · simp [← phaseMayMove_iff, State.estopPresent]
  · have ground : (!(s.frameEnded .cab).clearOfGround) = true ↔ ¬(allFree s.stk.joints = true ∧ s.stk.depth < 0) := by
      show (!(allFree s.stk.joints && decide (s.stk.depth < 0))) = true ↔ _
      rw [Bool.not_eq_true', Bool.eq_false_iff, ne_eq, Bool.and_eq_true, decide_eq_true_eq]
    rw [ground]
    rfl
  unfold phaseTaken at h
  by_cases still : s.phc.phase = .parked ∧ to_ = .parked
  · obtain ⟨parked, rfl⟩ := still
    have ok : answer .ok (Phase.code .parked) (s.frameEnded .cab).phaseCode = answer .ok 0 0 := by
      rw [State.phaseCode, frameEnded_phc, parked]; rfl
    rw [if_pos ⟨rfl, parked⟩, ok] at h
    rw [if_pos ⟨parked, rfl⟩, h]
    exact cabEnded_answeredOnly (r := (s.frameEnded .cab, answer .ok 0 0)) (.refl _)
  · rw [if_neg (fun k => still k.symm)] at h
    rw [if_neg still, h]
    exact ⟨(changePhase_phaseTaken to_ s _).answered, congrArg Phase.code (changePhase_phase to_ (s.frameEnded .cab))⟩

/-- The checks of PHASE in order (R49). -/
theorem servePhase_checks {a b : Word} {s t : State} (h : t = settle (cabEnded (servePhase a b (s.frameEnded .cab)))) :
    if s.gst.commit.isSome then CabAnsweredOnly (answer .busy 0 0) s t
    else if 6 < a.toNat ∨ b ≠ 0 then CabAnsweredOnly (answer .badArg 0 0) s t
    else if a.toNat ∉ phaseTargets s.phc.phase ∨ (a ≠ 0 ∧ (s.entry .estop).condition = true) then
      CabAnsweredOnly (answer .wrongPhase s.phc.phase.code a.toNat) s t
    else if s.phc.phase = .parked ∧ a ≠ 0 ∧ s.gst.active = none then CabAnsweredOnly (answer .noGeometry 0 0) s t
    else if a = 6 ∧ (s.phc.phase = .parked ∨ s.phc.phase = .free) ∧ ¬(allFree s.stk.joints = true ∧ s.stk.depth < 0) then
      CabAnsweredOnly (answer .wrongPhase s.phc.phase.code a.toNat) s t
    else if s.phc.phase = .parked ∧ a = 0 then CabAnsweredOnly (answer .ok 0 0) s t
    else Answered .cab (answer .ok a.toNat s.phc.phase.code) s t ∧ t.phc.phase.code = a.toNat := by
  unfold servePhase at h
  refine refused_or h Iff.rfl fun _ h => ?_
  cases named : Phase.ofCode a.toNat with
  | none =>
    rw [named] at h
    rw [if_pos (.inl ((Phase.ofCode_eq_none_iff _).mp named)), h]
    exact cabEnded_refused s _ _ _
  | some to_ =>
    have code : to_.code = a.toNat := Phase.code_of_ofCode named
    have low : ¬6 < a.toNat := fun high => by simp [(Phase.ofCode_eq_none_iff _).mpr high] at named
    rw [named] at h
    refine refused_or h (by simp [low]) fun _ h => ?_
    simp only [← code, ne_eq, eq_zero_iff_code code, eq_six_iff_code code]
    exact phaseRequested_checks h

/-- What a PHASE to PARKED leaves of a drive, at the end of the request (R99, R104). -/
theorem cabEnded_parked (s : State) (a : Answer) (d : Drive) :
    Neutralized .parked d s (settle (cabEnded (changePhase .parked (s.frameEnded .cab), a))) := by
  have own : d.port ≠ .cab := (Drive.cab_ne_port d).symm
  have before : SameDrive d s (s.frameEnded .cab) := ⟨rfl, State.port_withPort_of_ne s _ own⟩
  have after : SameDrive d (changePhase .parked (s.frameEnded .cab))
      (settle (cabEnded (changePhase .parked (s.frameEnded .cab), a))) :=
    ⟨settle_grant _ d, State.port_withPort_of_ne _ _ own⟩
  exact ((changePhase_parked (s.frameEnded .cab)).1 d).1.congr before after

/-- Settles O15: the checks in order; and a PHASE that moves the phase is a change of phase alone. -/
theorem phaseMovesAsAsked : Obligations.PhaseMovesAsAsked := by
  refine ⟨fun a b s ready => ⟨_, exec_phase ready a b, servePhase_checks rfl⟩, fun a b s t ready taken moves => ?_⟩
  rw [exec_phase ready] at taken
  injection taken with taken
  subst taken
  rcases servePhase_cases a b (s.frameEnded .cab) with stands | ⟨to_, served⟩
  · exact absurd (by rw [settle_phc, cabEnded_phc, stands]; rfl) moves
  rw [served]
  have phc : (changePhase to_ (s.frameEnded .cab)).phc = ⟨to_, none, none, false, decide (to_ = .hoist) && s.armAtEntry⟩ :=
    changePhase_phc to_ _
  have moved := changePhase_phaseTaken to_ s (answer .ok to_.code (s.frameEnded .cab).phaseCode)
  have entered : (settle (cabEnded (changePhase to_ (s.frameEnded .cab),
      answer .ok to_.code (s.frameEnded .cab).phaseCode))).phc.phase = to_ := changePhase_phase to_ _
  rw [entered]
  refine ⟨?_, moved.brc, moved.current, moved.gst, moved.keeps, ?_⟩
  · rw [settle_phc, cabEnded_phc, phc, Bool.decide_and, State.armAtEntry, Bool.decide_and]
  · rintro rfl
    refine ⟨settle_permits_parked (changePhase_phase .parked _), fun d => ?_⟩
    have parked := cabEnded_parked s (answer .ok (Phase.code .parked) (s.frameEnded .cab).phaseCode) d
    exact ⟨parked.waits, fun active => ⟨parked.granted active, parked.withdrawn active⟩, parked.stands⟩

/-! ENGAGE, RELEASE and ABORT_OP. -/

/-- Settles O16: the checks in order, then the seating turn. -/
theorem engageStartsTheSeatingTurn : Obligations.EngageStartsTheSeatingTurn := by
  intro a b s ready mask timeout
  refine ⟨_, exec_cabRequest (c := .engage) ready rfl rfl rfl a b, ?_⟩
  generalize ht : settle _ = t
  have h := ht.symm
  simp only [serve, serveEngage] at h
  refine refused_or h Iff.rfl fun _ h => refused_or h Iff.rfl fun _ h => refused_or h Iff.rfl fun free h =>
    refused_or h Iff.rfl fun _ h => ?_
  have from_ : s.phc.phase = .free := not_not.mp free
  have taken : PhaseTaken .engaging (answer .ok mask timeout) s t := by
    rw [h]
    exact startOperation_phaseTaken .engaging 0 timeout.toNat none s (answer .ok mask timeout)
  have brc := taken.brc
  rw [from_] at brc
  refine ⟨taken.answered, ?_, brc, taken.current, taken.gst, taken.keeps⟩
  rw [h]
  exact startOperation_phc (by simp) 0 timeout.toNat none s (answer .ok mask timeout)

theorem releaseTarget_eq_none_iff (a : Word) : releaseTarget a = none ↔ a ≠ 1 ∧ a ≠ 5 := by
  unfold releaseTarget
  split_ifs <;> simp_all

/-- The target a RELEASE names, and its code (R57). -/
theorem releaseTarget_eq_some {a : Word} {target : ReleaseTarget} (h : releaseTarget a = some target) :
    target = (if a = 1 then .free else .hoist) ∧ target.phase.code = a.toNat := by
  unfold releaseTarget at h
  split_ifs at h with one five
  · obtain rfl : .free = target := Option.some.inj h
    exact ⟨(if_pos one).symm, by rw [one]; rfl⟩
  · obtain rfl : .hoist = target := Option.some.inj h
    exact ⟨(if_neg one).symm, by rw [five]; rfl⟩

/-- Settles O18: the checks in order, then the unlocking turn. -/
theorem releaseStartsTheUnlockingTurn : Obligations.ReleaseStartsTheUnlockingTurn := by
  intro a b s ready k limit
  refine ⟨_, exec_cabRequest (c := .release) ready rfl rfl rfl a b, ?_⟩
  generalize ht : settle _ = t
  have h := ht.symm
  simp only [serve, serveRelease] at h
  refine refused_or h Iff.rfl fun _ h => refused_or h Iff.rfl fun drill h => ?_
  have from_ : s.phc.phase = .drill := not_not.mp drill
  cases named : releaseTarget a with
  | none =>
    rw [named] at h
    rw [if_pos (.inl ((releaseTarget_eq_none_iff a).mp named)), h]
    exact cabEnded_refused s _ _ _
  | some target =>
    obtain ⟨which, code⟩ := releaseTarget_eq_some named
    have good : ¬(a ≠ 1 ∧ a ≠ 5) := fun bad => by simp [(releaseTarget_eq_none_iff a).mpr bad] at named
    rw [named] at h
    refine refused_or h (by simp only [good, false_or]) fun _ h => ?_
    simp only [releaseRequested] at h
    refine refused_or h (by simp) fun _ h => refused_or h Iff.rfl fun _ h => refused_or h Iff.rfl fun _ h => ?_
    have taken : PhaseTaken .releasing (answer .ok k a.toNat) s t := by
      rw [h, ← code]
      exact startOperation_phaseTaken .releasing _ _ (some target) s _
    have brc := taken.brc
    rw [from_] at brc
    refine ⟨taken.answered, ?_, brc, taken.current, taken.gst, taken.keeps⟩
    rw [h, ← which]
    exact startOperation_phc (by simp) _ _ (some target) s _

/-- Settles O19: the checks in order, then the phase the operation returns to. -/
theorem abortOpEndsTheOperation : Obligations.AbortOpEndsTheOperation := by
  intro a b s ready target
  refine ⟨_, exec_cabRequest (c := .abortOp) ready rfl rfl rfl a b, ?_⟩
  generalize ht : settle _ = t
  have h := ht.symm
  simp only [serve, serveAbortOp] at h
  refine refused_or h Iff.rfl fun _ h => refused_or h Iff.rfl fun _ h => ?_
  have taken : PhaseTaken target (answer .ok target.code ((s.phc.op.map Operation.angle).getD 0)) s t := by
    rw [h]
    exact changePhase_phaseTaken target s _
  refine ⟨taken.answered, ?_, taken.brc, taken.current, taken.gst, taken.keeps⟩
  have notHoist : target ≠ .hoist := by
    show (if s.phc.phase = .releasing then Phase.drill else .free) ≠ .hoist
    split <;> simp
  have phc : t.phc = { (changePhase target (s.frameEnded .cab)).phc with releaseLatch := false } := by rw [h]; rfl
  rw [phc, changePhase_phc, decide_eq_false notHoist]
  rfl

/-! RELEASE_ENABLE. -/

/-- Settles O17: the latch set or cleared by A and B alone. -/
theorem releaseEnableSetsTheLatch : Obligations.ReleaseEnableSetsTheLatch := by
  intro a b s ready
  refine ⟨_, exec_servedRequest (c := .releaseEnable) ready.1 rfl (.inl ready.2) a b 0, ?_⟩
  simp only [serve, serveReleaseEnable]
  have latched : ∀ on, Effect [.phc] (s.frameEnded .cab)
      ((s.frameEnded .cab).withPhc { s.phc with releaseLatch := on }) := fun on => withPhc_effect _ _
  by_cases zero : a = 0 ∧ b = 0
  · rw [if_pos zero, if_pos zero, decide_eq_true zero]
    exact ⟨rfl, rfl, answered_keeps (latched true) (clearLatches_effect _ _ _) (by simp) (by simp),
      answered_alone (latched true) (clearLatches_pif _ _ _)⟩
  · rw [if_neg zero, if_neg zero, decide_eq_false zero]
    have refused := (latched false).trans (useFree_effect _ |>.mono (by simp))
    exact ⟨rfl, rfl, answered_keeps refused (clearLatches_effect _ _ _) (by simp) (by simp), _, _,
      answered_alone refused (clearLatches_pif _ _ _)⟩

end Sys2Proof.Machine
end

