-- ==== Sys2Proof/Proofs/RecordReads.lean ====
section
/-! RECORD_READ at the end of its frame: the oldest record removed, and the gap written into the slot it frees (R156,
R157). -/

namespace Sys2Proof.Machine

/-- The oldest record of a FIFO that holds one is a record of its own kind; an empty FIFO yields the NONE record (R157). -/
theorem Brc.oldest_cons {b : Brc} {r : Record} {rs : List Record} (h : b.fifo = r :: rs) : b.oldest = r := by
  rw [Brc.oldest, h]
  rfl

theorem Brc.oldest_nil {b : Brc} (h : b.fifo = []) : b.oldest = .nothing := by
  rw [Brc.oldest, h]
  rfl

/-- The oldest record removed, with a pending gap written behind those left (R156, R157). -/
theorem Brc.removeOldest_cons {b : Brc} {r : Record} {rs : List Record} (h : b.fifo = r :: rs) : b.removeOldest =
    if b.gap.pending then
      { b with
        fifo := rs ++ [⟨b.seqCounter, b.gap.first, b.gap.last, .gap b.gap.count⟩]
        seqCounter := b.seqCounter + 1, gap := ⟨0, false, 0, 0⟩ }
    else { b with fifo := rs } := by
  rw [Brc.removeOldest, h, List.tail_cons]
  unfold Brc.writeGap
  split <;> rfl

/-- The part after a RECORD_READ that its owner served: it keeps the release latch and clears the store enable latch
(R52, R162). -/
theorem recordRead_ended {a b : Word} {o : Bool} {l : Record} {s : State} {r : State × Answer}
    (e : Effect [.brc] (s.frameEnded .cab) r.1) :
    let t := settle (clearLatches .cab ⟨Cmd.recordRead.code, a, b, o, l⟩ (answeredOn .cab r))
    t.phc = s.phc ∧ t.gst = { s.gst with storeEnable := false } ∧ KeepsAllBut [.brc, .gst, .pif] s t ∧
      t.brc = r.1.brc ∧ AnsweredAlone .cab r.2 s t := by
  have cleared : clearLatches .cab ⟨Cmd.recordRead.code, a, b, o, l⟩ (answeredOn .cab r) =
      (answeredOn .cab r).withStoreEnable false := clearLatches_cab .recordRead a b o l _
  rw [cleared]
  refine ⟨e.phc_eq, ?_, answered_keeps e (withGst_effect _ _) (by simp) (by simp), rfl, answered_alone e rfl⟩
  exact congrArg (fun g : Gst => { g with storeEnable := false }) e.gst_eq

/-- Settles O27: refused, on an empty FIFO, and with a record to remove. -/
theorem recordReadRemovesTheOldest : Obligations.RecordReadRemovesTheOldest := by
  intro a b e s ready inv
  refine ⟨_, exec_servedRequest (c := .recordRead) ready.1 rfl (.inl ready.2) a b e, ?_⟩
  simp only [serve, serveRecordRead, if_true, decide_eq_true_eq, frameEnded_brc]
  by_cases bad : a ≠ 0 ∨ b ≠ 0 ∨ e ≠ 0
  · rw [if_pos bad, if_pos bad]
    obtain ⟨phc, gst, keeps, brc, alone⟩ := recordRead_ended (s := s) (a := a) (b := b) (o := decide (e ≠ 0))
      (l := s.brc.oldest) (r := refuse .badArg s.brc.fifo.length 65535 (s.frameEnded .cab)) (.refl _)
    exact ⟨phc, gst, keeps, brc, alone⟩
  rw [if_neg bad, if_neg bad]
  cases held : s.brc.fifo with
  | nil =>
    rw [Brc.oldest_nil held, if_pos rfl]
    obtain ⟨phc, gst, keeps, brc, alone⟩ := recordRead_ended (s := s) (a := a) (b := b) (o := decide (e ≠ 0))
      (l := .nothing) (r := (s.frameEnded .cab, answer .ok 0 65535)) (.refl _)
    exact ⟨phc, gst, keeps, brc, alone⟩
  | cons oldest rest =>
    have kind : oldest.body ≠ .none := inv.kinds oldest (by rw [held]; simp)
    rw [Brc.oldest_cons held, if_neg kind, State.withBrc_brc]
    obtain ⟨phc, gst, keeps, brc, alone⟩ := recordRead_ended (s := s) (a := a) (b := b) (o := decide (e ≠ 0))
      (l := oldest) (r := ((s.frameEnded .cab).withBrc s.brc.removeOldest,
        answer .ok s.brc.removeOldest.fifo.length oldest.seq.toNat)) (withBrc_effect _ _)
    refine ⟨phc, gst, keeps, ?_, brc.trans (Brc.removeOldest_cons held)⟩
    rw [brc]
    exact alone

end Sys2Proof.Machine
end

