-- ==== Sys2Proof/Proofs/OperationExpiries.lean ====
section
/-! The expiry of the op timer and of a grant's life (R56, R60, R107, R108). -/

namespace Sys2Proof.Machine

/-! The op timer. -/

/-- An operation in flight is a seating turn or an unlocking turn, and returns where its kind says (R56, R60). -/
theorem returnPhase_eq {s : State} (inv : PhaseInv s) (op : s.phc.op ≠ none) :
    s.returnPhase = if s.phc.phase = .engaging then .free else .drill := by
  have kind : s.phc.phase = .engaging ∨ s.phc.phase = .releasing := inv.operation.mp (Option.isSome_iff_ne_none.mpr op)
  unfold State.returnPhase
  rcases kind with kind | kind <;> simp [kind]

theorem exec_opTimerExpiry (s : State) : exec .opTimerExpiry s = .next (settle
    (if s.phc.op = none then s else changePhase s.returnPhase (raise .opTimeout s))) := by
  simp only [exec, execOpTimerExpiry]
  cases s.phc.op <;> rfl

/-- A raise and then a change of phase to `to_`, outside XRST (R48, R56, R60, R134). -/
theorem raise_changePhase (src : Source) {to_ : Phase} {s : State} (running : s.lines.xrst = false)
    (notHoist : to_ ≠ .hoist) :
    let t := changePhase to_ (raise src s)
    t.phc = ⟨to_, none, none, false, false⟩ ∧ (t.entry src).latched = true ∧
    (∀ x, x ≠ src → t.entry x = s.entry x) ∧
    t.brc = (s.brc.ask s.znt.sessionOpen s.stk.depth s.stk.depth (.event (.faultRaised src))).ask
      s.znt.sessionOpen s.stk.depth s.stk.depth (.event (.phaseChange s.phc.phase to_)) ∧
    Current t ∧ Effect [.phc, .env, .grants, .faults, .brc, .pif] s t := by
  intro t
  have raised := raise_effect src s
  have moved := changePhase_effect to_ (raise src s)
  obtain ⟨o, latched⟩ := raise_entry_self src s running
  refine ⟨?_, by rw [moved.entry_eq, latched], fun x hx => by rw [moved.entry_eq, raise_entry_of_ne hx], ?_,
    changePhase_current _ _, (raised.mono (by simp)).trans (moved.mono (by simp))⟩
  · rw [show t.phc = _ from changePhase_phc to_ _, decide_eq_false notHoist, Bool.false_and]
  · rw [show t.brc = _ from changePhase_brc to_ _, raise_brc, raised.sessionOpen_eq, raised.stk_eq, raised.phc_eq,
      running]
    rfl

/-! The life of a grant. -/

/-- With more than its last millisecond left, and in a record that is not ACTIVE, a life does not end (R108; entries 7
and 34). -/
theorem exec_grantExpired_stands {d : Drive} {s : State} (h : ∀ life ≤ 1, (s.grant d).state ≠ .active life) :
    exec (.grantExpired d) s = .next (settle s) := by
  simp only [exec, execGrantExpired]
  cases state : (s.grant d).state with
  | active life => exact if_neg fun last => h life last state
  | unacked | neutralWait => rfl

theorem exec_grantExpired_lapses {d : Drive} {s : State} {life : Nat} (active : (s.grant d).state = .active life)
    (last : life ≤ 1) : exec (.grantExpired d) s = .next (settle (withdraw d .grantExpired s)) := by
  simp only [exec, execGrantExpired, active, if_pos last]
  rfl

/-- The end of an event settles each permit to its level, and BRAKE_RELEASE to the hoist's (R109, R110). -/
theorem settle_permit (s : State) (d : Drive) : (settle s).gru.permits.of d = s.permitLevel d ∧
    (settle s).gru.permits.brakeRelease = s.permitLevel .hoist := by
  cases d <;> exact ⟨rfl, rfl⟩

theorem withdraw_grant (d : Drive) (c : NeutralCause) (s : State) :
    (withdraw d c s).grant d = (s.grant d).toNeutral c := State.grant_withGrant_self s d _

/-- What the end of a life leaves of the drive: its record withdrawn, its permit low, its answer rewritten where R104 allows
(R99, R104, R107). -/
theorem grantLapsed (d : Drive) (s : State) :
    let t := settle (withdraw d .grantExpired s)
    t.grant d = ⟨.neutralWait .grantExpired, (s.grant d).lastDemand, 0, (s.grant d).reportedCeiling, false, false, false,
      (s.grant d).hold⟩ ∧
    t.gru.permits.of d = false ∧ (d = .hoist → t.gru.permits.brakeRelease = false) ∧
    AnswerWithdrawn d .grantExpired s t := by
  intro t
  have record := withdraw_grant d .grantExpired s
  have low : (withdraw d .grantExpired s).permitLevel d = false := by
    rw [State.permitLevel, record]
    rfl
  obtain ⟨permit, brake⟩ := settle_permit (withdraw d .grantExpired s) d
  refine ⟨(settle_grant _ d).trans record, permit.trans low, ?_, (withdraw_answer d .grantExpired s).1⟩
  rintro rfl
  exact brake.trans low

/-- Settles O41: the op timer by whether an operation is in flight, a grant's life by its last millisecond. -/
theorem expiriesEndOperationsAndGrants : Obligations.ExpiriesEndOperationsAndGrants := by
  refine ⟨fun s inv running => ⟨_, exec_opTimerExpiry s, ?_⟩, fun d s => ?_⟩
  · by_cases idle : s.phc.op = none
    · rw [if_pos idle, if_pos idle]
      exact (settle_effect s).keeps
    · rw [if_neg idle, if_neg idle, returnPhase_eq inv idle]
      have notHoist : (if s.phc.phase = .engaging then Phase.free else .drill) ≠ .hoist := by split <;> simp
      obtain ⟨phc, latched, others, brc, current, effect⟩ := raise_changePhase .opTimeout running notHoist
      have whole := effect.trans ((settle_effect _).mono (by simp))
      exact ⟨phc, latched, others, brc, settle_current current, whole.answers, whole.keeps⟩
  · have same : ∀ e, (settle s).grant e = s.grant e := settle_grant s
    have frame : KeepsAllBut [.grants, .pif] s (settle s) := ((settle_effect s).mono (by simp)).keeps
    cases state : (s.grant d).state with
    | unacked | neutralWait =>
      exact ⟨_, exec_grantExpired_stands (by simp [state]), fun e _ => same e, frame, fun _ _ => rfl, same d, rfl⟩
    | active life =>
      dsimp only
      by_cases renewed : 1 < life
      · simp only [if_pos renewed]
        refine ⟨_, exec_grantExpired_stands fun n last => ?_, fun e _ => same e, frame, fun _ _ => rfl, same d, rfl⟩
        rw [state]
        intro equal
        injection equal with equal
        omega
      · simp only [if_neg renewed]
        have only := withdraw_only d s .grantExpired
        have whole := (withdraw_effect d .grantExpired s).trans ((settle_effect _).mono (by simp))
        exact ⟨_, exec_grantExpired_lapses state (not_lt.mp renewed),
          fun e ne => (settle_grant _ e).trans (only.grants e ne), whole.keeps, only.ports, grantLapsed d s⟩

end Sys2Proof.Machine
end

