-- ==== Sys2Proof/Proofs/HoistAdvance.lean ====
section
/-! The PHC in HOIST: its evaluation at scans, counts and CONFIRM_FREE, with the envelope of the phase it moves to (R65,
R66). -/

namespace Sys2Proof.Machine

/-! The envelope stays that of its inputs through a boundary. -/

theorem Current.ite {s t : State} {p : Prop} [Decidable p] (h : Current s) (k : Current t) :
    Current (if p then s else t) := by
  split
  · exact h
  · exact k

section
variable {s : State} (h : Current s)
include h

theorem decideConditions_current (cs : List (Source × Bool)) : Current (decideConditions cs s) := by
  induction cs generalizing s with
  | nil => exact h
  | cons c cs ih => exact ih (decideCondition_current h c.1 c.2)

theorem takeBoundary_current : Current (takeBoundary s) := by
  have installed : Current (s.withFsv s.fsv.boundary) := h.of_inputs rfl rfl rfl rfl rfl rfl rfl rfl
  have dropped : Current (handDropReach (handLimitReach (s.withFsv s.fsv.boundary))) :=
    (handLimitReach_current installed).of_inputs rfl rfl rfl rfl rfl rfl rfl rfl
  exact dropped.effect (Effect.foldl (handHolds_effect s.fsv.newlyHolds) drivesInOrder
    (handDropReach (handLimitReach (s.withFsv s.fsv.boundary))))

theorem scanSupervised_current : Current (scanSupervised s) := by
  have decided := (decideConditions_current h s.scanConditions).effect (takeScanWarnings_effect _)
  exact .ite (takeBoundary_current decided) decided

theorem phcCount_current (forward : Bool) : Current (phcCount forward s) := by
  have counted : ∀ op, Current (s.withPhc { s.phc with op := op }) := fun op =>
    h.of_inputs rfl rfl rfl rfl rfl rfl rfl rfl
  unfold phcCount
  split
  · exact h
  · dsimp only
    split
    · exact .ite (.ite (changePhase_current _ _) (counted _)) (.ite (changePhase_current _ _) (counted _))
    · exact counted _

theorem takeTurnMark_current : Current (takeTurnMark s) := by
  have marked : Current (s.withMsu { s.msu with markRef := s.msu.angle }) :=
    h.of_inputs rfl rfl rfl rfl rfl rfl rfl rfl
  exact (takeBoundary_current marked).effect (brcTurnMark_effect _)

theorem angleUsed_current : Current (angleUsed s) := by
  have rested : Current (s.withMsu s.msu.endRest) := h.of_inputs rfl rfl rfl rfl rfl rfl rfl rfl
  exact .ite h (.ite (takeTurnMark_current rested) rested)
end

theorem scanTaken_current (r : Readings) (s : State) : Current (scanTaken r s) := by
  have supervised : Current (scanSupervised (scanMeasured r s)) := scanSupervised_current (recompute_current _)
  exact ((phcAfterEvaluation_current supervised s.stk).effect (brcScan_effect _)).effect (brcDepth_effect _ _)

theorem handCount_current (evaluated : Option (List Source)) (s : State) : Current (handCount evaluated s) := by
  unfold handCount
  split
  · exact handOn_current _ s
  · exact recompute_current s

theorem angleCounted_current (forward : Bool) (s : State) : Current (angleCounted forward s) :=
  angleUsed_current ((phcCount_current (phcAfterEvaluation_current (handCount_current _ _) s.stk) forward).effect
    (brcDepth_effect _ _))

/-! The evaluation of the PHC at an event. -/

/-- What an event from `s` leaves at which the PHC evaluates, if the string model moved (R65). -/
structure Advanced (s t : State) : Prop where
  phc : t.phc = advancedPhc s.gst.settings t.stk (modelMoved s.stk t.stk) s.phc
  current : t.phc.phase ≠ s.phc.phase → t.env = t.envelope

/-- Where nothing changed the PHC stands (R65). -/
theorem Advanced.of_same {s t : State} (phc : t.phc = s.phc) (stk : t.stk = s.stk) : Advanced s t := by
  have still : modelMoved s.stk s.stk = false := by simp [modelMoved]
  exact ⟨by rw [stk, still, advancedPhc_false, phc], fun moved => absurd (congrArg Phc.phase phc) moved⟩

theorem positionCountChange_advanced (e : PositionEncoder) (pair : Pair) (s : State) :
    ∃ t, exec (.positionCountChange e pair) s = .next t ∧ Advanced s t := by
  cases count : decodeCount (s.msu.reference e) pair with
  | none => exact ⟨settle (s.withMsu (s.msu.withReference e pair)),
      by simp only [exec, execPositionCountChange, count]; rfl, .of_same rfl rfl⟩
  | some up =>
    refine ⟨_, by simp only [exec, execPositionCountChange, count]; rfl, ?_⟩
    rw [positionCounted_eq]
    exact ⟨afterEvaluation_evaluate_phc s _, fun _ => settle_current (afterEvaluation_current _ _ _)⟩

theorem scanCompletion_advanced (r : Readings) (s : State) :
    ∃ t, exec (.scanCompletion r) s = .next t ∧ Advanced s t := by
  cases running : s.lines.xrst with
  | true => exact ⟨settle s, by simp [exec, execScanCompletion, running, done], .of_same rfl rfl⟩
  | false => exact ⟨settle (scanTaken r s), by simp [exec, execScanCompletion, running, done], scanTaken_phc r s,
      fun _ => settle_current (scanTaken_current r s)⟩

/-- Outside an operation an angle count leaves the PHC to its evaluation (R16, R65). -/
theorem angleCountChange_advanced (pair : Pair) {s : State} (idle : s.phc.op = none) :
    ∃ t, exec (.angleCountChange pair) s = .next t ∧ Advanced s t := by
  cases count : decodeCount s.msu.angleRef pair with
  | none => exact ⟨settle (s.withMsu { s.msu with angleRef := pair }),
      by simp only [exec, execAngleCountChange, count]; rfl, .of_same rfl rfl⟩
  | some forward => exact ⟨_, exec_angleCountChange count, (angleTaken pair forward s).idle idle,
      fun _ => settle_current (angleCounted_current forward _)⟩

/-- Joints confirmed free are an evaluation of the PHC as well (R66). -/
theorem jointsConfirmed_advanced (a : Word) (s : State) : Advanced s (jointsConfirmed a s) := by
  by_cases none : confirmedMask a 0 s.stk.joints = 0
  · have still : jointsConfirmed a s = s := if_pos none
    rw [still]
    exact .of_same rfl rfl
  · refine ⟨(jointsConfirmed_from a none).2, fun _ => ?_⟩
    have taken : jointsConfirmed a s = _ := if_neg none
    rw [taken]
    exact afterEvaluation_current _ _ _

theorem serveConfirmFree_advanced (a b : Word) (s : State) : Advanced s (serveConfirmFree a b s).1 := by
  unfold serveConfirmFree
  split
  · exact .of_same rfl rfl
  · split_ifs
    case neg => exact jointsConfirmed_advanced a s
    all_goals exact .of_same rfl rfl

/-- Settles O39: each event by its evaluation of the PHC, which in HOIST has no operation in flight. -/
theorem hoistAdvancesByItself : Obligations.HoistAdvancesByItself := by
  refine ⟨fun i s inv hoist event => ?_, fun a b s ready inv hoist => ?_⟩
  · have idle : s.phc.op = none := by
      have := inv.operation
      simpa [hoist] using this
    have advanced : ∃ t, exec i s = .next t ∧ Advanced s t := by
      rcases event with ⟨r, rfl⟩ | ⟨e, pair, rfl⟩ | ⟨pair, rfl⟩
      · exact scanCompletion_advanced r s
      · exact positionCountChange_advanced e pair s
      · exact angleCountChange_advanced pair idle
    obtain ⟨t, taken, phc, current⟩ := advanced
    exact ⟨t, taken, phc, fun moved => current (by rwa [hoist])⟩
  · obtain ⟨phc, current⟩ := serveConfirmFree_advanced a b (s.frameEnded .cab)
    refine ⟨_, exec_cabRequest (c := .confirmFree) ready rfl rfl rfl a b, ?_, fun moved => ?_⟩
    · rw [settle_phc, cabEnded_phc, settle_stk, cabEnded_stk]
      exact congrArg (fun p : Phc => { p with releaseLatch := false }) phc
    · have held : Current (serveConfirmFree a b (s.frameEnded .cab)).1 := current (by rw [frameEnded_phc, hoist]; exact moved)
      exact settle_current (cabEnded_current held (serveConfirmFree a b (s.frameEnded .cab)).2)

end Sys2Proof.Machine
end

