-- ==== Sys2Proof/Proofs/EstopAssertions.lean ====
section
/-! ESTOP asserted and released: source 0 raised, its DROP over every drive, and the move to PARKED (R63, R143). -/

namespace Sys2Proof.Machine

/-! Source 0 raised. -/

theorem withEntry_withEntry (s : State) (src : Source) (x y : FaultEntry) :
    (s.withEntry src x).withEntry src y = s.withEntry src y := by
  simp [State.withEntry, State.withFsv, Fsv.withEntry, Vector.set_set]

theorem askEvent_withEntry (d : EventDetail) (s : State) (src : Source) (x : FaultEntry) :
    (askEvent d s).withEntry src x = askEvent d (s.withEntry src x) := rfl

/-- The entry of ESTOP once its condition is decided present (R134, R143). -/
def FaultEntry.asserted (e : FaultEntry) : FaultEntry :=
  { e with
    condition := true, latched := e.latched || !e.condition
    override := if e.condition ∨ e.override.isSome then e.override else some ⟨.drop, .latched⟩ }

/-- The part with ESTOP decided present and its record asked for, before its DROP reaches a drive (R134, R143). -/
def estopSeen (s : State) : State :=
  (s.withEntry .estop (s.entry .estop).asserted).withBrc (if (s.entry .estop).condition then s.brc
    else s.brc.ask s.znt.sessionOpen s.stk.depth s.stk.depth (.event (.faultRaised .estop)))

/-- A raise of a source whose override is in force latches and records it alone (R134). -/
theorem raise_inForce {src : Source} {o : Override} {s : State} (running : s.lines.xrst = false)
    (inForce : (s.entry src).override = some o) :
    raise src s = askEvent (.faultRaised src) (s.withEntry src { s.entry src with latched := true }) := by
  have entry : (askEvent (.faultRaised src) (s.withEntry src { s.entry src with latched := true })).entry src =
      { s.entry src with latched := true } := State.entry_withEntry_self _ _ _
  unfold raise
  rw [if_neg (by simp [running])]
  dsimp only
  rw [entry]
  dsimp only
  rw [inForce]

theorem estopSeen_absent {s : State} (absent : (s.entry .estop).condition = false) :
    estopSeen s = askEvent (.faultRaised .estop) (s.withEntry .estop (s.entry .estop).asserted) := by
  rw [estopSeen, absent]
  rfl

/-- With the condition already present nothing is asked for and nothing else of the part moves (R134). -/
theorem estopSeen_present {s : State} (present : (s.entry .estop).condition = true) :
    estopSeen s = s.withEntry .estop { s.entry .estop with condition := true } := by
  rw [estopSeen, FaultEntry.asserted, present]
  simp only [Bool.not_true, Bool.or_false, true_or, if_true]
  rfl

/-- ESTOP decided present: a LATCHED DROP begins over every drive where the condition was absent and no override of it in
force (R134, R143). -/
theorem decideCondition_estop_eq {s : State} (fixed : EstopFixed s) (running : s.lines.xrst = false) :
    decideCondition .estop true s =
      if (s.entry .estop).condition = false ∧ (s.entry .estop).override = none then
        drivesInOrder.foldl latchedDropBegins (handDropReach (estopSeen s))
      else estopSeen s := by
  obtain ⟨mode, action, -, -⟩ := fixed
  let seen := s.withEntry .estop { s.entry .estop with condition := true }
  have entry : seen.entry .estop = { s.entry .estop with condition := true } := State.entry_withEntry_self _ _ _
  cases condition : (s.entry .estop).condition with
  | true =>
    rw [if_neg (by simp), estopSeen_present condition]
    simp [decideCondition, running, condition]
  | false =>
    have raised : decideCondition .estop true s = raise .estop seen := by
      simp [decideCondition, running, condition, seen]
    rw [raised, estopSeen_absent condition, FaultEntry.asserted, condition]
    cases override : (s.entry .estop).override with
    | some o =>
      rw [if_neg (by simp), raise_inForce (s := seen) (o := o) running (by rw [entry]; exact override), entry, withEntry_withEntry]
      simp [override]
    | none =>
      have begun : (askEvent (.faultRaised .estop) (s.withEntry .estop
          { s.entry .estop with condition := true, latched := true })).entry .estop =
          { s.entry .estop with condition := true, latched := true } := State.entry_withEntry_self _ _ _
      rw [if_pos ⟨rfl, rfl⟩, raise_begins (s := seen) (a := .drop) running (by rw [entry]; exact override)
        (by rw [entry, action]; rfl), entry, withEntry_withEntry,
        beginOverride_drop_all (by rw [begun]; exact mode) (fun m => by cases m <;> rfl), begun, askEvent_withEntry,
        withEntry_withEntry]
      simp

/-- What the decision of ESTOP leaves of the faults, the drives and the records (R63, R111, R134, R143). -/
structure EstopDecided (s t : State) : Prop where
  entry : t.entry .estop = (s.entry .estop).asserted
  others : ∀ src, src ≠ .estop → t.entry src = s.entry src
  fsv : { t.fsv with table := s.fsv.table, dropReach := s.fsv.dropReach } = s.fsv
  begins : (s.entry .estop).condition = false ∧ (s.entry .estop).override = none →
    t.fsv.dropReach = ⟨true, true, true⟩ ∧ ∀ d, (t.grant d).hold = true ∧ Neutralized .drop d s t
  stands : ¬((s.entry .estop).condition = false ∧ (s.entry .estop).override = none) →
    t.fsv.dropReach = s.fsv.dropReach ∧ ∀ d, SameDrive d s t
  brc : t.brc = if (s.entry .estop).condition then s.brc
    else s.brc.ask s.znt.sessionOpen s.stk.depth s.stk.depth (.event (.faultRaised .estop))
  cab : t.port .cab = s.port .cab
  effect : Effect [.faults, .grants, .brc, .pif] s t

theorem estopSeen_effect (s : State) : Effect [.faults, .brc] s (estopSeen s) :=
  ((withEntry_effect s _ _).mono (by simp)).trans ((withBrc_effect _ _).mono (by simp))

/-- A LATCHED DROP begins at every drive: each is held back, and withdrawn where it was ACTIVE (R99, R111). -/
theorem latchedDropAll_neutralized (s : State) :
    (∀ d, ((drivesInOrder.foldl latchedDropBegins s).grant d).hold = true ∧
      Neutralized .drop d s (drivesInOrder.foldl latchedDropBegins s)) ∧
    (drivesInOrder.foldl latchedDropBegins s).port .cab = s.port .cab ∧
    (drivesInOrder.foldl latchedDropBegins s).fsv = s.fsv := by
  obtain ⟨drives, cab⟩ := foldl_drives (fun t d => latchedDropBegins_only d t) s
  refine ⟨fun d => ?_, cab, ?_⟩
  · obtain ⟨u, before, after⟩ := drives d
    have record : (latchedDropBegins u d).grant d = { (u.grant d).neutral .drop with hold := true } := by
      rw [← neutralEvent_grant]
      exact State.grant_withGrant_self _ _ _
    refine ⟨by rw [after.grant, record], neutralEvent_neutralized .drop (.of_same before) ?_ after.port⟩
    rw [after.grant, record]
  · simp only [drivesInOrder, List.foldl_cons, List.foldl_nil, latchedDropBegins_fsv]

theorem decideCondition_estopDecided {s : State} (fixed : EstopFixed s) (running : s.lines.xrst = false) :
    EstopDecided s (decideCondition .estop true s) := by
  have entry : (estopSeen s).entry .estop = (s.entry .estop).asserted := State.entry_withEntry_self _ _ _
  have others : ∀ src, src ≠ .estop → (estopSeen s).entry src = s.entry src := fun src ne =>
    State.entry_withEntry_of_ne s _ ne
  rw [decideCondition_estop_eq fixed running]
  by_cases begins : (s.entry .estop).condition = false ∧ (s.entry .estop).override = none
  · obtain ⟨absent, idle⟩ := begins
    rw [if_pos ⟨absent, idle⟩]
    obtain ⟨drives, cab, fsv⟩ := latchedDropAll_neutralized (handDropReach (estopSeen s))
    have drops := Effect.foldl latchedDropBegins_effect drivesInOrder (handDropReach (estopSeen s))
    have seen : ∀ d, SameDrive d s (handDropReach (estopSeen s)) := fun _ => ⟨rfl, rfl⟩
    exact {
      entry := by rw [drops.entry_eq, handDropReach_entry, entry]
      others := fun src ne => by rw [drops.entry_eq, handDropReach_entry, others src ne]
      fsv := by rw [fsv]; rfl
      begins := fun _ => by
        refine ⟨?_, fun d => ⟨(drives d).1, (drives d).2.congr (seen d) (.refl _ _)⟩⟩
        rw [fsv]
        refine formDropReach_estop (f := (estopSeen s).fsv) (o := ⟨.drop, .latched⟩) ?_ rfl
        rw [show (estopSeen s).fsv.entry .estop = _ from entry, FaultEntry.asserted]
        simp [absent, idle]
      stands := fun stands => absurd ⟨absent, idle⟩ stands
      brc := drops.brc_eq
      cab := cab
      effect := ((estopSeen_effect s).mono (by simp)).trans (((handDropReach_effect _).mono (by simp)).trans
        (drops.mono (by simp))) }
  · rw [if_neg begins]
    exact {
      entry := entry
      others := others
      fsv := rfl
      begins := fun h => absurd h begins
      stands := fun _ => ⟨rfl, fun _ => ⟨rfl, rfl⟩⟩
      brc := rfl
      cab := rfl
      effect := (estopSeen_effect s).mono (by simp) }

/-! The move to PARKED. -/

/-- What follows the decision of ESTOP: the phase moves to PARKED where it is another (R48, R63, R143). -/
structure ParkedFrom (s t : State) : Prop where
  still : s.phc.phase = .parked → t = s
  moved : s.phc.phase ≠ .parked → t.phc = ⟨.parked, none, none, false, false⟩ ∧
    t.brc = s.brc.ask s.znt.sessionOpen s.stk.depth s.stk.depth (.event (.phaseChange s.phc.phase .parked)) ∧
    t.env = t.envelope ∧ ∀ d, Neutralized .parked d s t
  phase : t.phc.phase = .parked
  fsv : t.fsv = s.fsv
  hold : ∀ d, (t.grant d).hold = (s.grant d).hold
  cab : t.port .cab = s.port .cab
  effect : Effect [.phc, .brc, .env, .grants, .pif] s t

theorem parkedFrom (s : State) : ParkedFrom s (if s.phc.phase = .parked then s else changePhase .parked s) := by
  by_cases parked : s.phc.phase = .parked
  · rw [if_pos parked]
    exact ⟨fun _ => rfl, fun h => absurd parked h, parked, rfl, fun _ => rfl, rfl, .refl s⟩
  · rw [if_neg parked]
    obtain ⟨drives, cab⟩ := changePhase_parked s
    exact {
      still := fun h => absurd h parked
      moved := fun _ => ⟨changePhase_phc _ s, changePhase_brc _ s, changePhase_current _ s, fun d => (drives d).1⟩
      phase := changePhase_phase _ s
      fsv := changePhase_fsv s _
      hold := fun d => (drives d).2
      cab := cab
      effect := changePhase_effect _ s }

/-- A record that is not ACTIVE stays so, with the grant and the pending answer it has (R99). -/
theorem ParkedFrom.idle {s t : State} (h : ParkedFrom s t) {d : Drive} (idle : (s.grant d).isActive = false) :
    (t.grant d).isActive = false ∧ (t.grant d).granted = (s.grant d).granted ∧ t.port d.port = s.port d.port := by
  by_cases parked : s.phc.phase = .parked
  · rw [h.still parked]
    exact ⟨idle, rfl, rfl⟩
  · obtain ⟨-, -, -, drives⟩ := h.moved parked
    exact ⟨(drives d).inactive, (drives d).ungranted idle, (drives d).stands idle⟩

/-! ESTOP decided, and the move to PARKED after it. -/

section
variable {s u t : State}

/-- The records wait for neutral with cause PARKED, whatever the decision made of them (R63, R99). -/
theorem EstopDecided.grants (h : EstopDecided s u) (k : ParkedFrom u t) (parked : s.phc.phase ≠ .parked) (d : Drive) :
    (s.grant d).state ≠ .unacked → (t.grant d).state = .neutralWait .parked ∧
      ((s.grant d).isActive = true → (t.grant d).granted = 0) := by
  obtain ⟨-, -, -, drives⟩ := k.moved (by rwa [h.effect.phc_eq])
  intro acked
  by_cases begins : (s.entry .estop).condition = false ∧ (s.entry .estop).override = none
  · obtain ⟨-, dropped⟩ := h.begins begins
    obtain ⟨-, drop⟩ := dropped d
    refine ⟨(drives d).waits (by simp [drop.waits acked]), fun active => ?_⟩
    rw [(drives d).ungranted drop.inactive, drop.granted active]
  · obtain ⟨-, same⟩ := h.stands begins
    rw [← (same d).grant] at acked ⊢
    exact ⟨(drives d).waits acked, (drives d).granted⟩

/-- The pending answer of an ACTIVE record names the first withdrawal (R99, R104). -/
theorem EstopDecided.answers (h : EstopDecided s u) (k : ParkedFrom u t) {d : Drive}
    (active : (s.grant d).isActive = true) :
    if (s.entry .estop).condition = false ∧ (s.entry .estop).override = none then AnswerWithdrawn d .drop s t
    else if s.phc.phase ≠ .parked then AnswerWithdrawn d .parked s t
    else t.port d.port = s.port d.port := by
  split_ifs with begins parked
  · obtain ⟨-, dropped⟩ := h.begins begins
    obtain ⟨-, drop⟩ := dropped d
    obtain ⟨-, -, port⟩ := k.idle drop.inactive
    exact port.trans (drop.withdrawn active)
  all_goals
    obtain ⟨-, same⟩ := h.stands begins
  · obtain ⟨-, -, -, drives⟩ := k.moved (by rwa [h.effect.phc_eq])
    exact ((drives d).congr (same d) (.refl _ _)).withdrawn active
  · rw [k.still (by rw [h.effect.phc_eq]; exact not_not.mp parked), (same d).port]

theorem EstopDecided.idle (h : EstopDecided s u) (k : ParkedFrom u t) {d : Drive} (idle : (s.grant d).isActive = false) :
    t.port d.port = s.port d.port := by
  by_cases begins : (s.entry .estop).condition = false ∧ (s.entry .estop).override = none
  · obtain ⟨-, dropped⟩ := h.begins begins
    obtain ⟨-, drop⟩ := dropped d
    obtain ⟨-, -, port⟩ := k.idle drop.inactive
    exact port.trans (drop.stands idle)
  · obtain ⟨-, same⟩ := h.stands begins
    obtain ⟨-, -, port⟩ := k.idle (by rwa [(same d).grant])
    exact port.trans (same d).port

/-- The faults and the holds after it: the LATCHED DROP over every drive, or no reach moved (R111, R134, R143). -/
theorem EstopDecided.faults (h : EstopDecided s u) (k : ParkedFrom u t) :
    (settle t).entry .estop = (s.entry .estop).asserted ∧
    (∀ src, src ≠ .estop → (settle t).entry src = s.entry src) ∧
    { (settle t).fsv with table := s.fsv.table, dropReach := s.fsv.dropReach, warnings := s.fsv.warnings } = s.fsv ∧
    ((s.entry .estop).condition = false ∧ (s.entry .estop).override = none → (settle t).fsv.dropReach = ⟨true, true, true⟩ ∧
      ∀ d, ((settle t).grant d).hold = true ∧ ((settle t).grant d).isActive = false) ∧
    (¬((s.entry .estop).condition = false ∧ (s.entry .estop).override = none) →
      (settle t).fsv.dropReach = s.fsv.dropReach ∧ ∀ d, ((settle t).grant d).hold = (s.grant d).hold) := by
  have entries : ∀ src, (settle t).entry src = u.entry src := fun src => k.effect.entry_eq src
  have reach : (settle t).fsv.dropReach = u.fsv.dropReach := show t.fsv.dropReach = _ by rw [k.fsv]
  refine ⟨(entries _).trans h.entry, fun src ne => (entries src).trans (h.others src ne), ?_, fun begins => ?_,
    fun stands => ?_⟩
  · show { t.fsv with table := s.fsv.table, dropReach := s.fsv.dropReach, warnings := s.fsv.warnings } = s.fsv
    rw [k.fsv]
    exact congrArg (fun f : Fsv => { f with warnings := s.fsv.warnings }) h.fsv
  · obtain ⟨all, dropped⟩ := h.begins begins
    refine ⟨reach.trans all, fun d => ?_⟩
    obtain ⟨hold, drop⟩ := dropped d
    obtain ⟨inactive, -, -⟩ := k.idle drop.inactive
    rw [settle_grant]
    exact ⟨(k.hold d).trans hold, inactive⟩
  · obtain ⟨kept, same⟩ := h.stands stands
    refine ⟨reach.trans kept, fun d => ?_⟩
    rw [settle_grant, k.hold d, (same d).grant]

/-- The phase, its record and the envelope after it (R63, R143). -/
theorem EstopDecided.phase (h : EstopDecided s u) (k : ParkedFrom u t) :
    let recorded (b : Brc) (d : EventDetail) := b.ask s.znt.sessionOpen s.stk.depth s.stk.depth (.event d)
    let raised := if (s.entry .estop).condition then s.brc else recorded s.brc (.faultRaised .estop)
    if s.phc.phase = .parked then (settle t).phc = s.phc ∧ (settle t).brc = raised ∧ (settle t).env = s.env
    else (settle t).phc = ⟨.parked, none, none, false, false⟩ ∧
      (settle t).brc = recorded raised (.phaseChange s.phc.phase .parked) ∧ (settle t).env = (settle t).envelope ∧
      ∀ d, (s.grant d).state ≠ .unacked → ((settle t).grant d).state = .neutralWait .parked ∧
        ((s.grant d).isActive = true → ((settle t).grant d).granted = 0) := by
  intro recorded raised
  have brc : u.brc = raised := h.brc
  split_ifs with parked
  · have still : t = u := k.still (by rw [h.effect.phc_eq, parked])
    rw [still]
    exact ⟨h.effect.phc_eq, brc, h.effect.env_eq⟩
  · obtain ⟨phc, moved, env, -⟩ := k.moved (by rwa [h.effect.phc_eq])
    rw [brc, h.effect.sessionOpen_eq, h.effect.stk_eq, h.effect.phc_eq] at moved
    refine ⟨phc, moved, settle_current env, fun d => ?_⟩
    rw [settle_grant]
    exact h.grants k parked d
end

/-! The commands. -/

theorem FaultEntry.not_begins {e : FaultEntry} (h : e.condition = true ∨ e.override.isSome = true) :
    ¬(e.condition = false ∧ e.override = none) := by
  rintro ⟨absent, idle⟩
  simp [absent, idle] at h

/-- With its condition absent a decision writes the condition alone (R134); in XRST none is taken (R146). -/
theorem decideCondition_absent (src : Source) (s : State) : decideCondition src false s =
    if s.lines.xrst then s else s.withEntry src { s.entry src with condition := false } := by
  simp [decideCondition]

theorem exec_estopAssert (s : State) : exec .estopAssert s =
    let seen := s.withLines { s.lines with estop := true }
    if s.lines.estop || s.lines.xrst then .next (settle seen) else .next (settle (estopRaised seen)) := rfl

/-- An ESTOP line that changes while XRST is asserted moves the line alone (R146). -/
theorem exec_estopAssert_xrst {s : State} (released : s.lines.estop = false) (held : s.lines.xrst = true) :
    exec .estopAssert s = .next (settle (s.withLines { s.lines with estop := true })) := by
  rw [exec_estopAssert, released, held]
  rfl

theorem exec_estopAssert_running {s : State} (released : s.lines.estop = false) (running : s.lines.xrst = false) :
    exec .estopAssert s = .next (settle (estopRaised (s.withLines { s.lines with estop := true }))) := by
  rw [exec_estopAssert, released, running]
  rfl

theorem exec_estopAssert_again {s : State} (asserted : s.lines.estop = true) :
    exec .estopAssert s = .next (settle (s.withLines { s.lines with estop := true })) := by
  rw [exec_estopAssert, asserted]
  rfl

/-- The line released: the condition absent, and nothing else of the faults (R143). -/
theorem estopRelease_entries (s : State) :
    let t := decideCondition .estop false (s.withLines { s.lines with estop := false })
    t.lines = { s.lines with estop := false } ∧
    t.entry .estop = (if s.lines.xrst then s.entry .estop else { s.entry .estop with condition := false }) ∧
    (∀ src, src ≠ .estop → t.entry src = s.entry src) ∧ Effect [.lines, .faults] s t := by
  intro t
  have lines : Effect [.lines, .faults] s (s.withLines { s.lines with estop := false }) :=
    (withLines_effect s _).mono (by simp)
  by_cases held : s.lines.xrst = true
  · have stands : t = s.withLines { s.lines with estop := false } := (decideCondition_absent _ _).trans (if_pos held)
    rw [stands, if_pos held]
    exact ⟨rfl, rfl, fun _ _ => rfl, lines⟩
  · have written : t = (s.withLines { s.lines with estop := false }).withEntry .estop
        { s.entry .estop with condition := false } := (decideCondition_absent _ _).trans (if_neg held)
    rw [written, if_neg held]
    exact ⟨rfl, State.entry_withEntry_self _ _ _, fun _ ne => State.entry_withEntry_of_ne _ _ ne,
      lines.trans ((withEntry_effect _ _ _).mono (by simp))⟩

/-- Settles O43: asserted by whether XRST is, asserted again, and released. -/
theorem estopDropsEveryDrive : Obligations.EstopDropsEveryDrive := by
  refine ⟨fun s fixed released => ?_, fun s asserted => ?_, fun s => ?_⟩
  · let seen := s.withLines { s.lines with estop := true }
    cases held : s.lines.xrst with
    | true =>
      exact ⟨_, exec_estopAssert_xrst released held, rfl,
        ((withLines_effect s _).trans ((settle_effect _).mono (by simp))).keeps⟩
    | false =>
      refine ⟨_, exec_estopAssert_running released held, ?_⟩
      have decided : EstopDecided seen (decideCondition .estop true seen) := decideCondition_estopDecided fixed held
      have parked : ParkedFrom _ (estopRaised seen) := parkedFrom (decideCondition .estop true seen)
      have whole : Effect [.phc, .env, .grants, .faults, .brc, .pif, .lines] s (settle (estopRaised seen)) :=
        ((withLines_effect s _).mono (by simp)).trans ((decided.effect.mono (by simp)).trans
          ((parked.effect.mono (by simp)).trans ((settle_effect _).mono (by simp))))
      obtain ⟨entry, others, fsv, begins, stands⟩ := decided.faults parked
      have lines : (settle (estopRaised seen)).lines = seen.lines := parked.effect.lines_eq.trans decided.effect.lines_eq
      exact ⟨lines, entry, others, fsv, fun absent idle => begins ⟨absent, idle⟩,
        fun h => stands (FaultEntry.not_begins h), settle_permits_parked parked.phase, decided.phase parked,
        fun d active => decided.answers parked active, fun d idle => decided.idle parked idle,
        parked.cab.trans decided.cab, whole.keeps⟩
  · have same : s.withLines { s.lines with estop := true } = s := by rw [← asserted]; rfl
    exact ⟨_, exec_estopAssert_again asserted, by rw [same]; exact (settle_effect s).keeps⟩
  · obtain ⟨lines, entry, others, effect⟩ := estopRelease_entries s
    exact ⟨_, rfl, lines, entry, others, (effect.trans ((settle_effect _).mono (by simp))).keeps⟩

end Sys2Proof.Machine
end

