-- ==== Sys2Proof/Proofs/UpToDate.lean ====
section
/-! What every command keeps of the envelope record and of the zone limits (`UpToDate`), said once for each operation and
each request: an operation that moves an input of the one or the other forms it afresh (R72, R119). -/

namespace Sys2Proof.Machine

/-! The zone table. -/

/-- What the zone limits are formed from: the table, the depth and the quality. -/
theorem ZoneInv.congr {s t : State} (h : ZoneInv s) (zones : t.znt.zones = s.znt.zones) (mask : t.znt.mask = s.znt.mask)
    (combined : t.znt.combined = s.znt.combined) (limits : t.znt.limits = s.znt.limits)
    (depth : t.stk.depth = s.stk.depth) (quality : t.stk.quality = s.stk.quality) : ZoneInv t := by
  have zone : t.znt.zone = s.znt.zone := by funext i; simp only [Znt.zone, zones]
  have containing : t.znt.containing = s.znt.containing := by
    funext d; simp only [Znt.containing, Znt.entriesWith, zone]
  refine ⟨?_, ?_, ?_, ?_⟩
  · rw [mask, containing, depth, h.mask]
  · rw [combined, h.combined, quality, depth]
    simp only [Znt.combinedSet, containing, Znt.entriesWith, zone]
  · rw [limits, h.limits, combined]
    simp only [Znt.combine, zone]
  · rw [zones]
    exact h.entries

/-- A re-evaluation leaves the limits those of the table it meets (R119). -/
theorem zntReevaluate_zoneInv {s : State} (entries : ∀ i : Fin 8, (s.znt.zones[i]).Sound) :
    ZoneInv (zntReevaluate s) := by
  have znt := zntReevaluate_znt s
  have stk := (zntReevaluate_effect s).stk_eq
  refine ⟨?_, ?_, ?_, ?_⟩ <;> rw [znt]
  · rw [stk]; rfl
  · rw [stk]; rfl
  · rfl
  · exact entries

theorem Zone.Sound.start : Zone.start.Sound := by
  constructor <;> simp [Zone.start]

/-- An entry whose bounds were written is valid only with its top above its bottom (R116). -/
theorem Zone.Sound.checked {z : Zone} (top : -2000 ≤ z.top ∧ z.top ≤ 15000) (bottom : -2000 ≤ z.bottom ∧ z.bottom ≤ 15000)
    (caps : (0 ≤ z.tCap ∧ z.tCap ≤ 65535) ∧ (0 ≤ z.cCap ∧ z.cCap ≤ 65535) ∧ (0 ≤ z.wotCap ∧ z.wotCap ≤ 65535))
    (speed : (0 ≤ z.vCap ∧ z.vCap ≤ 5000) ∨ z.vCap = 65535) : z.checked.Sound :=
  ⟨top, bottom, caps, speed, fun valid => of_decide_eq_true (Bool.and_eq_true_iff.mp valid).2⟩

theorem zoneDepth_range (x : Int) : -2000 ≤ zoneDepth x ∧ zoneDepth x ≤ 15000 := by
  unfold zoneDepth clamp
  omega

/-- A ZONE_WRITE that R115 takes leaves its entry one a ZONE_WRITE can leave (R114 to R116). -/
theorem Zone.Sound.write {z : Zone} (h : z.Sound) (field : Nat) (b : Word)
    (valid : ¬(field = 0 ∧ b = 1 ∧ z.bottom ≤ z.top)) (code : zoneCodeGood field b = true) :
    (z.write field (zoneBring field (zoneRead field b))).Sound := by
  obtain ⟨top, bottom, caps, speed, order⟩ := h
  have word : 0 ≤ (b.toNat : Int) ∧ (b.toNat : Int) ≤ 65535 := by have := b.isLt; omega
  match field with
  | 0 =>
    refine ⟨top, bottom, caps, speed, fun set => ?_⟩
    have nonzero : b.toNat ≠ 0 := by simpa [Zone.write, zoneRead, zoneBring] using set
    have one : b = 1 := by
      have : b.toNat ≤ 1 := by simpa [zoneCodeGood] using code
      exact BitVec.eq_of_toNat_eq (by simp; omega)
    exact not_le.mp fun le => valid ⟨rfl, one, le⟩
  | 1 => exact .checked (zoneDepth_range _) bottom caps speed
  | 2 => exact .checked top (zoneDepth_range _) caps speed
  | 3 => exact ⟨top, bottom, ⟨word, caps.2⟩, speed, order⟩
  | 4 => exact ⟨top, bottom, ⟨caps.1, word, caps.2.2⟩, speed, order⟩
  | 5 => exact ⟨top, bottom, ⟨caps.1, caps.2.1, word⟩, speed, order⟩
  | 6 =>
    refine ⟨top, bottom, caps, ?_, order⟩
    show (0 ≤ zoneSpeed b.toNat ∧ zoneSpeed b.toNat ≤ 5000) ∨ zoneSpeed b.toNat = 65535
    unfold zoneSpeed
    split
    · next none => exact .inr none
    · exact .inl (by omega)
  | 7 => exact ⟨top, bottom, caps, speed, order⟩
  | n + 8 => exact ⟨top, bottom, caps, speed, order⟩

/-! The relation. -/

/-- An event from `s` to `t` that does not move the XRST line and that keeps the envelope record the function of its inputs
and the zone limits those of the table. -/
structure UpToDate (s t : State) : Prop where
  envelope : Current s → Current t
  zones : ZoneInv s → ZoneInv t
  xrst : t.lines.xrst = s.lines.xrst

section
variable {s t u : State}

theorem UpToDate.refl (s : State) : UpToDate s s := ⟨id, id, rfl⟩

theorem UpToDate.trans (h : UpToDate s t) (k : UpToDate t u) : UpToDate s u :=
  ⟨k.envelope ∘ h.envelope, k.zones ∘ h.zones, k.xrst.trans h.xrst⟩

theorem UpToDate.ite {p : Prop} [Decidable p] (h : UpToDate s t) (k : UpToDate s u) : UpToDate s (if p then t else u) := by
  split
  · exact h
  · exact k

theorem UpToDate.envelopeInv (h : UpToDate s t) (inv : EnvelopeInv s) : EnvelopeInv t := fun running =>
  h.envelope (inv (h.xrst ▸ running))

/-- An event that leaves the record, the limits and all they are formed from. -/
theorem UpToDate.of_inputs (env : t.env = s.env := by rfl) (active : t.gst.active = s.gst.active := by rfl)
    (settings : t.gst.settings = s.gst.settings := by rfl) (zones : t.znt.zones = s.znt.zones := by rfl)
    (mask : t.znt.mask = s.znt.mask := by rfl) (combined : t.znt.combined = s.znt.combined := by rfl)
    (limits : t.znt.limits = s.znt.limits := by rfl) (phase : t.phc.phase = s.phc.phase := by rfl)
    (joints : t.stk.joints = s.stk.joints := by rfl) (aR : t.stk.aR = s.stk.aR := by rfl)
    (depth : t.stk.depth = s.stk.depth := by rfl) (quality : t.stk.quality = s.stk.quality := by rfl)
    (channels : t.msu.channels = s.msu.channels := by rfl) (reach : t.fsv.limitReach = s.fsv.limitReach := by rfl)
    (xrst : t.lines.xrst = s.lines.xrst := by rfl) : UpToDate s t where
  envelope h := by
    unfold Current State.envelope at *
    rw [env, active, settings, limits, phase, joints, aR, channels, reach]
    exact h
  zones h := h.congr zones mask combined limits depth quality
  xrst := xrst

/-- An event that leaves the zones, the string model and the lines, and keeps the record current. -/
theorem UpToDate.of_effect {c : List Part} (e : Effect c s t) (current : Current s → Current t)
    (hc : ∀ x ∈ [Part.znt, .stk, .lines], x ∉ c := by simp) : UpToDate s t where
  envelope := current
  zones h := by
    have znt := e.znt_eq (hc _ (by simp))
    have stk := e.stk_eq (hc _ (by simp))
    exact h.congr (by rw [znt]) (by rw [znt]) (by rw [znt]) (by rw [znt]) (by rw [stk]) (by rw [stk])
  xrst := by rw [e.lines_eq (hc _ (by simp))]

/-- An event that leaves every input by its frame. -/
theorem UpToDate.of_frame {c : List Part} (e : Effect c s t)
    (hc : ∀ x ∈ [Part.env, .gst, .znt, .phc, .stk, .msu, .faults, .lines], x ∉ c := by simp) : UpToDate s t :=
  .of_effect e (fun h => h.effect e fun x hx => hc x (by simp at hx ⊢; tauto)) fun x hx => hc x (by simp at hx ⊢; tauto)

theorem UpToDate.withPort (p : Port) (x : PortState) : UpToDate s (s.withPort p x) := .of_inputs

theorem settle_upToDate (s : State) : UpToDate s (settle s) := .of_frame (settle_effect s)

/-- The zones re-evaluated from `u`, whose entries are as sound as those of `s`, and the rest of the event behind it. -/
theorem UpToDate.of_reevaluated {c : List Part} (e : Effect c (zntReevaluate u) t) (current : Current t)
    (entries : (∀ i : Fin 8, (s.znt.zones[i]).Sound) → ∀ i : Fin 8, (u.znt.zones[i]).Sound)
    (xrst : u.lines.xrst = s.lines.xrst) (hc : ∀ x ∈ [Part.znt, .stk, .lines], x ∉ c := by simp) : UpToDate s t where
  envelope _ := current
  zones h := (UpToDate.of_effect e (fun _ => current) hc).zones (zntReevaluate_zoneInv (entries h.entries))
  xrst := by rw [e.lines_eq (hc _ (by simp)), (zntReevaluate_effect u).lines_eq, xrst]

/-! The operations. -/

theorem recompute_upToDate (s : State) : UpToDate s (recompute s) :=
  .of_effect (recompute_effect s) fun _ => recompute_current s

theorem changePhase_upToDate (p : Phase) (s : State) : UpToDate s (changePhase p s) :=
  .of_effect (changePhase_effect p s) fun _ => changePhase_current p s

theorem decideCondition_upToDate (src : Source) (b : Bool) (s : State) : UpToDate s (decideCondition src b s) :=
  .of_effect (decideCondition_effect src b s) fun h => decideCondition_current h src b

theorem advanceEvaluate_upToDate (s : State) : UpToDate s (advanceEvaluate s) :=
  .of_effect (advanceEvaluate_effect s) advanceEvaluate_current

theorem withdraw_upToDate (d : Drive) (cause : NeutralCause) (s : State) : UpToDate s (withdraw d cause s) :=
  .of_frame (withdraw_effect d cause s)

/-- Behind the re-evaluation of the zones a handing on leaves them and the string model. -/
theorem handOn_behind (raised : List Source) (s : State) :
    Effect [.faults, .brc, .env, .grants, .pif] (zntReevaluate s) (handOn raised s) :=
  ((recompute_effect _).mono (by simp)).trans ((raiseAll_effect raised _).trans (decideCondition_effect _ _ _))

theorem afterEvaluation_behind (old : Stk) (raised : List Source) (s : State) :
    Effect [.phc, .faults, .brc, .env, .grants, .pif] (zntReevaluate s) (afterEvaluation old raised s) :=
  ((handOn_behind raised s).mono (by simp)).trans
    (((phcAfterEvaluation_effect old _).mono (by simp)).trans ((brcDepth_effect _ _).mono (by simp)))

/-- An evaluation handed on brings both up to date, whatever the string model it left (R11, R72, R119). -/
theorem afterEvaluation_upToDate (old : Stk) (raised : List Source) (zones : u.znt.zones = s.znt.zones)
    (xrst : u.lines.xrst = s.lines.xrst) : UpToDate s (afterEvaluation old raised u) :=
  .of_reevaluated (afterEvaluation_behind old raised u) (afterEvaluation_current old raised u)
    (fun h => by rwa [zones]) xrst

theorem handOn_upToDate (raised : List Source) (zones : u.znt.zones = s.znt.zones)
    (xrst : u.lines.xrst = s.lines.xrst) : UpToDate s (handOn raised u) :=
  .of_reevaluated (handOn_behind raised u) (handOn_current raised u) (fun h => by rwa [zones]) xrst

/-- An angle count at the STK and what it hands on: A_r alone moves where nothing is evaluated (R15, R16). -/
theorem handCount_upToDate (forward : Bool) (s : State) :
    UpToDate s (handCount (stkCount forward s).2 (stkCount forward s).1) := by
  have e := stkCount_effect forward s
  have zones : (stkCount forward s).1.znt.zones = s.znt.zones := e.zones_eq
  have xrst : (stkCount forward s).1.lines.xrst = s.lines.xrst := by rw [e.lines_eq]
  have evaluated : ∀ raised, UpToDate s (handOn raised (stkCount forward s).1) := fun _ => handOn_upToDate _ zones xrst
  have counted : SameString s.stk (stkCount forward s).1.stk → UpToDate s (recompute (stkCount forward s).1) := by
    intro same
    have znt : (recompute (stkCount forward s).1).znt = s.znt := by rw [(recompute_effect _).znt_eq, e.znt_eq]
    have stk : (recompute (stkCount forward s).1).stk = (stkCount forward s).1.stk := (recompute_effect _).stk_eq
    exact ⟨fun _ => recompute_current _, fun h => h.congr (by rw [znt]) (by rw [znt]) (by rw [znt]) (by rw [znt])
      (by rw [stk, same]) (by rw [stk, same]), by rw [(recompute_effect _).lines_eq, e.lines_eq]⟩
  have same : ∀ b, SameString s.stk { s.stk.counted forward with reverseRun := b } := fun b => by
    have k := counted_sameString s.stk forward
    unfold SameString at k ⊢
    rw [k]
  obtain ⟨-, -, h⟩ | ⟨-, -, h⟩ | ⟨-, -, h⟩ | ⟨-, -, -, -, h⟩ | ⟨-, -, -, -, h⟩ | ⟨-, -, -, -, h⟩ :=
    stkCount_cases forward s <;> rw [h] at evaluated counted ⊢
  · exact evaluated _
  · exact counted (counted_sameString _ _)
  · exact counted (counted_sameString _ _)
  · exact evaluated _
  · exact evaluated _
  · exact counted (same true)

theorem positionCounted_upToDate (e : PositionEncoder) (up : Bool) (s : State) : UpToDate s (positionCounted e up s) :=
  afterEvaluation_upToDate s.stk [] rfl rfl

theorem phcAfterEvaluation_upToDate (old : Stk) (s : State) : UpToDate s (phcAfterEvaluation old s) :=
  .of_effect (phcAfterEvaluation_effect old s) fun h => phcAfterEvaluation_current h old

theorem angleCounted_upToDate (forward : Bool) (s : State) : UpToDate s (angleCounted forward s) := by
  have moved : UpToDate s (s.withMsu (s.msu.countAngle forward)) := .of_inputs
  have turned : ∀ u, UpToDate u (phcCount forward u) := fun u =>
    .of_effect (phcCount_effect forward u) fun h => phcCount_current h forward
  have recorded : ∀ u, UpToDate u (brcDepth s.stk.bottomHole u) := fun u => .of_frame (brcDepth_effect _ u)
  have used : ∀ u, UpToDate u (angleUsed u) := fun u => .of_effect (angleUsed_effect u) angleUsed_current
  exact moved.trans ((handCount_upToDate forward _).trans ((phcAfterEvaluation_upToDate s.stk _).trans
    ((turned _).trans ((recorded _).trans (used _)))))

/-- A scan: the zones at the depth it gives, the record with its channels and measured quantities (R36, R37). -/
theorem scanTaken_upToDate (r : Readings) (s : State) : UpToDate s (scanTaken r s) := by
  let u := evaluateAnew (s.withMsu { s.msu with channels := takeReadings s.gst.active s.msu.channels r })
  have measured : Effect [.env, .measured, .grants, .pif] (zntReevaluate u) (scanMeasured r s) :=
    ((withEnv_effect _ _).mono (by simp)).trans ((recompute_effect _).mono (by simp))
  have advanced : Effect [.phc, .brc, .env, .grants, .pif] (scanSupervised (scanMeasured r s)) (scanTaken r s) :=
    (phcAfterEvaluation_effect s.stk _).trans
      (((brcScan_effect _).mono (by simp)).trans ((brcDepth_effect _ _).mono (by simp)))
  have behind : Effect [.phc, .faults, .brc, .env, .measured, .grants, .pif] (zntReevaluate u) (scanTaken r s) :=
    (measured.mono (by simp)).trans (((scanSupervised_effect _).mono (by simp)).trans (advanced.mono (by simp)))
  exact .of_reevaluated behind (scanTaken_current r s) (fun h => h) rfl

theorem commitCompleted_upToDate (s : State) : UpToDate s (commitCompleted s) := by
  rw [commitCompleted_eq]
  exact afterEvaluation_upToDate s.stk [] rfl rfl

theorem estopRaised_upToDate (s : State) : UpToDate s (estopRaised s) :=
  (decideCondition_upToDate .estop true s).trans (.ite (.refl _) (changePhase_upToDate .parked _))

theorem decideEstop_upToDate (s : State) : UpToDate s (decideEstop s) := .ite (estopRaised_upToDate s) (.refl s)

end

/-! The requests. -/

section
variable (s : State)

theorem serveAckReset_upToDate (p : Port) (a b : Word) : UpToDate s (serveAckReset p a b s).1 := by
  unfold serveAckReset
  split
  · split
    · unfold ackCab
      split <;> exact .of_inputs
    · unfold ackDrive
      split <;> exact .of_inputs
  · exact .of_inputs

theorem serveDemand_upToDate (p : Port) (a b : Word) : UpToDate s (serveDemand p a b s).1 := by
  unfold serveDemand
  split
  · unfold demandOn
    split
    · exact .refl s
    · exact .refl s
    · exact .refl s
    · unfold demandNeutral
      dsimp only
      split
      · exact .of_inputs
      · split <;> exact .of_inputs
    · exact .of_inputs
  · exact .refl s

theorem serveClearFaults_upToDate (a b : Word) : UpToDate s (serveClearFaults a b s).1 := by
  unfold serveClearFaults
  split <;> exact .of_inputs

theorem serveRecordRead_upToDate (a b : Word) (o : Bool) (l : Record) : UpToDate s (serveRecordRead a b o l s).1 := by
  unfold serveRecordRead
  dsimp only
  split
  · exact .refl s
  · split <;> exact .of_inputs

theorem servePhase_upToDate (a b : Word) : UpToDate s (servePhase a b s).1 := by
  unfold servePhase
  split
  · exact .refl s
  split
  · exact .refl s
  split
  · exact .refl s
  unfold phaseRequested
  split
  · exact .refl s
  split
  · exact .refl s
  split
  · exact .refl s
  exact .ite (.refl s) (changePhase_upToDate _ s)

/-- An operation started behind the change of phase (R53, R57). -/
theorem startOperation_upToDate (angle timer : Nat) (target : Option ReleaseTarget) (p : Phase) :
    UpToDate s (startOperation angle timer target (changePhase p s)) :=
  (changePhase_upToDate p s).trans .of_inputs

theorem serveEngage_upToDate (a b : Word) : UpToDate s (serveEngage a b s).1 := by
  unfold serveEngage
  dsimp only
  split
  · exact .refl s
  split
  · exact .refl s
  split
  · exact .refl s
  split
  · exact .refl s
  exact startOperation_upToDate s _ _ _ _

theorem serveReleaseEnable_upToDate (a b : Word) : UpToDate s (serveReleaseEnable a b s).1 := by
  unfold serveReleaseEnable
  split <;> exact .of_inputs

theorem serveRelease_upToDate (a b : Word) : UpToDate s (serveRelease a b s).1 := by
  unfold serveRelease
  split
  · exact .refl s
  split
  · exact .refl s
  split
  · exact .refl s
  split
  · exact .refl s
  unfold releaseRequested
  dsimp only
  split
  · exact .refl s
  split
  · exact .refl s
  split
  · exact .refl s
  exact startOperation_upToDate s _ _ _ _

theorem serveAbortOp_upToDate (a b : Word) : UpToDate s (serveAbortOp a b s).1 := by
  unfold serveAbortOp
  split
  · exact .refl s
  split
  · exact .refl s
  exact changePhase_upToDate _ s

theorem serveConfirmFree_upToDate (a b : Word) : UpToDate s (serveConfirmFree a b s).1 := by
  unfold serveConfirmFree
  split
  · exact .of_inputs
  split
  · exact .of_inputs
  split
  · exact .of_inputs
  split
  · exact .of_inputs
  exact .ite (.refl s) (afterEvaluation_upToDate _ _ rfl rfl)

theorem serveDatum_upToDate (a b : Word) : UpToDate s (serveDatum a b s).1 := by
  unfold serveDatum
  dsimp only
  split
  · exact .refl s
  split
  · exact .refl s
  split
  · exact .refl s
  split
  · exact .refl s
  split
  · exact .refl s
  exact afterEvaluation_upToDate _ _ rfl rfl

theorem serveOpenPile_upToDate (a b : Word) : UpToDate s (serveOpenPile a b s).1 := by
  unfold serveOpenPile
  split
  · exact .refl s
  split
  · exact .refl s
  split
  · exact .refl s
  split
  · exact .refl s
  split
  · exact .refl s
  exact .of_inputs

theorem serveClosePile_upToDate (a b : Word) : UpToDate s (serveClosePile a b s).1 := by
  unfold serveClosePile
  dsimp only
  split
  · exact .refl s
  split
  · exact .refl s
  split
  · exact .refl s
  split
  · exact .refl s
  exact .of_inputs

/-- A ZONE_WRITE taken re-evaluates the zones behind the entry it wrote (R115, R119). -/
theorem zoneRequested_upToDate (i : Fin 8) (field : Nat) (b : Word) : UpToDate s (zoneRequested i field b s).1 := by
  unfold zoneRequested
  dsimp only
  split
  · exact .refl s
  split
  · exact .refl s
  next code =>
  split
  · exact .refl s
  next order =>
  refine .of_reevaluated (recompute_effect _) (recompute_current _) (fun h j => ?_) rfl
  show ((s.znt.zones.set i (s.znt.zones[i].write field (zoneBring field (zoneRead field b))))[j]).Sound
  rw [getElem_vectorSet]
  split
  · exact (h i).write field b order (by simpa using code)
  · exact h j

theorem serveZoneWrite_upToDate (a b : Word) : UpToDate s (serveZoneWrite a b s).1 := by
  unfold serveZoneWrite
  split
  · split
    · exact zoneRequested_upToDate s _ _ _
    · exact .refl s
  · exact .refl s

theorem serveGeomWrite_upToDate (a b : Word) : UpToDate s (serveGeomWrite a b s).1 := by
  unfold serveGeomWrite
  split
  · exact .refl s
  split
  · exact .refl s
  split
  · exact .refl s
  exact .of_inputs

theorem serveStoreEnable_upToDate (a b : Word) : UpToDate s (serveStoreEnable a b s).1 := by
  unfold serveStoreEnable
  split <;> exact .of_inputs

theorem serveStoreCommit_upToDate (a b : Word) : UpToDate s (serveStoreCommit a b s).1 := by
  unfold serveStoreCommit
  split
  · exact .refl s
  split
  · exact .refl s
  split
  · exact .refl s
  split
  · exact .refl s
  split
  · exact .refl s
  unfold commitRequested
  split
  · exact .of_inputs
  split <;> exact .of_inputs

theorem settingChanged_upToDate (v : Setting) : UpToDate s (settingChanged v s) := by
  cases v
  case lSlack => exact afterEvaluation_upToDate _ _ rfl rfl
  case depthTolerance => exact decideCondition_upToDate _ _ s
  case recordStep => exact .ite .of_inputs (.refl s)
  case spinOffLevel => exact advanceEvaluate_upToDate s
  case autoAdvance => exact .ite (advanceEvaluate_upToDate s) (.refl s)
  all_goals exact .refl s

/-- The settings written, whatever they were, bring the record up to date at the recomputation (R72). -/
theorem withSettings_upToDate (t : Settings) (f : Fsv) :
    UpToDate s (recompute ((s.withSettings t).withFsv f)) :=
  ⟨fun _ => recompute_current _,
    fun h => (recompute_upToDate _).zones (h.congr rfl rfl rfl rfl rfl rfl), (recompute_upToDate _).xrst⟩

theorem serveSet_upToDate (a b : Word) : UpToDate s (serveSet a b s).1 := by
  have written : ∀ t : Settings, UpToDate s (recompute (s.withSettings t)) := fun t =>
    withSettings_upToDate s t s.fsv
  unfold serveSet
  split
  · exact .of_inputs
  · unfold setValue
    dsimp only
    split
    · exact .of_inputs
    · exact .ite (written _) ((written _).trans (settingChanged_upToDate _ _))
  · unfold setGroupMode
    split <;> exact .of_inputs
  · unfold setMode
    split <;> exact .of_inputs
  · unfold setAction
    split <;> exact .of_inputs

theorem UpToDate.foldl {α : Type} {f : State → α → State} (h : ∀ s a, UpToDate s (f s a)) (xs : List α) (s : State) :
    UpToDate s (xs.foldl f s) := by
  induction xs generalizing s with
  | nil => exact .refl s
  | cons x xs ih => exact (h s x).trans (ih _)

theorem serveSettingsDefault_upToDate (a b : Word) : UpToDate s (serveSettingsDefault a b s).1 := by
  unfold serveSettingsDefault
  split
  · exact .refl s
  split
  · exact .refl s
  exact (withSettings_upToDate s _ _).trans
    (UpToDate.foldl (f := defaultHanded s.gst.settings) (fun u v => .ite (settingChanged_upToDate u v) (.refl u)) _ _)

theorem serve_upToDate (p : Port) (c : Cmd) (q : Request) : UpToDate s (serve p c q s).1 := by
  cases c
  case nop => exact .refl s
  case read => exact .of_inputs
  case ackReset => exact serveAckReset_upToDate s p q.a q.b
  case demand => exact serveDemand_upToDate s p q.a q.b
  case set => exact serveSet_upToDate s q.a q.b
  case settingsDefault => exact serveSettingsDefault_upToDate s q.a q.b
  case phase => exact servePhase_upToDate s q.a q.b
  case engage => exact serveEngage_upToDate s q.a q.b
  case releaseEnable => exact serveReleaseEnable_upToDate s q.a q.b
  case release => exact serveRelease_upToDate s q.a q.b
  case abortOp => exact serveAbortOp_upToDate s q.a q.b
  case confirmFree => exact serveConfirmFree_upToDate s q.a q.b
  case datum => exact serveDatum_upToDate s q.a q.b
  case openPile => exact serveOpenPile_upToDate s q.a q.b
  case closePile => exact serveClosePile_upToDate s q.a q.b
  case zoneWrite => exact serveZoneWrite_upToDate s q.a q.b
  case geomWrite => exact serveGeomWrite_upToDate s q.a q.b
  case storeEnable => exact serveStoreEnable_upToDate s q.a q.b
  case storeCommit => exact serveStoreCommit_upToDate s q.a q.b
  case clearFaults => exact serveClearFaults_upToDate s q.a q.b
  case recordRead => exact serveRecordRead_upToDate s q.a q.b q.ones q.latched

theorem clearLatches_upToDate (p : Port) (q : Request) : UpToDate s (clearLatches p q s) := by
  unfold clearLatches
  split
  · dsimp only
    split <;> split <;> exact .of_inputs
  · exact .refl s

theorem takeRequest_upToDate (p : Port) (q : Request) : UpToDate s (takeRequest p q s) := by
  have decided : ∀ u, UpToDate u (decideRequest p q u).1 := fun u => by
    unfold decideRequest
    split
    · exact .refl u
    · exact serve_upToDate u p _ q
    · exact .refl u
  exact (UpToDate.withPort p _).trans
    ((decided _).trans ((UpToDate.withPort p _).trans (clearLatches_upToDate _ p q)))

end

end Sys2Proof.Machine
end

