-- ==== Sys2Proof/Proofs/StaysCurrent.lean ====
section
/-! The envelope record and the zone limits through every row, and every step (R72, R119). -/

namespace Sys2Proof.Machine

/-- What every command, the timers' count and the shift of the queue keep is kept by every step. -/
theorem step_preserves {P : State → Prop} (command : ∀ {i : Instr} {s t : State}, P s → exec i s = .next t → P t)
    (elapsed : ∀ s, P s → P s.elapsed) (shifted : ∀ s rest, P s → P (s.withPending rest)) {s t : State} (h : P s)
    (e : step s = .next t) : P t := by
  have after : ∀ (is : List Instr) (u : State), P u → P (is.foldl afterCommand u) := by
    intro is
    induction is with
    | nil => exact fun _ hu => hu
    | cons i is ih => exact fun u hu => ih _ (command hu (exec_afterCommand u i))
  unfold step at e
  split at e
  · obtain rfl : tick s = t := by injection e
    exact after _ _ (elapsed s h)
  · next rest _ => exact command (shifted s rest h) e

/-! The resets. -/

theorem started_zoneInv (l : LineLevels) (s : State) : ZoneInv (started l s) := by
  have quality : (started l s).stk.quality = .none := rfl
  have znt : (started l s).znt = Znt.start := rfl
  have containing : ∀ d, Znt.start.containing d = [] := fun d => by
    simp [Znt.containing, Znt.entriesWith, Znt.zone, Znt.start, Zone.start, Zone.contains, List.range, List.range.loop]
  refine ⟨?_, ?_, ?_, fun i => ?_⟩ <;> rw [znt]
  · rw [containing]; rfl
  · rw [quality]; rfl
  · rfl
  · simpa [Znt.start] using Zone.Sound.start

/-- The assertion of XRST re-evaluates the zones at the string model it judged (R26, R126). -/
theorem xrstAsserted_zoneInv {s : State} (h : ZoneInv s) : ZoneInv (xrstAsserted s) := by
  have judged : Effect [.stk, .brc] (askEvent .xrst (xrstSeen s)) (stkXrst (askEvent .xrst (xrstSeen s))) :=
    (Effect.ite (doubtLockedIfAny_effect _) (.refl _)).trans ((withStk_effect _ _).mono (by simp))
  have entries : ∀ i : Fin 8, ((stkXrst (askEvent .xrst (xrstSeen s))).znt.zones[i]).Sound := fun i => by
    rw [judged.zones_eq]; exact h.entries i
  have recorded := brcDepth_effect s.stk.bottomHole (zntReevaluate (stkXrst (askEvent .xrst (xrstSeen s))))
  have znt : (xrstAsserted s).znt = (zntReevaluate (stkXrst (askEvent .xrst (xrstSeen s)))).znt :=
    (xrstAsserted_znt s).trans recorded.znt_eq
  have stk : (xrstAsserted s).stk = (zntReevaluate (stkXrst (askEvent .xrst (xrstSeen s)))).stk :=
    (xrstAsserted_stk s).trans recorded.stk_eq
  exact (zntReevaluate_zoneInv entries).congr (by rw [znt]) (by rw [znt]) (by rw [znt]) (by rw [znt]) (by rw [stk])
    (by rw [stk])

theorem xrstAsserted_xrst (s : State) : (xrstAsserted s).lines.xrst = true := by
  have judged : Effect [.stk, .brc] (askEvent .xrst (xrstSeen s)) (stkXrst (askEvent .xrst (xrstSeen s))) :=
    (Effect.ite (doubtLockedIfAny_effect _) (.refl _)).trans ((withStk_effect _ _).mono (by simp))
  rw [xrstAsserted_lines, xrstJudged, (brcDepth_effect _ _).lines_eq, (zntReevaluate_effect _).lines_eq, judged.lines_eq]
  rfl

theorem xrstRefreshed_zoneInv {s : State} (h : ZoneInv s) : ZoneInv (xrstRefreshed s) := by
  have behind : Effect [.env, .grants, .pif] (zntReevaluate (xrstReleased s)) (xrstRefreshed s) :=
    (recompute_effect _).trans ((takeScanWarnings_effect _).mono (by simp))
  exact (UpToDate.of_effect behind fun _ => xrstRefreshed_current s).zones
    (zntReevaluate_zoneInv (s := xrstReleased s) h.entries)

/-! Every row. -/

/-- Every row is such an event, or one of the resets. -/
theorem acted_upToDate {i : Instr} {s u : State} (h : Acted i s u) :
    UpToDate s u ∨ (∃ l, u = decideEstop (started l s)) ∨ u = xrstAsserted s ∨ u = decideEstop (xrstRefreshed s) := by
  have estop : ∀ b, UpToDate s (s.withLines { s.lines with estop := b }) := fun _ => .of_inputs
  cases h with
  | nothing => exact .inl (.refl s)
  | started l => exact .inr (.inl ⟨l, rfl⟩)
  | xrstAsserted => exact .inr (.inr (.inl rfl))
  | xrstEnded => exact .inr (.inr (.inr (xrstEnded_eq s)))
  | estopSeen => exact .inl (estop true)
  | estopRaised => exact .inl ((estop true).trans (estopRaised_upToDate _))
  | estopReleased => exact .inl ((estop false).trans (decideCondition_upToDate _ _ _))
  | positionChanged e pair => exact .inl (by cases e <;> exact .of_inputs)
  | positionCounted e pair up =>
    have referred : UpToDate s (s.withMsu (s.msu.withReference e pair)) := by cases e <;> exact .of_inputs
    exact .inl (referred.trans (positionCounted_upToDate e up _))
  | angleChanged pair => exact .inl .of_inputs
  | angleCounted pair forward =>
    have referred : UpToDate s (s.withMsu { s.msu with angleRef := pair }) := .of_inputs
    exact .inl (referred.trans (angleCounted_upToDate forward _))
  | scanTaken r => exact .inl (scanTaken_upToDate r s)
  | windowExpired cs =>
    have formed : UpToDate s (s.withMsu (s.msu.formSpeed s.gst.active)) := .of_inputs
    exact .inl (formed.trans (.foldl (fun u c => decideCondition_upToDate c.1 c.2 u) cs _))
  | rested => exact .inl .of_inputs
  | stallExpired b => exact .inl ((decideCondition_upToDate .stall b s).trans .of_inputs)
  | operationTimedOut o _ op =>
    have raised : UpToDate s (raise .opTimeout s) := .of_effect (raise_effect _ s) fun h => raise_current h _
    exact .inl (raised.trans (changePhase_upToDate _ _))
  | grantExpired d => exact .inl (withdraw_upToDate d _ s)
  | commitCompleted _ inFlight => exact .inl (commitCompleted_upToDate s)
  | portWritten _ p x => exact .inl (.withPort p x)
  | requestTaken _ p q => exact .inl (takeRequest_upToDate s p q)

theorem exec_envelopeInv {i : Instr} {s t : State} (h : EnvelopeInv s) (e : exec i s = .next t) : EnvelopeInv t := by
  obtain ⟨u, rfl, acted⟩ := exec_acted e
  refine (settle_upToDate u).envelopeInv ?_
  obtain kept | ⟨l, rfl⟩ | rfl | rfl := acted_upToDate acted
  · exact kept.envelopeInv h
  · exact fun _ => (decideEstop_upToDate _).envelope (started_current l s)
  · exact fun running => absurd (xrstAsserted_xrst s) (by simp [running])
  · exact fun _ => (decideEstop_upToDate _).envelope (xrstRefreshed_current s)

theorem exec_zoneInv {i : Instr} {s t : State} (h : ZoneInv s) (e : exec i s = .next t) : ZoneInv t := by
  obtain ⟨u, rfl, acted⟩ := exec_acted e
  refine (settle_upToDate u).zones ?_
  obtain kept | ⟨l, rfl⟩ | rfl | rfl := acted_upToDate acted
  · exact kept.zones h
  · exact (decideEstop_upToDate _).zones (started_zoneInv l s)
  · exact xrstAsserted_zoneInv h
  · exact (decideEstop_upToDate _).zones (xrstRefreshed_zoneInv h)

/-- A millisecond moves no input of either. -/
theorem elapsed_upToDate (s : State) : UpToDate s s.elapsed :=
  .of_inputs (channels := by rw [elapsed_msu]; split <;> rfl) (reach := by rw [elapsed_fsv]; split <;> rfl)

/-- Settles O59: no input of the envelope or of the zone limits moves without their being formed afresh. -/
theorem envelopeAndZonesStayCurrent : Obligations.EnvelopeAndZonesStayCurrent :=
  ⟨fun _ _ => step_preserves exec_envelopeInv (fun s => (elapsed_upToDate s).envelopeInv) (fun _ _ h => h),
    fun _ _ => step_preserves exec_zoneInv (fun s => (elapsed_upToDate s).zones)
      fun _ _ h => ⟨h.mask, h.combined, h.limits, h.entries⟩⟩

end Sys2Proof.Machine
end

