-- ==== Sys2Proof/Proofs/Stages.lean ====
section
/-! The stages of the envelope: every ceiling they give lies in the range the ports carry, so that the clamp of R91 moves
none but the two pressures; and the crowd of a chain, closed or open, as one formula (R75 to R91). -/

namespace Sys2Proof.Machine

/-! Arithmetic. -/

theorem unsigned16_of_range {x : Int} (low : 0 ≤ x) (high : x ≤ 65535) : unsigned16 x = x := by
  unfold unsigned16 clamp
  omega

theorem le_leastOf_iff {a x : Int} {xs : List Int} : a ≤ leastOf x xs ↔ a ≤ x ∧ ∀ y ∈ xs, a ≤ y := by
  induction xs generalizing x with
  | nil => simp [leastOf]
  | cons y ys ih =>
    have next : leastOf x (y :: ys) = leastOf (min x y) ys := rfl
    rw [next, ih, le_min_iff, List.forall_mem_cons, and_assoc]

theorem leastOf_append (x y : Int) (xs : List Int) : leastOf x (xs ++ [y]) = min (leastOf x xs) y := by
  simp [leastOf, List.foldl_append]

/-- A derated ceiling is none below 0 and none above the ceiling (R76, R78). -/
theorem derated_range {x : Int} (h : 0 ≤ x) (t : Settings) (theta : Int) :
    0 ≤ derated x (derate t theta) ∧ derated x (derate t theta) ≤ x := by
  rw [derated, floorDiv, Int.fdiv_eq_ediv_of_nonneg _ (by norm_num)]
  unfold derate
  split <;> omega

/-! The stages in range. -/

section
variable {g : Geometry} {t : Settings} {l : Limits} (inRange : g.InRange)
  (settings : ∀ v ∈ Setting.all, v.range.1 ≤ t.get v ∧ t.get v ≤ v.range.2)

include inRange in
theorem Geometry.InRange.tHead : 0 ≤ g.tHead ∧ g.tHead ≤ 65535 := inRange.get .tHead

include inRange in
theorem Geometry.InRange.cHead : 0 ≤ g.cHead ∧ g.cHead ≤ 65535 := inRange.get .cHead

include inRange in
theorem Geometry.InRange.torques {bar : Int} (h : bar ∈ g.torques) : 0 ≤ bar := by
  obtain ⟨i, hi, rfl⟩ := List.mem_iff_getElem.mp (List.mem_of_mem_take h)
  have : i < 5 := by simpa using hi
  have rated := (inRange.get (.barTorque ⟨i, this⟩)).1
  simp only [GeomItem.range, Geometry.get] at rated
  simpa using le_trans (by norm_num) rated

include inRange in
theorem Geometry.InRange.joints_ne_nil : g.joints ≠ [] := by
  have n : 2 ≤ g.n := (inRange.get .n).1
  intro none
  have length := congrArg List.length none
  simp only [Geometry.joints, List.length_take, Vector.length_toList, List.length_nil] at length
  omega

include inRange in
/-- T_base is none below 0, and above no rated torque and no zone's cap (R77). -/
theorem tBase_range (zT : 0 ≤ l.zT) :
    0 ≤ tBase g l ∧ tBase g l ≤ g.tHead ∧ tBase g l ≤ l.zT ∧ ∀ bar ∈ g.torques, tBase g l ≤ bar := by
  obtain ⟨head, bars⟩ := le_leastOf_iff.mp (le_refl (leastOf g.tHead g.torques))
  have least : 0 ≤ leastOf g.tHead g.torques := le_leastOf_iff.mpr ⟨inRange.tHead.1, fun _ => inRange.torques⟩
  unfold tBase
  exact ⟨le_min least zT, (min_le_left _ _).trans head, min_le_right _ _, fun bar h => (min_le_left _ _).trans (bars bar h)⟩

include settings

theorem forwardCap_nonneg {base : Int} (h : 0 ≤ base) (ph : Phase) : 0 ≤ forwardCap t base ph := by
  cases ph
  case parked | releasing => exact le_refl 0
  case free => exact (settings .tFree (by simp [Setting.all])).1
  case engaging => exact (settings .tSeat (by simp [Setting.all])).1
  case drill => exact h
  case hoist => exact (settings .tHold (by simp [Setting.all])).1
  case spinOff => exact (settings .tSpin (by simp [Setting.all])).1

theorem reverseCap_nonneg (ph : Phase) : 0 ≤ reverseCap t ph := by
  cases ph
  case parked | engaging | hoist => exact le_refl 0
  case free => exact (settings .tFree (by simp [Setting.all])).1
  case drill => exact (settings .tFreeTool (by simp [Setting.all])).1
  case releasing => exact (settings .tRelease (by simp [Setting.all])).1
  case spinOff => exact (settings .tSpin (by simp [Setting.all])).1

include inRange in
theorem tForward_range (zT : 0 ≤ l.zT) (ph : Phase) (theta : Int) :
    0 ≤ tForward t g l ph (derate t theta) ∧ tForward t g l ph (derate t theta) ≤ tBase g l := by
  obtain ⟨base, -⟩ := tBase_range inRange zT
  obtain ⟨low, high⟩ := derated_range (le_min base (forwardCap_nonneg settings base ph)) t theta
  exact ⟨low, high.trans (min_le_left _ _)⟩

include inRange in
theorem tReverse_range (zT : 0 ≤ l.zT) (ph : Phase) (theta : Int) (spent : Bool) :
    0 ≤ tReverse t g l ph (derate t theta) spent ∧ tReverse t g l ph (derate t theta) spent ≤ tBase g l := by
  obtain ⟨base, -⟩ := tBase_range inRange zT
  obtain ⟨low, high⟩ := derated_range (le_min base (reverseCap_nonneg settings ph)) t theta
  unfold tReverse
  split
  · exact ⟨le_refl 0, base⟩
  · exact ⟨low, high.trans (min_le_left _ _)⟩

theorem crowdDown_range {base : Int} (h : 0 ≤ base) (ph : Phase) (theta : Int) :
    0 ≤ crowdDown t ph base (derate t theta) ∧ crowdDown t ph base (derate t theta) ≤ base := by
  have free : 0 ≤ t.cFree := (settings .cFree (by simp [Setting.all])).1
  cases ph
  case drill => exact derated_range h t theta
  case free =>
    obtain ⟨low, high⟩ := derated_range (le_min h free) t theta
    exact ⟨low, high.trans (min_le_left _ _)⟩
  all_goals exact ⟨le_refl 0, h⟩

theorem crowdUp_range (ph : Phase) : 0 ≤ crowdUp t ph ∧ crowdUp t ph ≤ 65535 := by
  cases ph
  case free | hoist | spinOff => exact settings .cPull (by simp [Setting.all])
  all_goals exact ⟨le_refl 0, Int.natCast_nonneg 65535⟩

/-- The speed caps of the phases, slowed or not, lie in the range of the speeds (R87, R88). -/
theorem speedCaps_range (ph : Phase) (room : Option Int) :
    (0 ≤ payCap t ph room ∧ payCap t ph room ≤ 5000) ∧ (0 ≤ haulCap t ph ∧ haulCap t ph ≤ 5000) := by
  have free : 0 ≤ t.vFree ∧ t.vFree ≤ 5000 := settings .vFree (by simp [Setting.all])
  have stop : 0 ≤ t.vStop ∧ t.vStop ≤ 5000 := settings .vStop (by simp [Setting.all])
  have align : 0 ≤ t.vAlign ∧ t.vAlign ≤ 5000 := settings .vAlign (by simp [Setting.all])
  have follow : 0 ≤ t.vFollow ∧ t.vFollow ≤ 5000 := settings .vFollow (by simp [Setting.all])
  have still : (0 : Int) ≤ 0 ∧ (0 : Int) ≤ 5000 := ⟨le_refl 0, by decide⟩
  cases ph
  case parked => exact ⟨still, still⟩
  case free =>
    refine ⟨?_, free⟩
    simp only [payCap]
    split
    · exact ⟨le_min free.1 stop.1, (min_le_left _ _).trans free.2⟩
    · exact free
  case engaging | spinOff => exact ⟨align, align⟩
  case drill => exact ⟨follow, follow⟩
  case releasing => exact ⟨still, align⟩
  case hoist => exact ⟨still, free⟩

theorem lineMin_range (ph : Phase) : 0 ≤ lineMin t ph ∧ lineMin t ph ≤ 65535 := by
  cases ph
  case drill => exact settings .lFollow (by simp [Setting.all])
  all_goals exact ⟨le_refl 0, Int.natCast_nonneg 65535⟩
end

theorem budgetSpent_iff (t : Settings) (ph : Phase) (js : List Joint) (aR : Nat) : budgetSpent t ph js aR = true ↔
    js.any Joint.isLocked = true ∧ ph ≠ .releasing ∧ t.unlockAngle - t.reverseMargin ≤ aR := by
  simp only [budgetSpent, Bool.and_eq_true, decide_eq_true_eq, and_assoc]

/-! The crowd. -/

/-- The crowd an open chain passes: the LOCKED joints outward of j*, then the friction of j* (R83). -/
theorem crowdThrough_eq (tMeas : Int) (js : List Joint) (gs : List JointGeometry) (h : js.length = gs.length) :
    crowdThrough tMeas js gs = (gs.take (js.takeWhile Joint.isLocked).length).map JointGeometry.crowd ++
      match gs[(js.takeWhile Joint.isLocked).length]? with
      | none => []
      | some j => [floorDiv (j.friction * tMeas) j.keyRadius] := by
  induction js generalizing gs with
  | nil =>
    cases gs with
    | nil => rfl
    | cons g gs => simp at h
  | cons j js ih =>
    cases gs with
    | nil => simp at h
    | cons g gs =>
      by_cases l : j.isLocked
      · simp [crowdThrough, l, ih gs (by simpa using h)]
      · simp [crowdThrough, l]

/-- C_base, with the chain closed or open: the joints LOCKED from the head on pass the crowd, up to the tool or to j*
(R82, R83). -/
theorem crowdBase_eq {g : Geometry} {js : List Joint} (length : js.length = g.joints.length) (joints : g.joints ≠ [])
    (l : Limits) (zWot : Int) (m : Measured) : crowdBase g l js zWot m =
      let through := leastOf g.cHead
        ((g.joints.take (js.takeWhile Joint.isLocked).length).map JointGeometry.crowd)
      match g.joints[(js.takeWhile Joint.isLocked).length]? with
      | none => min (min through (max 0 (zWot - g.wTotal + m.lR))) l.zC
      | some j => min (min through (floorDiv (j.friction * m.tMeas) j.keyRadius)) l.zC := by
  have nonempty : js ≠ [] := fun none => joints (List.eq_nil_of_length_eq_zero (by rw [← length, none]; rfl))
  unfold crowdBase
  split
  · next closed =>
    have all : js.takeWhile Joint.isLocked = js := by
      have : ∀ j ∈ js, j.isLocked = true := by simpa [chainClosed, nonempty] using closed
      exact List.takeWhile_eq_self_iff.mpr this
    have past : g.joints[g.joints.length]? = none := List.getElem?_eq_none le_rfl
    simp only [all, length, past, List.take_length]
    rfl
  · next closed =>
    have some_ : (js.takeWhile Joint.isLocked).length < g.joints.length := by
      refine length ▸ lt_of_le_of_ne (List.takeWhile_prefix _).length_le fun all => closed ?_
      have whole : js.takeWhile Joint.isLocked = js := (List.takeWhile_prefix _).eq_of_length all
      simpa [chainClosed, nonempty] using List.takeWhile_eq_self_iff.mp whole
    rw [crowdOpen, crowdThrough_eq _ _ _ length, List.getElem?_eq_getElem some_]
    dsimp only
    rw [leastOf_append]

/-- C_base is none below 0, and above neither the head's rated crowd nor the zones' cap (R82, R83). -/
theorem crowdBase_range {g : Geometry} (inRange : g.InRange) {l : Limits} (zC : 0 ≤ l.zC) {m : Measured}
    (tMeas : 0 ≤ m.tMeas) {js : List Joint} (length : js.length = g.joints.length) (zWot : Int) :
    0 ≤ crowdBase g l js zWot m ∧ crowdBase g l js zWot m ≤ g.cHead ∧ crowdBase g l js zWot m ≤ l.zC := by
  rw [crowdBase_eq length inRange.joints_ne_nil]
  dsimp only
  generalize passed : (g.joints.take (js.takeWhile Joint.isLocked).length).map JointGeometry.crowd = crowds
  have least : 0 ≤ leastOf g.cHead crowds := by
    refine le_leastOf_iff.mpr ⟨inRange.cHead.1, fun y hy => ?_⟩
    rw [← passed] at hy
    obtain ⟨j, hj, rfl⟩ := List.mem_map.mp hy
    exact (inRange.of_mem (List.mem_of_mem_take hj)).crowd.1
  have head : leastOf g.cHead crowds ≤ g.cHead := (le_leastOf_iff.mp le_rfl).1
  have bounded : ∀ {x : Int}, 0 ≤ x → 0 ≤ min (min (leastOf g.cHead crowds) x) l.zC ∧
      min (min (leastOf g.cHead crowds) x) l.zC ≤ g.cHead ∧ min (min (leastOf g.cHead crowds) x) l.zC ≤ l.zC :=
    fun h => ⟨le_min (le_min least h) zC, (min_le_left _ _).trans ((min_le_left _ _).trans head), min_le_right _ _⟩
  split
  · exact bounded (le_max_left _ _)
  · next j hj =>
    have joint := inRange.of_mem (List.mem_of_getElem? hj)
    refine bounded ?_
    rw [floorDiv, Int.fdiv_eq_ediv_of_nonneg _ (by have := joint.keyRadius; omega)]
    exact Int.ediv_nonneg (mul_nonneg joint.friction.1 tMeas) (by have := joint.keyRadius; omega)

/-! The record. -/

/-- The clamp of R91 moves none of the computed ceilings but the pressures. -/
theorem clamped_eq (c : Ceilings) (torques : (0 ≤ c.tFwd ∧ c.tFwd ≤ 65535) ∧ 0 ≤ c.tRev ∧ c.tRev ≤ 65535)
    (crowds : (0 ≤ c.cDown ∧ c.cDown ≤ 65535) ∧ 0 ≤ c.cUp ∧ c.cUp ≤ 65535)
    (speeds : (0 ≤ c.vPay ∧ c.vPay ≤ 65535) ∧ 0 ≤ c.vHaul ∧ c.vHaul ≤ 65535) :
    c.clamped = { c with pRotMax := unsigned16 c.pRotMax, pCdMax := unsigned16 c.pCdMax } := by
  simp only [Ceilings.clamped, unsigned16_of_range torques.1.1 torques.1.2, unsigned16_of_range torques.2.1 torques.2.2,
    unsigned16_of_range crowds.1.1 crowds.1.2, unsigned16_of_range crowds.2.1 crowds.2.2,
    unsigned16_of_range speeds.1.1 speeds.1.2, unsigned16_of_range speeds.2.1 speeds.2.2]

/-- The ceilings as the stages give them, before the supply and the clamp (R77 to R88). -/
def State.staged (s : State) (g : Geometry) : Ceilings :=
  let t := s.gst.settings
  let l := s.znt.limits
  let ph := s.phc.phase
  let dr := derate t s.env.measured.theta
  let tFwd := tForward t g l ph dr
  let tRev := tReverse t g l ph dr (budgetSpent t ph s.stk.joints s.stk.aR)
  let cDown := crowdDown t ph (crowdBase g l s.stk.joints (min t.wotMax l.zWot) s.env.measured) dr
  let avail := availablePressure t s.msu.channels.sp.value
  { tFwd := tFwd, tRev := tRev, cDown := cDown, cUp := crowdUp t ph
    pRotMax := min (pRotary g tFwd tRev) avail
    pCdMax := min (crowdPressure g cDown s.msu.channels.cu.value) avail
    vPay := min (payCap t ph (takingRoom s.stk.joints g.joints)) l.zV, vHaul := min (haulCap t ph) l.zV }

/-- The record of an active geometry, with its ceilings as staged (R72). -/
theorem State.envelope_eq {s : State} {g : Geometry} (active : s.gst.active = some g) :
    let t := s.gst.settings
    let l := s.znt.limits
    let m := s.env.measured
    let q := crowdPressure g (s.staged g).cDown s.msu.channels.cu.value
    let pRot := pRotary g (s.staged g).tFwd (s.staged g).tRev
    let avail := availablePressure t s.msu.channels.sp.value
    s.envelope =
      { grant := (s.staged g).clamped.forced s.fsv.limitReach, lMin := unsigned16 (lineMin t s.phc.phase)
        lCeil := unsigned16 g.lRated, computed := (s.staged g).clamped, dr := derate t m.theta, measured := m
        wot := axialLoad m g.wTotal, k := axialLoad m g.wTotal, supplyShort := decide (avail < q ∨ avail < pRot)
        budgetSpent := budgetSpent t s.phc.phase s.stk.joints s.stk.aR
        zT := l.zT, zC := l.zC, zWot := min t.wotMax l.zWot, zV := l.zV } := by
  simp only [State.envelope, active]
  rfl

/-- Settles O46: each stage as its rule writes it, and no ceiling but a pressure outside the range the ports carry. -/
theorem envelopeFollowsTheStages : Obligations.EnvelopeFollowsTheStages := by
  refine ⟨fun s g active inRange inv length tMeas zT zC zV => ?_, fun s none => ?_⟩
  swap
  · have envelope : s.envelope = envelopeWithout s.gst.settings s.znt.limits s.env.measured := by
      simp only [State.envelope, none]
    rw [envelope]
    refine ⟨rfl, rfl, rfl, rfl, rfl, rfl, ?_, rfl, rfl, rfl, rfl, rfl, rfl, rfl⟩
    simp [envelopeWithout, axialLoad]
  obtain ⟨settings, -⟩ := inv
  obtain ⟨-, head, cap, bars⟩ := tBase_range inRange zT
  have forward := tForward_range inRange settings zT s.phc.phase s.env.measured.theta
  have reverse := tReverse_range inRange settings zT s.phc.phase s.env.measured.theta
    (budgetSpent s.gst.settings s.phc.phase s.stk.joints s.stk.aR)
  obtain ⟨base, crowdHead, crowdCap⟩ := crowdBase_range inRange zC tMeas length
    (min s.gst.settings.wotMax s.znt.limits.zWot)
  have down := crowdDown_range settings base s.phc.phase s.env.measured.theta
  obtain ⟨pay, haul⟩ := speedCaps_range settings s.phc.phase (takingRoom s.stk.joints g.joints)
  have rated := inRange.tHead
  have ratedCrowd := inRange.cHead
  have clamped := clamped_eq (s.staged g)
    ⟨⟨forward.1, (forward.2.trans head).trans rated.2⟩, reverse.1, (reverse.2.trans head).trans rated.2⟩
    ⟨⟨down.1, (down.2.trans crowdHead).trans ratedCrowd.2⟩, crowdUp_range settings s.phc.phase⟩
    ⟨⟨le_min pay.1 zV, (min_le_left _ _).trans (pay.2.trans (by norm_num))⟩,
      le_min haul.1 zV, (min_le_left _ _).trans (haul.2.trans (by norm_num))⟩
  have line := unsigned16_of_range (lineMin_range settings s.phc.phase).1 (lineMin_range settings s.phc.phase).2
  have lRated : 0 ≤ g.lRated ∧ g.lRated ≤ 65535 := inRange.get .lRated
  have ceiling := unsigned16_of_range lRated.1 lRated.2
  have crowd := crowdBase_eq length inRange.joints_ne_nil s.znt.limits (min s.gst.settings.wotMax s.znt.limits.zWot)
    s.env.measured
  rw [State.envelope_eq active]
  dsimp only
  rw [clamped, line, ceiling]
  refine ⟨rfl, ?_, ?_, ?_, ?_, ?_, rfl, rfl, rfl, ?_, ?_, rfl, ?_, rfl, rfl, rfl, rfl, rfl, rfl, rfl, ?_, down.1,
    down.2.trans crowdHead, down.2.trans crowdCap, rfl⟩
  · show tForward _ g _ s.phc.phase _ = _
    cases s.phc.phase <;> rfl
  · show budgetSpent _ s.phc.phase _ _ = _
    rw [Bool.eq_iff_iff, budgetSpent_iff, decide_eq_true_iff]
  · show tReverse _ g _ s.phc.phase _ _ = _
    refine if_congr (or_congr_right (budgetSpent_iff _ _ _ _)) rfl ?_
    cases s.phc.phase <;> rfl
  · show crowdDown _ s.phc.phase (crowdBase g _ _ _ _) _ = _
    rw [crowd]
    cases s.phc.phase <;> rfl
  · show crowdUp _ s.phc.phase = _
    cases s.phc.phase <;> rfl
  · show min (payCap _ s.phc.phase (takingRoom _ _)) _ = _
    cases s.phc.phase
    case free => cases takingRoom s.stk.joints g.joints <;> rfl
    case parked | releasing | hoist => exact min_eq_left zV
    all_goals rfl
  · show min (haulCap _ s.phc.phase) _ = _
    cases s.phc.phase
    case parked => exact min_eq_left zV
    all_goals rfl
  · cases s.phc.phase <;> rfl
  · have bounded : ∀ {x : Int}, 0 ≤ x ∧ x ≤ tBase g s.znt.limits →
        0 ≤ x ∧ x ≤ g.tHead ∧ x ≤ s.znt.limits.zT ∧ ∀ bar ∈ g.torques, x ≤ bar :=
      fun h => ⟨h.1, h.2.trans head, h.2.trans cap, fun bar mem => h.2.trans (bars bar mem)⟩
    intro x mem
    obtain rfl | rfl : x = (s.staged g).tFwd ∨ x = (s.staged g).tRev := by simpa using mem
    · exact bounded forward
    · exact bounded reverse

end Sys2Proof.Machine
end

