-- ==== Sys2Proof/Proofs/Handling.lean ====
section
/-! What an event in which a drive's port takes no part makes of the drive's record and of its pending answer (`Handled`):
a grant is lowered or withdrawn, and the answer is rewritten with it (R99, R103, R104). -/

namespace Sys2Proof.Machine

/-! One record and its port. -/

/-- What such an event, with withdrawals for the causes `cs`, leaves of a record `g` and its port `p`: the record stands,
waits for another of the causes, or, ACTIVE, is lowered or withdrawn with the answer rewritten; a withdrawn one may take
another of the causes after that. The neutral hold is written freely (R99, R103, R104, R111). -/
inductive Handled (cs : List NeutralCause) (g : Grant) (p : PortState) : Grant → PortState → Prop where
  | stands (hold : Bool) : Handled cs g p { g with hold := hold } p
  | waits (c : NeutralCause) (mem : c ∈ cs) (inactive : g.isActive = false) (acked : g.state ≠ .unacked) (hold : Bool) :
    Handled cs g p { g with state := .neutralWait c, hold := hold } p
  | lowered (active : g.isActive = true) (x y : Int) (lower : |x| < |g.granted|) (sign : x = 0 ∨ (x < 0 ↔ g.granted < 0))
    (hold : Bool) : Handled cs g p
      { g with
        granted := x, reduced := true, reportedCeiling := if p.mayRewrite then y else g.reportedCeiling, hold := hold }
      (p.rewrite (rewritableAnswer .reduced |x| y))
  | withdrawn (active : g.isActive = true) (c c' : NeutralCause) (mem : c ∈ cs) (mem' : c' ∈ cs) (y : Int) (hold : Bool) :
    Handled cs g p
      { g.toNeutral c' with reportedCeiling := if p.mayRewrite then y else g.reportedCeiling, hold := hold }
      (p.rewrite (rewritableAnswer .neutralRequired c.code 2))

theorem PortState.rewrite_mayRewrite (p : PortState) {a : Answer} (h : a.rewritable = true) :
    (p.rewrite a).mayRewrite = p.mayRewrite := by
  by_cases may : p.mayRewrite = true
  · rw [PortState.rewrite_of_may may, may]
    simp only [PortState.mayRewrite, Bool.and_eq_true] at may ⊢
    exact ⟨h, may.2⟩
  · rw [PortState.rewrite_of_not may]

theorem PortState.rewrite_rst (p : PortState) (a : Answer) : (p.rewrite a).rst = p.rst := by
  unfold PortState.rewrite
  split <;> rfl

theorem Grant.acked_of_active {g : Grant} (h : g.isActive = true) : g.state ≠ .unacked := fun unacked => by
  simp [Grant.isActive, unacked] at h

section
variable {cs : List NeutralCause} {g h k : Grant} {p q r : PortState}

theorem Handled.refl (cs : List NeutralCause) (g : Grant) (p : PortState) : Handled cs g p g p := .stands g.hold

theorem Handled.mono (a : Handled cs g p h q) {ds : List NeutralCause} (sub : cs ⊆ ds) : Handled ds g p h q := by
  cases a with
  | stands hold => exact .stands hold
  | waits c mem inactive acked hold => exact .waits c (sub mem) inactive acked hold
  | lowered active x y lower sign hold => exact .lowered active x y lower sign hold
  | withdrawn active c c' mem mem' y hold => exact .withdrawn active c c' (sub mem) (sub mem') y hold

theorem Handled.trans (a : Handled cs g p h q) (b : Handled cs h q k r) : Handled cs g p k r := by
  cases a with
  | stands _ =>
    cases b with
    | stands hold => exact .stands (g := g) hold
    | waits c mem inactive acked hold => exact .waits (g := g) c mem inactive acked hold
    | lowered active x y lower sign hold => exact .lowered (g := g) active x y lower sign hold
    | withdrawn active c c' mem mem' y hold => exact .withdrawn (g := g) active c c' mem mem' y hold
  | waits c mem inactive acked _ =>
    cases b with
    | stands hold => exact .waits (g := g) c mem inactive acked hold
    | waits c' mem' _ _ hold => exact .waits (g := g) c' mem' inactive acked hold
    | lowered active => exact nomatch active
    | withdrawn active => exact nomatch active
  | lowered active x y lower sign _ =>
    cases b with
    | stands hold => exact .lowered active x y lower sign hold
    | waits c _ inactive => exact absurd (show g.isActive = false from inactive) (by simp [active])
    | lowered _ x' y' lower' sign' hold =>
      have sign'' : x' = 0 ∨ (x' < 0 ↔ g.granted < 0) := by
        dsimp only at sign' lower'
        obtain rfl | sign := sign
        · simp at lower'
          exact absurd lower' (not_lt.mpr (abs_nonneg x'))
        · exact sign'.imp id fun s => s.trans sign
      have whole := Handled.lowered (cs := cs) (p := p) active x' y' (lower'.trans lower) sign'' hold
      rw [PortState.rewrite_mayRewrite _ rfl, PortState.rewrite_rewrite _ rfl]
      convert whole using 2
      split <;> rfl
    | withdrawn _ c c' mem mem' y' hold =>
      have whole := Handled.withdrawn (p := p) active c c' mem mem' y' hold
      rw [PortState.rewrite_mayRewrite _ rfl, PortState.rewrite_rewrite _ rfl]
      convert whole using 2
      split <;> rfl
  | withdrawn active c c' mem mem' y _ =>
    cases b with
    | stands hold => exact .withdrawn active c c' mem mem' y hold
    | waits d memd _ _ hold => exact .withdrawn active c d mem memd y hold
    | lowered again => exact nomatch again
    | withdrawn again => exact nomatch again

/-! What is read off it. -/

section
variable (a : Handled cs g p h q)
include a

theorem Handled.lastDemand : h.lastDemand = g.lastDemand := by cases a <;> rfl

theorem Handled.magnitude : |h.granted| ≤ |g.granted| := by
  cases a with
  | stands => exact le_rfl
  | waits => exact le_rfl
  | lowered _ x _ lower => exact lower.le
  | withdrawn =>
    show |(0 : Int)| ≤ _
    rw [abs_zero]
    exact abs_nonneg _

theorem Handled.unacked : g.state = .unacked ↔ h.state = .unacked := by
  cases a with
  | stands => rfl
  | waits _ _ _ acked => simpa using acked
  | lowered => rfl
  | withdrawn active => simpa [Grant.toNeutral] using Grant.acked_of_active active

theorem Handled.rst : q.rst = p.rst := by
  cases a
  case lowered | withdrawn => exact PortState.rewrite_rst _ _
  all_goals rfl

/-- A record still ACTIVE is as it was but for a lower grant, flagged, and the ceiling of a rewritten answer (R103). -/
theorem Handled.active (active : h.isActive = true) : g.isActive = true ∧
    h = { g with
      granted := h.granted, reduced := g.reduced || decide (h.granted ≠ g.granted)
      reportedCeiling := h.reportedCeiling, hold := h.hold } ∧
    (h.granted = 0 ∨ (h.granted < 0 ↔ g.granted < 0)) := by
  cases a with
  | stands => exact ⟨active, by simp, .inr Iff.rfl⟩
  | waits => exact nomatch active
  | lowered was x y lower sign =>
    have other : x ≠ g.granted := fun same => absurd lower (by simp [same])
    exact ⟨was, by simp [other], sign⟩
  | withdrawn => exact nomatch active

/-- A record that left ACTIVE has nothing granted and no flag, and waits for one of the causes (R99). -/
theorem Handled.left (was : g.isActive = true) (left : h.isActive = false) :
    (h.granted = 0 ∧ h.clamped = false ∧ h.blocked = false ∧ h.reduced = false) ∧ ∃ c ∈ cs, h.state = .neutralWait c := by
  cases a with
  | stands => exact absurd (was.symm.trans left) (by simp)
  | waits _ _ inactive => exact absurd (was.symm.trans inactive) (by simp)
  | lowered => exact absurd (was.symm.trans left) (by simp)
  | withdrawn _ c c' mem mem' => exact ⟨⟨rfl, rfl, rfl, rfl⟩, c', mem', rfl⟩

theorem Handled.inactive (was : g.isActive = false) : h.isActive = false ∧ h.granted = g.granted := by
  cases a with
  | stands => exact ⟨was, rfl⟩
  | waits => exact ⟨rfl, rfl⟩
  | lowered active => exact absurd (was.symm.trans active) (by simp)
  | withdrawn active => exact absurd (was.symm.trans active) (by simp)

/-- The pending answer stands, with the reported ceiling, or tells of the lower grant or of the withdrawal (R104). -/
theorem Handled.answer :
    if p.mayRewrite = false ∨ (h.isActive = g.isActive ∧ h.granted = g.granted) then
      q.answer = p.answer ∧ h.reportedCeiling = g.reportedCeiling
    else if h.isActive then q.answer = rewritableAnswer .reduced |h.granted| h.reportedCeiling
    else ∃ c ∈ cs, q.answer = rewritableAnswer .neutralRequired c.code 2 ∧ ∃ c' ∈ cs, h.state = .neutralWait c' := by
  cases a with
  | stands => rw [if_pos (.inr ⟨rfl, rfl⟩)]; exact ⟨rfl, rfl⟩
  | waits _ _ inactive => rw [if_pos (.inr ⟨inactive.symm, rfl⟩)]; exact ⟨rfl, rfl⟩
  | lowered active x y lower =>
    have other : x ≠ g.granted := fun same => absurd lower (by simp [same])
    have still : ∀ v o : Int, ∀ hold, ({ g with granted := v, reduced := true, reportedCeiling := o, hold := hold } :
        Grant).isActive = true := fun _ _ _ => active
    cases may : p.mayRewrite
    · rw [if_pos (.inl rfl), PortState.rewrite_of_not (by simp [may])]
      exact ⟨rfl, rfl⟩
    · rw [if_neg (by simp [other]), if_pos (still _ _ _), PortState.rewrite_of_may may]
      rfl
  | withdrawn active c c' mem mem' y =>
    cases may : p.mayRewrite
    · rw [if_pos (.inl rfl), PortState.rewrite_of_not (by simp [may])]
      exact ⟨rfl, rfl⟩
    · have left : ∀ o : Int, ∀ hold, ({ g.toNeutral c' with reportedCeiling := o, hold := hold } : Grant).isActive =
          false := fun _ _ => rfl
      rw [if_neg (by simp [left, active]), if_neg (by simp [left]), PortState.rewrite_of_may may]
      exact ⟨c, mem, rfl, c', mem', rfl⟩
end

/-- Without a cause no record changes its state (R99). -/
theorem Handled.state_of_nil (a : Handled [] g p h q) : h.state = g.state := by
  cases a with
  | stands => rfl
  | waits _ mem => exact absurd mem (by simp)
  | lowered => rfl
  | withdrawn _ _ _ mem => exact absurd mem (by simp)

/-- A withdrawal with its cause. -/
theorem Handled.of_neutral (cs : List NeutralCause) {c : NeutralCause} (mem : c ∈ cs) (g : Grant) (p : PortState) :
    Handled cs g p (g.neutral c)
      (if g.isActive then p.rewrite (rewritableAnswer .neutralRequired c.code 2) else p) := by
  obtain ⟨state, lastDemand, granted, reportedCeiling, clamped, blocked, reduced, hold⟩ := g
  cases state with
  | unacked => exact .stands hold
  | neutralWait d => exact .waits c mem rfl (by simp) hold
  | active life =>
    have whole := Handled.withdrawn (cs := cs) (p := p)
      (g := ⟨.active life, lastDemand, granted, reportedCeiling, clamped, blocked, reduced, hold⟩) rfl c c mem mem
      reportedCeiling hold
    rw [ite_self] at whole
    exact whole
end

/-! One drive. -/

/-- The ceilings lie in their range, and the grant of a drive within the one that bounds it; without an ACTIVE record it is
0 (R96, R103). -/
structure Bounded (d : Drive) (s : State) : Prop where
  inRange : s.env.grant.InRange
  within : |(s.grant d).granted| ≤ s.env.grant.bound d (isReverse (s.grant d).granted)
  inactive : (s.grant d).isActive = false → (s.grant d).granted = 0

/-- What an event in which a drive's port takes no part does at the drive: its record and its port are handled, and its
grant stays within the envelope. -/
structure Governed (cs : List NeutralCause) (d : Drive) (s t : State) : Prop where
  handled : Handled cs (s.grant d) (s.port d.port) (t.grant d) (t.port d.port)
  bounded : Bounded d s → Bounded d t

theorem Bounded.of_zero {d : Drive} {s : State} (inRange : s.env.grant.InRange) (zero : (s.grant d).granted = 0) :
    Bounded d s := by
  refine ⟨inRange, ?_, fun _ => zero⟩
  rw [zero, abs_zero]
  exact (inRange.bound d _).1

section
variable {cs : List NeutralCause} {d : Drive} {s t u : State}

theorem Bounded.congr (h : Bounded d s) (same : SameDrive d s t) (env : t.env.grant = s.env.grant) : Bounded d t := by
  obtain ⟨inRange, within, inactive⟩ := h
  refine ⟨by rwa [env], ?_, ?_⟩ <;> rw [same.grant]
  · rwa [env]
  · exact inactive

theorem Governed.of_same (same : SameDrive d s t) (env : t.env.grant = s.env.grant) : Governed cs d s t :=
  ⟨by rw [same.grant, same.port]; exact .refl _ _ _, fun h => h.congr same env⟩

theorem Governed.refl (cs : List NeutralCause) (d : Drive) (s : State) : Governed cs d s s := .of_same (.refl d s) rfl

theorem Governed.trans (h : Governed cs d s t) (k : Governed cs d t u) : Governed cs d s u :=
  ⟨h.handled.trans k.handled, k.bounded ∘ h.bounded⟩

theorem Governed.mono {ds : List NeutralCause} (h : Governed cs d s t) (sub : cs ⊆ ds) : Governed ds d s t :=
  ⟨h.handled.mono sub, h.bounded⟩

/-- The neutral hold of a drive written (R111, R136). -/
theorem withHold_governed (cs : List NeutralCause) (d : Drive) (hold : Bool) (s : State) :
    Governed cs d s (s.withGrant d { s.grant d with hold := hold }) := by
  have grant := State.grant_withGrant_self s d { s.grant d with hold := hold }
  refine ⟨by rw [grant, withGrant_port]; exact .stands hold, fun h => ⟨h.inRange, ?_, ?_⟩⟩ <;> rw [grant]
  · exact h.within
  · exact h.inactive

theorem neutralEvent_governed {c : NeutralCause} (mem : c ∈ cs) (d : Drive) (s : State) :
    Governed cs d s (neutralEvent c d s) := by
  have env : (neutralEvent c d s).env = s.env := (neutralEvent_effect c d s).env_eq
  refine ⟨by rw [neutralEvent_grant, neutralEvent_port]; exact .of_neutral cs mem _ _, fun h => ?_⟩
  refine .of_zero (by rw [env]; exact h.inRange) ?_
  rw [neutralEvent_grant, Grant.neutral_granted]
  split
  · rfl
  · next idle => exact h.inactive (by simpa using idle)

theorem latchedDropBegins_governed (mem : .drop ∈ cs) (d : Drive) (s : State) :
    Governed cs d s (latchedDropBegins s d) :=
  (neutralEvent_governed mem d s).trans (withHold_governed cs d true _)

/-- An ACTIVE record withdrawn (R99). -/
theorem withdraw_governed {c : NeutralCause} (mem : c ∈ cs) (active : (s.grant d).isActive = true) :
    Governed cs d s (withdraw d c s) ∧ ((withdraw d c s).grant d).state = .neutralWait c := by
  have event : neutralEvent c d s = withdraw d c s := by
    unfold neutralEvent
    split
    · rfl
    · next wait => simp [Grant.isActive, wait] at active
    · next unacked => simp [Grant.isActive, unacked] at active
  rw [← event]
  refine ⟨neutralEvent_governed mem d s, ?_⟩
  rw [neutralEvent_grant, Grant.neutral_state, if_neg (Grant.acked_of_active active)]
end

/-! The re-clamp. -/

theorem abs_withSignOf (v : Int) {m : Int} (h : 0 ≤ m) : |withSignOf v m| = m := by
  unfold withSignOf
  split
  · rw [abs_neg, abs_of_nonneg h]
  · exact abs_of_nonneg h

/-- A magnitude with a sign is 0 or keeps the sign (R103). -/
theorem withSignOf_sign (v : Int) {m : Int} (h : 0 ≤ m) : withSignOf v m = 0 ∨ (withSignOf v m < 0 ↔ v < 0) := by
  unfold withSignOf
  split <;> omega

theorem reclampDrive_env (s : State) (d : Drive) : (reclampDrive s d).env = s.env := (reclampDrive_effect s d).env_eq

/-- A re-clamp against ceilings in range handles the record, and leaves it within its ceiling where a record that is not
ACTIVE has nothing granted (R103). -/
theorem reclampDrive_handled (cs : List NeutralCause) {s : State} (inRange : s.env.grant.InRange) (d : Drive) :
    Handled cs (s.grant d) (s.port d.port) ((reclampDrive s d).grant d) ((reclampDrive s d).port d.port) ∧
      (((s.grant d).isActive = false → (s.grant d).granted = 0) → Bounded d (reclampDrive s d)) := by
  unfold reclampDrive
  dsimp only
  split
  · next life active =>
    have isActive : (s.grant d).isActive = true := by rw [Grant.isActive, active]
    have low := (inRange.bound d (isReverse (s.grant d).granted)).1
    split
    · next above =>
      have grant : ∀ g : Grant, ∀ a, (rewriteAnswer d a (s.withGrant d g)).grant d = g := fun g _ => by
        rw [rewriteAnswer_grant, State.grant_withGrant_self]
      have magnitude := abs_withSignOf (s.grant d).granted low
      refine ⟨?_, fun _ => ⟨inRange, ?_, ?_⟩⟩
      · rw [grant, rewriteAnswer_port, withGrant_port]
        have whole := Handled.lowered (cs := cs) (p := s.port d.port) isActive
          (withSignOf (s.grant d).granted (s.env.grant.bound d (isReverse (s.grant d).granted)))
          (s.env.answerY d (isReverse (s.grant d).granted)) (by rwa [magnitude]) (withSignOf_sign _ low)
          (s.grant d).hold
        rwa [magnitude] at whole
      · rw [grant]
        show |withSignOf _ _| ≤ s.env.grant.bound d (isReverse (withSignOf _ _))
        obtain zero | sign := withSignOf_sign (s.grant d).granted low
        · rw [zero, abs_zero]
          exact (inRange.bound d _).1
        · have same : isReverse (withSignOf (s.grant d).granted (s.env.grant.bound d (isReverse (s.grant d).granted))) =
              isReverse (s.grant d).granted := decide_eq_decide.mpr sign
          rw [magnitude, same]
      · rw [grant]
        intro idle
        exact absurd (isActive.symm.trans idle) (by simp)
    · next within =>
      exact ⟨.refl _ _ _, fun idle => ⟨inRange, not_lt.mp within, idle⟩⟩
  all_goals
    refine ⟨.refl _ _ _, fun idle => .of_zero inRange (idle ?_)⟩
    simp [Grant.isActive, *]

/-- An operation taken at every drive in turn meets each drive as it was, with the parts it does not write as they were. -/
theorem foldl_drives_effect {c : List Part} {f : State → Drive → State} (only : ∀ s d, OnlyDrive d s (f s d))
    (effect : ∀ s d, Effect c s (f s d)) (s : State) (d : Drive) :
    ∃ u, SameDrive d s u ∧ Effect c s u ∧ SameDrive d (f u d) (drivesInOrder.foldl f s) := by
  simp only [drivesInOrder, List.foldl_cons, List.foldl_nil]
  cases d
  · exact ⟨s, .refl _ _, .refl _, ((only _ .crowd).same (by simp)).trans ((only _ .rotary).same (by simp))⟩
  · exact ⟨f s .hoist, (only _ .hoist).same (by simp), effect _ _, (only _ .rotary).same (by simp)⟩
  · exact ⟨f (f s .hoist) .crowd, ((only _ .hoist).same (by simp)).trans ((only _ .crowd).same (by simp)),
      (effect _ _).trans (effect _ _), .refl _ _⟩

theorem grantFieldsDiffer_false {e f : Envelope} (h : e.grantFieldsDiffer f = false) : e.grant = f.grant := by
  simp only [Envelope.grantFieldsDiffer, Bool.or_eq_false_iff, decide_eq_false_iff_not, not_not] at h
  exact h.1.1

/-- A recomputation withdraws nothing, whatever the inputs became, and leaves every grant within the new ceilings (R73,
R103). -/
theorem recompute_governed (d : Drive) (s : State) : Governed [] d s (recompute s) := by
  have inRange : (s.withEnv s.envelope).env.grant.InRange := s.envelope_inRange
  have still : SameDrive d s (s.withEnv s.envelope) := ⟨rfl, rfl⟩
  unfold recompute
  dsimp only
  split
  · obtain ⟨u, before, effect, after⟩ := foldl_drives_effect (fun t d => reclampDrive_only d t) reclampDrive_effect
      (s.withEnv s.envelope) d
    have after : SameDrive d (reclampDrive u d) (reclamp (s.withEnv s.envelope)) := after
    have env : u.env = s.envelope := effect.env_eq
    have met := still.trans before
    obtain ⟨handled, bounded⟩ := reclampDrive_handled [] (by rw [env]; exact inRange) d
    refine ⟨?_, fun h => ?_⟩
    · rw [after.grant, after.port, ← met.grant, ← met.port]
      exact handled
    · have clamped : (reclamp (s.withEnv s.envelope)).env.grant = (reclampDrive u d).env.grant := by
        rw [(reclamp_effect _).env_eq, reclampDrive_env, env]
        rfl
      exact (bounded (by rw [met.grant]; exact h.inactive)).congr after clamped
  · next same => exact .of_same still (grantFieldsDiffer_false (by simpa using same))

end Sys2Proof.Machine
end

