-- ==== Sys2Proof/Proofs/Ruled.lean ====
section
/-! The grants through every shared operation: those that withdraw none (`Quiet`), and those of the fault supervisor, at
which a LATCHED DROP may begin (`Ruled`) (R103, R111, R134). -/

namespace Sys2Proof.Machine

/-! Operations that withdraw nothing. -/

/-- An operation that lowers grants at most, and leaves the holds, the fault entries, the group mode and the cab port. -/
structure Quiet (s t : State) : Prop where
  governed : ∀ d, Governed [] d s t
  hold : ∀ d, (t.grant d).hold = (s.grant d).hold
  entry : ∀ src, t.entry src = s.entry src
  groupMode : t.fsv.groupMode = s.fsv.groupMode
  cab : t.port .cab = s.port .cab

section
variable {s t u : State}

theorem Quiet.trans (h : Quiet s t) (k : Quiet t u) : Quiet s u where
  governed d := (h.governed d).trans (k.governed d)
  hold d := (k.hold d).trans (h.hold d)
  entry src := (k.entry src).trans (h.entry src)
  groupMode := k.groupMode.trans h.groupMode
  cab := k.cab.trans h.cab

/-- An operation that leaves the records, the ports, the ceilings and the fault table. -/
theorem Quiet.of_same (drives : ∀ d, SameDrive d s t) (env : t.env.grant = s.env.grant)
    (entry : ∀ src, t.entry src = s.entry src) (groupMode : t.fsv.groupMode = s.fsv.groupMode)
    (cab : t.port .cab = s.port .cab) : Quiet s t :=
  ⟨fun d => .of_same (drives d) env, fun d => by rw [(drives d).grant], entry, groupMode, cab⟩

theorem Quiet.of_parts (gru : t.gru = s.gru := by rfl) (pif : t.pif = s.pif := by rfl)
    (env : t.env.grant = s.env.grant := by rfl) (table : t.fsv.table = s.fsv.table := by rfl)
    (groupMode : t.fsv.groupMode = s.fsv.groupMode := by rfl) : Quiet s t :=
  .of_same (fun d => ⟨by rw [State.grant, gru, State.grant], by rw [State.port, pif, State.port]⟩) env
    (fun src => by rw [State.entry, Fsv.entry, table, State.entry, Fsv.entry]) groupMode
    (by rw [State.port, pif, State.port])

theorem Quiet.refl (s : State) : Quiet s s := .of_parts

theorem Quiet.of_effect {c : List Part} (e : Effect c s t)
    (hc : ∀ x ∈ [Part.grants, .pif, .env, .faults], x ∉ c := by simp) : Quiet s t := by
  have pif : t.pif = s.pif := e.kept .pif (hc _ (by simp))
  have ports : ∀ q, t.port q = s.port q := fun q => by rw [State.port, pif, State.port]
  exact .of_same (fun d => ⟨e.grant_eq d (hc _ (by simp)), ports _⟩) (by rw [e.env_eq (hc _ (by simp))])
    (fun src => e.entry_eq src (hc _ (by simp))) (by rw [e.fsv_eq (hc _ (by simp))]) (ports _)

theorem Quiet.ite {p : Prop} [Decidable p] (h : Quiet s t) (k : Quiet s u) : Quiet s (if p then t else u) := by
  split
  · exact h
  · exact k

/-- Where nothing is withdrawn every record keeps its state. -/
theorem Quiet.isActive (h : Quiet s t) (d : Drive) : (t.grant d).isActive = (s.grant d).isActive :=
  Grant.isActive_congr (h.governed d).handled.state_of_nil
end

section
variable (s : State)

theorem recompute_quiet : Quiet s (recompute s) where
  governed d := recompute_governed d s
  hold d := ((recompute_reclamped s).1 d).hold
  entry src := recompute_entry s src
  groupMode := by rw [recompute_fsv]
  cab := (recompute_reclamped s).2

/-- A change of phase that does not enter PARKED (R48). -/
theorem changePhase_quiet {p : Phase} (h : p ≠ .parked) : Quiet s (changePhase p s) := by
  unfold changePhase
  dsimp only
  rw [if_neg h]
  have entered : Quiet s ((askEvent (.phaseChange s.phc.phase p)
      (s.withPhc { s.phc with op := none, target := none, releaseLatch := false })).withPhc
        ⟨p, none, none, false, s.phc.advanceArm⟩) := .of_parts
  exact entered.trans ((recompute_quiet _).trans .of_parts)

theorem advanceEvaluate_quiet : Quiet s (advanceEvaluate s) := by
  unfold advanceEvaluate
  split
  · dsimp only
    have armed : ∀ b, Quiet s (s.withPhc { s.phc with advanceArm := b }) := fun _ => .of_parts
    exact .ite ((armed _).trans (changePhase_quiet _ (by simp))) (armed _)
  · exact .refl s

theorem phcAfterEvaluation_quiet (old : Stk) : Quiet s (phcAfterEvaluation old s) :=
  .ite (.refl s) (advanceEvaluate_quiet s)

theorem phcCount_quiet (forward : Bool) : Quiet s (phcCount forward s) := by
  have engaged : s.engagedPhase ≠ .parked := by rcases engagedPhase_cases s with h | h <;> simp [h]
  have released : s.releasedPhase ≠ .parked := by rcases releasedPhase_cases s with h | h <;> simp [h]
  have counted : ∀ op, Quiet s (s.withPhc { s.phc with op := op }) := fun _ => .of_parts
  unfold phcCount
  split
  · exact .refl s
  · dsimp only
    split
    · exact .ite (.ite ((counted _).trans (changePhase_quiet _ engaged)) (counted _))
        (.ite ((counted _).trans (changePhase_quiet _ released)) (counted _))
    · exact counted _
end

/-! Operations of the fault supervisor. -/

/-- A LATCHED DROP that reaches a drive begins in an event: no override of its source was in force, and it is afterwards, its
source latched (R111, R134). -/
structure BeganDrop (d : Drive) (s t : State) (src : Source) : Prop where
  idle : (s.entry src).override = none
  action : (s.entry src).action = .drop
  mode : (s.entry src).mode = .latched
  reach : (src.group.reach s.fsv.groupMode).has d = true
  begun : (t.entry src).override = some ⟨.drop, .latched⟩
  latched : (t.entry src).latched = true

/-- An operation at which grants are lowered, and withdrawn by a LATCHED DROP that begins; every override in force goes on,
and no latch and no hold is cleared. -/
structure Ruled (s t : State) : Prop where
  governed : ∀ d, Governed [.drop] d s t
  began : ∀ d, (s.grant d).isActive = true → (t.grant d).isActive = false → ∃ src, BeganDrop d s t src
  inForce : InForceStands s t
  latched : ∀ src, (s.entry src).latched = true → (t.entry src).latched = true
  hold : ∀ d, (s.grant d).hold = true → (t.grant d).hold = true
  cab : t.port .cab = s.port .cab

section
variable {s t u : State}

theorem Quiet.ruled (h : Quiet s t) : Ruled s t where
  governed d := (h.governed d).mono (by simp)
  began d was left := absurd (was.symm.trans ((h.isActive d).symm.trans left)) (by simp)
  inForce := ⟨h.groupMode, fun src => by rw [h.entry]; exact .refl _⟩
  latched src := by rw [h.entry]; exact id
  hold d := by rw [h.hold]; exact id
  cab := h.cab

theorem Ruled.refl (s : State) : Ruled s s := (Quiet.refl s).ruled

theorem Ruled.trans (h : Ruled s t) (k : Ruled t u) : Ruled s u where
  governed d := (h.governed d).trans (k.governed d)
  inForce := h.inForce.trans k.inForce
  latched src := k.latched src ∘ h.latched src
  hold d := k.hold d ∘ h.hold d
  cab := k.cab.trans h.cab
  began d was left := by
    cases between : (t.grant d).isActive with
    | false =>
      obtain ⟨src, began⟩ := h.began d was between
      exact ⟨src, { began with
        begun := (k.inForce.entry src).override _ began.begun, latched := k.latched src began.latched }⟩
    | true =>
      obtain ⟨src, began⟩ := k.began d between left
      obtain ⟨mode, action, override⟩ := h.inForce.entry src
      refine ⟨src, ⟨?_, action ▸ began.action, mode ▸ began.mode, h.inForce.groupMode ▸ began.reach, began.begun,
        began.latched⟩⟩
      by_contra inForce
      obtain ⟨o, ho⟩ := Option.ne_none_iff_exists'.mp inForce
      exact nomatch began.idle.symm.trans (override o ho)

theorem Ruled.ite {p : Prop} [Decidable p] (h : Ruled s t) (k : Ruled s u) : Ruled s (if p then t else u) := by
  split
  · exact h
  · exact k

theorem Ruled.foldl {α : Type} {f : State → α → State} (h : ∀ s a, Ruled s (f s a)) (xs : List α) (s : State) :
    Ruled s (xs.foldl f s) := by
  induction xs generalizing s with
  | nil => exact .refl s
  | cons x xs ih => exact (h s x).trans (ih _)

/-- An operation that writes the fault table alone, and there leaves what is in force and the latches. -/
theorem Ruled.of_table (gru : t.gru = s.gru) (pif : t.pif = s.pif) (env : t.env = s.env) (inForce : InForceStands s t)
    (latched : ∀ src, (s.entry src).latched = true → (t.entry src).latched = true) : Ruled s t := by
  have grants : ∀ d, t.grant d = s.grant d := fun d => by rw [State.grant, gru, State.grant]
  have ports : ∀ q, t.port q = s.port q := fun q => by rw [State.port, pif, State.port]
  exact {
    governed := fun d => .of_same ⟨grants d, ports _⟩ (by rw [env])
    began := fun d was left => absurd (was.symm.trans ((congrArg Grant.isActive (grants d)).symm.trans left)) (by simp)
    inForce := inForce
    latched := latched
    hold := fun d => by rw [grants]; exact id
    cab := ports _ }

/-- One entry written, its settings as they were, its override going on and its latch not cleared. -/
theorem withEntry_ruled {src : Source} {x : FaultEntry} (entry : (s.entry src).GoesOn x)
    (latched : (s.entry src).latched = true → x.latched = true) : Ruled s (s.withEntry src x) := by
  refine .of_table rfl rfl rfl (withPendingEntry_inForce entry) fun y => ?_
  by_cases h : y = src
  · rw [h, State.entry_withEntry_self]
    exact latched
  · rw [State.entry_withEntry_of_ne (h := h)]
    exact id
end

/-- The grants as an override with an action and a mode begins over a reach: a LATCHED DROP alone withdraws, and within its
reach alone (R111, R135). -/
structure DropsWithin (action : OverrideAction) (mode : Mode) (reach : DriveSet) (s t : State) : Prop where
  governed : ∀ d, Governed [.drop] d s t
  within : ∀ d, (s.grant d).isActive = true → (t.grant d).isActive = false →
    action = .drop ∧ mode = .latched ∧ reach.has d = true
  hold : ∀ d, (s.grant d).hold = true → (t.grant d).hold = true
  cab : t.port .cab = s.port .cab

theorem Quiet.dropsWithin {s t : State} (h : Quiet s t) (action : OverrideAction) (mode : Mode) (reach : DriveSet) :
    DropsWithin action mode reach s t where
  governed d := (h.governed d).mono (by simp)
  within d was left := absurd (was.symm.trans ((h.isActive d).symm.trans left)) (by simp)
  hold d := by rw [h.hold]; exact id
  cab := h.cab

/-- A neutral event with its hold sets the hold (R111). -/
theorem latchedDropBegins_hold (s : State) (d : Drive) : ((latchedDropBegins s d).grant d).hold = true := by
  unfold latchedDropBegins
  dsimp only
  rw [State.grant_withGrant_self]

/-- A LATCHED DROP taken at every drive of a reach (R111). -/
theorem latchedDrops_within (reach : DriveSet) (s : State) :
    DropsWithin .drop .latched reach s (reach.drives.foldl latchedDropBegins s) := by
  have fold : reach.drives.foldl latchedDropBegins s =
      drivesInOrder.foldl (fun t d => if reach.has d then latchedDropBegins t d else t) s := List.foldl_filter ..
  have only : ∀ (t : State) (d : Drive), OnlyDrive d t (if reach.has d then latchedDropBegins t d else t) := fun t d => by
    split
    · exact latchedDropBegins_only d t
    · exact .refl d t
  have effect : ∀ (t : State) (d : Drive), Effect [.grants, .pif] t (if reach.has d then latchedDropBegins t d else t) :=
    fun t d => .ite (latchedDropBegins_effect t d) (.refl t)
  have env : (reach.drives.foldl latchedDropBegins s).env = s.env := (Effect.foldl latchedDropBegins_effect _ s).env_eq
  rw [fold] at env ⊢
  have cab := (foldl_drives only s).2
  have drives := foldl_drives_effect only effect s
  refine ⟨fun d => ?_, fun d => ?_, fun d => ?_, cab⟩
  all_goals
    obtain ⟨u, before, frame, after⟩ := drives d
    by_cases has : reach.has d = true
  · rw [if_pos has] at after
    have same : Governed [.drop] d s u := .of_same before (by rw [frame.env_eq])
    refine same.trans ((latchedDropBegins_governed (by simp) d u).trans (.of_same after ?_))
    rw [env, (latchedDropBegins_effect u d).env_eq, frame.env_eq]
  · rw [if_neg has] at after
    exact .of_same (before.trans after) (by rw [env])
  · exact fun _ _ => ⟨rfl, rfl, has⟩
  · rw [if_neg has] at after
    rw [(before.trans after).grant]
    exact fun was left => absurd (was.symm.trans left) (by simp)
  · rw [if_pos has] at after
    rw [after.grant, latchedDropBegins_hold]
    exact fun _ => rfl
  · rw [if_neg has] at after
    rw [(before.trans after).grant]
    exact id

section
variable (s : State)

theorem handLimitReach_quiet : Quiet s (handLimitReach s) := by
  unfold handLimitReach
  dsimp only
  have formed : Quiet s (s.withFsv { s.fsv with limitReach := s.fsv.formLimitReach }) := .of_parts
  exact .ite (.refl s) (formed.trans (recompute_quiet _))

/-- The beginning of an override at the grants (R135). -/
theorem beginOverride_within (src : Source) (action : OverrideAction) :
    ∃ v, (∀ d, v.grant d = s.grant d) ∧ (∀ q, v.port q = s.port q) ∧ v.env = s.env ∧
      DropsWithin action (s.entry src).mode (src.group.reach s.fsv.groupMode) v (beginOverride src action s) := by
  let w := s.withEntry src { s.entry src with override := some ⟨action, (s.entry src).mode⟩ }
  refine ⟨w, fun _ => rfl, fun _ => rfl, rfl, ?_⟩
  cases action with
  | limit => exact (handLimitReach_quiet w).dropsWithin _ _ _
  | drop =>
    simp only [beginOverride]
    have handed : Quiet w (handDropReach w) := .of_parts
    split
    · next latched =>
      have drops := latchedDrops_within (src.group.reach s.fsv.groupMode) (handDropReach w)
      exact {
        governed := fun d => ((handed.governed d).mono (by simp)).trans (drops.governed d)
        within := fun d was left => ⟨rfl, latched, (drops.within d was left).2.2⟩
        hold := drops.hold
        cab := drops.cab }
    · exact handed.dropsWithin _ _ _

/-- A raise, with the override that begins (R134). -/
theorem raise_ruled (src : Source) : Ruled s (raise src s) := by
  have written : Ruled s (s.withEntry src { s.entry src with latched := true }) :=
    withEntry_ruled ⟨rfl, rfl, fun _ h => h⟩ fun _ => rfl
  have asked := written.trans (Quiet.of_effect (askEvent_effect (.faultRaised src) _)).ruled
  have latched := fun x => raise_latched_mono src x s
  have inForce := (raise_supervised s src).toInForceStands
  unfold raise at latched inForce ⊢
  split
  · exact .refl s
  · next running =>
    rw [if_neg running] at latched inForce
    dsimp only at latched inForce ⊢
    split
    · next action idle acts =>
      have present : (askEvent (.faultRaised src) (s.withEntry src { s.entry src with latched := true })).entry src =
          { s.entry src with latched := true } := State.entry_withEntry_self _ _ _
      rw [idle, acts] at latched inForce
      dsimp only at latched inForce
      have same : ∀ d, SameDrive d s (askEvent (.faultRaised src)
          (s.withEntry src { s.entry src with latched := true })) := fun _ => ⟨rfl, rfl⟩
      have group : (askEvent (.faultRaised src) (s.withEntry src { s.entry src with latched := true })).fsv.groupMode =
          s.fsv.groupMode := rfl
      have env : (askEvent (.faultRaised src) (s.withEntry src { s.entry src with latched := true })).env = s.env := rfl
      have cab : (askEvent (.faultRaised src) (s.withEntry src { s.entry src with latched := true })).port .cab =
          s.port .cab := rfl
      generalize askEvent (.faultRaised src) (s.withEntry src { s.entry src with latched := true }) = v at *
      obtain ⟨w, grants, ports, wenv, drops⟩ := beginOverride_within v src action
      have met : ∀ d, SameDrive d s w := fun d => (same d).trans ⟨grants d, ports _⟩
      have begun := beginOverride_entry src action v src
      rw [if_pos rfl, present] at begun
      rw [present] at idle acts drops
      refine ⟨fun d => Governed.trans (.of_same (met d) (by rw [wenv, env])) (drops.governed d), fun d was left => ?_,
        inForce, latched, fun d h => drops.hold d (by rw [(met d).grant]; exact h),
        drops.cab.trans ((ports _).trans cab)⟩
      obtain ⟨rfl, mode, reach⟩ := drops.within d (by rw [(met d).grant]; exact was) left
      refine ⟨src, idle, ?_, mode, group ▸ reach, ?_, ?_⟩
      · dsimp only at acts
        cases action : (s.entry src).action <;> rw [action] at acts <;> simp_all [Action.override]
      · rw [begun]
        exact congrArg (fun m => some (Override.mk .drop m)) mode
      · rw [begun]
    all_goals exact asked

theorem raiseAll_ruled (srcs : List Source) : Ruled s (raiseAll srcs s) :=
  .foldl (f := fun s src => raise src s) (fun s src => raise_ruled s src) srcs s

theorem decideCondition_ruled (src : Source) (b : Bool) : Ruled s (decideCondition src b s) := by
  have written : Ruled s (s.withEntry src { s.entry src with condition := b }) :=
    withEntry_ruled ⟨rfl, rfl, fun _ h => h⟩ id
  unfold decideCondition
  split
  · exact .refl s
  · exact .ite (written.trans (raise_ruled _ src)) written

theorem decideConditions_ruled (cs : List (Source × Bool)) : Ruled s (decideConditions cs s) :=
  .foldl (f := fun s (c : Source × Bool) => decideCondition c.1 c.2 s)
    (fun s c => decideCondition_ruled s c.1 c.2) cs s

theorem handOn_ruled (raised : List Source) : Ruled s (handOn raised s) :=
  (Quiet.of_effect (zntReevaluate_effect s)).ruled.trans ((recompute_quiet _).ruled.trans
    ((raiseAll_ruled _ raised).trans (decideCondition_ruled _ _ _)))

theorem handCount_ruled (evaluated : Option (List Source)) : Ruled s (handCount evaluated s) := by
  cases evaluated with
  | none => exact (recompute_quiet s).ruled
  | some raised => exact handOn_ruled s raised

theorem afterEvaluation_ruled (old : Stk) (raised : List Source) : Ruled s (afterEvaluation old raised s) :=
  (handOn_ruled s raised).trans ((phcAfterEvaluation_quiet _ old).trans (.of_effect (brcDepth_effect _ _))).ruled

/-- A string model written, evaluated and handed on. -/
theorem evaluated_ruled {u : State} (begun : Quiet s u) (old : Stk) (raised : List Source) :
    Ruled s (afterEvaluation old raised (evaluate u)) :=
  begun.ruled.trans ((Quiet.of_effect (evaluate_effect u)).ruled.trans (afterEvaluation_ruled _ old raised))

theorem positionCounted_ruled (e : PositionEncoder) (up : Bool) : Ruled s (positionCounted e up s) :=
  evaluated_ruled s (.of_effect (withMsu_effect s _)) s.stk []

theorem commitCompleted_ruled : Ruled s (commitCompleted s) := evaluated_ruled s (u := rebuilt s) .of_parts s.stk []

theorem jointsConfirmed_ruled (a : Word) : Ruled s (jointsConfirmed a s) :=
  .ite (.refl s) (evaluated_ruled s .of_parts s.stk [])

theorem datumTaken_ruled (d : Int) (g : Geometry) : Ruled s (datumTaken d g s) :=
  evaluated_ruled s (.of_effect (withStk_effect s _)) s.stk []

theorem settingChanged_ruled (v : Setting) : Ruled s (settingChanged v s) := by
  cases v
  case lSlack => exact evaluated_ruled s (.of_effect (withStk_effect s _)) s.stk []
  case depthTolerance => exact decideCondition_ruled s _ _
  case recordStep => exact (Quiet.of_effect (recordStepChanged_effect s)).ruled
  case spinOffLevel => exact (advanceEvaluate_quiet s).ruled
  case autoAdvance => exact .ite (advanceEvaluate_quiet s).ruled (.refl s)
  all_goals exact .refl s

theorem settingWritten_ruled (v : Setting) (x : Int) : Ruled s (settingWritten v x s) := by
  have written : Quiet s (recompute (s.withSettings (s.gst.settings.write v x))) :=
    (Quiet.of_effect (withSettings_effect s _)).trans (recompute_quiet _)
  exact .ite written.ruled (written.ruled.trans (settingChanged_ruled _ v))

theorem defaultsTaken_ruled : Ruled s (defaultsTaken s) := by
  have pending : ∀ (u : State) (f : Fsv), f.groupMode = u.fsv.groupMode →
      (∀ src, f.entry src = (u.entry src).defaulted src) → Ruled u (u.withFsv f) := by
    intro u f group entry
    refine .of_table rfl rfl rfl ⟨group, fun src => ?_⟩ fun src => ?_ <;> rw [withFsv_entry, entry]
    · exact ⟨rfl, rfl, fun _ h => h⟩
    · exact id
  have defaulted := pending (s.withSettings .default) s.fsv.defaulted
    (by unfold Fsv.defaulted; rfl) fun src => by rw [defaulted_entry]; rfl
  have written : Ruled s s.withDefaults := (Quiet.of_effect (withSettings_effect s .default)).ruled.trans
    (defaulted.trans (recompute_quiet _).ruled)
  exact written.trans (.foldl (f := defaultHanded s.gst.settings)
    (fun u v => .ite (settingChanged_ruled u v) (.refl u)) _ _)
end

end Sys2Proof.Machine
end

