-- ==== Sys2Proof/Proofs/Dealt.lean ====
section
/-! What a request on another port makes of a drive (`Dealt`): its grant is lowered, or withdrawn by a LATCHED DROP, or by an
entry to PARKED (R48, R99, R103, R111). -/

namespace Sys2Proof.Machine

/-- The drive, the ceilings and what the phases and the overrides in force are as they were. -/
structure Unmoved (d : Drive) (s t : State) : Prop where
  drive : SameDrive d s t
  ceilings : t.env.grant = s.env.grant
  override : ∀ src, (t.entry src).override = (s.entry src).override
  groupMode : t.fsv.groupMode = s.fsv.groupMode
  phase : t.phc.phase = s.phc.phase

/-- What an event makes of a drive whose port takes no part in it, boundaries apart: a grant is withdrawn by a LATCHED DROP
that begins and stays in force, or, after one perhaps, by the entry to PARKED (R99, R111). -/
inductive Dealt (d : Drive) (s t : State) : Prop where
  | dropped (governed : Governed [.drop] d s t)
    (began : (s.grant d).isActive = true → (t.grant d).isActive = false →
      ∃ src, t.holdsBack src d ∧ (s.entry src).override = none)
  | parked (governed : Governed [.drop, .parked] d s t)
    (waits : (s.grant d).state ≠ .unacked → (t.grant d).state = .neutralWait .parked) (entered : t.phc.phase = .parked)
    (left : s.phc.phase ≠ .parked)

section
variable {d : Drive} {s t u : State}

theorem Unmoved.governed (h : Unmoved d s t) (cs : List NeutralCause) : Governed cs d s t := .of_same h.drive h.ceilings

theorem Unmoved.of_effect {c : List Part} (e : Effect c s t)
    (hc : ∀ x ∈ [Part.grants, .pif, .env, .faults, .phc], x ∉ c := by simp) : Unmoved d s t where
  drive := ⟨e.grant_eq d (hc _ (by simp)), by rw [State.port, e.kept .pif (hc _ (by simp)), State.port]⟩
  ceilings := by rw [e.env_eq (hc _ (by simp))]
  override src := by rw [e.entry_eq src (hc _ (by simp))]
  groupMode := by rw [e.fsv_eq (hc _ (by simp))]
  phase := by rw [e.phc_eq (hc _ (by simp))]

theorem withPort_unmoved {p : Port} (other : p ≠ d.port) (x : PortState) (s : State) : Unmoved d s (s.withPort p x) :=
  ⟨⟨rfl, State.port_withPort_of_ne s x other.symm⟩, rfl, fun _ => rfl, rfl, rfl⟩

/-- Nothing is made of a drive whose record, port and ceilings are as they were. -/
theorem Dealt.of_same (same : SameDrive d s t) (ceilings : t.env.grant = s.env.grant) : Dealt d s t :=
  .dropped (.of_same same ceilings) fun was left =>
    absurd (was.symm.trans ((congrArg Grant.isActive same.grant).symm.trans left)) (by simp)

theorem Dealt.refl (d : Drive) (s : State) : Dealt d s s := .of_same (.refl d s) rfl

theorem Unmoved.dealt (h : Unmoved d s t) : Dealt d s t := .of_same h.drive h.ceilings

theorem Ruled.dealt (h : Ruled s t) (d : Drive) : Dealt d s t :=
  .dropped (h.governed d) fun was left => by
    obtain ⟨src, idle, -, -, reach, begun, -⟩ := h.began d was left
    exact ⟨src, ⟨begun, h.inForce.groupMode ▸ reach⟩, idle⟩

theorem Dealt.andUnmoved (h : Dealt d s t) (k : Unmoved d t u) : Dealt d s u := by
  have grant := k.drive.grant
  cases h with
  | dropped governed began =>
    refine .dropped (governed.trans (k.governed _)) fun was left => ?_
    obtain ⟨src, ⟨inForce, reach⟩, idle⟩ := began was (grant ▸ left)
    exact ⟨src, ⟨(k.override src).trans inForce, k.groupMode ▸ reach⟩, idle⟩
  | parked governed waits entered left =>
    exact .parked (governed.trans (k.governed _)) (by rwa [grant]) (k.phase.trans entered) left

theorem Unmoved.andDealt (h : Unmoved d s t) (k : Dealt d t u) : Dealt d s u := by
  have grant := h.drive.grant
  cases k with
  | dropped governed began =>
    refine .dropped ((h.governed _).trans governed) fun was left => ?_
    obtain ⟨src, holds, idle⟩ := began (by rwa [grant]) left
    exact ⟨src, holds, (h.override src).symm.trans idle⟩
  | parked governed waits entered left =>
    exact .parked ((h.governed _).trans governed) (by rwa [grant] at waits) entered (by rwa [← h.phase])

/-- The entry to PARKED, after what a LATCHED DROP did (R48, R63, R99). -/
theorem Dealt.park {s u : State} (ruled : Ruled s u) (left : s.phc.phase ≠ .parked) (d : Drive) :
    Dealt d s (changePhase .parked u) := by
  let w := (askEvent (.phaseChange u.phc.phase .parked)
    (u.withPhc { u.phc with op := none, target := none, releaseLatch := false })).withPhc
    ⟨.parked, none, none, false, u.phc.advanceArm⟩
  obtain ⟨v, before, frame, after⟩ := foldl_drives_effect (fun t d => neutralEvent_only d t .parked)
    (fun t d => neutralEvent_effect .parked d t) (recompute w) d
  have after : SameDrive d (neutralEvent .parked d v) (changePhase .parked u) := ⟨after.grant, after.port⟩
  have entered : Quiet u w := .of_parts
  have recomputed := ((entered.trans (recompute_quiet w)).governed d).mono (ds := [.drop, .parked]) (by simp)
  have met : Governed [.drop, .parked] d u v := recomputed.trans (.of_same before (by rw [frame.env_eq]))
  have env : (changePhase .parked u).env = (neutralEvent .parked d v).env := by
    rw [(neutralEvent_effect .parked d v).env_eq, frame.env_eq]
    exact (parkGrants_effect (recompute w)).env_eq
  have parked : Governed [.drop, .parked] d u (changePhase .parked u) :=
    met.trans ((neutralEvent_governed (by simp) d v).trans (.of_same after (by rw [env])))
  have whole := ((ruled.governed d).mono (ds := [.drop, .parked]) (by simp)).trans parked
  have waits := ((changePhase_parked u).1 d).1.waits
  exact .parked whole (fun acked => waits (mt (ruled.governed d).handled.unacked.mpr acked)) (changePhase_phase _ _) left
end

/-! The requests. -/

section
variable {d : Drive} {p : Port} (other : p ≠ d.port) (s : State)

theorem Port.drive_ne {e : Drive} (other : p ≠ d.port) (drive : p.drive = some e) : d ≠ e := by
  rintro rfl
  refine other ?_
  cases p with
  | cab => exact nomatch drive
  | hoist | crowd | rotary => exact (Option.some.inj drive) ▸ rfl

include other in
theorem serveAckReset_dealt (a b : Word) : Dealt d s (serveAckReset p a b s).1 := by
  unfold serveAckReset
  split
  · split
    · unfold ackCab
      split
      · exact (withPort_unmoved (Drive.cab_ne_port d) _ s).dealt
      · exact .refl d s
    · next e drive =>
      unfold ackDrive
      split
      · have record := (withGrant_only e s { s.grant e with state := .neutralWait .ackReset }).same
          (Port.drive_ne other drive)
        have port : e.port ≠ d.port := fun h => Port.drive_ne other drive (Drive.port_injective h).symm
        exact .of_same (record.trans (withPort_unmoved port _ _).drive) rfl
      all_goals exact .refl d s
  · exact (Unmoved.of_effect (useFree_effect s)).dealt

include other in
theorem serveDemand_dealt (a b : Word) : Dealt d s (serveDemand p a b s).1 := by
  unfold serveDemand
  split
  · next e drive =>
    have written : ∀ g, Dealt d s (s.withGrant e g) := fun g =>
      .of_same ((withGrant_only e s g).same (Port.drive_ne other drive)) rfl
    unfold demandOn
    split
    · exact .refl d s
    · exact .refl d s
    · exact .refl d s
    · unfold demandNeutral
      dsimp only
      split_ifs
      · exact written _
      · exact (written _).andUnmoved (.of_effect (useFree_effect _))
      · exact written _
    · exact written _
  · exact .refl d s

theorem servePhase_dealt (a b : Word) : Dealt d s (servePhase a b s).1 := by
  unfold servePhase phaseRequested phaseTaken
  split
  · exact .refl d s
  split
  · exact .refl d s
  next to_ _ =>
  split_ifs
  case neg moves =>
    by_cases parked : to_ = .parked
    · rw [parked]
      exact .park (.refl s) (fun still => moves ⟨parked, still⟩) d
    · exact (changePhase_quiet s parked).ruled.dealt d
  all_goals exact .refl d s

/-- An operation started behind the change of phase (R53, R57). -/
theorem startOperation_dealt {to_ : Phase} (h : to_ ≠ .parked) (angle timer : Nat) (target : Option ReleaseTarget) :
    Dealt d s (startOperation angle timer target (changePhase to_ s)) :=
  ((changePhase_quiet s h).trans .of_parts).ruled.dealt d

theorem serveEngage_dealt (a b : Word) : Dealt d s (serveEngage a b s).1 := by
  unfold serveEngage
  dsimp only
  split_ifs
  case neg => exact startOperation_dealt s (by simp) _ _ _
  all_goals exact .refl d s

theorem serveRelease_dealt (a b : Word) : Dealt d s (serveRelease a b s).1 := by
  unfold serveRelease
  split
  · exact .refl d s
  split
  · exact .refl d s
  split
  · exact .refl d s
  unfold releaseRequested
  dsimp only
  split_ifs
  case neg => exact startOperation_dealt s (by simp) _ _ _
  all_goals exact .refl d s

theorem serveAbortOp_dealt (a b : Word) : Dealt d s (serveAbortOp a b s).1 := by
  unfold serveAbortOp
  dsimp only
  split_ifs
  · exact .refl d s
  · exact .refl d s
  · exact (changePhase_quiet s (by simp)).ruled.dealt d
  · exact (changePhase_quiet s (by simp)).ruled.dealt d

theorem serveReleaseEnable_dealt (a b : Word) : Dealt d s (serveReleaseEnable a b s).1 := by
  unfold serveReleaseEnable
  split <;> exact .of_same ⟨rfl, rfl⟩ rfl

theorem serveConfirmFree_dealt (a b : Word) : Dealt d s (serveConfirmFree a b s).1 := by
  unfold serveConfirmFree
  split
  · exact .of_same ⟨rfl, rfl⟩ rfl
  split_ifs
  case neg => exact (jointsConfirmed_ruled s a).dealt d
  all_goals exact .of_same ⟨rfl, rfl⟩ rfl

theorem serveDatum_dealt (a b : Word) : Dealt d s (serveDatum a b s).1 := by
  unfold serveDatum
  dsimp only
  split
  · exact .refl d s
  split
  · exact .refl d s
  split_ifs
  case neg => exact (datumTaken_ruled s _ _).dealt d
  all_goals exact .refl d s

theorem serveOpenPile_dealt (a b : Word) : Dealt d s (serveOpenPile a b s).1 := by
  unfold serveOpenPile
  split_ifs <;> exact .of_same ⟨rfl, rfl⟩ rfl

theorem serveClosePile_dealt (a b : Word) : Dealt d s (serveClosePile a b s).1 := by
  unfold serveClosePile
  dsimp only
  split_ifs <;> exact .of_same ⟨rfl, rfl⟩ rfl

theorem zoneWritten_quiet (i : Fin 8) (field : Nat) (x : Int) : Quiet s (zoneWritten i field x s) := by
  have written : Quiet s (s.withZnt { s.znt with zones := s.znt.zones.set i (s.znt.zones[i].write field x) }) := .of_parts
  exact written.trans ((Quiet.of_effect (zntReevaluate_effect _)).trans (recompute_quiet _))

theorem serveZoneWrite_dealt (a b : Word) : Dealt d s (serveZoneWrite a b s).1 := by
  unfold serveZoneWrite
  split
  · split
    · unfold zoneRequested
      dsimp only
      split
      · exact .refl d s
      split
      · exact .refl d s
      split
      · exact .refl d s
      · exact (zoneWritten_quiet s _ _ _).ruled.dealt d
    · exact .refl d s
  · exact .refl d s

theorem serveGeomWrite_dealt (a b : Word) : Dealt d s (serveGeomWrite a b s).1 := by
  unfold serveGeomWrite
  split
  · exact .refl d s
  split
  · exact .refl d s
  · split <;> exact .of_same ⟨rfl, rfl⟩ rfl

theorem serveStoreEnable_dealt (a b : Word) : Dealt d s (serveStoreEnable a b s).1 := by
  unfold serveStoreEnable
  split <;> exact .of_same ⟨rfl, rfl⟩ rfl

theorem serveStoreCommit_dealt (a b : Word) : Dealt d s (serveStoreCommit a b s).1 := by
  unfold serveStoreCommit commitRequested
  split_ifs
  case neg => split <;> exact .of_same ⟨rfl, rfl⟩ rfl
  all_goals exact .of_same ⟨rfl, rfl⟩ rfl

theorem serveClearFaults_dealt (a b : Word) : Dealt d s (serveClearFaults a b s).1 := by
  unfold serveClearFaults
  split <;> exact .of_same ⟨rfl, rfl⟩ rfl

theorem serveRecordRead_dealt (a b : Word) (o : Bool) (l : Record) : Dealt d s (serveRecordRead a b o l s).1 := by
  unfold serveRecordRead
  dsimp only
  split_ifs <;> exact .of_same ⟨rfl, rfl⟩ rfl

theorem serveSet_dealt (a b : Word) : Dealt d s (serveSet a b s).1 := by
  unfold serveSet
  split
  · exact .of_same ⟨rfl, rfl⟩ rfl
  · unfold setValue
    dsimp only
    split
    · exact .of_same ⟨rfl, rfl⟩ rfl
    · exact (settingWritten_ruled s _ _).dealt d
  · unfold setGroupMode
    split <;> exact .of_same ⟨rfl, rfl⟩ rfl
  · unfold setMode
    split <;> exact .of_same ⟨rfl, rfl⟩ rfl
  · unfold setAction
    split <;> exact .of_same ⟨rfl, rfl⟩ rfl

theorem serveSettingsDefault_dealt (a b : Word) : Dealt d s (serveSettingsDefault a b s).1 := by
  unfold serveSettingsDefault
  split_ifs
  case neg => exact (defaultsTaken_ruled s).dealt d
  all_goals exact .refl d s

include other in
/-- What a request on another port that reached its owner makes of a drive. -/
theorem serve_dealt (c : Cmd) (q : Request) : Dealt d s (serve p c q s).1 := by
  cases c
  case nop => exact .refl d s
  case read => exact (Unmoved.of_effect (useFree_effect s)).dealt
  case ackReset => exact serveAckReset_dealt other s q.a q.b
  case demand => exact serveDemand_dealt other s q.a q.b
  case set => exact serveSet_dealt s q.a q.b
  case settingsDefault => exact serveSettingsDefault_dealt s q.a q.b
  case phase => exact servePhase_dealt s q.a q.b
  case engage => exact serveEngage_dealt s q.a q.b
  case releaseEnable => exact serveReleaseEnable_dealt s q.a q.b
  case release => exact serveRelease_dealt s q.a q.b
  case abortOp => exact serveAbortOp_dealt s q.a q.b
  case confirmFree => exact serveConfirmFree_dealt s q.a q.b
  case datum => exact serveDatum_dealt s q.a q.b
  case openPile => exact serveOpenPile_dealt s q.a q.b
  case closePile => exact serveClosePile_dealt s q.a q.b
  case zoneWrite => exact serveZoneWrite_dealt s q.a q.b
  case geomWrite => exact serveGeomWrite_dealt s q.a q.b
  case storeEnable => exact serveStoreEnable_dealt s q.a q.b
  case storeCommit => exact serveStoreCommit_dealt s q.a q.b
  case clearFaults => exact serveClearFaults_dealt s q.a q.b
  case recordRead => exact serveRecordRead_dealt s q.a q.b q.ones q.latched

theorem clearLatches_unmoved (q : Request) : Unmoved d s (clearLatches p q s) := by
  have e := clearLatches_effect p q s
  refine ⟨⟨e.grant_eq d, by rw [State.port, clearLatches_pif, State.port]⟩, by rw [e.env_eq],
    fun src => by rw [e.entry_eq], by rw [e.fsv_eq], ?_⟩
  rw [clearLatches_phc]
  split <;> rfl

include other in
/-- A request taken on another port (R170, R174). -/
theorem takeRequest_dealt (q : Request) : Dealt d s (takeRequest p q s) := by
  have decided : ∀ u, Dealt d u (decideRequest p q u).1 := fun u => by
    unfold decideRequest
    split
    · exact .refl d u
    · exact serve_dealt other u _ q
    · exact .refl d u
  exact (((withPort_unmoved other _ s).andDealt (decided _)).andUnmoved (withPort_unmoved other _ _)).andUnmoved
    (clearLatches_unmoved _ q)
end

end Sys2Proof.Machine
end

