-- ==== Sys2Proof/Proofs/AtBoundary.lean ====
section
/-! The grants through a boundary, and through the events that may take one, scans and angle counts (`Dropped`): a grant is
withdrawn there by a LATCHED DROP that newly reaches its drive (R111, R136). -/

namespace Sys2Proof.Machine

/-! The reaches. -/

theorem Source.mem_all (src : Source) : src ∈ Source.all := by cases src <;> simp [Source.all]

theorem DriveSet.union_has (r t : DriveSet) (d : Drive) : (r.union t).has d = (r.has d || t.has d) := by cases d <;> rfl

/-- A drive is in the reach of the sources that pass a test exactly where one of them reaches it (R129). -/
theorem Fsv.reachOf_has (f : Fsv) (test : Override → Bool) (d : Drive) : (f.reachOf test).has d = true ↔
    ∃ src, (f.entry src).override.any test = true ∧ (src.group.reach f.groupMode).has d = true := by
  have fold : ∀ (srcs : List Source) (r : DriveSet), (srcs.foldl (fun r src =>
      if (f.entry src).override.any test then r.union (src.group.reach f.groupMode) else r) r).has d = true ↔
      r.has d = true ∨
        ∃ src ∈ srcs, (f.entry src).override.any test = true ∧ (src.group.reach f.groupMode).has d = true := by
    intro srcs
    induction srcs with
    | nil => simp
    | cons src srcs ih =>
      intro r
      rw [List.foldl_cons, ih]
      by_cases passes : (f.entry src).override.any test = true
      · simp [passes, DriveSet.union_has, or_assoc]
      · simp [passes]
  rw [Fsv.reachOf, fold]
  have none : DriveSet.empty.has d = false := by cases d <;> rfl
  simp [none, Source.mem_all]

/-- An override is a DROP that began LATCHED. -/
theorem any_holds_iff (o : Option Override) : o.any Override.holds = true ↔ o = some ⟨.drop, .latched⟩ := by
  obtain _ | ⟨action, mode⟩ := o
  · simp
  · simp [Override.holds]

theorem heldReach_has (s : State) (d : Drive) : s.fsv.heldReach.has d = true ↔ ∃ src, s.holdsBack src d := by
  rw [Fsv.heldReach, Fsv.reachOf_has]
  simp only [any_holds_iff]
  rfl

theorem holdsBack_congr {s t : State} {src : Source} (entry : t.entry src = s.entry src)
    (groupMode : t.fsv.groupMode = s.fsv.groupMode) (d : Drive) : t.holdsBack src d ↔ s.holdsBack src d := by
  rw [State.holdsBack, State.holdsBack, entry, groupMode]

theorem holdsBack_effect {c : List Part} {s t : State} (e : Effect c s t) (hc : Part.faults ∉ c) (src : Source) (d : Drive) :
    t.holdsBack src d ↔ s.holdsBack src d := holdsBack_congr (e.entry_eq src hc) (by rw [e.fsv_eq hc]) d

/-! The neutral holds. -/

theorem handHolds_only (newly : Drive → Bool) (s : State) (d : Drive) : OnlyDrive d s (handHolds newly s d) := by
  unfold handHolds
  split
  · split
    · exact latchedDropBegins_only d s
    · exact .refl d s
  · exact withGrant_only d s _

/-- The neutral holds handed on at a drive: it is neutralized where a LATCHED DROP in force reaches it that reaches it
newly, or where it had no hold (R136). -/
theorem handHolds_governed (newly : Drive → Bool) (s : State) (d : Drive) : Governed [.drop] d s (handHolds newly s d) ∧
    ((s.grant d).isActive = true → ((handHolds newly s d).grant d).isActive = false →
      s.fsv.heldReach.has d = true ∧ ((s.grant d).hold = false ∨ newly d = true)) := by
  unfold handHolds
  split
  · next reached =>
    split
    · next begins =>
      exact ⟨latchedDropBegins_governed (by simp) d s, fun _ _ => ⟨reached, by simpa using begins⟩⟩
    · exact ⟨.refl _ _ _, fun was left => absurd (was.symm.trans left) (by simp)⟩
  · refine ⟨withHold_governed _ d false s, fun was left => ?_⟩
    rw [clearHold, State.grant_withGrant_self] at left
    exact absurd (was.symm.trans left) (by simp)

/-! The boundary. -/

/-- The drives at which a LATCHED DROP is newly in force after a boundary (R136). -/
theorem newlyHolds_left {s : State} {d : Drive} (h : s.fsv.newlyHolds d = true) :
    ∃ src, (takeBoundary s).holdsBack src d ∧
      ((s.entry src).override = none ∨ (src.group.reach s.fsv.groupMode).has d = false) := by
  simp only [Fsv.newlyHolds, List.any_eq_true, Bool.and_eq_true, Bool.not_eq_true'] at h
  obtain ⟨src, -, ⟨holds, reaches⟩, before⟩ := h
  have entry : s.fsv.boundary.entry src = (takeBoundary s).entry src := by
    rw [takeBoundary_entry]
    simp [State.entry, Fsv.entry, Fsv.boundary]
  have groupMode : (takeBoundary s).fsv.groupMode = s.fsv.boundary.groupMode := congrArg Prod.fst (takeBoundary_group s)
  rw [entry, any_holds_iff] at holds
  rw [Fsv.reaches, Bool.and_eq_true] at reaches
  rw [Fsv.reaches, Bool.and_eq_false_iff] at before
  exact ⟨src, ⟨holds, groupMode ▸ reaches.2⟩, before.imp_left (by simpa [State.entry] using ·)⟩

/-- A boundary withdraws the grants of the drives alone at which a LATCHED DROP is in force after it that reaches them newly,
or which had no hold (R136). -/
theorem takeBoundary_governed (s : State) (d : Drive) : Governed [.drop] d s (takeBoundary s) ∧
    ((s.grant d).isActive = true → ((takeBoundary s).grant d).isActive = false →
      ∃ src, (takeBoundary s).holdsBack src d ∧ ((s.grant d).hold = false ∨
        (s.entry src).override = none ∨ (src.group.reach s.fsv.groupMode).has d = false)) := by
  let w := handDropReach (handLimitReach (s.withFsv s.fsv.boundary))
  have limited := handLimitReach_quiet (s.withFsv s.fsv.boundary)
  have dropped : Quiet (handLimitReach (s.withFsv s.fsv.boundary)) w := .of_parts
  have formed := limited.trans dropped
  have installed : Governed [] d s (s.withFsv s.fsv.boundary) := .of_same ⟨rfl, rfl⟩ rfl
  have met : Governed [] d s w := installed.trans (formed.governed d)
  have hold : (w.grant d).hold = (s.grant d).hold := formed.hold d
  have active : (w.grant d).isActive = (s.grant d).isActive := formed.isActive d
  obtain ⟨v, before, frame, after⟩ := foldl_drives_effect (handHolds_only s.fsv.newlyHolds)
    (handHolds_effect s.fsv.newlyHolds) w d
  have after : SameDrive d (handHolds s.fsv.newlyHolds v d) (takeBoundary s) := ⟨after.grant, after.port⟩
  have behind : Effect [.grants, .pif] w (takeBoundary s) := .foldl (handHolds_effect s.fsv.newlyHolds) drivesInOrder w
  obtain ⟨governed, left⟩ := handHolds_governed s.fsv.newlyHolds v d
  constructor
  · have env : (takeBoundary s).env = (handHolds s.fsv.newlyHolds v d).env := by
      rw [behind.env_eq, (handHolds_effect s.fsv.newlyHolds v d).env_eq, frame.env_eq]
    have start : Governed [.drop] d w v := .of_same before (by rw [frame.env_eq])
    exact (met.mono (by simp)).trans (start.trans (governed.trans (.of_same after (by rw [env]))))
  · intro was gone
    rw [before.grant, active, hold, heldReach_has, ← after.grant] at left
    obtain ⟨⟨src, holds⟩, free | newly⟩ := left was gone
    · rw [holdsBack_effect frame (by simp), ← holdsBack_effect behind (by simp)] at holds
      exact ⟨src, holds, .inl free⟩
    · obtain ⟨src, holds, new⟩ := newlyHolds_left newly
      exact ⟨src, holds, .inr new⟩

theorem takeBoundary_cab (s : State) : (takeBoundary s).port .cab = s.port .cab := by
  let w := handDropReach (handLimitReach (s.withFsv s.fsv.boundary))
  have limited := handLimitReach_quiet (s.withFsv s.fsv.boundary)
  have dropped : Quiet (handLimitReach (s.withFsv s.fsv.boundary)) w := .of_parts
  calc (takeBoundary s).port .cab = w.port .cab := (foldl_drives (handHolds_only s.fsv.newlyHolds) w).2
    _ = (s.withFsv s.fsv.boundary).port .cab := (limited.trans dropped).cab
    _ = s.port .cab := rfl

/-! The events that may take one. -/

/-- An event of no port and no change to PARKED: a grant is withdrawn by a LATCHED DROP that newly reaches its drive (R111,
R136). -/
structure Dropped (i : Instr) (s t : State) : Prop where
  governed : ∀ d, Governed [.drop] d s t
  began : PermitInv s → ∀ d, (s.grant d).isActive = true → (t.grant d).isActive = false → DropBegins i s t d
  cab : t.port .cab = s.port .cab

section
variable {i : Instr} {s t u : State}

theorem Ruled.dropped (h : Ruled s t) (i : Instr) : Dropped i s t where
  governed := h.governed
  began _ d was left := by
    obtain ⟨src, idle, -, -, reach, begun, -⟩ := h.began d was left
    exact ⟨src, .inl ⟨⟨begun, h.inForce.groupMode ▸ reach⟩, .inl idle⟩⟩
  cab := h.cab

theorem Dropped.quiet (h : Dropped i s t) (k : Quiet t u) : Dropped i s u where
  governed d := (h.governed d).trans ((k.governed d).mono (by simp))
  began inv d was left := by
    obtain ⟨src, ⟨holds, new⟩ | ⟨taken, idle, action, mode, reach, latched⟩⟩ := h.began inv d was (k.isActive d ▸ left)
    · exact ⟨src, .inl ⟨(holdsBack_congr (k.entry src) k.groupMode d).mpr holds, new⟩⟩
    · exact ⟨src, .inr ⟨taken, idle, action, mode, reach, (k.entry src).symm ▸ latched⟩⟩
  cab := k.cab.trans h.cab

/-- An override in force that goes on up to a boundary, and is in force after it, is one override (R136). -/
theorem override_through_boundary {src : Source} {d : Drive} {o : Override} (before : Ruled s u)
    (inForce : (s.entry src).override = some o) (holds : (takeBoundary u).holdsBack src d) :
    o = ⟨.drop, .latched⟩ := by
  have goes := (before.inForce.entry src).override o inForce
  obtain ⟨after, -⟩ := holds
  rw [takeBoundary_entry] at after
  by_cases ends : (u.entry src).install.ends = true
  · exact nomatch (FaultEntry.boundary_ended ends).symm.trans after
  · exact Option.some.inj ((FaultEntry.boundary_goesOn goes ends).symm.trans after)

/-- An event that ends with a boundary (R111, R134, R136). -/
theorem Ruled.boundary_dropped (before : Ruled s u) (taken : TakesBoundary i s) : Dropped i s (takeBoundary u) where
  governed d := (before.governed d).trans (takeBoundary_governed u d).1
  cab := (takeBoundary_cab u).trans before.cab
  began inv d was left := by
    cases between : (u.grant d).isActive with
    | false =>
      obtain ⟨src, idle, action, mode, reach, -, latched⟩ := before.began d was between
      refine ⟨src, .inr ⟨taken, idle, action, mode, reach, ?_⟩⟩
      rw [takeBoundary_entry, (FaultEntry.boundary_kept _).2, latched]
    | true =>
      obtain ⟨src, holds, why⟩ := (takeBoundary_governed u d).2 between left
      refine ⟨src, .inl ⟨holds, ?_⟩⟩
      cases inForce : (s.entry src).override with
      | none => exact .inl rfl
      | some o =>
        refine .inr ?_
        rw [← before.inForce.groupMode]
        obtain free | idle | unreached := why
        · by_contra reach
          have held : (s.grant d).hold = true := (inv.holds d).mpr ⟨src,
            by rw [inForce, override_through_boundary before inForce holds],
            by rw [← before.inForce.groupMode]; simpa using reach⟩
          rw [before.hold d held] at free
          exact nomatch free
        · exact nomatch idle.symm.trans ((before.inForce.entry src).override o inForce)
        · exact unreached
end

/-! Scans and angle counts. -/

section
variable (s : State)

theorem scanMeasured_quiet (r : Readings) : Quiet s (scanMeasured r s) := by
  let u := zntReevaluate (evaluateAnew (s.withMsu { s.msu with channels := takeReadings s.gst.active s.msu.channels r }))
  have evaluated : Quiet s u := (Quiet.of_effect (withMsu_effect s _)).trans
    ((Quiet.of_effect (evaluateAnew_effect _)).trans (.of_effect (zntReevaluate_effect _)))
  have measured : Quiet u (u.withEnv { u.env with measured := measure u.gst.active u.msu.channels }) := .of_parts
  exact evaluated.trans (measured.trans (recompute_quiet _))

theorem scanDecided_ruled (r : Readings) : Ruled s (scanDecided r s) := by
  have warned : Quiet (decideConditions (scanMeasured r s).scanConditions (scanMeasured r s)) (scanDecided r s) := .of_parts
  exact (scanMeasured_quiet s r).ruled.trans ((decideConditions_ruled _ _).trans warned.ruled)

theorem scanTaken_dropped (r : Readings) (released : s.lines.xrst = false) :
    Dropped (.scanCompletion r) s (scanTaken r s) := by
  have supervised : Dropped (.scanCompletion r) s (scanSupervised (scanMeasured r s)) := by
    rw [scanSupervised_eq]
    split
    · next rest => exact (scanDecided_ruled s r).boundary_dropped (takesBoundary_scan.mpr ⟨released, rest⟩)
    · exact (scanDecided_ruled s r).dropped _
  exact supervised.quiet ((phcAfterEvaluation_quiet _ s.stk).trans
    ((Quiet.of_effect (brcScan_effect _)).trans (.of_effect (brcDepth_effect _ _))))

theorem countHanded_ruled (forward : Bool) (old : Stk) (raised : Option (List Source)) :
    Ruled s (countHanded forward old raised s) :=
  (handCount_ruled s raised).trans ((phcAfterEvaluation_quiet _ old).trans
    ((phcCount_quiet _ forward).trans (.of_effect (brcDepth_effect _ _)))).ruled

theorem angleCounted_dropped (pair : Pair) (forward : Bool) (count : decodeCount s.msu.angleRef pair = some forward) :
    Dropped (.angleCountChange pair) s (angleCounted forward (s.withMsu { s.msu with angleRef := pair })) := by
  let moved := s.angleMoved pair forward
  let d := countHanded forward s.stk (stkCount forward moved).2 (stkCount forward moved).1
  have begun : Quiet s (stkCount forward moved).1 :=
    (Quiet.of_effect (angleMoved_effect s pair forward)).trans (.of_effect (stkCount_effect forward moved))
  have handed : Ruled s d := begun.ruled.trans (countHanded_ruled _ forward s.stk _)
  have marks : d.marks ↔ moved.marks := by
    have counted := stkCount_effect forward moved
    have behind := countHanded_effect forward s.stk (stkCount forward moved).2 (stkCount forward moved).1
    rw [State.marks, State.marks, ← counted.msu_eq, ← counted.lines_eq, ← behind.msu_eq, ← behind.lines_eq]
  have used : Dropped (.angleCountChange pair) s (angleUsed d) := by
    by_cases mark : d.marks
    · rw [angleUsed_marked mark]
      have rested : Quiet d ((d.withMsu d.msu.endRest).withMsu { d.msu.endRest with markRef := d.msu.endRest.angle }) :=
        .of_parts
      exact ((handed.trans rested.ruled).boundary_dropped ((takesBoundary_angle count).mpr (marks.mp mark))).quiet
        (.of_effect (brcTurnMark_effect _))
    · rw [angleUsed_unmarked mark]
      split
      · exact handed.dropped _
      · exact (handed.trans (Quiet.of_effect (withMsu_effect d _)).ruled).dropped _
  exact used
end

end Sys2Proof.Machine
end

