-- ==== Sys2Proof/Proofs/OwnPort.lean ====
section
/-! A request on a drive's own port: none but DEMAND and ACK_RESET moves the drive's record or its RST, and those two keep
the grant within the envelope, and RST set exactly while the record is UNACKED (R96 to R101, R174). -/

namespace Sys2Proof.Machine

/-- At one drive every grant is within the envelope, and RST is set exactly while the record is UNACKED (R96, R103). -/
structure DriveInv (d : Drive) (s : State) : Prop extends Bounded d s where
  rst : (s.port d.port).rst = true ↔ (s.grant d).state = .unacked

/-- The record, the ceilings and the RST of a drive are as they were. -/
structure Stands (d : Drive) (s t : State) : Prop where
  grant : t.grant d = s.grant d
  ceilings : t.env.grant = s.env.grant
  rst : (t.port d.port).rst = (s.port d.port).rst

section
variable {d : Drive} {s t u : State}

theorem Stands.refl (d : Drive) (s : State) : Stands d s s := ⟨rfl, rfl, rfl⟩

theorem Stands.trans (h : Stands d s t) (k : Stands d t u) : Stands d s u :=
  ⟨k.grant.trans h.grant, k.ceilings.trans h.ceilings, k.rst.trans h.rst⟩

theorem Stands.driveInv (h : Stands d s t) (inv : DriveInv d s) : DriveInv d t := by
  obtain ⟨grant, ceilings, rst⟩ := h
  obtain ⟨⟨inRange, within, inactive⟩, unacked⟩ := inv
  refine ⟨⟨by rwa [ceilings], ?_, ?_⟩, ?_⟩ <;> rw [grant]
  · rwa [ceilings]
  · exact inactive
  · rwa [rst]

/-- A port written, its RST as it was. -/
theorem Stands.withPort {x : PortState} (s : State) (rst : x.rst = (s.port d.port).rst) :
    Stands d s (s.withPort d.port x) := ⟨rfl, rfl, by rw [State.port_withPort_self, rst]⟩

theorem DriveInv.useFree (h : DriveInv d s) : DriveInv d s.useFree := Stands.driveInv (s := s) ⟨rfl, rfl, rfl⟩ h

/-- A record written that is within the envelope, UNACKED neither before nor after. -/
theorem DriveInv.withGrant (inv : DriveInv d s) {g : Grant} (before : (s.grant d).state ≠ .unacked)
    (after : g.state ≠ .unacked) (within : |g.granted| ≤ s.env.grant.bound d (isReverse g.granted))
    (inactive : g.isActive = false → g.granted = 0) : DriveInv d (s.withGrant d g) := by
  have grant : (s.withGrant d g).grant d = g := State.grant_withGrant_self s d g
  refine ⟨⟨inv.inRange, ?_, ?_⟩, ?_⟩ <;> rw [grant]
  · exact within
  · exact inactive
  · exact iff_of_false (mt inv.rst.mp before) after
end

/-! ACK_RESET and DEMAND. -/

section
variable {d : Drive} {s : State}

theorem ackDrive_driveInv (inv : DriveInv d s) : DriveInv d (ackDrive d s).1 := by
  unfold ackDrive
  split
  · next unacked =>
    let g : Grant := { s.grant d with state := .neutralWait .ackReset }
    have grant : (clearRst d.port (s.withGrant d g)).grant d = g := State.grant_withGrant_self s d g
    have idle : (s.grant d).isActive = false := by rw [Grant.isActive, unacked]
    have zero : g.granted = 0 := inv.inactive idle
    have cleared : ((clearRst d.port (s.withGrant d g)).port d.port).rst = false := by
      rw [clearRst, State.port_withPort_self]
    exact ⟨.of_zero inv.inRange (by rw [grant, zero]), by rw [grant, cleared]; simp [g]⟩
  all_goals exact inv

theorem demandNeutral_driveInv (inv : DriveInv d s) {c : NeutralCause} (wait : (s.grant d).state = .neutralWait c)
    (a : Word) (reverse : Bool) : DriveInv d (demandNeutral d c a reverse s).1 := by
  have acked : (s.grant d).state ≠ .unacked := by simp [wait]
  have idle : (s.grant d).isActive = false := by rw [Grant.isActive, wait]
  unfold demandNeutral
  dsimp only
  split_ifs
  · exact inv.withGrant acked acked inv.within inv.inactive
  · have held := inv.withGrant (g := { s.grant d with lastDemand := signedDemand a reverse, state := .neutralWait .drop })
      acked (by simp) inv.within fun _ => inv.inactive idle
    exact held.useFree
  · refine inv.withGrant acked (by simp) ?_ fun _ => rfl
    rw [abs_zero]
    exact (inv.inRange.bound d _).1

/-- A demand taken in ACTIVE is granted within the ceiling of its direction (R100). -/
theorem demanded_within {c : Ceilings} (inRange : c.InRange) (g : Grant) (a : Word) (reverse : Bool) (life : Nat) (y : Int) :
    |(g.demanded a reverse (c.bound d reverse) life y).granted| ≤
      c.bound d (isReverse (g.demanded a reverse (c.bound d reverse) life y).granted) := by
  show |if reverse = true then -min (a.toNat : Int) (c.bound d reverse) else min (a.toNat : Int) (c.bound d reverse)| ≤
    c.bound d (isReverse (if reverse = true then -min (a.toNat : Int) (c.bound d reverse)
      else min (a.toNat : Int) (c.bound d reverse)))
  have low := (inRange.bound d reverse).1
  have magnitude : 0 ≤ min (a.toNat : Int) (c.bound d reverse) := le_min (by omega) low
  have below : min (a.toNat : Int) (c.bound d reverse) ≤ c.bound d reverse := min_le_right _ _
  generalize min (a.toNat : Int) (c.bound d reverse) = m at *
  obtain rfl | positive := magnitude.eq_or_lt
  · simpa using (inRange.bound d _).1
  · cases reverse with
    | false =>
      have direction : isReverse m = false := decide_eq_false (by omega)
      simpa [direction, abs_of_pos positive] using below
    | true =>
      have direction : isReverse (-m) = true := decide_eq_true (by omega)
      simpa [direction, abs_of_pos positive] using below

theorem demandOn_driveInv (inv : DriveInv d s) (a b : Word) : DriveInv d (demandOn d a b s).1 := by
  unfold demandOn
  split
  · exact inv
  · exact inv
  · exact inv
  · next c reverse wait _ => exact demandNeutral_driveInv inv wait a reverse
  · next life reverse active _ =>
    exact inv.withGrant (by simp [active]) (by simp [Grant.demanded]) (demanded_within inv.inRange _ a reverse _ _)
      fun idle => nomatch idle
end

/-! The request. -/

/-- What a request on a drive's own port leaves of the drive and of the cab port (R174). -/
structure OwnRequest (d : Drive) (q : Request) (s t : State) : Prop where
  stands : Cmd.ofCode q.cmd ≠ some .demand → Cmd.ofCode q.cmd ≠ some .ackReset → Stands d s t
  inv : DriveInv d s → DriveInv d t
  cab : t.port .cab = s.port .cab

section
variable {d : Drive} {q : Request} {s t u : State}

theorem Stands.ownRequest (h : Stands d s t) (cab : t.port .cab = s.port .cab) : OwnRequest d q s t :=
  ⟨fun _ _ => h, h.driveInv, cab⟩

theorem OwnRequest.trans (h : OwnRequest d q s t) (k : OwnRequest d q t u) : OwnRequest d q s u :=
  ⟨fun demand ack => (h.stands demand ack).trans (k.stands demand ack), k.inv ∘ h.inv, k.cab.trans h.cab⟩

theorem withPort_ownRequest (s : State) {x : PortState} (rst : x.rst = (s.port d.port).rst) :
    OwnRequest d q s (s.withPort d.port x) :=
  (Stands.withPort s rst).ownRequest (State.port_withPort_of_ne s x (Drive.cab_ne_port d))

theorem Drive.port_drive (d : Drive) : d.port.drive = some d := by cases d <;> rfl

theorem ackDrive_cab (d : Drive) (s : State) : (ackDrive d s).1.port .cab = s.port .cab := by
  unfold ackDrive
  split
  · exact State.port_withPort_of_ne _ _ (Drive.cab_ne_port d)
  all_goals rfl

theorem demandOn_cab (d : Drive) (a b : Word) (s : State) : (demandOn d a b s).1.port .cab = s.port .cab := by
  unfold demandOn demandNeutral
  split
  case h_4 => dsimp only; split_ifs <;> rfl
  all_goals rfl

theorem serveAckReset_ownRequest (named : Cmd.ofCode q.cmd = some .ackReset) (a b : Word) (s : State) :
    OwnRequest d q s (serveAckReset d.port a b s).1 := by
  unfold serveAckReset
  rw [Drive.port_drive]
  split
  · exact ⟨fun _ ack => absurd named ack, ackDrive_driveInv, ackDrive_cab d s⟩
  · exact Stands.ownRequest ⟨rfl, rfl, rfl⟩ rfl

theorem serveDemand_ownRequest (named : Cmd.ofCode q.cmd = some .demand) (a b : Word) (s : State) :
    OwnRequest d q s (serveDemand d.port a b s).1 := by
  unfold serveDemand
  rw [Drive.port_drive]
  exact ⟨fun demand _ => absurd named demand, fun inv => demandOn_driveInv inv a b, demandOn_cab d a b s⟩

/-- A request a drive port takes is NOP, READ, ACK_RESET or DEMAND (R174). -/
theorem takenOn_drive {c : Cmd} (d : Drive) (taken : c.takenOn d.port = true) :
    c = .nop ∨ c = .read ∨ c = .ackReset ∨ c = .demand := by
  have own : d.port ≠ .cab := (Drive.cab_ne_port d).symm
  cases c <;> simp_all [Cmd.takenOn]

theorem decideRequest_ownRequest (d : Drive) (q : Request) (s : State) :
    OwnRequest d q s (decideRequest d.port q s).1 := by
  have refused : OwnRequest d q s s := (Stands.refl d s).ownRequest rfl
  unfold decideRequest
  split
  · exact refused
  · next c passed named =>
    have taken : c.takenOn d.port = true := by
      by_contra other
      rw [Bool.not_eq_true] at other
      simp [pifRefusal, named, other] at passed
    obtain rfl | rfl | rfl | rfl := takenOn_drive d taken
    · exact refused
    · exact Stands.ownRequest ⟨rfl, rfl, rfl⟩ rfl
    · exact serveAckReset_ownRequest named q.a q.b s
    · exact serveDemand_ownRequest named q.a q.b s
  · exact refused

/-- A request taken on a drive's own port (R170, R174). -/
theorem takeRequest_ownRequest (d : Drive) (q : Request) (s : State) : OwnRequest d q s (takeRequest d.port q s) := by
  unfold takeRequest
  rw [clearLatches_of_drive (Drive.cab_ne_port d).symm]
  refine (withPort_ownRequest s ?_).trans ((decideRequest_ownRequest d q _).trans (withPort_ownRequest _ ?_)) <;> rfl
end

end Sys2Proof.Machine
end

