-- ==== Sys2Proof/Proofs/Events.lean ====
section
/-! Every command as an event at the grants (`Event`): one of the fault supervisor and the phases, an expired life, a port
written, or a request taken; and ESTOP, which withdraws with cause DROP and then enters PARKED (R63, R99, R107, R143). -/

namespace Sys2Proof.Machine

/-! ESTOP and the end of XRST. -/

/-- An event that ends with the assertion of ESTOP handed on (R63, R143). -/
theorem estopRaised_dealt {s u : State} (before : Quiet s u) (phase : u.phc = s.phc) :
    (∀ d, Dealt d s (estopRaised u)) ∧ (estopRaised u).port .cab = s.port .cab := by
  have decided := before.ruled.trans (decideCondition_ruled u .estop true)
  have phc : (decideCondition .estop true u).phc = s.phc := (decideCondition_effect .estop true u).phc_eq.trans phase
  unfold estopRaised
  dsimp only
  split
  · exact ⟨decided.dealt, decided.cab⟩
  · next moves => exact ⟨.park decided (phc ▸ moves), (changePhase_parked _).2.trans decided.cab⟩

theorem xrstRefreshed_quiet (s : State) : Quiet s (xrstRefreshed s) := by
  have released : Quiet s (xrstReleased s) := .of_parts
  have warned : Quiet (recompute (zntReevaluate (xrstReleased s))) (xrstRefreshed s) := .of_parts
  exact released.trans ((Quiet.of_effect (zntReevaluate_effect _)).trans ((recompute_quiet _).trans warned))

theorem xrstEnded_dealt (s : State) : (∀ d, Dealt d s (xrstEnded s)) ∧ (xrstEnded s).port .cab = s.port .cab := by
  have refreshed := xrstRefreshed_quiet s
  rw [xrstEnded_eq, decideEstop]
  split
  · exact estopRaised_dealt refreshed (xrstRefreshed_effect s).phc_eq
  · exact ⟨refreshed.ruled.dealt, refreshed.cab⟩

/-! The events. -/

/-- The row of a command is a DEMAND or an ACK_RESET on a port wherever the request it delivers whole is one. -/
def AsksAs (i : Instr) (p : Port) (q : Request) : Prop :=
  (Cmd.ofCode q.cmd = some .demand → ∃ a b, i = .demand p a b) ∧
    (Cmd.ofCode q.cmd = some .ackReset → ∃ a b, i = .ackReset p a b)

/-- What a command that is no reset does at the grants and the ports, before the outputs settle. -/
inductive Event : Instr → State → State → Prop where
  | dropped {i : Instr} {s u : State} (h : Dropped i s u) : Event i s u
  | dealt {i : Instr} {s u : State} (drives : ∀ d, Dealt d s u) (cab : u.port .cab = s.port .cab) : Event i s u
  | expired {d : Drive} {s : State} (life : Nat) (active : (s.grant d).state = .active life) (last : life ≤ 1) :
    Event (.grantExpired d) s (withdraw d .grantExpired s)
  | portWritten {i : Instr} {s : State} (p : Port) (x : PortState) (rst : x.rst = (s.port p).rst)
    (answer : ¬endsFrame p i → i ≠ .selectTimeout p → x.answer = (s.port p).answer) : Event i s (s.withPort p x)
  | requestTaken {i : Instr} {s : State} (p : Port) (q : Request) (ends : endsFrame p i)
    (asks : i.wellFormed = true → (∀ f, (s.port p).frame = .shifting f → f.clocks = 0) → AsksAs i p q) :
    Event i s (takeRequest p q s)

section
variable {i : Instr} {s u : State}

theorem Ruled.event (h : Ruled s u) : Event i s u := .dropped (h.dropped i)

theorem Quiet.event (h : Quiet s u) : Event i s u := h.ruled.event

theorem Event.refl (i : Instr) (s : State) : Event i s s := (Quiet.refl s).event

theorem rejectFrame_event {p : Port} (ends : endsFrame p i) (clocks : Nat) (reason : Reason) :
    Event i s (rejectFrame p clocks reason s) := .portWritten p _ rfl fun stays => absurd ends stays

/-- The rise of select (R170, R177). -/
theorem selectRises_event {p : Port} {whole : State → State} (ends : endsFrame p i) (rises : Event i s (whole s)) :
    Event i s (selectRises p whole s) := by
  have released : Event i s (s.withPort p (s.port p).released) := .portWritten p _ rfl fun _ _ => rfl
  unfold selectRises
  split
  · exact released
  split
  · exact released
  · exact rises
  · next f shifting =>
    split
    · exact rises
    · next clocked =>
      unfold endShift
      split
      · exact rejectFrame_event ends _ _
      · exact .requestTaken p _ ends fun _ fresh => absurd (fresh f shifting) clocked

/-- The end of the frame of a request row (R170, R174). -/
theorem requestEnds_event (c : Cmd) (p : Port) (a b : Word) (e x : BitVec 160) (s : State) :
    Event (requestRow c p a b e) s (requestEnds p c a b x s) := by
  have ends : endsFrame p (requestRow c p a b e) := .inl ⟨c, a, b, e, rfl⟩
  refine selectRises_event ends (.requestTaken p _ ends fun _ _ => ?_)
  rw [AsksAs, Cmd.ofCode_code]
  exact ⟨fun h => ⟨a, b, by rw [Option.some.inj h]; rfl⟩, fun h => ⟨a, b, by rw [Option.some.inj h]; rfl⟩⟩

theorem badCmd_event (p : Port) (cmd : Byte) (a b : Word) (s : State) : Event (.badCmd p cmd a b) s
    (selectRises p (takeRequest p ⟨cmd, a, b, false, .nothing⟩) s) := by
  have ends : endsFrame p (.badCmd p cmd a b) := .inr (.inl ⟨cmd, a, b, rfl⟩)
  refine selectRises_event ends (.requestTaken p _ ends fun unknown _ => ?_)
  have none : Cmd.ofCode cmd = none := Option.isNone_iff_eq_none.mp unknown
  rw [AsksAs, none]
  exact ⟨nofun, nofun⟩

theorem linkReject_event (p : Port) (clocks : Nat) (bits : BitVec 56) (s : State) : Event (.linkReject p clocks bits) s
    (selectRises p (judged p clocks bits) s) := by
  have ends : endsFrame p (.linkReject p clocks bits) := .inr (.inr ⟨clocks, bits, rfl⟩)
  refine selectRises_event ends ?_
  unfold judged
  split
  · exact rejectFrame_event ends _ _
  · next passes =>
    refine .requestTaken p _ ends fun rejected _ => ?_
    simp [Instr.wellFormed, passes] at rejected

theorem selectFalls_event (p : Port) (s : State) : Event i s (selectFalls p s) := by
  unfold selectFalls
  dsimp only
  split
  · exact .portWritten p _ rfl fun _ _ => rfl
  · split
    · exact .refl i s
    all_goals exact .portWritten p _ rfl fun _ _ => rfl

theorem clockTaken_event (p : Port) (bit : Bool) (s : State) : Event i s (clockTaken p bit s) := by
  unfold clockTaken
  split
  · exact .refl i s
  · exact .refl i s
  · exact .portWritten p _ rfl fun _ _ => rfl

theorem selectTimesOut_event (p : Port) (s : State) : Event (.selectTimeout p) s (selectTimesOut p s) := by
  unfold selectTimesOut
  split
  · exact .refl _ s
  · exact .refl _ s
  · exact .portWritten p _ rfl fun _ other => absurd rfl other
end

/-- Every command but the resets is one of the events, settled. -/
theorem exec_event {i : Instr} {s t : State} (h : exec i s = .next t) (notPor : ∀ l, i ≠ .por l) (notXrst : i ≠ .xrstAssert) :
    ∃ u, t = settle u ∧ Event i s u := by
  have settled : ∀ {u : State}, done u = .next t → t = settle u := fun e => by injection e with e; exact e.symm
  have lines : ∀ l, Quiet s (s.withLines l) := fun _ => .of_parts
  have moved : ∀ m, Quiet s (s.withMsu m) := fun _ => .of_parts
  cases i
  case por l => exact absurd rfl (notPor l)
  case xrstAssert => exact absurd rfl notXrst
  case xrstEnd =>
    simp only [exec, execXrstEnd] at h
    split at h
    · exact ⟨_, settled h, .dealt (xrstEnded_dealt s).1 (xrstEnded_dealt s).2⟩
    · exact ⟨_, settled h, .refl _ s⟩
  case estopAssert =>
    have raised := estopRaised_dealt (lines { s.lines with estop := true }) rfl
    simp only [exec, execEstopAssert] at h
    split at h
    · exact ⟨_, settled h, (lines _).event⟩
    · exact ⟨_, settled h, .dealt raised.1 raised.2⟩
  case estopRelease => exact ⟨_, settled h, ((lines _).ruled.trans (decideCondition_ruled _ .estop false)).event⟩
  case positionCountChange e pair =>
    simp only [exec, execPositionCountChange] at h
    split at h
    · exact ⟨_, settled h, ((moved _).ruled.trans (positionCounted_ruled _ e _)).event⟩
    · exact ⟨_, settled h, (moved _).event⟩
  case angleCountChange pair =>
    simp only [exec, execAngleCountChange] at h
    split at h
    · next forward count => exact ⟨_, settled h, .dropped (angleCounted_dropped s pair forward count)⟩
    · exact ⟨_, settled h, (moved _).event⟩
  case scanCompletion r =>
    simp only [exec, execScanCompletion] at h
    split at h
    · exact ⟨_, settled h, .refl _ s⟩
    · next released => exact ⟨_, settled h, .dropped (scanTaken_dropped s r (by simpa using released))⟩
  case windowExpiry =>
    simp only [exec, execWindowExpiry] at h
    split at h
    · exact ⟨_, settled h, .refl _ s⟩
    · exact ⟨_, settled h, ((moved _).ruled.trans (decideConditions_ruled _ _)).event⟩
  case restTimerExpiry =>
    simp only [exec, execRestTimerExpiry] at h
    split at h
    · exact ⟨_, settled h, .refl _ s⟩
    · exact ⟨_, settled h, (moved _).event⟩
  case stallWindowExpiry =>
    simp only [exec, execStallWindowExpiry] at h
    split at h
    · exact ⟨_, settled h, .refl _ s⟩
    · have started : ∀ u, Quiet u (startStallWindow u) := fun _ => .of_parts
      exact ⟨_, settled h, ((decideCondition_ruled s .stall _).trans (started _).ruled).event⟩
  case opTimerExpiry =>
    simp only [exec, execOpTimerExpiry] at h
    split at h
    · exact ⟨_, settled h, .refl _ s⟩
    · have notParked : s.returnPhase ≠ .parked := by
        unfold State.returnPhase
        split <;> simp
      exact ⟨_, settled h, ((raise_ruled s .opTimeout).trans (changePhase_quiet _ notParked).ruled).event⟩
  case grantExpired d =>
    simp only [exec, execGrantExpired] at h
    split at h
    · next life active =>
      split at h
      · next last => exact ⟨_, settled h, .expired life active last⟩
      · exact ⟨_, settled h, .refl _ s⟩
    all_goals exact ⟨_, settled h, .refl _ s⟩
  case commitCompletion =>
    simp only [exec, execCommitCompletion] at h
    split at h
    · exact ⟨_, settled h, (commitCompleted_ruled s).event⟩
    · exact ⟨_, settled h, .refl _ s⟩
  case selectFall p => exact ⟨_, settled h, selectFalls_event p s⟩
  case selectTimeout p => exact ⟨_, settled h, selectTimesOut_event p s⟩
  case shiftClock p bit => exact ⟨_, settled h, clockTaken_event p bit s⟩
  case linkReject p clocks bits => exact ⟨_, settled h, linkReject_event p clocks bits s⟩
  case badCmd p cmd a b => exact ⟨_, settled h, badCmd_event p cmd a b s⟩
  case nop p a b => exact ⟨_, settled h, requestEnds_event .nop p a b 0 0 s⟩
  case read p a b => exact ⟨_, settled h, requestEnds_event .read p a b 0 0 s⟩
  case ackReset p a b => exact ⟨_, settled h, requestEnds_event .ackReset p a b 0 0 s⟩
  case demand p a b => exact ⟨_, settled h, requestEnds_event .demand p a b 0 0 s⟩
  case set p a b => exact ⟨_, settled h, requestEnds_event .set p a b 0 0 s⟩
  case settingsDefault p a b => exact ⟨_, settled h, requestEnds_event .settingsDefault p a b 0 0 s⟩
  case phase p a b => exact ⟨_, settled h, requestEnds_event .phase p a b 0 0 s⟩
  case engage p a b => exact ⟨_, settled h, requestEnds_event .engage p a b 0 0 s⟩
  case releaseEnable p a b => exact ⟨_, settled h, requestEnds_event .releaseEnable p a b 0 0 s⟩
  case release p a b => exact ⟨_, settled h, requestEnds_event .release p a b 0 0 s⟩
  case abortOp p a b => exact ⟨_, settled h, requestEnds_event .abortOp p a b 0 0 s⟩
  case confirmFree p a b => exact ⟨_, settled h, requestEnds_event .confirmFree p a b 0 0 s⟩
  case datum p a b => exact ⟨_, settled h, requestEnds_event .datum p a b 0 0 s⟩
  case openPile p a b => exact ⟨_, settled h, requestEnds_event .openPile p a b 0 0 s⟩
  case closePile p a b => exact ⟨_, settled h, requestEnds_event .closePile p a b 0 0 s⟩
  case zoneWrite p a b => exact ⟨_, settled h, requestEnds_event .zoneWrite p a b 0 0 s⟩
  case geomWrite p a b => exact ⟨_, settled h, requestEnds_event .geomWrite p a b 0 0 s⟩
  case storeEnable p a b => exact ⟨_, settled h, requestEnds_event .storeEnable p a b 0 0 s⟩
  case storeCommit p a b => exact ⟨_, settled h, requestEnds_event .storeCommit p a b 0 0 s⟩
  case clearFaults p a b => exact ⟨_, settled h, requestEnds_event .clearFaults p a b 0 0 s⟩
  case recordRead p a b e => exact ⟨_, settled h, requestEnds_event .recordRead p a b e e s⟩

end Sys2Proof.Machine
end

