-- ==== Sys2Proof/Proofs/WithinEnvelope.lean ====
section
/-! Every grant within the envelope (R91 to R111): what a command makes of one drive (`Stepped`), read off for the record,
for the grant and for the pending answer. -/

namespace Sys2Proof.Machine

/-! One drive at a command. -/

/-- What a command that is no reset makes of a drive. -/
inductive Stepped (i : Instr) (d : Drive) (s t : State) : Prop where
  | dropped (governed : Governed [.drop] d s t)
    (began : PermitInv s → (s.grant d).isActive = true → (t.grant d).isActive = false → DropBegins i s t d)
  | parked (governed : Governed [.drop, .parked] d s t)
    (waits : (s.grant d).state ≠ .unacked → (t.grant d).state = .neutralWait .parked) (entered : t.phc.phase = .parked)
    (left : s.phc.phase ≠ .parked)
  | expired (row : i = .grantExpired d) (governed : Governed [.grantExpired] d s t) (life : Nat)
    (active : (s.grant d).state = .active life) (last : life ≤ 1)
  | ended (stands : Stands d s t)
    (answer : ¬endsFrame d.port i → i ≠ .selectTimeout d.port → (t.port d.port).answer = (s.port d.port).answer)
  | requested (inv : DriveInv d s → DriveInv d t) (ends : endsFrame d.port i)
    (asked : i.wellFormed = true → (∀ f, (s.port d.port).frame = .shifting f → f.clocks = 0) →
      (∃ a b, i = .demand d.port a b) ∨ ∃ a b, i = .ackReset d.port a b)

theorem settle_quiet (s : State) : Quiet s (settle s) := .of_same (fun d => ⟨settle_grant s d, rfl⟩) rfl (fun _ => rfl) rfl rfl

theorem settle_unmoved (d : Drive) (s : State) : Unmoved d s (settle s) :=
  ⟨⟨settle_grant s d, rfl⟩, rfl, fun _ => rfl, rfl, rfl⟩

theorem settle_stands (d : Drive) (s : State) : Stands d s (settle s) := ⟨settle_grant s d, rfl, rfl⟩

section
variable {i : Instr} {d : Drive} {s t u : State}

theorem Dealt.stepped (h : Dealt d s t) : Stepped i d s t := by
  cases h with
  | dropped governed began =>
    refine .dropped governed fun _ was left => ?_
    obtain ⟨src, holds, idle⟩ := began was left
    exact ⟨src, .inl ⟨holds, .inl idle⟩⟩
  | parked governed waits entered left => exact .parked governed waits entered left

theorem Dealt.settled (h : Dealt d s u) : Stepped i d s (settle u) := (h.andUnmoved (settle_unmoved d u)).stepped

theorem OwnRequest.settled {q : Request} (h : OwnRequest d q s u) (ends : endsFrame d.port i)
    (asks : i.wellFormed = true → (∀ f, (s.port d.port).frame = .shifting f → f.clocks = 0) → AsksAs i d.port q) :
    Stepped i d s (settle u) := by
  by_cases own : Cmd.ofCode q.cmd = some .demand ∨ Cmd.ofCode q.cmd = some .ackReset
  · exact .requested (fun inv => (settle_stands d u).driveInv (h.inv inv)) ends fun formed fresh =>
      own.imp (asks formed fresh).1 (asks formed fresh).2
  · obtain ⟨demand, ack⟩ := not_or.mp own
    exact .ended ((h.stands demand ack).trans (settle_stands d u)) fun stays => absurd ends stays

theorem Event.stepped (h : Event i s u) (d : Drive) : Stepped i d s (settle u) := by
  cases h with
  | dropped dropped =>
    have dropped := dropped.quiet (settle_quiet u)
    exact .dropped (dropped.governed d) (dropped.began · d)
  | dealt drives => exact (drives d).settled
  | @expired e s life active last =>
    by_cases own : e = d
    · subst own
      have withdrawn := (withdraw_governed (cs := [.grantExpired]) (c := .grantExpired) (by simp)
        (by rw [Grant.isActive, active])).1
      exact .expired rfl (withdrawn.trans ((settle_unmoved e _).governed _)) life active last
    · have same := (withdraw_only e s .grantExpired).same (Ne.symm own)
      exact (Dealt.of_same same (by rw [(withdraw_effect e .grantExpired s).env_eq])).settled
  | portWritten p x rst answer =>
    by_cases own : p = d.port
    · subst own
      refine .ended ((Stands.withPort s rst).trans (settle_stands d _)) fun stays other => ?_
      rw [← answer stays other]
      exact congrArg PortState.answer (State.port_withPort_self s d.port x)
    · exact (withPort_unmoved own x s).dealt.settled
  | requestTaken p q ends asks =>
    by_cases own : p = d.port
    · subst own
      exact (takeRequest_ownRequest d q s).settled ends asks
    · exact (takeRequest_dealt own s q).settled

theorem Event.cab (h : Event i s u) (stays : ¬endsFrame .cab i) (other : i ≠ .selectTimeout .cab) :
    (u.port .cab).answer = (s.port .cab).answer := by
  cases h with
  | dropped dropped => rw [dropped.cab]
  | dealt _ cab => rw [cab]
  | expired => rw [(withdraw_only _ _ _).ports _ (Drive.cab_ne_port _)]
  | portWritten p x _ answer =>
    by_cases cab : p = .cab
    · subst cab
      rw [State.port_withPort_self, answer stays other]
    · rw [State.port_withPort_of_ne s x (Ne.symm cab)]
  | requestTaken p q ends =>
    have drive : ∀ d : Drive, p = d.port → ((takeRequest p q s).port .cab).answer = (s.port .cab).answer := by
      rintro d rfl
      rw [(takeRequest_ownRequest d q s).cab]
    cases p with
    | cab => exact absurd ends stays
    | hoist => exact drive .hoist rfl
    | crowd => exact drive .crowd rfl
    | rotary => exact drive .rotary rfl

theorem exec_stepped (h : exec i s = .next t) (notPor : ∀ l, i ≠ .por l) (notXrst : i ≠ .xrstAssert) (d : Drive) :
    Stepped i d s t := by
  obtain ⟨u, rfl, event⟩ := exec_event h notPor notXrst
  exact event.stepped d
end

/-! What is read off it. -/

/-- The ways in which a record leaves ACTIVE: its life runs out, PARKED is entered, or a LATCHED DROP newly reaches its drive
(R99, R107, R111). -/
def LeftActive (i : Instr) (d : Drive) (s t : State) : Prop :=
  (i = .grantExpired d ∧ (t.grant d).state = .neutralWait .grantExpired ∧ ∃ life ≤ 1, (s.grant d).state = .active life) ∨
    (t.phc.phase = .parked ∧ s.phc.phase ≠ .parked ∧ (t.grant d).state = .neutralWait .parked) ∨
    ((t.grant d).state = .neutralWait .drop ∧ DropBegins i s t d)

/-- A pending answer stands, or tells of the lower grant, or of the withdrawal with its cause: that of the state, or DROP where
the entry to PARKED came after it (R104). -/
def AnswerFollows (d : Drive) (s t : State) : Prop :=
  if (s.port d.port).mayRewrite = false ∨
      ((t.grant d).isActive = (s.grant d).isActive ∧ (t.grant d).granted = (s.grant d).granted) then
    (t.port d.port).answer = (s.port d.port).answer ∧ (t.grant d).reportedCeiling = (s.grant d).reportedCeiling
  else if (t.grant d).isActive then
    (t.port d.port).answer = rewritableAnswer .reduced |(t.grant d).granted| (t.grant d).reportedCeiling
  else ∃ cause : NeutralCause, (t.port d.port).answer = rewritableAnswer .neutralRequired cause.code 2 ∧
    ((t.grant d).state = .neutralWait cause ∨
      (cause = .drop ∧ (t.grant d).state = .neutralWait .parked ∧ t.phc.phase = .parked ∧ s.phc.phase ≠ .parked))

section
variable {i : Instr} {d : Drive} {s t : State}

theorem Governed.driveInv {cs : List NeutralCause} (h : Governed cs d s t) (inv : DriveInv d s) : DriveInv d t :=
  ⟨h.bounded inv.toBounded, by rw [h.handled.rst, inv.rst, h.handled.unacked]⟩

theorem Stepped.driveInv (h : Stepped i d s t) (inv : DriveInv d s) : DriveInv d t := by
  cases h with
  | dropped governed => exact governed.driveInv inv
  | parked governed => exact governed.driveInv inv
  | expired _ governed => exact governed.driveInv inv
  | ended stands => exact stands.driveInv inv
  | requested kept => exact kept inv

/-- Without a DEMAND or an ACK_RESET of its own a record is handled, and leaves ACTIVE in the ways named alone. -/
theorem Stepped.handled (h : Stepped i d s t) (inv : PermitInv s)
    (notAsked : ¬((∃ a b, i = .demand d.port a b) ∨ ∃ a b, i = .ackReset d.port a b)) (formed : i.wellFormed = true)
    (fresh : ∀ f, endsFrame d.port i → (s.port d.port).frame = .shifting f → f.clocks = 0) :
    ∃ cs p q, Handled cs (s.grant d) p (t.grant d) q ∧ ((s.grant d).isActive = true → (t.grant d).isActive = false →
      (∃ c ∈ cs, (t.grant d).state = .neutralWait c) → LeftActive i d s t) := by
  cases h with
  | dropped governed began =>
    refine ⟨_, _, _, governed.handled, fun was left waits => .inr (.inr ⟨?_, began inv was left⟩)⟩
    simpa using waits
  | parked governed waits entered left =>
    exact ⟨_, _, _, governed.handled, fun was _ _ => .inr (.inl ⟨entered, left, waits (Grant.acked_of_active was)⟩)⟩
  | expired row governed life active last =>
    refine ⟨_, _, _, governed.handled, fun _ _ waits => .inl ⟨row, ?_, life, last, active⟩⟩
    simpa using waits
  | ended stands =>
    refine ⟨[], s.port d.port, s.port d.port, by rw [stands.grant]; exact .refl _ _ _, fun was left => ?_⟩
    exact absurd (was.symm.trans (stands.grant ▸ left)) (by simp)
  | requested _ ends asked => exact absurd (asked formed fun f => fresh f ends) notAsked

theorem Governed.answerFollows {cs : List NeutralCause} (h : Governed cs d s t) (named : ∀ c ∈ cs, ∀ c' ∈ cs,
    (t.grant d).state = .neutralWait c' → (t.grant d).state = .neutralWait c ∨
      (c = .drop ∧ (t.grant d).state = .neutralWait .parked ∧ t.phc.phase = .parked ∧ s.phc.phase ≠ .parked)) :
    AnswerFollows d s t := by
  have answer := h.handled.answer
  unfold AnswerFollows
  split_ifs at answer ⊢
  · exact answer
  · exact answer
  · obtain ⟨c, mem, answer, c', mem', state⟩ := answer
    exact ⟨c, answer, named c mem c' mem' state⟩

theorem Stepped.answer (h : Stepped i d s t) (stays : ¬endsFrame d.port i) (other : i ≠ .selectTimeout d.port) :
    AnswerFollows d s t := by
  cases h with
  | dropped governed =>
    refine governed.answerFollows fun c mem c' mem' state => .inl ?_
    rw [List.mem_singleton.mp mem, ← List.mem_singleton.mp mem', state]
  | parked governed waits entered left =>
    refine governed.answerFollows fun c mem c' mem' state => ?_
    have acked : (s.grant d).state ≠ .unacked := fun unacked =>
      nomatch (governed.handled.unacked.mp unacked).symm.trans state
    obtain rfl | rfl : c = .drop ∨ c = .parked := by simpa using mem
    · exact .inr ⟨rfl, waits acked, entered, left⟩
    · exact .inl (waits acked)
  | expired _ governed =>
    refine governed.answerFollows fun c mem c' mem' state => .inl ?_
    rw [List.mem_singleton.mp mem, ← List.mem_singleton.mp mem', state]
  | ended stands answer =>
    rw [AnswerFollows, stands.grant, if_pos (.inr ⟨rfl, rfl⟩)]
    exact ⟨answer stays other, rfl⟩
  | requested _ ends => exact absurd ends stays
end

/-! The invariant through every step. -/

theorem grantInv_iff (s : State) : GrantInv s ↔ ∀ d, DriveInv d s :=
  ⟨fun h d => ⟨⟨h.envelope, h.within d, h.inactive d⟩, h.rst d⟩,
    fun h => ⟨(h .hoist).inRange, fun d => (h d).within, fun d => (h d).inactive, fun d => (h d).rst⟩⟩

/-- A drive as a reset leaves it: nothing granted, UNACKED, and RST set (R94, R177). -/
theorem DriveInv.of_reset {d : Drive} {t : State} (inRange : t.env.grant.InRange) (zero : (t.grant d).granted = 0)
    (unacked : (t.grant d).state = .unacked) (rst : (t.port d.port).rst = true) : DriveInv d t :=
  ⟨.of_zero inRange zero, iff_of_true rst unacked⟩

theorem started_driveInv (l : LineLevels) (s : State) (d : Drive) : DriveInv d (decideEstop (started l s)) := by
  rw [decideEstop_started]
  have grant : ∀ f : Fsv, (((started l s).withFsv f).withGru
      ⟨.atPor l.estop, .atPor l.estop, .atPor l.estop, .low⟩).grant d = .atPor l.estop := fun _ => by cases d <;> rfl
  refine .of_reset (State.envelope_inRange _) ?_ ?_ ?_
  · rw [grant]; rfl
  · rw [grant]; rfl
  · cases d <;> rfl

theorem xrstAsserted_driveInv {d : Drive} {s : State} (inv : DriveInv d s) : DriveInv d (xrstAsserted s) := by
  have env : (xrstAsserted s).env = s.env := by
    rw [xrstAsserted_env]
    exact (xrstJudged_effect s).env_eq
  refine .of_reset (by rw [env]; exact inv.inRange) ?_ ?_ ?_
  · rw [xrstAsserted_grant]; rfl
  · rw [xrstAsserted_grant]; rfl
  · rw [xrstAsserted_port]
    exact (reset_port _ 2).2.1

theorem exec_driveInv {i : Instr} {d : Drive} {s t : State} (inv : DriveInv d s) (h : exec i s = .next t) :
    DriveInv d t := by
  by_cases por : ∃ l, i = .por l
  · obtain ⟨l, rfl⟩ := por
    obtain rfl : settle (decideEstop (started l s)) = t := by injection h
    exact (settle_stands d _).driveInv (started_driveInv l s d)
  by_cases xrst : i = .xrstAssert
  · subst xrst
    simp only [exec, execXrstAssert] at h
    split at h <;> obtain rfl : settle _ = t := by injection h
    · exact (settle_stands d s).driveInv inv
    · exact (settle_stands d _).driveInv (xrstAsserted_driveInv inv)
  · exact (exec_stepped h (fun l e => por ⟨l, e⟩) xrst d).driveInv inv

theorem Grant.tick_granted (g : Grant) : g.tick.granted = g.granted ∧ g.tick.isActive = g.isActive ∧
    (g.tick.state = .unacked ↔ g.state = .unacked) := by
  cases h : g.state with
  | active n =>
    rw [Grant.tick_of_active h]
    exact ⟨rfl, by simp [Grant.isActive, h], by simp⟩
  | unacked | neutralWait =>
    rw [Grant.tick_of_inactive (by rw [Grant.isActive, h])]
    simp [h]

theorem elapsed_driveInv {d : Drive} {s : State} (inv : DriveInv d s) : DriveInv d s.elapsed := by
  obtain ⟨granted, active, unacked⟩ := (s.grant d).tick_granted
  have env : s.elapsed.env = s.env := rfl
  have rst : (s.elapsed.port d.port).rst = (s.port d.port).rst := by
    rw [elapsed_port]
    unfold PortState.tick
    split <;> rfl
  refine ⟨⟨by rw [env]; exact inv.inRange, ?_, ?_⟩, ?_⟩
  · rw [elapsed_grant, granted, env]
    exact inv.within
  · rw [elapsed_grant, granted, active]
    exact inv.inactive
  · rw [elapsed_grant, unacked, rst]
    exact inv.rst

/-- Settles O55: each drive by itself at every command, which is one of few events at it. -/
theorem grantsStayWithinTheEnvelope : Obligations.GrantsStayWithinTheEnvelope := by
  refine ⟨fun s t inv stepped => ?_, fun i d s t formed inv notDemand notAck notPor notXrst fresh h => ?_,
    fun i d s t stays other notPor notXrst h => ?_, fun i s t stays other notPor notXrst h => ?_⟩
  · rw [grantInv_iff] at inv ⊢
    exact fun d => step_preserves (P := DriveInv d) exec_driveInv (fun _ => elapsed_driveInv)
      (fun _ _ inv => ⟨⟨inv.inRange, inv.within, inv.inactive⟩, inv.rst⟩) (inv d) stepped
  · have notAsked : ¬((∃ a b, i = .demand d.port a b) ∨ ∃ a b, i = .ackReset d.port a b) := by
      rintro (⟨a, b, row⟩ | ⟨a, b, row⟩)
      · exact notDemand a b row
      · exact notAck a b row
    obtain ⟨cs, p, q, handled, why⟩ := (exec_stepped h notPor notXrst d).handled inv notAsked formed fresh
    refine ⟨handled.lastDemand, handled.magnitude, handled.unacked, handled.active, fun was left => ?_⟩
    obtain ⟨cleared, waits⟩ := handled.left was left
    exact ⟨cleared, why was left waits⟩
  · exact (exec_stepped h notPor notXrst d).answer stays other
  · obtain ⟨u, rfl, event⟩ := exec_event h notPor notXrst
    exact event.cab stays other

end Sys2Proof.Machine
end

