-- ==== Sys2Proof/Proofs/Reaches.lean ====
section
/-! The reaches and the neutral holds as the overrides in force give them (`ReachInv`), through every operation that writes
the one or the other: the beginning of an override and the boundary (R111, R129, R134, R136). -/

namespace Sys2Proof.Machine

/-! The reaches. -/

theorem DriveSet.ext_has {r t : DriveSet} (h : ∀ d, r.has d = t.has d) : r = t := by
  cases r
  cases t
  have hoist := h .hoist
  have crowd := h .crowd
  have rotary := h .rotary
  simp only [DriveSet.has] at hoist crowd rotary
  rw [hoist, crowd, rotary]

/-- A reach is formed from the overrides in force and the group mode alone (R129, R135). -/
theorem Fsv.reachOf_congr {f g : Fsv} (override : ∀ src, (g.entry src).override = (f.entry src).override)
    (groupMode : g.groupMode = f.groupMode) (test : Override → Bool) : g.reachOf test = f.reachOf test := by
  simp only [Fsv.reachOf, override, groupMode]

/-- An override that begins adds the reach of its group to the reaches whose test it passes (R134, R135). -/
theorem Fsv.reachOf_withEntry_has {f : Fsv} {src : Source} (idle : (f.entry src).override = none) (x : FaultEntry)
    (test : Override → Bool) (d : Drive) : ((f.withEntry src x).reachOf test).has d =
      ((f.reachOf test).has d || (x.override.any test && (src.group.reach f.groupMode).has d)) := by
  rw [Bool.eq_iff_iff, Bool.or_eq_true, Bool.and_eq_true, Fsv.reachOf_has, Fsv.reachOf_has, Fsv.withEntry_groupMode]
  constructor
  · rintro ⟨y, passes, reach⟩
    by_cases own : y = src
    · subst own
      rw [Fsv.entry_withEntry_self] at passes
      exact .inr ⟨passes, reach⟩
    · rw [Fsv.entry_withEntry_of_ne f x own] at passes
      exact .inl ⟨y, passes, reach⟩
  · rintro (⟨y, passes, reach⟩ | ⟨passes, reach⟩)
    · have other : y ≠ src := by
        rintro rfl
        simp [idle] at passes
      exact ⟨y, by rwa [Fsv.entry_withEntry_of_ne f x other], reach⟩
    · exact ⟨src, by rwa [Fsv.entry_withEntry_self], reach⟩

/-- A reach whose test the override that begins does not pass stands. -/
theorem Fsv.reachOf_withEntry_of_fails {f : Fsv} {src : Source} (idle : (f.entry src).override = none) {x : FaultEntry}
    {test : Override → Bool} (fails : x.override.any test = false) : (f.withEntry src x).reachOf test = f.reachOf test :=
  DriveSet.ext_has fun d => by rw [Fsv.reachOf_withEntry_has idle, fails, Bool.false_and, Bool.or_false]

/-- A drive is in the reach of the overrides with an action exactly where one of them reaches it (R129). -/
theorem reachOf_has_iff_reached (s : State) (action : OverrideAction) (d : Drive) :
    (s.fsv.reachOf fun o => decide (o.action = action)).has d = true ↔ s.reached action d := by
  rw [Fsv.reachOf_has]
  simp only [State.reached, State.entry, Source.mem_all, true_and, Option.any_eq_true, decide_eq_true_eq,
    ← exists_and_right, and_assoc]

/-! The invariant. -/

/-- The reaches handed on, and the neutral holds, are those that the overrides in force give (R111, R129). -/
structure ReachInv (s : State) : Prop where
  limits : s.fsv.limitReach = s.fsv.formLimitReach
  drops : s.fsv.dropReach = s.fsv.formDropReach
  holds : ∀ d, (s.grant d).hold = s.fsv.heldReach.has d

/-- The permits' invariant is that of the reaches, with the permit outputs at their levels (R109 to R111). -/
theorem permitInv_iff (s : State) : PermitInv s ↔ ReachInv s ∧ s.gru.permits = s.permitLevels := by
  have limits : ∀ d, s.fsv.formLimitReach.has d = true ↔ s.reached .limit d := reachOf_has_iff_reached s .limit
  have drops : ∀ d, s.fsv.formDropReach.has d = true ↔ s.reached .drop d := reachOf_has_iff_reached s .drop
  have level : s.fsv.dropReach = s.fsv.formDropReach → ∀ d, s.permitLevel d = true ↔
      (s.grant d).isActive = true ∧ s.phc.phase ≠ .parked ∧ ¬s.reached .drop d := fun formed d => by
    rw [← drops, State.permitLevel, formed]
    simp [and_assoc]
  constructor
  · intro inv
    have formed : s.fsv.dropReach = s.fsv.formDropReach :=
      DriveSet.ext_has fun d => by rw [Bool.eq_iff_iff, inv.drops, drops]
    refine ⟨⟨DriveSet.ext_has fun d => ?_, formed, fun d => ?_⟩, ?_⟩
    · rw [Bool.eq_iff_iff, inv.limits, limits]
    · rw [Bool.eq_iff_iff, inv.holds, heldReach_has]
    · have hoist : s.gru.permits.hoist = s.permitLevel .hoist := by rw [Bool.eq_iff_iff, inv.hoist, level formed]
      have crowd : s.gru.permits.crowd = s.permitLevel .crowd := by rw [Bool.eq_iff_iff, inv.crowd, level formed]
      have rotary : s.gru.permits.rotary = s.permitLevel .rotary := by rw [Bool.eq_iff_iff, inv.rotary, level formed]
      calc s.gru.permits = ⟨s.gru.permits.hoist, s.gru.permits.crowd, s.gru.permits.rotary,
            s.gru.permits.brakeRelease⟩ := rfl
        _ = s.permitLevels := by rw [inv.brake, hoist, crowd, rotary, State.permitLevels]
  · rintro ⟨⟨limit, drop, hold⟩, permits⟩
    have output : ∀ d, s.permitLevel d = true ↔ _ := level drop
    constructor
    · exact fun d => by rw [limit, limits]
    · exact fun d => by rw [drop, drops]
    · exact fun d => by rw [hold, heldReach_has]
    · rw [permits]; exact output .hoist
    · rw [permits]; exact output .crowd
    · rw [permits]; exact output .rotary
    · rw [permits]; rfl

/-- What the invariant is made of: the reaches, the overrides in force, the group mode and the holds. -/
theorem ReachInv.congr {s t : State} (h : ReachInv s) (limit : t.fsv.limitReach = s.fsv.limitReach)
    (drop : t.fsv.dropReach = s.fsv.dropReach) (override : ∀ src, (t.entry src).override = (s.entry src).override)
    (groupMode : t.fsv.groupMode = s.fsv.groupMode) (hold : ∀ d, (t.grant d).hold = (s.grant d).hold) : ReachInv t := by
  have reach := fun test => Fsv.reachOf_congr (f := s.fsv) (g := t.fsv) override groupMode test
  exact ⟨by rw [limit, h.limits]; exact (reach _).symm, by rw [drop, h.drops]; exact (reach _).symm,
    fun d => by rw [hold, h.holds]; exact congrArg (·.has d) (reach _).symm⟩

/-! A LATCHED DROP that begins over a reach. -/

/-- What the beginning of a LATCHED DROP makes of the record of a drive it reaches (R99, R111). -/
theorem latchedDropBegins_record (s : State) (d : Drive) :
    (latchedDropBegins s d).grant d = { (s.grant d).neutral .drop with hold := true } := by
  rw [← neutralEvent_grant]
  exact State.grant_withGrant_self _ _ _

/-- A LATCHED DROP that begins over a reach begins at each drive of the reach, and leaves the others and the cab port. -/
theorem latchedDrops_drives (reach : DriveSet) (s : State) : (∀ d, ∃ u, SameDrive d s u ∧
      SameDrive d (if reach.has d then latchedDropBegins u d else u) (reach.drives.foldl latchedDropBegins s)) ∧
    (reach.drives.foldl latchedDropBegins s).port .cab = s.port .cab := by
  have fold : reach.drives.foldl latchedDropBegins s =
      drivesInOrder.foldl (fun t d => if reach.has d then latchedDropBegins t d else t) s := List.foldl_filter ..
  rw [fold]
  refine foldl_drives (fun t d => ?_) s
  split
  · exact latchedDropBegins_only d t
  · exact .refl d t

theorem latchedDrops_fsv (ds : List Drive) (s : State) : (ds.foldl latchedDropBegins s).fsv = s.fsv := by
  induction ds generalizing s with
  | nil => rfl
  | cons d ds ih => exact (ih _).trans (latchedDropBegins_fsv s d)

theorem latchedDrops_hold (reach : DriveSet) (s : State) (d : Drive) :
    ((reach.drives.foldl latchedDropBegins s).grant d).hold = ((s.grant d).hold || reach.has d) := by
  obtain ⟨u, before, after⟩ := (latchedDrops_drives reach s).1 d
  rw [after.grant]
  split
  · next reached => rw [latchedDropBegins_record, reached, Bool.or_true]
  · next spared => rw [before.grant, Bool.eq_false_iff.mpr spared, Bool.or_false]

/-! The fault supervisor. -/

theorem handLimitReach_fsv (s : State) :
    (handLimitReach s).fsv = { s.fsv with limitReach := s.fsv.formLimitReach } := by
  unfold handLimitReach
  dsimp only
  split
  · next same => rw [same]
  · rw [recompute_fsv]; rfl

theorem handLimitReach_hold (s : State) (d : Drive) : ((handLimitReach s).grant d).hold = (s.grant d).hold :=
  (handLimitReach_quiet s).hold d

/-- An override that begins where none of its source is in force hands its reach on, and its holds (R111, R134, R135). -/
theorem beginOverride_reachInv {s : State} (inv : ReachInv s) {src : Source} (idle : (s.entry src).override = none)
    (action : OverrideAction) : ReachInv (beginOverride src action s) := by
  obtain ⟨limits, drops, holds⟩ := inv
  let x : FaultEntry := { s.entry src with override := some ⟨action, (s.entry src).mode⟩ }
  have has := Fsv.reachOf_withEntry_has (f := s.fsv) idle x
  have stands : ∀ test : Override → Bool, test ⟨action, (s.entry src).mode⟩ = false →
      (s.fsv.withEntry src x).reachOf test = s.fsv.reachOf test := fun test fails =>
    Fsv.reachOf_withEntry_of_fails idle (by simpa [x] using fails)
  cases action with
  | limit =>
    have fsv : (beginOverride src .limit s).fsv =
        { s.fsv.withEntry src x with limitReach := (s.fsv.withEntry src x).formLimitReach } := handLimitReach_fsv _
    constructor
    · rw [fsv]; rfl
    · rw [fsv]
      exact drops.trans (stands _ rfl).symm
    · intro d
      rw [fsv, show (beginOverride src .limit s).grant d = (handLimitReach (s.withEntry src x)).grant d from rfl,
        handLimitReach_hold]
      exact (holds d).trans (congrArg (·.has d) (stands _ rfl).symm)
  | drop =>
    let w := handDropReach (s.withEntry src x)
    have begun : beginOverride src .drop s = if (s.entry src).mode = .latched then
        (src.group.reach s.fsv.groupMode).drives.foldl latchedDropBegins w else w := rfl
    have fsv : (beginOverride src .drop s).fsv =
        { s.fsv.withEntry src x with dropReach := (s.fsv.withEntry src x).formDropReach } := by
      rw [begun]
      split
      · exact latchedDrops_fsv _ w
      · rfl
    constructor
    · rw [fsv]
      exact limits.trans (stands _ rfl).symm
    · rw [fsv]; rfl
    · intro d
      rw [fsv]
      refine Eq.trans ?_ (has Override.holds d).symm
      have held : (s.grant d).hold = (s.fsv.reachOf Override.holds).has d := holds d
      rw [← held, begun]
      by_cases latched : (s.entry src).mode = .latched
      · rw [if_pos latched, latchedDrops_hold]
        simp only [x, Option.any_some, Override.holds, latched, decide_true, Bool.and_self, Bool.true_and]
        rfl
      · rw [if_neg latched]
        simp only [x, Option.any_some, Override.holds, latched, decide_false, Bool.and_false, Bool.false_and, Bool.or_false]
        rfl

/-- A boundary leaves the reaches and the holds those of the overrides in force, whatever they were (R136). -/
theorem takeBoundary_reachInv (s : State) : ReachInv (takeBoundary s) := by
  let w := handDropReach (handLimitReach (s.withFsv s.fsv.boundary))
  have formed : w.fsv = { s.fsv.boundary with
      limitReach := s.fsv.boundary.formLimitReach, dropReach := s.fsv.boundary.formDropReach } := by
    show { (handLimitReach (s.withFsv s.fsv.boundary)).fsv with
      dropReach := (handLimitReach (s.withFsv s.fsv.boundary)).fsv.formDropReach } = _
    rw [handLimitReach_fsv]
    rfl
  have fsv : (takeBoundary s).fsv = w.fsv := by
    show (drivesInOrder.foldl (handHolds s.fsv.newlyHolds) w).fsv = _
    simp only [drivesInOrder, List.foldl_cons, List.foldl_nil, handHolds_fsv]
  constructor
  · rw [fsv, formed]; rfl
  · rw [fsv, formed]; rfl
  · intro d
    obtain ⟨u, -, effect, after⟩ := foldl_drives_effect (handHolds_only s.fsv.newlyHolds)
      (handHolds_effect s.fsv.newlyHolds) w d
    have held : u.fsv.heldReach.has d = w.fsv.heldReach.has d := by rw [effect.fsv_eq]; rfl
    rw [fsv, ← held, show (takeBoundary s).grant d = _ from after.grant]
    unfold handHolds
    split
    · next reached =>
      split
      · rw [latchedDropBegins_hold, reached]
      · next going =>
        rw [reached]
        simp only [Bool.or_eq_true, Bool.not_eq_true', not_or, Bool.not_eq_false] at going
        exact going.1
    · next spared =>
      rw [clearHold, State.grant_withGrant_self, Bool.eq_false_iff.mpr spared]

end Sys2Proof.Machine
end

