-- ==== Sys2Proof/Proofs/Raises.lean ====
section
/-! What the operations of every block make of the fault table and of the neutral holds, boundaries and resets apart
(`Overseen`): a source is latched and its override begins by a raise alone, and the reaches and the holds follow the
overrides in force (R111, R129, R134). -/

namespace Sys2Proof.Machine

/-! One entry. -/

/-- The override in force after a raise: the one in force before it, or the one the entry's action begins (R134). -/
def FaultEntry.raised (e : FaultEntry) : Option Override :=
  if e.override.isSome then e.override else e.action.override.map fun action => ⟨action, e.mode⟩

/-- An entry between boundaries: mode and action stand, the latch is not cleared, the override is the one in force or the
one a raise begins, and a condition that becomes present has raised the source (R134). -/
structure FaultEntry.Raises (e x : FaultEntry) : Prop where
  mode : x.mode = e.mode
  action : x.action = e.action
  latched : e.latched = true → x.latched = true
  override : x.override = e.override ∨ x.override = e.raised
  present : e.condition = false → x.condition = true → x.latched = true ∧ x.override = e.raised

theorem FaultEntry.raised_of_some {e : FaultEntry} {o : Override} (h : e.override = some o) : e.raised = e.override := by
  simp [FaultEntry.raised, h]

theorem FaultEntry.raised_of_none {e : FaultEntry} (h : e.override = none) :
    e.raised = e.action.override.map fun action => ⟨action, e.mode⟩ := by
  simp [FaultEntry.raised, h]

theorem FaultEntry.Raises.refl (e : FaultEntry) : e.Raises e :=
  ⟨rfl, rfl, id, .inl rfl, fun absent present => nomatch absent.symm.trans present⟩

/-- A second raise begins what the first would have begun. -/
theorem FaultEntry.Raises.raised_eq {e x : FaultEntry} (h : e.Raises x) : x.raised = e.raised := by
  obtain ⟨mode, action, -, override, -⟩ := h
  cases before : e.override with
  | some o =>
    have same : x.override = some o := by
      rcases override with k | k
      · rw [k, before]
      · rw [k, FaultEntry.raised_of_some before, before]
    rw [FaultEntry.raised_of_some same, FaultEntry.raised_of_some before, same, before]
  | none =>
    cases after : x.override with
    | none => rw [FaultEntry.raised_of_none after, FaultEntry.raised_of_none before, mode, action]
    | some o =>
      rw [FaultEntry.raised_of_some after]
      exact override.resolve_left fun k => nomatch after.symm.trans (k.trans before)

theorem FaultEntry.Raises.trans {e x y : FaultEntry} (h : e.Raises x) (k : x.Raises y) : e.Raises y where
  mode := k.mode.trans h.mode
  action := k.action.trans h.action
  latched := k.latched ∘ h.latched
  override := by
    rcases k.override with same | begun
    · rw [same]; exact h.override
    · rw [begun, h.raised_eq]; exact .inr rfl
  present absent present := by
    cases between : x.condition with
    | false =>
      obtain ⟨latched, override⟩ := k.present between present
      exact ⟨latched, override.trans h.raised_eq⟩
    | true =>
      obtain ⟨latched, override⟩ := h.present absent between
      refine ⟨k.latched latched, ?_⟩
      rcases k.override with same | begun
      · rw [same, override]
      · rw [begun, h.raised_eq]

/-! The relation. -/

/-- The fault supervisor's block and the neutral holds are as they were. -/
structure Calm (s t : State) : Prop where
  fsv : t.fsv = s.fsv
  hold : ∀ d, (t.grant d).hold = (s.grant d).hold

/-- An operation between boundaries: every entry moves by raises alone, and the reaches and the holds follow. -/
structure Reached (s t : State) : Prop where
  reaches : ReachInv s → ReachInv t
  entry : ∀ src, (s.entry src).Raises (t.entry src)

/-- Such an operation that takes no warnings (R145). -/
structure Overseen (s t : State) : Prop extends Reached s t where
  warnings : t.fsv.warnings = s.fsv.warnings

section
variable {s t u : State}

theorem Calm.refl (s : State) : Calm s s := ⟨rfl, fun _ => rfl⟩

theorem Calm.trans (h : Calm s t) (k : Calm t u) : Calm s u := ⟨k.fsv.trans h.fsv, fun d => (k.hold d).trans (h.hold d)⟩

theorem Calm.ite {p : Prop} [Decidable p] (h : Calm s t) (k : Calm s u) : Calm s (if p then t else u) := by
  split
  · exact h
  · exact k

theorem Calm.of_parts (fsv : t.fsv = s.fsv := by rfl) (gru : t.gru = s.gru := by rfl) : Calm s t :=
  ⟨fsv, fun d => by rw [State.grant, gru, State.grant]⟩

theorem Calm.of_effect {c : List Part} (fsv : t.fsv = s.fsv) (e : Effect c s t) (hc : Part.grants ∉ c := by simp) :
    Calm s t := ⟨fsv, fun d => by rw [e.grant_eq d hc]⟩

theorem Calm.entry (h : Calm s t) (src : Source) : t.entry src = s.entry src := by
  rw [State.entry, h.fsv, State.entry]

theorem Calm.overseen (h : Calm s t) : Overseen s t where
  reaches inv := inv.congr (by rw [h.fsv]) (by rw [h.fsv]) (fun src => by rw [h.entry]) (by rw [h.fsv]) h.hold
  entry src := by rw [h.entry]; exact .refl _
  warnings := by rw [h.fsv]

theorem Reached.trans (h : Reached s t) (k : Reached t u) : Reached s u :=
  ⟨k.reaches ∘ h.reaches, fun src => (h.entry src).trans (k.entry src)⟩

theorem Overseen.trans (h : Overseen s t) (k : Overseen t u) : Overseen s u :=
  ⟨h.toReached.trans k.toReached, k.warnings.trans h.warnings⟩

theorem Overseen.refl (s : State) : Overseen s s := (Calm.refl s).overseen

theorem Overseen.ite {p : Prop} [Decidable p] (h : Overseen s t) (k : Overseen s u) : Overseen s (if p then t else u) := by
  split
  · exact h
  · exact k

theorem Overseen.foldl {α : Type} {f : State → α → State} (h : ∀ s a, Overseen s (f s a)) (xs : List α) (s : State) :
    Overseen s (xs.foldl f s) := by
  induction xs generalizing s with
  | nil => exact .refl s
  | cons x xs ih => exact (h s x).trans (ih _)

/-- One entry written, with its override as it was. -/
theorem withEntry_overseen (s : State) {src : Source} {x : FaultEntry} (raises : (s.entry src).Raises x)
    (override : x.override = (s.entry src).override) : Overseen s (s.withEntry src x) := by
  have entry : ∀ y, (s.entry y).Raises ((s.withEntry src x).entry y) ∧
      ((s.withEntry src x).entry y).override = (s.entry y).override := fun y => by
    by_cases own : y = src
    · subst own
      rw [State.entry_withEntry_self]
      exact ⟨raises, override⟩
    · rw [State.entry_withEntry_of_ne s x own]
      exact ⟨.refl _, rfl⟩
  exact {
    reaches := fun inv => inv.congr rfl rfl (fun y => (entry y).2) rfl fun _ => rfl
    entry := fun y => (entry y).1
    warnings := rfl }
end

/-! Operations that leave the fault supervisor. -/

section
variable (s : State)

theorem recompute_calm : Calm s (recompute s) := ⟨recompute_fsv s, (recompute_quiet s).hold⟩

theorem zntReevaluate_calm : Calm s (zntReevaluate s) := .of_effect (zntReevaluate_fsv s) (zntReevaluate_effect s)

theorem brcDepth_calm (before : Int) : Calm s (brcDepth before s) := .of_effect (brcDepth_fsv s before) (brcDepth_effect _ s)

theorem brcTurnMark_calm : Calm s (brcTurnMark s) := .ite .of_parts (.refl s)

theorem brcScan_calm : Calm s (brcScan s) := .of_effect (brcScan_fsv s) (brcScan_effect s)

theorem askJoints_calm (event : Nat → EventDetail) (mask : Nat) : Calm s (askJoints event mask s) :=
  .ite (.refl s) .of_parts

/-- A change of phase leaves the holds, in PARKED too (R48, R99). -/
theorem changePhase_calm (p : Phase) : Calm s (changePhase p s) := by
  refine ⟨changePhase_fsv s p, fun d => ?_⟩
  by_cases parked : p = .parked
  · rw [parked]
    exact ((changePhase_parked s).1 d).2
  · exact (changePhase_quiet s parked).hold d

theorem advanceEvaluate_calm : Calm s (advanceEvaluate s) := by
  have armed : ∀ b, Calm s (s.withPhc { s.phc with advanceArm := b }) := fun _ => .of_parts
  exact .ite (.ite ((armed _).trans (changePhase_calm _ _)) (armed _)) (.refl s)

theorem phcAfterEvaluation_calm (old : Stk) : Calm s (phcAfterEvaluation old s) := .ite (.refl s) (advanceEvaluate_calm s)

theorem phcCount_calm (forward : Bool) : Calm s (phcCount forward s) := by
  have counted : ∀ op, Calm s (s.withPhc { s.phc with op := op }) := fun _ => .of_parts
  have turned : ∀ op to_, Calm s (changePhase to_ (s.withPhc { s.phc with op := op })) := fun op to_ =>
    (counted op).trans (changePhase_calm _ to_)
  unfold phcCount
  split
  · exact .refl s
  · exact .ite (.ite (.ite (turned _ _) (counted _)) (.ite (turned _ _) (counted _))) (counted _)

theorem evaluate_calm : Calm s (evaluate s) := .of_parts

theorem doubtLocked_calm : Calm s (doubtLocked s) := by
  have doubted : ∀ k, Calm s (s.withStk k) := fun _ => .of_parts
  exact (doubted _).trans (askJoints_calm _ _ _)

theorem stkCount_calm (forward : Bool) : Calm s (stkCount forward s).1 := by
  have counted : ∀ k, Calm s (s.withStk k) := fun _ => .of_parts
  have locked : ∀ u, Calm u (lockRule u) := fun u => by
    have begun : Calm u (evaluate (u.withStk { u.stk with joints := lockAll u.stk.joints u.jointGeometry })) := .of_parts
    exact begun.trans (askJoints_calm _ _ _)
  have freed : ∀ u, Calm u (freeAll u) := fun u => by
    have begun : Calm u (u.withStk { u.stk with joints := u.stk.joints.map Joint.freed }) := .of_parts
    exact begun.trans ((askJoints_calm _ _ _).trans (evaluate_calm _))
  obtain ⟨-, -, h⟩ | ⟨-, -, h⟩ | ⟨-, -, h⟩ | ⟨-, -, -, -, h⟩ | ⟨-, -, -, -, h⟩ | ⟨-, -, -, -, h⟩ :=
    stkCount_cases forward s <;> rw [h]
  · exact (counted _).trans (locked _)
  · exact counted _
  · exact counted _
  · exact ((counted _).trans .of_parts).trans (freed _)
  · exact ((counted _).trans .of_parts).trans ((doubtLocked_calm _).trans (evaluate_calm _))
  · exact (counted _).trans .of_parts

theorem withdraw_calm (d : Drive) (cause : NeutralCause) : Calm s (withdraw d cause s) := by
  refine ⟨rfl, fun e => ?_⟩
  by_cases own : e = d
  · subst own
    rw [withdraw, rewriteAnswer_grant, State.grant_withGrant_self]
    rfl
  · rw [(withdraw_only d s cause).grants e own]
end

/-! Raises and decisions. -/

section
variable (s : State)

/-- What a raise makes of its source's entry, outside XRST (R134). -/
theorem raise_entry {src : Source} {s : State} (running : s.lines.xrst = false) : (raise src s).entry src =
    { s.entry src with latched := true, override := (s.entry src).raised } := by
  have asked : (askEvent (.faultRaised src) (s.withEntry src { s.entry src with latched := true })).entry src =
      { s.entry src with latched := true } := State.entry_withEntry_self _ _ _
  cases override : (s.entry src).override with
  | some o => rw [raise_inForce running override, asked, FaultEntry.raised_of_some override]
  | none =>
    rw [FaultEntry.raised_of_none override]
    cases acts : (s.entry src).action.override with
    | some action => rw [raise_begins running override acts, beginOverride_entry, if_pos rfl, asked]; rfl
    | none =>
      unfold raise
      rw [if_neg (by simp [running])]
      dsimp only
      rw [asked]
      dsimp only
      split
      · next action _ begins => exact nomatch acts.symm.trans begins
      all_goals exact asked.trans (by rw [Option.map_none, ← override])

theorem FaultEntry.Raises.latch (e : FaultEntry) : e.Raises { e with latched := true } :=
  ⟨rfl, rfl, fun _ => rfl, .inl rfl, fun absent present => nomatch absent.symm.trans present⟩

/-- A source raised, its condition written or not (R134). -/
theorem FaultEntry.Raises.raise (e : FaultEntry) (b : Bool) :
    e.Raises { e with condition := b, latched := true, override := e.raised } :=
  ⟨rfl, rfl, fun _ => rfl, .inr rfl, fun _ _ => ⟨rfl, rfl⟩⟩

theorem raise_reachInv (src : Source) (inv : ReachInv s) : ReachInv (raise src s) := by
  have asked : ReachInv (askEvent (.faultRaised src) (s.withEntry src { s.entry src with latched := true })) :=
    ((withEntry_overseen s (.latch _) rfl).trans (Calm.of_parts).overseen).reaches inv
  unfold Machine.raise
  split
  · exact inv
  · dsimp only
    split
    · next idle _ => exact beginOverride_reachInv asked idle _
    all_goals exact asked

theorem raise_overseen (src : Source) : Overseen s (raise src s) := by
  refine ⟨⟨raise_reachInv s src, fun x => ?_⟩, raise_warnings s src⟩
  by_cases xrst : s.lines.xrst = true
  · rw [raise_of_xrst xrst]
    exact .refl _
  · by_cases own : x = src
    · rw [own, raise_entry (by simpa using xrst)]
      exact .raise _ _
    · rw [raise_entry_of_ne own]
      exact .refl _

theorem raiseAll_overseen (srcs : List Source) : Overseen s (raiseAll srcs s) :=
  .foldl (f := fun s src => raise src s) (fun s src => raise_overseen s src) srcs s

/-- A decision raises its source where the condition becomes present (R130, R134). -/
theorem decideCondition_overseen (src : Source) (b : Bool) : Overseen s (decideCondition src b s) := by
  let w := s.withEntry src { s.entry src with condition := b }
  have written : ReachInv s → ReachInv w := fun inv =>
    inv.congr rfl rfl (fun y => by
      by_cases own : y = src
      · rw [own, State.entry_withEntry_self]
      · rw [State.entry_withEntry_of_ne s _ own]) rfl fun _ => rfl
  refine ⟨⟨fun inv => ?_, fun x => ?_⟩, decideCondition_warnings s src b⟩
  · unfold decideCondition
    split
    · exact inv
    · dsimp only
      split
      · exact raise_reachInv w src (written inv)
      · exact written inv
  · by_cases own : x = src
    · subst own
      unfold decideCondition
      split
      · exact .refl _
      · next running =>
        have entry : w.entry x = { s.entry x with condition := b } := State.entry_withEntry_self _ _ _
        dsimp only
        split
        · have outside : w.lines.xrst = false := by
            show s.lines.xrst = false
            simpa using running
          rw [raise_entry outside, entry]
          exact .raise (s.entry x) b
        · next quiet =>
          show (s.entry x).Raises (w.entry x)
          rw [entry]
          exact ⟨rfl, rfl, id, .inl rfl, fun absent present => absurd (show b = true from present) (by simp_all)⟩
    · rw [decideCondition_entry_of_ne own]
      exact .refl _

theorem decideConditions_overseen (cs : List (Source × Bool)) : Overseen s (decideConditions cs s) :=
  .foldl (f := fun s (c : Source × Bool) => decideCondition c.1 c.2 s)
    (fun s c => decideCondition_overseen s c.1 c.2) cs s
end

/-! The events. -/

section
variable (s : State)

theorem handOn_overseen (raised : List Source) : Overseen s (handOn raised s) :=
  ((zntReevaluate_calm s).trans (recompute_calm _)).overseen.trans
    ((raiseAll_overseen _ raised).trans (decideCondition_overseen _ _ _))

theorem handCount_overseen (evaluated : Option (List Source)) : Overseen s (handCount evaluated s) := by
  cases evaluated with
  | none => exact (recompute_calm s).overseen
  | some raised => exact handOn_overseen s raised

theorem afterEvaluation_overseen (old : Stk) (raised : List Source) : Overseen s (afterEvaluation old raised s) :=
  (handOn_overseen s raised).trans ((phcAfterEvaluation_calm _ old).trans (brcDepth_calm _ _)).overseen

/-- A string model written, evaluated and handed on. -/
theorem evaluated_overseen {u : State} (begun : Calm s u) (old : Stk) (raised : List Source) :
    Overseen s (afterEvaluation old raised (evaluate u)) :=
  (begun.trans (evaluate_calm u)).overseen.trans (afterEvaluation_overseen _ old raised)

theorem positionCounted_overseen (e : PositionEncoder) (up : Bool) : Overseen s (positionCounted e up s) :=
  evaluated_overseen s .of_parts s.stk []

theorem commitCompleted_overseen : Overseen s (commitCompleted s) :=
  evaluated_overseen s (u := rebuilt s) .of_parts s.stk []

theorem countHanded_overseen (forward : Bool) (old : Stk) (raised : Option (List Source)) :
    Overseen s (countHanded forward old raised s) :=
  (handCount_overseen s raised).trans
    ((phcAfterEvaluation_calm _ old).trans ((phcCount_calm _ forward).trans (brcDepth_calm _ _))).overseen

theorem estopRaised_overseen : Overseen s (estopRaised s) :=
  (decideCondition_overseen s .estop true).trans (.ite (.refl _) (changePhase_calm _ _).overseen)

theorem startStallWindow_overseen : Overseen s (startStallWindow s) where
  reaches inv := inv.congr rfl rfl (fun _ => rfl) rfl fun _ => rfl
  entry _ := .refl _
  warnings := rfl

/-- Warnings 3 and 4 taken are of no moment to the overrides (R145). -/
theorem takeScanWarnings_reached : Reached s (takeScanWarnings s) :=
  ⟨fun inv => inv.congr rfl rfl (fun _ => rfl) rfl fun _ => rfl, fun _ => .refl _⟩

theorem xrstEnded_reached : Reached s (xrstEnded s) := by
  have released : Overseen s (xrstReleased s) :=
    (Calm.of_parts (s := s) (t := (s.withLines { s.lines with xrst := false }).withMsu s.msu.xrstEnds)).overseen.trans
      (startStallWindow_overseen _)
  have refreshed := (released.trans ((zntReevaluate_calm _).trans (recompute_calm _)).overseen).toReached.trans
    (takeScanWarnings_reached _)
  exact refreshed.trans (Overseen.ite (estopRaised_overseen _) (.refl _)).toReached

/-- A scan up to its boundary (R36, R130). -/
theorem scanDecided_reached (r : Readings) : Reached s (scanDecided r s) := by
  let u := zntReevaluate (evaluateAnew (s.withMsu { s.msu with channels := takeReadings s.gst.active s.msu.channels r }))
  have evaluated : Calm s u := by
    refine Calm.trans (t := evaluateAnew (s.withMsu
      { s.msu with channels := takeReadings s.gst.active s.msu.channels r })) .of_parts (zntReevaluate_calm _)
  have measured : Calm u (u.withEnv { u.env with measured := measure u.gst.active u.msu.channels }) := .of_parts
  have formed : Calm s (scanMeasured r s) := evaluated.trans (measured.trans (recompute_calm _))
  exact (formed.overseen.trans (decideConditions_overseen _ _)).toReached.trans (takeScanWarnings_reached _)

/-- An angle count up to its turn mark (R16). -/
theorem angleHanded_overseen (pair : Pair) (forward : Bool) : Overseen s (countHanded forward s.stk
    (stkCount forward (s.angleMoved pair forward)).2 (stkCount forward (s.angleMoved pair forward)).1) := by
  have moved : Calm s (s.angleMoved pair forward) := .of_parts
  exact (moved.trans (stkCount_calm _ forward)).overseen.trans (countHanded_overseen _ forward s.stk _)
end

end Sys2Proof.Machine
end

