-- ==== Sys2Proof/Proofs/RequestRaises.lean ====
section
/-! What a request makes of the fault table and of the neutral holds: CLEAR_FAULTS, which clears latches alone, apart, it is
an operation between boundaries (R111, R134, R140). -/

namespace Sys2Proof.Machine

/-- A request: the reaches and the holds follow the overrides in force, warnings stand, and a condition that becomes
present has raised its source (R134, R145). -/
structure Obeyed (s t : State) : Prop where
  reaches : ReachInv s → ReachInv t
  warnings : t.fsv.warnings = s.fsv.warnings
  present : ∀ src, (s.entry src).condition = false → (t.entry src).condition = true →
    (t.entry src).latched = true ∧ (t.entry src).override = (s.entry src).raised

theorem Overseen.obeyed {s t : State} (h : Overseen s t) : Obeyed s t := ⟨h.reaches, h.warnings, fun src => (h.entry src).present⟩

theorem Calm.andObeyed {s t u : State} (h : Calm s t) (k : Obeyed t u) : Obeyed s u where
  reaches := k.reaches ∘ h.overseen.reaches
  warnings := k.warnings.trans h.overseen.warnings
  present src := by rw [← h.entry]; exact k.present src

theorem Obeyed.andCalm {s t u : State} (h : Obeyed s t) (k : Calm t u) : Obeyed s u where
  reaches := k.overseen.reaches ∘ h.reaches
  warnings := k.overseen.warnings.trans h.warnings
  present src := by rw [k.entry]; exact h.present src

section
variable (s : State)

/-- A record written with the neutral hold it had. -/
theorem withGrant_calm (d : Drive) {g : Grant} (hold : g.hold = (s.grant d).hold) : Calm s (s.withGrant d g) := by
  refine ⟨rfl, fun e => ?_⟩
  by_cases own : e = d
  · rw [own, State.grant_withGrant_self, hold]
  · rw [(withGrant_only d s g).grants e own]

theorem withPort_calm (p : Port) (x : PortState) : Calm s (s.withPort p x) := .of_parts

theorem clearLatches_calm (p : Port) (q : Request) : Calm s (clearLatches p q s) := by
  unfold clearLatches
  split
  · dsimp only
    split <;> split <;> exact .of_parts
  · exact .refl s

theorem serveAckReset_calm (p : Port) (a b : Word) : Calm s (serveAckReset p a b s).1 := by
  unfold serveAckReset
  split
  · split
    · unfold ackCab
      split <;> exact .of_parts
    · next d _ =>
      unfold ackDrive
      split
      · exact (withGrant_calm s d (g := { s.grant d with state := .neutralWait .ackReset }) rfl).trans .of_parts
      all_goals exact .refl s
  · exact .of_parts

theorem demandNeutral_calm (d : Drive) (cause : NeutralCause) (a : Word) (reverse : Bool) :
    Calm s (demandNeutral d cause a reverse s).1 := by
  unfold demandNeutral
  dsimp only
  split_ifs
  · exact withGrant_calm s d rfl
  · let g := { s.grant d with lastDemand := signedDemand a reverse, state := .neutralWait .drop }
    exact (withGrant_calm s d (g := g) rfl).trans .of_parts
  · exact withGrant_calm s d rfl

theorem serveDemand_calm (p : Port) (a b : Word) : Calm s (serveDemand p a b s).1 := by
  unfold serveDemand
  split
  · next d _ =>
    unfold demandOn
    split
    · exact .refl s
    · exact .refl s
    · exact .refl s
    · exact demandNeutral_calm s d _ a _
    · exact withGrant_calm s d rfl
  · exact .refl s

theorem servePhase_calm (a b : Word) : Calm s (servePhase a b s).1 := by
  unfold servePhase phaseRequested phaseTaken
  split
  · exact .refl s
  split
  · exact .refl s
  split_ifs
  case neg => exact changePhase_calm s _
  all_goals exact .refl s

/-- An operation started behind the change of phase (R53, R57). -/
theorem startOperation_calm (p : Phase) (angle timer : Nat) (target : Option ReleaseTarget) :
    Calm s (startOperation angle timer target (changePhase p s)) := (changePhase_calm s p).trans .of_parts

theorem serveEngage_calm (a b : Word) : Calm s (serveEngage a b s).1 := by
  unfold serveEngage
  dsimp only
  split_ifs
  case neg => exact startOperation_calm s _ _ _ _
  all_goals exact .refl s

theorem serveReleaseEnable_calm (a b : Word) : Calm s (serveReleaseEnable a b s).1 := by
  unfold serveReleaseEnable
  split <;> exact .of_parts

theorem serveRelease_calm (a b : Word) : Calm s (serveRelease a b s).1 := by
  unfold serveRelease
  split
  · exact .refl s
  split
  · exact .refl s
  split
  · exact .refl s
  unfold releaseRequested
  dsimp only
  split_ifs
  case neg => exact startOperation_calm s _ _ _ _
  all_goals exact .refl s

theorem serveAbortOp_calm (a b : Word) : Calm s (serveAbortOp a b s).1 := by
  unfold serveAbortOp
  dsimp only
  split_ifs
  · exact .refl s
  · exact .refl s
  all_goals exact changePhase_calm s _

theorem jointsConfirmed_overseen (a : Word) : Overseen s (jointsConfirmed a s) :=
  .ite (.refl s) (evaluated_overseen s .of_parts s.stk [])

theorem serveConfirmFree_overseen (a b : Word) : Overseen s (serveConfirmFree a b s).1 := by
  have refused : ∀ code, Overseen s (refuseOpen code s).1 := fun _ => Calm.overseen .of_parts
  unfold serveConfirmFree
  split
  · exact refused _
  split_ifs
  case neg => exact jointsConfirmed_overseen s a
  all_goals exact refused _

theorem serveDatum_overseen (a b : Word) : Overseen s (serveDatum a b s).1 := by
  unfold serveDatum
  dsimp only
  split
  · exact .refl s
  split
  · exact .refl s
  split_ifs
  case neg => exact evaluated_overseen s .of_parts s.stk []
  all_goals exact .refl s

theorem serveOpenPile_calm (a b : Word) : Calm s (serveOpenPile a b s).1 := by
  unfold serveOpenPile
  split_ifs <;> exact .of_parts

theorem serveClosePile_calm (a b : Word) : Calm s (serveClosePile a b s).1 := by
  unfold serveClosePile
  dsimp only
  split_ifs <;> exact .of_parts

theorem zoneWritten_calm (i : Fin 8) (field : Nat) (x : Int) : Calm s (zoneWritten i field x s) := by
  have written : Calm s (s.withZnt { s.znt with zones := s.znt.zones.set i (s.znt.zones[i].write field x) }) := .of_parts
  exact written.trans ((zntReevaluate_calm _).trans (recompute_calm _))

theorem serveZoneWrite_calm (a b : Word) : Calm s (serveZoneWrite a b s).1 := by
  unfold serveZoneWrite
  split
  · split
    · unfold zoneRequested
      dsimp only
      split
      · exact .refl s
      split
      · exact .refl s
      split
      · exact .refl s
      · exact zoneWritten_calm s _ _ _
    · exact .refl s
  · exact .refl s

theorem serveGeomWrite_calm (a b : Word) : Calm s (serveGeomWrite a b s).1 := by
  unfold serveGeomWrite
  split
  · exact .refl s
  split
  · exact .refl s
  · split <;> exact .of_parts

theorem serveStoreEnable_calm (a b : Word) : Calm s (serveStoreEnable a b s).1 := by
  unfold serveStoreEnable
  split <;> exact .of_parts

theorem serveStoreCommit_calm (a b : Word) : Calm s (serveStoreCommit a b s).1 := by
  unfold serveStoreCommit commitRequested
  split_ifs
  case neg => split <;> exact .of_parts
  all_goals exact .of_parts

/-- CLEAR_FAULTS clears latches alone (R140). -/
theorem serveClearFaults_obeyed (a b : Word) : Obeyed s (serveClearFaults a b s).1 := by
  unfold serveClearFaults
  split
  · exact Overseen.obeyed (Calm.overseen .of_parts)
  have cleared : ∀ src, (s.withFsv (s.fsv.clearNamed a)).entry src =
      if a.getLsbD src.idx then { s.entry src with latched := false } else s.entry src := fun src => by
    simp [State.entry, Fsv.entry, Fsv.clearNamed]
  exact {
    reaches := fun inv => inv.congr rfl rfl (fun src => by rw [cleared]; split <;> rfl) rfl fun _ => rfl
    warnings := rfl
    present := fun src absent present => by
      have stands : ((s.withFsv (s.fsv.clearNamed a)).entry src).condition = (s.entry src).condition := by
        rw [cleared]
        split <;> rfl
      exact nomatch absent.symm.trans (stands.symm.trans present) }

theorem serveRecordRead_calm (a b : Word) (o : Bool) (l : Record) : Calm s (serveRecordRead a b o l s).1 := by
  unfold serveRecordRead
  dsimp only
  split_ifs <;> exact .of_parts

/-! SET and SETTINGS_DEFAULT, which write what is pending (R141, R142, R167). -/

theorem settingChanged_overseen (v : Setting) : Overseen s (settingChanged v s) := by
  cases v
  case lSlack => exact evaluated_overseen s .of_parts s.stk []
  case depthTolerance => exact decideCondition_overseen s _ _
  case recordStep => exact .ite (Calm.overseen .of_parts) (.refl s)
  case spinOffLevel => exact (advanceEvaluate_calm s).overseen
  case autoAdvance => exact .ite (advanceEvaluate_calm s).overseen (.refl s)
  all_goals exact .refl s

theorem settingWritten_overseen (v : Setting) (x : Int) : Overseen s (settingWritten v x s) := by
  have kept : Calm s (s.withSettings (s.gst.settings.write v x)) := .of_parts
  have written := (kept.trans (recompute_calm _)).overseen
  exact .ite written (written.trans (settingChanged_overseen _ v))

/-- One entry written in its pending values alone. -/
theorem withPendingEntry_overseen {s : State} (src : Source) (mode : Option Mode) (action : Option Action) :
    Overseen s (s.withEntry src { s.entry src with pendingMode := mode, pendingAction := action }) :=
  withEntry_overseen s ⟨rfl, rfl, id, .inl rfl, fun absent present => nomatch absent.symm.trans present⟩ rfl

theorem serveSet_overseen (a b : Word) : Overseen s (serveSet a b s).1 := by
  have refused : ∀ code, Overseen s (refuseOpen code s).1 := fun _ => Calm.overseen .of_parts
  unfold serveSet
  split
  · exact refused _
  · unfold setValue
    dsimp only
    split
    · exact refused _
    · exact settingWritten_overseen s _ _
  · unfold setGroupMode
    split
    · exact refused _
    · exact ⟨⟨fun inv => inv.congr rfl rfl (fun _ => rfl) rfl fun _ => rfl, fun _ => .refl _⟩, rfl⟩
  · unfold setMode
    split
    · exact refused _
    · exact withPendingEntry_overseen _ _ _
  · unfold setAction
    split
    · exact refused _
    · exact withPendingEntry_overseen _ _ _

/-- The defaults, which leave what is in force and write what is pending (R167). -/
theorem withDefaults_overseen : Overseen s s.withDefaults := by
  have fsv : s.withDefaults.fsv = s.fsv.defaulted := recompute_fsv _
  have hold : ∀ d, (s.withDefaults.grant d).hold = (s.grant d).hold := fun d => by
    rw [State.withDefaults, (recompute_calm _).hold]
    rfl
  refine ⟨⟨fun inv => inv.congr ?_ ?_ (fun src => ?_) (congrArg Prod.fst (withDefaults_group s)) hold, fun src => ?_⟩, ?_⟩
  · rw [fsv]; unfold Fsv.defaulted; rfl
  · rw [fsv]; unfold Fsv.defaulted; rfl
  · rw [withDefaults_entry]; rfl
  · rw [withDefaults_entry]
    exact ⟨rfl, rfl, id, .inl rfl, fun absent present => nomatch absent.symm.trans present⟩
  · rw [fsv]; unfold Fsv.defaulted; rfl

theorem defaultHanded_overseen (old : Settings) (v : Setting) : Overseen s (defaultHanded old s v) := by
  unfold defaultHanded
  exact .ite (settingChanged_overseen s v) (.refl s)

theorem serveSettingsDefault_overseen (a b : Word) : Overseen s (serveSettingsDefault a b s).1 := by
  unfold serveSettingsDefault
  split_ifs
  case neg =>
    exact (withDefaults_overseen s).trans
      (Overseen.foldl (fun u v => defaultHanded_overseen u s.gst.settings v) handingOrder _)
  all_goals exact .refl s

/-! All requests. -/

theorem serve_obeyed (p : Port) (c : Cmd) (q : Request) : Obeyed s (serve p c q s).1 := by
  cases c
  case clearFaults => exact serveClearFaults_obeyed s q.a q.b
  all_goals refine Overseen.obeyed ?_
  case set => exact serveSet_overseen s q.a q.b
  case settingsDefault => exact serveSettingsDefault_overseen s q.a q.b
  case confirmFree => exact serveConfirmFree_overseen s q.a q.b
  case datum => exact serveDatum_overseen s q.a q.b
  all_goals refine Calm.overseen ?_
  case nop => exact .refl s
  case read => exact .of_parts
  case ackReset => exact serveAckReset_calm s p q.a q.b
  case demand => exact serveDemand_calm s p q.a q.b
  case phase => exact servePhase_calm s q.a q.b
  case engage => exact serveEngage_calm s q.a q.b
  case releaseEnable => exact serveReleaseEnable_calm s q.a q.b
  case release => exact serveRelease_calm s q.a q.b
  case abortOp => exact serveAbortOp_calm s q.a q.b
  case openPile => exact serveOpenPile_calm s q.a q.b
  case closePile => exact serveClosePile_calm s q.a q.b
  case zoneWrite => exact serveZoneWrite_calm s q.a q.b
  case geomWrite => exact serveGeomWrite_calm s q.a q.b
  case storeEnable => exact serveStoreEnable_calm s q.a q.b
  case storeCommit => exact serveStoreCommit_calm s q.a q.b
  case recordRead => exact serveRecordRead_calm s q.a q.b q.ones q.latched

theorem takeRequest_obeyed (p : Port) (q : Request) : Obeyed s (takeRequest p q s) := by
  have decided : ∀ u, Obeyed u (decideRequest p q u).1 := fun u => by
    unfold decideRequest
    split
    · exact (Overseen.refl u).obeyed
    · exact serve_obeyed u p _ q
    · exact (Overseen.refl u).obeyed
  exact ((withPort_calm s p _).andObeyed (decided _)).andCalm ((withPort_calm _ p _).trans (clearLatches_calm _ p q))
end

end Sys2Proof.Machine
end

