-- ==== Sys2Proof/Proofs/Carried.lean ====
section
/-! What every command but a reset makes of the reaches, the neutral holds, warnings 3 and 4 and the sources whose condition
becomes present (`Carried`), boundaries among them (R111, R129, R134, R136, R145). -/

namespace Sys2Proof.Machine

/-- A command: the reaches and the holds follow the overrides in force, warnings 3 and 4 are taken at a scan and as XRST
ends alone, and a condition that becomes present has raised its source; what the raise began, a boundary may end. -/
structure Carried (i : Instr) (s t : State) : Prop where
  reaches : ReachInv s → ReachInv t
  warnings : (∀ r, i ≠ .scanCompletion r) → i ≠ .xrstEnd → t.fsv.warnings.oilWarm = s.fsv.warnings.oilWarm ∧
    t.fsv.warnings.channelHolding = s.fsv.warnings.channelHolding
  present : ∀ src, (s.entry src).condition = false → (t.entry src).condition = true → (t.entry src).latched = true ∧
    (¬TakesBoundary i s → (t.entry src).override = (s.entry src).raised)

section
variable {i : Instr} {s t u v : State}

theorem Obeyed.carried (h : Obeyed s t) : Carried i s t where
  reaches := h.reaches
  warnings _ _ := by rw [h.warnings]; exact ⟨rfl, rfl⟩
  present src absent present :=
    have ⟨latched, override⟩ := h.present src absent present
    ⟨latched, fun _ => override⟩

theorem Overseen.carried (h : Overseen s t) : Carried i s t := h.obeyed.carried

/-- An operation that takes warnings 3 and 4, in a command that may (R145). -/
theorem Reached.carried (h : Reached s t) (takes : i = .xrstEnd ∨ ∃ r, i = .scanCompletion r) : Carried i s t where
  reaches := h.reaches
  warnings scan xrst := by
    obtain end_ | ⟨r, row⟩ := takes
    · exact absurd end_ xrst
    · exact absurd row (scan r)
  present src absent present :=
    have ⟨latched, override⟩ := (h.entry src).present absent present
    ⟨latched, fun _ => override⟩

theorem Carried.andCalm (h : Carried i s t) (k : Calm t u) : Carried i s u where
  reaches := k.overseen.reaches ∘ h.reaches
  warnings := by rw [k.fsv]; exact h.warnings
  present src := by rw [k.entry]; exact h.present src

/-- The end of the event writes the permits and warnings 0 to 2 alone. -/
theorem Carried.settled (h : Carried i s t) : Carried i s (settle t) where
  reaches inv := (h.reaches inv).congr rfl rfl (fun _ => rfl) rfl fun d => by rw [settle_grant]
  warnings := h.warnings
  present := h.present

/-- A boundary behind it takes no warnings, and leaves the conditions and the latches (R136). -/
theorem Carried.boundary (h : Carried i s t) (takes : TakesBoundary i s) : Carried i s (takeBoundary t) where
  reaches _ := takeBoundary_reachInv t
  warnings := by rw [takeBoundary_warnings]; exact h.warnings
  present src absent present := by
    obtain ⟨condition, latched⟩ := (t.entry src).boundary_kept
    rw [takeBoundary_entry] at present ⊢
    exact ⟨latched.trans (h.present src absent (condition.symm.trans present)).1, fun none => absurd takes none⟩
end

/-! Scans and angle counts. -/

/-- A scan, with its boundary in rest (R36, R44). -/
theorem exec_scanCompletion_carried {r : Readings} {s t : State} (h : exec (.scanCompletion r) s = .next t) :
    Carried (.scanCompletion r) s t := by
  simp only [exec, execScanCompletion] at h
  split at h <;> obtain rfl : settle _ = t := by injection h
  · exact (Overseen.refl s).carried.settled
  next running =>
  have released : s.lines.xrst = false := by simpa using running
  have decided := (scanDecided_reached s r).carried (.inr ⟨r, rfl⟩)
  have supervised : Carried (.scanCompletion r) s (scanSupervised (scanMeasured r s)) := by
    rw [scanSupervised_eq]
    split
    · next rest => exact decided.boundary (takesBoundary_scan.mpr ⟨released, rest⟩)
    · exact decided
  exact ((supervised.andCalm (phcAfterEvaluation_calm _ s.stk)).andCalm
    ((brcScan_calm _).trans (brcDepth_calm _ _))).settled

/-- The part an angle count leaves in front of its turn mark (R40). -/
theorem angleHanded_marks (s : State) (pair : Pair) (forward : Bool) :
    (countHanded forward s.stk (stkCount forward (s.angleMoved pair forward)).2
      (stkCount forward (s.angleMoved pair forward)).1).marks ↔ (s.angleMoved pair forward).marks := by
  have counted := stkCount_effect forward (s.angleMoved pair forward)
  have behind := countHanded_effect forward s.stk (stkCount forward (s.angleMoved pair forward)).2
    (stkCount forward (s.angleMoved pair forward)).1
  rw [State.marks, State.marks, ← counted.msu_eq, ← counted.lines_eq, ← behind.msu_eq, ← behind.lines_eq]

/-- An angle count, with its boundary at a turn mark (R40, R44). -/
theorem exec_angleCountChange_carried {pair : Pair} {s t : State} (h : exec (.angleCountChange pair) s = .next t) :
    Carried (.angleCountChange pair) s t := by
  cases count : decodeCount s.msu.angleRef pair with
  | none =>
    simp only [exec, execAngleCountChange, count] at h
    obtain rfl : settle _ = t := by injection h
    exact (Calm.overseen .of_parts).carried.settled
  | some forward =>
    rw [exec_angleCountChange count] at h
    obtain rfl : settle _ = t := by injection h
    let d := countHanded forward s.stk (stkCount forward (s.angleMoved pair forward)).2
      (stkCount forward (s.angleMoved pair forward)).1
    have handed : Overseen s d := angleHanded_overseen s pair forward
    have moved : ∀ (u : State) (m : Msu), Calm u (u.withMsu m) := fun _ _ => .of_parts
    refine Carried.settled (t := angleUsed d) ?_
    by_cases marks : d.marks
    · rw [angleUsed_marked marks]
      let m := d.msu.endRest
      have ahead : Carried (.angleCountChange pair) s ((d.withMsu m).withMsu { m with markRef := m.angle }) :=
        (handed.trans ((moved d m).trans (moved _ _)).overseen).carried
      exact (ahead.boundary ((takesBoundary_angle count).mpr ((angleHanded_marks s pair forward).mp marks))).andCalm
        (brcTurnMark_calm _)
    · rw [angleUsed_unmarked marks]
      exact (handed.trans (.ite (.refl d) (moved d _).overseen)).carried

/-! Every command. -/

theorem acted_carried {i : Instr} {s u : State} (h : Acted i s u) (por : ∀ l, i ≠ .por l) (xrst : i ≠ .xrstAssert)
    (scan : ∀ r, i ≠ .scanCompletion r) (angle : ∀ pair, i ≠ .angleCountChange pair) : Carried i s u := by
  cases h with
  | nothing => exact (Overseen.refl s).carried
  | started l => exact absurd rfl (por l)
  | xrstAsserted => exact absurd rfl xrst
  | xrstEnded => exact (xrstEnded_reached s).carried (.inl rfl)
  | estopSeen => exact (Calm.overseen .of_parts).carried
  | estopRaised =>
    have seen : Calm s (s.withLines { s.lines with estop := true }) := .of_parts
    exact (seen.overseen.trans (estopRaised_overseen _)).carried
  | estopReleased =>
    have seen : Calm s (s.withLines { s.lines with estop := false }) := .of_parts
    exact (seen.overseen.trans (decideCondition_overseen _ _ _)).carried
  | positionChanged => exact (Calm.overseen .of_parts).carried
  | positionCounted e pair up =>
    have seen : Calm s (s.withMsu (s.msu.withReference e pair)) := .of_parts
    exact (seen.overseen.trans (positionCounted_overseen _ e up)).carried
  | angleChanged pair => exact absurd rfl (angle pair)
  | angleCounted pair => exact absurd rfl (angle pair)
  | scanTaken r => exact absurd rfl (scan r)
  | windowExpired cs =>
    have formed : Calm s (s.withMsu (s.msu.formSpeed s.gst.active)) := .of_parts
    exact (formed.overseen.trans (decideConditions_overseen _ cs)).carried
  | rested => exact (Calm.overseen .of_parts).carried
  | stallExpired b => exact ((decideCondition_overseen s .stall b).trans (startStallWindow_overseen _)).carried
  | operationTimedOut => exact ((raise_overseen s .opTimeout).trans (changePhase_calm _ _).overseen).carried
  | grantExpired d => exact (withdraw_calm s d .grantExpired).overseen.carried
  | commitCompleted => exact (commitCompleted_overseen s).carried
  | portWritten _ p x => exact (withPort_calm s p x).overseen.carried
  | requestTaken _ p q => exact (takeRequest_obeyed s p q).carried

theorem exec_carried {i : Instr} {s t : State} (h : exec i s = .next t) (por : ∀ l, i ≠ .por l) (xrst : i ≠ .xrstAssert) :
    Carried i s t := by
  by_cases scan : ∃ r, i = .scanCompletion r
  · obtain ⟨r, rfl⟩ := scan
    exact exec_scanCompletion_carried h
  by_cases angle : ∃ pair, i = .angleCountChange pair
  · obtain ⟨pair, rfl⟩ := angle
    exact exec_angleCountChange_carried h
  obtain ⟨u, rfl, acted⟩ := exec_acted h
  exact (acted_carried acted por xrst (not_exists.mp scan) (not_exists.mp angle)).settled

/-! The resets. -/

/-- With no override in force the reaches are empty, and so is what holds the drives (R146). -/
theorem reachInv_of_none {s : State} (idle : ∀ src, (s.entry src).override = none) (limit : s.fsv.limitReach = .empty)
    (drop : s.fsv.dropReach = .empty) (hold : ∀ d, (s.grant d).hold = false) : ReachInv s := by
  have empty : ∀ test, s.fsv.reachOf test = .empty := fun test => DriveSet.ext_has fun d => by
    have none : ¬(s.fsv.reachOf test).has d = true := by
      rw [Fsv.reachOf_has]
      rintro ⟨src, passes, -⟩
      rw [← State.entry, idle] at passes
      exact nomatch passes
    rw [Bool.eq_false_iff.mpr none]
    cases d <;> rfl
  exact ⟨limit.trans (empty _).symm, drop.trans (empty _).symm, fun d => by
    rw [hold, Fsv.heldReach, empty]
    cases d <;> rfl⟩

theorem started_reachInv (l : LineLevels) (s : State) : ReachInv (started l s) :=
  reachInv_of_none (fun src => by cases src <;> rfl) rfl rfl fun d => by cases d <;> rfl

theorem xrstAsserted_reachInv (s : State) : ReachInv (xrstAsserted s) := by
  obtain ⟨entry, limit, drop⟩ := xrstAsserted_faults s
  exact reachInv_of_none (fun src => by rw [entry]; rfl) limit drop fun d => by rw [xrstAsserted_grant]; rfl

/-- The assertion of XRST takes no warnings (R146). -/
theorem xrstAsserted_warnings (s : State) : (xrstAsserted s).fsv.warnings = s.fsv.warnings := by
  have doubted : ∀ u : State, (stkXrst u).fsv = u.fsv := fun u => by
    unfold stkXrst doubtLockedIfAny
    dsimp only
    split
    · split
      · exact ((doubtLocked_calm u).trans (evaluate_calm _)).fsv
      · rfl
    · rfl
  rw [xrstAsserted_fsv, xrstJudged, brcDepth_fsv, zntReevaluate_fsv, doubted]
  rfl

/-- Every command keeps the reaches and the holds as the overrides in force give them (R111, R129). -/
theorem exec_reachInv {i : Instr} {s t : State} (inv : ReachInv s) (h : exec i s = .next t) : ReachInv t := by
  by_cases por : ∃ l, i = .por l
  · obtain ⟨l, rfl⟩ := por
    obtain rfl : settle _ = t := by injection h
    have begun : Overseen (started l s) (decideEstop (started l s)) := .ite (estopRaised_overseen _) (.refl _)
    exact (begun.carried (i := .xrstEnd)).settled.reaches (started_reachInv l s)
  by_cases xrst : i = .xrstAssert
  · subst xrst
    simp only [exec, execXrstAssert] at h
    split at h <;> obtain rfl : settle _ = t := by injection h
    · exact ((Overseen.refl s).carried (i := .xrstAssert)).settled.reaches inv
    · exact ((Overseen.refl _).carried (i := .xrstAssert)).settled.reaches (xrstAsserted_reachInv s)
  exact (exec_carried h (not_exists.mp por) xrst).reaches inv

/-- Warnings 3 and 4 are taken at a scan and as XRST ends alone (R145, R146). -/
theorem exec_scanWarnings {i : Instr} {s t : State} (h : exec i s = .next t) (por : ∀ l, i ≠ .por l)
    (scan : ∀ r, i = .scanCompletion r → s.lines.xrst = true) (end_ : i = .xrstEnd → s.lines.xrst = false) :
    t.fsv.warnings.oilWarm = s.fsv.warnings.oilWarm ∧ t.fsv.warnings.channelHolding = s.fsv.warnings.channelHolding := by
  by_cases taken : ∃ r, i = .scanCompletion r
  · obtain ⟨r, rfl⟩ := taken
    simp only [exec, execScanCompletion, scan r rfl] at h
    obtain rfl : settle s = t := by injection h
    exact ⟨rfl, rfl⟩
  by_cases ended : i = .xrstEnd
  · subst ended
    simp only [exec, execXrstEnd, end_ rfl] at h
    obtain rfl : settle s = t := by injection h
    exact ⟨rfl, rfl⟩
  by_cases xrst : i = .xrstAssert
  · subst xrst
    simp only [exec, execXrstAssert] at h
    split at h <;> obtain rfl : settle _ = t := by injection h
    · exact ⟨rfl, rfl⟩
    · have kept := xrstAsserted_warnings s
      show (xrstAsserted s).fsv.warnings.oilWarm = _ ∧ (xrstAsserted s).fsv.warnings.channelHolding = _
      rw [kept]
      exact ⟨rfl, rfl⟩
  exact (exec_carried h por xrst).warnings (not_exists.mp taken) ended

/-! The permits and warnings 0 to 2 as a command and the timers leave them. -/

/-- What a command leaves is settled: the permits at their levels and warnings 0 to 2 as their causes hold (R109, R110,
R145). -/
theorem exec_settled {i : Instr} {s t : State} (h : exec i s = .next t) : t.gru.permits = t.permitLevels ∧ WarningsInv t := by
  obtain ⟨u, rfl, -⟩ := exec_acted h
  exact ⟨rfl, rfl, decide_eq_true_iff, decide_eq_true_iff⟩

theorem exec_permitInv {i : Instr} {s t : State} (inv : PermitInv s) (h : exec i s = .next t) : PermitInv t :=
  (permitInv_iff t).mpr ⟨exec_reachInv ((permitInv_iff s).mp inv).1 h, (exec_settled h).1⟩

/-- The timers' count moves no override, no hold and no state of a record. -/
theorem elapsed_permitInv (s : State) (inv : PermitInv s) : PermitInv s.elapsed := by
  obtain ⟨reaches, permits⟩ := (permitInv_iff s).mp inv
  have hold : ∀ d, (s.elapsed.grant d).hold = (s.grant d).hold := fun d => by
    rw [elapsed_grant]
    unfold Grant.tick
    split <;> rfl
  have fsv : s.elapsed.fsv = { s.fsv with stallTimer := s.elapsed.fsv.stallTimer } := by
    rw [elapsed_fsv]
    split <;> rfl
  have level : ∀ d, s.elapsed.permitLevel d = s.permitLevel d := fun d => by
    have phase : s.elapsed.phc.phase = s.phc.phase := rfl
    have active : (s.elapsed.grant d).isActive = (s.grant d).isActive := by
      rw [elapsed_grant]
      exact (s.grant d).tick_granted.2.1
    rw [State.permitLevel, State.permitLevel, active, phase, fsv]
  refine (permitInv_iff _).mpr ⟨reaches.congr ?_ ?_ (fun src => ?_) ?_ hold, ?_⟩
  · rw [fsv]
  · rw [fsv]
  · rw [State.entry, fsv]
    rfl
  · rw [fsv]
  · rw [State.permitLevels, level, level, level]
    exact permits

/-- Settles O56: the reaches and the holds are kept by every operation, and the end of an event sets the rest. -/
theorem permitsAndWarningsFollowTheirInputs : Obligations.PermitsAndWarningsFollowTheirInputs := by
  refine ⟨fun s t inv h => ?_, fun s t inv h => ?_, fun i s t por scan xrst h => exec_scanWarnings h por scan xrst⟩
  · exact step_preserves exec_permitInv elapsed_permitInv
      (fun s _ inv => ⟨inv.limits, inv.drops, inv.holds, inv.hoist, inv.crowd, inv.rotary, inv.brake⟩) inv h
  · refine step_preserves (fun _ h => (exec_settled h).2) (fun s inv => ?_)
      (fun s _ inv => ⟨inv.supplyShort, inv.depthQuality, inv.fifoFull⟩) inv h
    have warnings : s.elapsed.fsv.warnings = s.fsv.warnings := by
      rw [elapsed_fsv]
      split <;> rfl
    exact ⟨by rw [warnings]; exact inv.supplyShort, by rw [warnings]; exact inv.depthQuality,
      by rw [warnings]; exact inv.fifoFull⟩

end Sys2Proof.Machine
end

