-- ==== Sys2Proof/Proofs/DriveRequests.lean ====
section
/-! ACK_RESET and DEMAND on a drive port, from a ready port to the settled state (R95 to R101). -/

namespace Sys2Proof.Machine

/-! The direction and the ceiling a DEMAND names. -/

theorem demandDirection_none {b : Word} : demandDirection b = none ↔ b ≠ 0 ∧ b ≠ 1 := by
  unfold demandDirection
  split_ifs <;> simp_all

theorem demandDirection_some {b : Word} {reverse : Bool} (h : demandDirection b = some reverse) :
    b = if reverse then 1 else 0 := by
  unfold demandDirection at h
  split_ifs at h <;> simp_all

theorem demandDirection_of_valid {b : Word} (h : ¬(b ≠ 0 ∧ b ≠ 1)) : ∃ reverse : Bool, b = if reverse then 1 else 0 := by
  obtain ⟨reverse, named⟩ := Option.ne_none_iff_exists'.mp (h ∘ demandDirection_none.mp)
  exact ⟨reverse, demandDirection_some named⟩

/-- R95's table: the ceiling for the drive and the direction, and Y of the answer. -/
theorem mem_demandTable {e : Envelope} {d : Drive} {b : Word} {c y : Int} : (d, b, c, y) ∈ demandTable e ↔
    ∃ reverse, b = (if reverse then 1 else 0) ∧ c = e.grant.bound d reverse ∧ y = e.answerY d reverse := by
  cases d <;> simp [demandTable, Ceilings.bound, Envelope.answerY]

theorem demandDirection_direction (reverse : Bool) : demandDirection (if reverse then 1 else 0) = some reverse := by
  cases reverse <;> rfl

theorem signedDemand_eq (a : Word) (reverse : Bool) : signedDemand a reverse =
    if (if reverse then 1 else 0 : Word) = 0 then (a.toNat : Int) else -(a.toNat : Int) := by
  cases reverse <;> rfl

/-! The request served. -/

/-- What a request on a drive's port leaves whose service `r` writes at most the drive's record: the record, the answer,
the frame, and the permit at its level (R104, R109). -/
structure DriveServed (d : Drive) (r : State × Answer) (s t : State) : Prop where
  keeps : KeepsAllBut [.pif, .grants] s t
  others : OtherGrantsKept d s t
  grant : t.grant d = r.1.grant d
  answered : AnsweredAlone d.port r.2 s t
  permit : t.gru.permits.of d =
    ((r.1.grant d).isActive && decide (s.phc.phase ≠ .parked) && !s.fsv.dropReach.has d)

theorem answeredOn_served {d : Drive} {r : State × Answer} {s : State} (e : Effect [.grants] (s.frameEnded d.port) r.1)
    (others : OtherGrantsKept d (s.frameEnded d.port) r.1) : DriveServed d r s (settle (answeredOn d.port r)) where
  keeps := answered_keeps e (l := []) ⟨⟨fun x _ => by cases x <;> simp [Part.kept], rfl⟩, fun _ => rfl⟩ (by simp) (by simp)
  others x hx := by rw [settle_grant]; exact others x hx
  grant := settle_grant _ d
  answered := answered_alone e rfl
  permit := by
    have phase : (answeredOn d.port r).phc = s.phc := e.phc_eq
    have drops : (answeredOn d.port r).fsv.dropReach = s.fsv.dropReach := by
      show r.1.fsv.dropReach = _
      rw [e.fsv_eq]
      rfl
    rw [(settle_permit _ d).1, State.permitLevel, phase, drops]
    rfl

/-- A request a drive's port takes goes to its owner, and its answer is pending (R170, R172). -/
theorem exec_driveRequest {c : Cmd} {d : Drive} {s : State} (ready : PortReady d.port s) (taken : c.takenOn d.port = true)
    (unacknowledged : c.takenUnacknowledged = true) (a b : Word) : ∃ q : Request, q.a = a ∧ q.b = b ∧
      exec (requestRow c d.port a b 0) s = .next (settle (answeredOn d.port (serve d.port c q (s.frameEnded d.port)))) :=
  ⟨⟨c.code, a, b, decide ((if c = .recordRead then (0 : BitVec 160) else 0) ≠ 0), s.brc.oldest⟩, rfl, rfl, by
    rw [exec_servedRequest ready taken (.inr unacknowledged), clearLatches_of_drive (Drive.cab_ne_port d).symm]⟩

/-! ACK_RESET (R97). -/

theorem exec_ackReset {d : Drive} {s : State} (ready : PortReady d.port s) (a b : Word) :
    exec (.ackReset d.port a b) s = .next (settle (answeredOn d.port
      (if a = 0 ∧ b = 0 then ackDrive d (s.frameEnded d.port) else refuseOpen .badArg (s.frameEnded d.port)))) := by
  obtain ⟨q, rfl, rfl, next⟩ := exec_driveRequest (c := .ackReset) ready rfl rfl a b
  rw [show Instr.ackReset d.port q.a q.b = requestRow .ackReset d.port q.a q.b 0 from rfl, next]
  rw [serve, serveAckReset, Drive.port_drive]

/-- ACK_RESET on a record that has acknowledged the reset changes nothing (R97). -/
theorem ackDrive_of_acked {d : Drive} {s : State} (h : (s.grant d).state ≠ .unacked) : ackDrive d s = (s, answer .ok 0 0) := by
  unfold ackDrive
  split
  · next unacked => exact absurd unacked h
  all_goals rfl

/-- ACK_RESET on an UNACKED record: the record written and answered, and the port's RST cleared behind (R97). -/
theorem ackDrive_unacked {d : Drive} {s : State} (h : (s.grant d).state = .unacked) :
    let r := (s.withGrant d { s.grant d with state := .neutralWait .ackReset }, answer .ok 1 0)
    settle (answeredOn d.port (ackDrive d s)) = (settle (answeredOn d.port r)).withPort d.port
      { (settle (answeredOn d.port r)).port d.port with rst := false } := by
  intro r
  have acked : ackDrive d s = (clearRst d.port r.1, r.2) := by rw [ackDrive, h]
  rw [acked]
  show settle (answeredOn d.port (clearRst d.port r.1, r.2)) = settle ((answeredOn d.port r).withPort d.port
    { (answeredOn d.port r).port d.port with rst := false })
  simp only [answeredOn, clearRst, State.port_withPort_self]
  cases d <;> rfl

/-- The acknowledgement of a reset on a drive's port (R97). -/
theorem ackReset_unacked {d : Drive} {s : State} (state : (s.grant d).state = .unacked) :
    let t := settle (answeredOn d.port (ackDrive d (s.frameEnded d.port)))
    KeepsAllBut [.pif, .grants] s t ∧ OtherGrantsKept d s t ∧
      t.grant d = { s.grant d with state := .neutralWait .ackReset } ∧
      t.pif = s.pif.withPort d.port { (s.port d.port).ended (answer .ok 1 0) with rst := false } := by
  intro t
  let g := { s.grant d with state := .neutralWait .ackReset }
  let r : State × Answer := ((s.frameEnded d.port).withGrant d g, answer .ok 1 0)
  let w := settle (answeredOn d.port r)
  obtain ⟨keeps, others, grant, answered, -⟩ : DriveServed d r s w :=
    answeredOn_served (withGrant_effect _ d g) (withGrant_only d _ g).grants
  have cleared : t = w.withPort d.port { w.port d.port with rst := false } := ackDrive_unacked state
  have port : w.port d.port = (s.port d.port).ended (answer .ok 1 0) := by
    rw [State.port, show w.pif = _ from answered]
    exact State.port_withPort_self s d.port _
  refine ⟨⟨fun x hx => ?_, by rw [cleared]; exact keeps.2⟩, fun x hx => by rw [cleared]; exact others x hx, ?_, ?_⟩
  · rw [cleared]
    exact Part.kept_trans (keeps.1 x hx) (withPort_kept w _ _ x fun k => hx (by simp [k]))
  · rw [cleared]
    exact grant.trans (State.grant_withGrant_self _ d g)
  · rw [cleared, port, State.withPort_pif, show w.pif = _ from answered, Pif.withPort_withPort]

/-- An ACK_RESET that is refused, or finds nothing to acknowledge, leaves the record (R97). -/
theorem answeredOn_unserved {d : Drive} {r : State × Answer} {s : State} (e : Effect [] (s.frameEnded d.port) r.1) :
    let t := settle (answeredOn d.port r)
    KeepsAllBut [.pif, .grants] s t ∧ OtherGrantsKept d s t ∧ t.grant d = s.grant d ∧ AnsweredAlone d.port r.2 s t := by
  obtain ⟨keeps, others, grant, answered, -⟩ := answeredOn_served (e.mono (by simp)) fun x _ => e.grant_eq x
  exact ⟨keeps, others, grant.trans (e.grant_eq d), answered⟩

/-- Settles O7, by the state of the record. -/
theorem driveAcknowledgement : Obligations.DriveAcknowledgement := by
  intro d a b s ready
  refine ⟨_, exec_ackReset ready a b, ?_⟩
  by_cases zero : a = 0 ∧ b = 0
  · rw [if_pos zero, if_neg (by simp [zero])]
    have acknowledged := ackDrive_of_acked (d := d) (s := s.frameEnded d.port)
    have stands := answeredOn_unserved (d := d) (r := (s.frameEnded d.port, answer .ok 0 0)) (.refl _)
    cases state : (s.grant d).state with
    | unacked => exact ackReset_unacked state
    | neutralWait | active =>
      rw [acknowledged fun unacked => nomatch state.symm.trans unacked]
      exact stands
  · rw [if_neg zero, if_pos (by simpa [or_iff_not_imp_left] using zero)]
    obtain ⟨keeps, others, grant, answered⟩ :=
      answeredOn_unserved (r := refuseOpen .badArg (s.frameEnded d.port)) (useFree_effect _)
    exact ⟨keeps, others, grant, _, _, answered⟩

/-! DEMAND (R96, R98, R100). -/

theorem demandOn_effect (d : Drive) (a b : Word) (s : State) : Effect [.grants] s (demandOn d a b s).1 := by
  unfold demandOn
  split
  · exact .refl s
  · exact .refl s
  · exact .refl s
  · unfold demandNeutral
    dsimp only
    split_ifs
    · exact withGrant_effect s d _
    · exact (withGrant_effect s d _).trans ((useFree_effect _).mono (by simp))
    · exact withGrant_effect s d _
  · exact withGrant_effect s d _

theorem demandOn_others (d : Drive) (a b : Word) (s : State) : OtherGrantsKept d s (demandOn d a b s).1 := by
  have written : ∀ g, OtherGrantsKept d s (s.withGrant d g) := fun g => (withGrant_only d s g).grants
  unfold demandOn
  split
  case h_4 =>
    unfold demandNeutral
    dsimp only
    split_ifs <;> exact written _
  case h_5 => exact written _
  all_goals exact fun _ _ => rfl

/-- A DEMAND on a drive's port is that of its record (R96, R98, R100). -/
theorem exec_demand {d : Drive} {s : State} (ready : PortReady d.port s) (a b : Word) :
    ∃ t, exec (.demand d.port a b) s = .next t ∧ DriveServed d (demandOn d a b (s.frameEnded d.port)) s t := by
  obtain ⟨q, rfl, rfl, next⟩ := exec_driveRequest (c := .demand) ready (by cases d <;> rfl) rfl a b
  have served : serve d.port .demand q (s.frameEnded d.port) = demandOn d q.a q.b (s.frameEnded d.port) := by
    rw [serve, serveDemand, Drive.port_drive]
  rw [served] at next
  exact ⟨_, next, answeredOn_served (demandOn_effect d q.a q.b _) (demandOn_others d q.a q.b _)⟩

section
variable {d : Drive} {s : State} {a b : Word}

theorem demandOn_unacked (h : (s.grant d).state = .unacked) : demandOn d a b s = refuse .restarted 0 0 s := by
  rw [demandOn, h]

/-- A B of neither direction (R98, R100). -/
theorem demandOn_badArg (h : (s.grant d).state ≠ .unacked) (direction : b ≠ 0 ∧ b ≠ 1) :
    demandOn d a b s = refuse .badArg 0 0 s := by
  rw [demandOn, demandDirection_none.mpr direction]
  cases state : (s.grant d).state with
  | unacked => exact absurd state h
  | neutralWait | active => rfl

theorem demandOn_neutral {cause : NeutralCause} {reverse : Bool} (h : (s.grant d).state = .neutralWait cause) :
    demandOn d a (if reverse then 1 else 0) s = demandNeutral d cause a reverse s := by
  rw [demandOn, h, demandDirection_direction]

theorem demandOn_active {life : Nat} {reverse : Bool} (h : (s.grant d).state = .active life) :
    demandOn d a (if reverse then 1 else 0) s = demandActive d a reverse s := by
  rw [demandOn, h, demandDirection_direction]
end

/-! DEMAND in NEUTRAL_WAIT, check by check (R98). -/

section
variable {d : Drive} {s : State} {cause : NeutralCause} {a : Word} {reverse : Bool}

theorem demandNeutral_demanded (h : a ≠ 0) : demandNeutral d cause a reverse s =
    (s.withGrant d { s.grant d with lastDemand := signedDemand a reverse }, answer .neutralRequired cause.code 0) :=
  if_pos h

theorem demandNeutral_held (hold : (s.grant d).hold = true) : demandNeutral d cause 0 reverse s =
    ((s.withGrant d { s.grant d with lastDemand := signedDemand 0 reverse, state := .neutralWait .drop }).useFree,
      answer .neutralRequired (heldCode cause s.freeCount) 1) := by
  unfold demandNeutral
  dsimp only
  rw [if_neg (by simp), if_pos hold]

theorem demandNeutral_taken (hold : (s.grant d).hold = false) : demandNeutral d cause 0 reverse s =
    (s.withGrant d ⟨.active (s.gst.settings.life d), signedDemand 0 reverse, 0, s.env.answerY d reverse,
        false, false, false, (s.grant d).hold⟩,
      rewritableAnswer .ok 0 (s.env.answerY d reverse)) := by
  unfold demandNeutral
  dsimp only
  rw [if_neg (by simp), if_neg (by simp [hold])]
end

theorem signedDemand_zero (reverse : Bool) : signedDemand 0 reverse = 0 := by cases reverse <;> rfl

/-- X of a zero demand held off: the cause before it, or DROP (R98; entry 14). -/
theorem heldCode_eq (cause : NeutralCause) (free : Nat) : heldCode cause free = cause.code ∨ heldCode cause free = 4 := by
  unfold heldCode
  split
  · exact .inl rfl
  · exact .inr rfl

/-- Settles O9, by the record's state and, in NEUTRAL_WAIT, the checks of R98 in order. -/
theorem demandOutsideActive : Obligations.DemandOutsideActive := by
  intro d a b s ready inactive
  obtain ⟨t, next, keeps, others, grant, answered, permit⟩ := exec_demand ready a b
  refine ⟨t, next, keeps, others, ?_⟩
  let u := s.frameEnded d.port
  have written : ∀ g, (u.withGrant d g).grant d = g := State.grant_withGrant_self u d
  cases state : (s.grant d).state with
  | active => simp [Grant.isActive, state] at inactive
  | unacked =>
    rw [demandOn_unacked (s := u) state] at grant answered
    exact ⟨grant, answered⟩
  | neutralWait cause =>
    by_cases direction : b ≠ 0 ∧ b ≠ 1
    · have acknowledged : (u.grant d).state ≠ .unacked := fun h => nomatch state.symm.trans h
      rw [demandOn_badArg acknowledged direction] at grant answered
      exact (if_pos direction).mpr ⟨grant, answered⟩
    obtain ⟨reverse, rfl⟩ : ∃ reverse : Bool, b = if reverse then 1 else 0 := demandDirection_of_valid direction
    rw [demandOn_neutral (s := u) state] at grant answered permit
    simp only [if_neg direction]
    by_cases demanded : a ≠ 0
    · rw [demandNeutral_demanded demanded, signedDemand_eq] at grant
      rw [demandNeutral_demanded demanded] at answered
      exact (if_pos demanded).mpr ⟨grant.trans (written _), answered⟩
    obtain rfl : a = 0 := not_not.mp demanded
    rw [if_neg demanded]
    by_cases held : (s.grant d).hold = true
    · rw [demandNeutral_held (s := u) held, signedDemand_zero] at grant
      rw [demandNeutral_held (s := u) held] at answered
      refine (if_pos held).mpr ⟨grant.trans (written _), _, ?_, answered⟩
      exact_mod_cast heldCode_eq cause u.freeCount
    · rw [if_neg held]
      have free : (u.grant d).hold = false := Bool.eq_false_iff.mpr held
      rw [demandNeutral_taken free, signedDemand_zero] at grant permit
      rw [demandNeutral_taken free] at answered
      refine ⟨_, _, mem_demandTable.mpr ⟨reverse, rfl, rfl, rfl⟩, ?_, answered, ?_⟩
      · rw [grant, written, free]
        rfl
      · rw [permit, written]
        simp [Grant.isActive]

/-! DEMAND in ACTIVE (R100, R101). -/

/-- The record after a DEMAND taken in ACTIVE, its flags read as numbers (R100). -/
theorem Grant.demanded_eq (g : Grant) (a : Word) (reverse : Bool) (c : Int) (life : Nat) (y : Int) :
    g.demanded a reverse c life y = {
      state := .active life
      lastDemand := signedDemand a reverse
      granted := if reverse then -min (a.toNat : Int) c else min (a.toNat : Int) c
      reportedCeiling := y
      clamped := decide (c < a.toNat ∧ 0 < c)
      blocked := decide (0 < a.toNat ∧ c = 0)
      reduced := false
      hold := g.hold } := by
  have demanded : a ≠ 0 ↔ 0 < a.toNat := by rw [Nat.pos_iff_ne_zero, ne_eq, ne_eq, BitVec.toNat_eq]; rfl
  simp only [Grant.demanded, demanded, Bool.decide_and]

/-- The CODE and the magnitude answered, against a ceiling that is not negative: CLAMPED wherever the ceiling is lower,
but for BLOCKED (R101). -/
theorem Grant.demanded_answer (g : Grant) (a : Word) (reverse : Bool) {c : Int} (nonneg : 0 ≤ c) (life : Nat) (y : Int) :
    (g.demanded a reverse c life y).demandCode =
        (if 0 < a.toNat ∧ c = 0 then .blocked else if c < a.toNat then .clamped else .ok) ∧
      |(g.demanded a reverse c life y).granted| = min (a.toNat : Int) c := by
  rw [Grant.demanded_eq]
  constructor
  · simp only [Grant.demandCode, decide_eq_true_eq]
    by_cases blocked : 0 < a.toNat ∧ c = 0
    · rw [if_pos blocked, if_pos blocked]
    · rw [if_neg blocked, if_neg blocked]
      have positive : c < a.toNat ∧ 0 < c ↔ c < a.toNat := by omega
      simp only [positive]
  · have magnitude := abs_of_nonneg (le_min (Int.natCast_nonneg a.toNat) nonneg)
    cases reverse
    · exact magnitude
    · exact (abs_neg _).trans magnitude

/-- Settles O10. -/
theorem demandInActive : Obligations.DemandInActive := by
  intro d a b s life ready inRange active
  obtain ⟨t, next, keeps, others, grant, answered, -⟩ := exec_demand ready a b
  let u := s.frameEnded d.port
  have written : ∀ g, (u.withGrant d g).grant d = g := State.grant_withGrant_self u d
  refine ⟨t, next, keeps, others, fun not0 not1 => ?_, fun c y row => ?_⟩
  · have acknowledged : (u.grant d).state ≠ .unacked := fun h => nomatch active.symm.trans h
    rw [demandOn_badArg acknowledged ⟨not0, not1⟩] at grant answered
    exact ⟨grant, answered⟩
  · obtain ⟨reverse, rfl, rfl, rfl⟩ := mem_demandTable.mp row
    rw [demandOn_active (s := u) active] at grant answered
    obtain ⟨code, magnitude⟩ := (u.grant d).demanded_answer a reverse (inRange.bound d reverse).1
      (u.gst.settings.life d) (s.env.answerY d reverse)
    rw [demandActive] at grant answered
    dsimp only at answered
    rw [show u.env = s.env from rfl, code, magnitude] at answered
    refine ⟨(grant.trans (written _)).trans ?_, answered⟩
    rw [Grant.demanded_eq, signedDemand_eq]
    cases reverse <;> rfl

end Sys2Proof.Machine
end

