-- ==== Sys2Proof/Proofs/Reclamp.lean ====
section
/-! The re-clamp at one drive, written out (R103, R104). -/

namespace Sys2Proof.Machine

section
variable {s : State} {d : Drive} {life : Nat}

/-- The re-clamp at an ACTIVE record whose grant is above its field (R103, R104). -/
theorem reclampDrive_above (active : (s.grant d).state = .active life)
    (above : s.env.grant.bound d (isReverse (s.grant d).granted) < |(s.grant d).granted|) :
    let v := (s.grant d).granted
    let c := s.env.grant.bound d (isReverse v)
    let y := s.env.answerY d (isReverse v)
    (reclampDrive s d).grant d = { s.grant d with
        granted := if v < 0 then -c else c, reduced := true
        reportedCeiling := if (s.port d.port).mayRewrite then y else (s.grant d).reportedCeiling } ∧
      (reclampDrive s d).port d.port = (s.port d.port).rewrite (rewritableAnswer .reduced c y) := by
  intro v c y
  have taken : reclampDrive s d = rewriteAnswer d (rewritableAnswer .reduced c y) (s.withGrant d { s.grant d with
      granted := withSignOf v c, reduced := true
      reportedCeiling := if (s.port d.port).mayRewrite then y else (s.grant d).reportedCeiling }) := by
    unfold reclampDrive
    dsimp only
    split
    · exact if_pos above
    all_goals next other => exact nomatch active.symm.trans other
  rw [taken, rewriteAnswer_grant, State.grant_withGrant_self, rewriteAnswer_port, withGrant_port]
  exact ⟨rfl, rfl⟩

/-- The re-clamp leaves a record whose grant is within its field (R103). -/
theorem reclampDrive_within (within : |(s.grant d).granted| ≤ s.env.grant.bound d (isReverse (s.grant d).granted)) :
    reclampDrive s d = s := by
  unfold reclampDrive
  dsimp only
  split
  · exact if_neg (not_lt.mpr within)
  all_goals rfl
end

/-- The re-clamp does at each drive what it does there alone (R103). -/
theorem reclamp_drive (s : State) (d : Drive) :
    ∃ u, SameDrive d s u ∧ u.env = s.env ∧ SameDrive d (reclampDrive u d) (reclamp s) := by
  obtain ⟨u, before, effect, after⟩ := foldl_drives_effect (fun t d => reclampDrive_only d t) reclampDrive_effect s d
  exact ⟨u, before, effect.env_eq, after⟩

/-- Settles O50, by whether the grant is above its field. -/
theorem reclampLowersGrants : Obligations.ReclampLowersGrants := by
  rintro s d life _ b c y - active rfl row direction
  obtain ⟨reverse, rfl, rfl, rfl⟩ := mem_demandTable.mp row
  obtain rfl : reverse = isReverse (s.grant d).granted := by
    rw [isReverse, Bool.eq_iff_iff, decide_eq_true_iff, ← direction]
    cases reverse <;> simp
  obtain ⟨u, ⟨grant, port⟩, env, after⟩ := reclamp_drive s d
  dsimp only
  rw [after.grant, after.port]
  split
  · next above =>
    obtain ⟨lowered, answered⟩ := reclampDrive_above (s := u) (grant ▸ active) (by rw [grant, env]; exact above)
    rw [grant, port, env] at lowered answered
    exact ⟨lowered, answered⟩
  · next within =>
    rw [reclampDrive_within (s := u) (by rw [grant, env]; exact not_lt.mp within)]
    exact ⟨grant, port⟩

end Sys2Proof.Machine
end

