-- ==== Sys2Proof/Proofs/Latches.lean ====
section
/-! A raise written out: the entry, the record, and a LATCHED DROP that begins over its reach (R99, R104, R111, R134). -/

namespace Sys2Proof.Machine

theorem FaultEntry.raised_eq (e : FaultEntry) : e.raised = if e.override.isSome then e.override
    else match e.action with
      | .none => none
      | .limit => some ⟨.limit, e.mode⟩
      | .drop => some ⟨.drop, e.mode⟩ := by
  unfold FaultEntry.raised
  cases e.action <;> rfl

/-- A raise that begins a LATCHED DROP is its beginning at every drive of the reach (R134, R135). -/
theorem raise_latchedDrop {src : Source} {s : State} (running : s.lines.xrst = false)
    (idle : (s.entry src).override = none) (drops : (s.entry src).action = .drop)
    (latched : (s.entry src).mode = .latched) : ∃ w, (∀ d, SameDrive d s w) ∧ w.port .cab = s.port .cab ∧
      raise src s = (src.group.reach s.fsv.groupMode).drives.foldl latchedDropBegins w := by
  let asked := askEvent (.faultRaised src) (s.withEntry src { s.entry src with latched := true })
  have entry : asked.entry src = { s.entry src with latched := true } := State.entry_withEntry_self _ _ _
  refine ⟨handDropReach (asked.withEntry src { asked.entry src with override := some ⟨.drop, (asked.entry src).mode⟩ }),
    fun _ => ⟨rfl, rfl⟩, rfl, ?_⟩
  rw [raise_begins (a := .drop) running idle (by rw [drops]; rfl)]
  exact if_pos (show (asked.entry src).mode = .latched by rw [entry]; exact latched)

/-- A neutral event takes an ACTIVE record to NEUTRAL_WAIT and takes its grant (R99). -/
theorem Grant.neutral_of_active {g : Grant} (h : g.isActive = true) (c : NeutralCause) :
    g.neutral c = ⟨.neutralWait c, g.lastDemand, 0, g.reportedCeiling, false, false, false, g.hold⟩ := by
  unfold Grant.neutral
  split
  · rfl
  all_goals next other => rw [Grant.isActive, other] at h; cases h

/-- A raise that begins a LATCHED DROP, at a drive of its reach (R99, R111). -/
theorem raise_latchedDrop_grant {src : Source} {s : State} (running : s.lines.xrst = false)
    (idle : (s.entry src).override = none) (drops : (s.entry src).action = .drop)
    (latched : (s.entry src).mode = .latched) {d : Drive} (reached : (src.group.reach s.fsv.groupMode).has d = true) :
    (raise src s).grant d = { (s.grant d).neutral .drop with hold := true } := by
  obtain ⟨w, same, -, begun⟩ := raise_latchedDrop running idle drops latched
  obtain ⟨u, before, after⟩ := (latchedDrops_drives (src.group.reach s.fsv.groupMode) w).1 d
  rw [begun, after.grant, if_pos reached, latchedDropBegins_record, before.grant, (same d).grant]

/-- The answers of the ACTIVE drives it reaches are rewritten, and every other port stands (R99, R104). -/
theorem raise_latchedDrop_ports {src : Source} {s : State} (running : s.lines.xrst = false)
    (idle : (s.entry src).override = none) (drops : (s.entry src).action = .drop)
    (latched : (s.entry src).mode = .latched) : (raise src s).port .cab = s.port .cab ∧ ∀ d,
      if (src.group.reach s.fsv.groupMode).has d = true ∧ (s.grant d).isActive = true then
        AnswerWithdrawn d .drop s (raise src s)
      else (raise src s).port d.port = s.port d.port := by
  obtain ⟨w, same, cab, begun⟩ := raise_latchedDrop running idle drops latched
  obtain ⟨drives, cabStands⟩ := latchedDrops_drives (src.group.reach s.fsv.groupMode) w
  rw [begun]
  refine ⟨cabStands.trans cab, fun d => ?_⟩
  obtain ⟨u, before, after⟩ := drives d
  have met : SameDrive d s u := (same d).trans before
  have port : (latchedDropBegins u d).port d.port = if (s.grant d).isActive then
      (s.port d.port).rewrite (rewritableAnswer .neutralRequired NeutralCause.drop.code 2) else s.port d.port := by
    rw [← met.grant, ← met.port]
    exact neutralEvent_port .drop d u
  rw [answerWithdrawn_iff, after.port]
  by_cases reached : (src.group.reach s.fsv.groupMode).has d = true
  · rw [if_pos reached, port]
    by_cases active : (s.grant d).isActive = true
    · rw [if_pos ⟨reached, active⟩, if_pos active]
    · rw [if_neg fun k => active k.2, if_neg active]
  · rw [if_neg reached, if_neg fun k => reached k.1]
    exact met.port

/-- Settles O47: the raise itself, and what every command but a reset makes of a condition that becomes present. -/
theorem raiseLatchesAndBegins : Obligations.RaiseLatchesAndBegins := by
  refine ⟨fun i s t por xrst h src absent present => ?_, fun src s running => ?_⟩
  · obtain ⟨latched, override⟩ := (exec_carried h por xrst).present src absent present
    exact ⟨latched, fun none => (override none).trans (FaultEntry.raised_eq _)⟩
  dsimp only
  rw [raise_entry running]
  refine ⟨rfl, rfl, FaultEntry.raised_eq _, fun _ other => raise_entry_of_ne other s, ?_, fun idle drops latched d reached => ?_,
    raise_latchedDrop_ports running⟩
  · rw [raise_brc, if_neg (by simp [running])]
    rfl
  · rw [raise_latchedDrop_grant running idle drops latched reached]
    refine ⟨rfl, (s.grant d).neutral_inactive .drop, fun active => ?_⟩
    rw [Grant.neutral_of_active active]

end Sys2Proof.Machine
end

