-- ==== Sys2Proof/Proofs/BoundaryDrives.lean ====
section
/-! The boundary written out: the entries, and what it makes of a drive that a LATCHED DROP newly reaches or no longer does
(R99, R111, R136 to R138, R141). -/

namespace Sys2Proof.Machine

/-! The entries. -/

/-- A boundary installs, ends and begins at an entry (R136). -/
theorem FaultEntry.boundary_written (e : FaultEntry) :
    let mode := e.pendingMode.getD e.mode
    let action := e.pendingAction.getD e.action
    let ends := e.condition = false ∧ (mode = .cyclic ∨ e.latched = false ∨ action = .none)
    e.boundary = {
      condition := e.condition, latched := e.latched, mode := mode, action := action
      pendingMode := none, pendingAction := none
      override := if e.override.isSome ∧ ¬ends then e.override
        else if e.condition then
          match action with
          | .none => none
          | .limit => some ⟨.limit, mode⟩
          | .drop => some ⟨.drop, mode⟩
        else none } := by
  intro mode action ends
  have goesOn : e.install.ends = false ↔ ¬ends := by
    rw [← Bool.not_eq_true, FaultEntry.ends_iff]
    rfl
  have begun : e.install.action.override.map (fun a => (⟨a, e.install.mode⟩ : Override)) =
      match action with
      | .none => none
      | .limit => some ⟨.limit, mode⟩
      | .drop => some ⟨.drop, mode⟩ := by
    show action.override.map (fun a => (⟨a, mode⟩ : Override)) = _
    cases action <;> rfl
  rw [FaultEntry.boundary_eq, begun]
  simp only [goesOn]
  rfl

/-! The drives. -/

theorem holdsBack_iff (s : State) (src : Source) (d : Drive) : s.holdsBack src d ↔ ∃ o, (s.entry src).override = some o ∧
    o.action = .drop ∧ o.startMode = .latched ∧ (src.group.reach s.fsv.groupMode).has d = true := by
  constructor
  · rintro ⟨inForce, reach⟩
    exact ⟨_, inForce, rfl, rfl, reach⟩
  · rintro ⟨⟨_, _⟩, inForce, rfl, rfl, reach⟩
    exact ⟨inForce, reach⟩

/-- The drives the boundary handles as at a beginning are those that a LATCHED DROP in force after it newly reaches (R136;
entry 35). -/
theorem newlyHolds_iff (s : State) (d : Drive) : s.fsv.newlyHolds d = true ↔ ∃ src, (takeBoundary s).holdsBack src d ∧
    ((s.entry src).override = none ∨ (src.group.reach s.fsv.groupMode).has d = false) := by
  refine ⟨newlyHolds_left, ?_⟩
  rintro ⟨src, ⟨inForce, reach⟩, new⟩
  have entry : (s.fsv.boundary.entry src).override = some ⟨.drop, .latched⟩ := by
    rw [← inForce, takeBoundary_entry]
    simp [State.entry, Fsv.entry, Fsv.boundary]
  have groupMode : (takeBoundary s).fsv.groupMode = s.fsv.boundary.groupMode := congrArg Prod.fst (takeBoundary_group s)
  have before : s.fsv.reaches src d = false := by
    rw [Fsv.reaches, Bool.and_eq_false_iff]
    exact new.imp_left fun idle => by rw [← State.entry, idle]; rfl
  rw [groupMode] at reach
  simp only [Fsv.newlyHolds, List.any_eq_true]
  have after : s.fsv.boundary.reaches src d = true := by rw [Fsv.reaches, entry, reach]; rfl
  exact ⟨src, src.mem_all, by rw [entry, after, before]; rfl⟩

theorem handLimitReach_reclamped (s : State) (d : Drive) : Reclamped d s (handLimitReach s) := by
  unfold handLimitReach
  dsimp only
  split
  · exact .of_same (.refl d s)
  · have formed : SameDrive d s (s.withFsv { s.fsv with limitReach := s.fsv.formLimitReach }) := ⟨rfl, rfl⟩
    exact (Reclamped.of_same formed).trans ((recompute_reclamped _).1 d)

/-- A boundary meets a drive, re-clamped at most, with the holds to hand on at it (R136). -/
theorem takeBoundary_drive (s : State) (d : Drive) : ∃ v, Reclamped d s v ∧
    (v.fsv.heldReach.has d = true ↔ ∃ src, (takeBoundary s).holdsBack src d) ∧
    SameDrive d (handHolds s.fsv.newlyHolds v d) (takeBoundary s) := by
  let w := handDropReach (handLimitReach (s.withFsv s.fsv.boundary))
  have installed : SameDrive d s (s.withFsv s.fsv.boundary) := ⟨rfl, rfl⟩
  have formed : SameDrive d (handLimitReach (s.withFsv s.fsv.boundary)) w := ⟨rfl, rfl⟩
  have met : Reclamped d s w :=
    (Reclamped.of_same installed).trans ((handLimitReach_reclamped _ d).trans (.of_same formed))
  obtain ⟨v, before, frame, after⟩ := foldl_drives_effect (handHolds_only s.fsv.newlyHolds)
    (handHolds_effect s.fsv.newlyHolds) w d
  have behind : Effect [.grants, .pif] w (takeBoundary s) := .foldl (handHolds_effect s.fsv.newlyHolds) drivesInOrder w
  refine ⟨v, met.trans (.of_same before), ?_, after.grant, after.port⟩
  rw [heldReach_has]
  exact exists_congr fun src => (holdsBack_effect frame (by simp) src d).trans (holdsBack_effect behind (by simp) src d).symm

/-- A drive newly reached is handled as at the beginning of the DROP (R99, R136). -/
theorem takeBoundary_newly {s : State} {d : Drive} (newly : s.fsv.newlyHolds d = true) :
    Neutralized .drop d s (takeBoundary s) := by
  obtain ⟨v, met, held, after⟩ := takeBoundary_drive s d
  obtain ⟨src, holds, -⟩ := newlyHolds_left newly
  have begins : handHolds s.fsv.newlyHolds v d = latchedDropBegins v d := by
    rw [handHolds, if_pos (held.mpr ⟨src, holds⟩), newly, Bool.or_true, if_pos rfl]
  rw [begins] at after
  refine neutralEvent_neutralized .drop met ?_ after.port
  rw [after.grant, latchedDropBegins_record]

/-- A drive reached by no new DROP, held before or free after it, keeps its record's state (R136). -/
theorem takeBoundary_state {s : State} {d : Drive} (newly : s.fsv.newlyHolds d = false)
    (hold : (s.grant d).hold = true ∨ ((takeBoundary s).grant d).hold = false) :
    ((takeBoundary s).grant d).state = (s.grant d).state := by
  obtain ⟨v, met, -, after⟩ := takeBoundary_drive s d
  rw [after.grant] at hold ⊢
  rw [← met.state]
  rw [← met.hold] at hold
  unfold handHolds at hold ⊢
  split
  · next reached =>
    split
    · next begins =>
      have free : (v.grant d).hold = false := by simpa [newly] using begins
      rw [if_pos reached, if_pos begins, latchedDropBegins_hold, free] at hold
      simp at hold
    · rfl
  · rw [clearHold, State.grant_withGrant_self]

/-- Settles O48: the entries each by itself, and each drive by whether a LATCHED DROP newly reaches it. -/
theorem boundaryReconsidersOverrides : Obligations.BoundaryReconsidersOverrides := by
  intro s
  dsimp only
  have group := takeBoundary_group s
  refine ⟨fun src => ?_, congrArg Prod.fst group, congrArg Prod.snd group, fun d => ?_, fun d => ?_,
    (takeBoundary_effect s).keeps⟩
  · rw [takeBoundary_entry]
    exact FaultEntry.boundary_written _
  · rw [(takeBoundary_reachInv s).holds, heldReach_has]
    exact exists_congr fun src => holdsBack_iff _ src d
  · have newly := newlyHolds_iff s d
    simp only [holdsBack_iff, ← exists_and_right, and_assoc] at newly
    rw [← newly]
    refine ⟨fun reached => ?_, fun spared => takeBoundary_state (by simpa using spared)⟩
    obtain ⟨waits, inactive, -, -, withdrawn, -⟩ := takeBoundary_newly reached
    exact ⟨inactive, waits, withdrawn⟩

end Sys2Proof.Machine
end

