-- ==== Sys2Proof/Proofs/EventRecords.lean ====
section
/-! The records of position counts, scans and turn marks, and the step accumulators (R120, R134, R151 to R154). -/

namespace Sys2Proof.Machine

/-! The accumulators. -/

/-- A record asked for leaves the step accumulators (R148, R152). -/
@[simp] theorem Brc.ask_acc (b : Brc) (o : Bool) (f t : Int) (d : RecordBody) : (b.ask o f t d).acc = b.acc := by
  obtain ⟨-, h⟩ | ⟨-, -, -, h⟩ | ⟨-, -, h⟩ := b.ask_cases o f t d <;> rw [h] <;> rfl

theorem Brc.askAll_acc (b : Brc) (o : Bool) (d : Int) (ds : List EventDetail) : (b.askAll o d ds).acc = b.acc := by
  induction ds generalizing b with
  | nil => rfl
  | cons x xs ih => exact (ih _).trans (b.ask_acc o d d (.event x))

theorem Brc.eventsAsked_acc (b : Brc) (s t : State) (raised : List Source) : (b.eventsAsked s t raised).acc = b.acc :=
  b.askAll_acc _ _ _

/-- The BRC's part of a scan (R152). -/
theorem brcScan_brc (s : State) :
    (brcScan s).brc = if s.znt.sessionOpen = true then s.brc.scanMaxima s.env else s.brc := by
  unfold brcScan
  split <;> rfl

/-! A scan. -/

section
variable (r : Readings) (s : State)

/-- The records of the zones at a scan, at the depth of its evaluation (R120). -/
theorem scanMeasured_brc : (scanMeasured r s).brc = s.brc.askAll s.znt.sessionOpen (scanMeasured r s).stk.depth
    (s.znt.markRecords s.znt.mask (scanMeasured r s).znt.mask) := by
  have e := recompute_effect (scanFormed r s)
  have znt : (scanFormed r s).znt = (zntReevaluate (evaluate (scanned r s))).znt := rfl
  have brc : (scanFormed r s).brc = (zntReevaluate (evaluate (scanned r s))).brc := rfl
  rw [(scanMeasured_effect r s).stk_eq, scanMeasured_eq, e.brc_eq, e.znt_eq, znt, brc, zntReevaluate_brc, zntReevaluate_znt]
  rfl

/-- The sources a scan decides stand in rising number (R134). -/
theorem scanConditions_rising : (s.scanConditions.map Prod.fst).Sublist Source.all := by
  show [Source.oilHot, .depthDisagree, .overtorque, .rotSensor, .overcrowd, .crwSensor, .hstSensor, .oilSensor].Sublist
    Source.all
  decide
end

section
variable {s : State} (running : s.lines.xrst = false)
include running

/-- The records of the sources a scan finds present, and of no other; a boundary makes none (R134, R136). -/
theorem scanSupervised_brc : (scanSupervised s).brc =
    s.brc.askAll s.znt.sessionOpen s.stk.depth ((newlyPresent s (scanSupervised s)).map .faultRaised) := by
  have rising := scanConditions_rising s
  have boundary : (scanSupervised s).brc = (decideConditions s.scanConditions s).brc := by
    unfold scanSupervised
    dsimp only
    split
    · exact (takeBoundary_effect _).brc_eq
    · rfl
  rw [boundary, decideConditions_brc (scanConditions_nodup s), ← newlyPresent_decideConditions rising running,
    newlyPresent_of_conditions fun src => (scanSupervised_entry s src).1]

/-- The records of a scan, with its maxima taken between the EVENT records and the STEP record (R151 to R153; entry 15). -/
theorem scanTaken_brc (r : Readings) :
    let t := scanTaken r s
    let asked := s.brc.eventsAsked s t (newlyPresent s t)
    t.brc = (if s.znt.sessionOpen = true then asked.scanMaxima t.env else asked).stepAsked s t := by
  intro t asked
  have em := scanMeasured_effect r s
  have es := scanSupervised_effect (scanMeasured r s)
  have ep := phcAfterEvaluation_effect s.stk (scanSupervised (scanMeasured r s))
  have ec := brcScan_effect (phcAfterEvaluation s.stk (scanSupervised (scanMeasured r s)))
  have ed := brcDepth_effect s.stk.bottomHole (brcScan (phcAfterEvaluation s.stk (scanSupervised (scanMeasured r s))))
  have taken : t = brcDepth s.stk.bottomHole
      (brcScan (phcAfterEvaluation s.stk (scanSupervised (scanMeasured r s)))) := rfl
  have session : (scanMeasured r s).znt.sessionOpen = s.znt.sessionOpen := em.sessionOpen_eq
  have phc : (scanMeasured r s).phc = s.phc := em.phc_eq
  have new : newlyPresent s t = newlyPresent (scanMeasured r s) (scanSupervised (scanMeasured r s)) :=
    newlyPresent_congr (fun src => (scanMeasured_entry r s src).symm) (scanTaken_behind r s).entry_eq
  have events : (phcAfterEvaluation s.stk (scanSupervised (scanMeasured r s))).brc = asked := by
    rw [phcAfterEvaluation_brc, scanSupervised_brc (by rw [scanMeasured_lines, running]), scanMeasured_brc, es.stk_eq,
      es.sessionOpen_eq, es.phc_eq, session, phc, ← Brc.askAll_append, ← Brc.askAll_append, ← new]
    show _ = s.brc.eventsAsked s t (newlyPresent s t)
    rw [Brc.eventsAsked_eq, taken, ed.stk_eq, ec.stk_eq, ep.stk_eq, es.stk_eq, ed.znt_eq, ec.znt_eq, ep.znt_eq, es.znt_eq,
      ed.phc_eq, ec.phc_eq, List.append_assoc]
  rw [taken, brcDepth_brc (s0 := s) _ rfl (by rw [ec.sessionOpen_eq, ep.sessionOpen_eq, es.sessionOpen_eq, session]),
    brcScan_brc, events, ep.sessionOpen_eq, es.sessionOpen_eq, session, ed.env_eq, ec.env_eq]
  exact (Brc.stepAsked_congr _ rfl rfl (by rw [ed.gst_eq]) (by rw [ed.stk_eq])).symm
end

/-! An angle count on which the STK does not evaluate. -/

/-- With no operation in flight and the depth, the quality and the joints as they were, a count hands on A_r alone (R16). -/
theorem countHanded_idle (forward : Bool) {old : Stk} {c : State} (idle : c.phc.op = none)
    (depth : old.depth = c.stk.depth) (quality : old.quality = c.stk.quality) (joints : old.joints = c.stk.joints)
    (bottomHole : old.bottomHole = c.stk.bottomHole) : countHanded forward old none c = recompute c := by
  have e := recompute_effect c
  have advanced : phcAfterEvaluation old (recompute c) = recompute c := by
    rw [phcAfterEvaluation, e.stk_eq, if_pos ⟨depth, quality, joints⟩]
  rw [countHanded, handCount, advanced, phcCount_idle forward (by rw [e.phc_eq, idle]), brcDepth, e.stk_eq, bottomHole,
    if_neg fun deeper => lt_irrefl _ deeper.2]

/-- Such a count makes no record but those of a turn mark (R16, R154). -/
theorem angleCounted_brc_idle {pair : Pair} {forward : Bool} {s : State} (stands : ¬s.evaluatesAt forward)
    (idle : s.phc.op = none) : (angleCounted forward (s.withMsu { s.msu with angleRef := pair })).brc =
      if s.znt.sessionOpen = true ∧ (s.angleMoved pair forward).marks then
        s.brc.turnAsked (decide (s.phc.phase = .drill)) s.gst.settings.dTurn s.stk.bottomHole else s.brc := by
  have counted : angleCounted forward (s.withMsu { s.msu with angleRef := pair }) =
      angleUsed (countHanded forward s.stk (stkCount forward (s.angleMoved pair forward)).2
        (stkCount forward (s.angleMoved pair forward)).1) := rfl
  have unmoved : ¬(s.angleMoved pair forward).evaluatesAt forward := stands
  rw [counted, (stkCount_stands unmoved).1]
  generalize hc : (s.angleMoved pair forward).withStk ((s.angleMoved pair forward).countedModel forward) = c
  have model : c.stk = s.countedModel forward := by rw [← hc]; rfl
  have before : Effect [.msu, .stk] s c := hc ▸
    ((angleMoved_effect s pair forward).mono (by simp)).trans ((withStk_effect _ _).mono (by simp))
  have e := recompute_effect c
  have bottomHole : c.stk.bottomHole = s.stk.bottomHole := by rw [model]; cases forward <;> rfl
  have marks : (recompute c).marks ↔ (s.angleMoved pair forward).marks := by
    rw [State.marks, State.marks, e.lines_eq, e.msu_eq, ← hc]
    rfl
  have handed : countHanded forward s.stk none c = recompute c := by
    refine countHanded_idle forward (by rw [before.phc_eq, idle]) ?_ ?_ ?_ bottomHole.symm <;>
      rw [model] <;> cases forward <;> rfl
  rw [handed, angleUsed_brc, e.sessionOpen_eq, e.brc_eq, e.phc_eq, e.gst_eq, e.stk_eq, before.sessionOpen_eq, before.brc_eq,
    before.phc_eq, before.gst_eq, bottomHole]
  simp only [marks]

/-- Short of the lock angle and of the unlock angle no count calls for an evaluation (R16 to R18). -/
theorem not_evaluatesAt_of_short {s : State} {forward : Bool}
    (lock : forward = true → ((min 65535 (s.stk.aF + 1) : Nat) : Int) < s.gst.settings.lockAngle)
    (unlock : forward = false → ((min 65535 (s.stk.aR + 1) : Nat) : Int) < s.gst.settings.unlockAngle) :
    ¬s.evaluatesAt forward := by
  rintro (⟨rfl, reached, -⟩ | ⟨rfl, ⟨reached, -⟩, -⟩)
  · exact not_lt.mpr reached (lock rfl)
  · exact not_lt.mpr reached (unlock rfl)

/-- Settles O28: a position count by its evaluation, a scan by its blocks in turn, an angle count short of both angles by its
turn mark. -/
theorem countsAndScansMakeTheirRecords : Obligations.CountsAndScansMakeTheirRecords := by
  refine ⟨?_, fun pair forward s count idle lock unlock => ?_⟩
  · rintro i s (⟨e, pair, rfl, counted⟩ | ⟨running, r, rfl⟩)
    · obtain ⟨up, count⟩ := Option.ne_none_iff_exists'.mp counted
      refine ⟨settle (positionCounted e up (s.withMsu (s.msu.withReference e pair))),
        by simp only [exec, execPositionCountChange, count]; rfl, ?_⟩
      exact (afterEvaluation_from (s := s) (u := s.withMsu ((s.msu.withReference e pair).countPosition e up s.gst.active))
        rfl rfl (fun _ => rfl) rfl).settled.brc
    · refine ⟨settle (scanTaken r s), by simp [exec, execScanCompletion, running, done], ?_⟩
      have acc := s.brc.eventsAsked_acc s (scanTaken r s) (newlyPresent s (scanTaken r s))
      refine (scanTaken_brc running r).trans ?_
      rw [Brc.scanMaxima, acc]
      rfl
  · have stands := not_evaluatesAt_of_short lock unlock
    have taken := angleTaken pair forward s
    refine ⟨_, exec_angleCountChange count, by rw [(taken.stands stands).1]; cases forward <;> rfl, ?_⟩
    rw [settle_brc, angleCounted_brc_idle stands idle]
    have marked : (s.znt.sessionOpen = true ∧ (s.angleMoved pair forward).marks) ↔
        ¬(s.znt.sessionOpen = false ∨ s.lines.xrst = true ∨
          |((if forward then s.msu.angle + 1 else s.msu.angle - 1) - s.msu.markRef).toInt| < 1440) := by
      rw [not_or, not_or, not_lt, Bool.not_eq_false, Bool.not_eq_true]
      exact Iff.rfl
    simp only [marked]
    exact ite_not _ _ _

end Sys2Proof.Machine
end

