-- ==== Sys2Proof/Proofs/PileSessions.lean ====
section
/-! OPEN_PILE and CLOSE_PILE: the checks in order, the session and its records (R123, R124, R152, R153, R156). -/

namespace Sys2Proof.Machine

/-! A cab request that writes neither the PHC nor the GST. -/

section
variable {c : List Part} {s : State} {r : State × Answer} (e : Effect c (s.frameEnded .cab) r.1)
include e

/-- Where the owner of a cab request leaves the PHC and the GST, the request clears their latches and nothing else of them
(R52, R162). -/
theorem cabEnded_latches (phc : Part.phc ∉ c := by simp) (gst : Part.gst ∉ c := by simp) :
    LatchesCleared s (settle (cabEnded r)) := by
  refine ⟨?_, ?_⟩
  · rw [settle_phc, cabEnded_phc, e.phc_eq phc, frameEnded_phc]
  · rw [settle_gst, cabEnded_gst, e.gst_eq gst, frameEnded_gst]
end

/-! OPEN_PILE. -/

theorem pileOpened_effect (pile : Word) (s : State) : Effect [.znt, .zones, .stk, .brc] s (pileOpened pile s) :=
  ((withZnt_effect s _).mono (by simp)).trans (((withStk_effect _ _).mono (by simp)).trans
    ((withBrc_effect _ _).mono (by simp)))

/-- The records and accumulators of a session that opens with room in the FIFO and no gap pending (R123, R152, R153). -/
theorem Brc.opened_of_room {b : Brc} (room : b.fifo.length < 512) (noGap : b.gap.pending = false) (pile : Word)
    (d step : Int) : b.opened pile d step =
      { fifo := b.fifo ++ [⟨b.seqCounter, d, d, .opened pile⟩], seqCounter := b.seqCounter + 1
        gap := b.gap, acc := ⟨0, 0, 0, 0⟩, turnDivider := 0, lastStep := step * d.fdiv step
        nextStep := step * d.fdiv step + step } := by
  rw [Brc.opened, Brc.ask_of_room room noGap]
  rfl

/-! CLOSE_PILE. -/

theorem pileClosed_effect (s : State) : Effect [.znt, .zones, .brc] s (pileClosed s) :=
  ((withBrc_effect s _).mono (by simp)).trans ((withZnt_effect _ _).mono (by simp))

/-- The records of a session that closes: a pending gap's, then its own (R124, R156). -/
theorem Brc.writeGap_append (b : Brc) (f t : Int) (body : RecordBody) : b.writeGap.append f t body =
    if b.gap.pending then
      { b with
        fifo := b.fifo ++ [⟨b.seqCounter, b.gap.first, b.gap.last, .gap b.gap.count⟩, ⟨b.seqCounter + 1, f, t, body⟩]
        seqCounter := b.seqCounter + 2, gap := ⟨0, false, 0, 0⟩ }
    else { b with fifo := b.fifo ++ [⟨b.seqCounter, f, t, body⟩], seqCounter := b.seqCounter + 1 } := by
  have two : b.seqCounter + 2 = b.seqCounter + 1 + 1 := by rw [BitVec.add_assoc]; rfl
  unfold Brc.writeGap
  split
  · simp only [Brc.append, List.append_assoc, List.cons_append, List.nil_append, two]
    rfl
  · rfl

/-! The requests. -/

/-- What an OPEN_PILE that passes its checks leaves (R123, R152, R153). -/
theorem openPile_taken {s : State} (pile : Word) (a : Answer) (room : s.brc.fifo.length < 512)
    (noGap : s.brc.gap.pending = false) :
    let t := settle (cabEnded (pileOpened pile (s.frameEnded .cab), a))
    let d := s.stk.depth
    let step := s.gst.settings.recordStep
    AnsweredAlone .cab a s t ∧ LatchesCleared s t ∧
      t.znt = { s.znt with sessionOpen := true, pile := pile } ∧ t.stk = { s.stk with bottomHole := d } ∧
      t.brc = { fifo := s.brc.fifo ++ [⟨s.brc.seqCounter, d, d, .opened pile⟩], seqCounter := s.brc.seqCounter + 1
                gap := s.brc.gap, acc := ⟨0, 0, 0, 0⟩, turnDivider := 0, lastStep := step * d.fdiv step
                nextStep := step * d.fdiv step + step } ∧
      KeepsAllBut [.stk, .phc, .znt, .zones, .brc, .gst, .pif] s t := by
  have e := pileOpened_effect pile (s.frameEnded .cab)
  exact ⟨answered_alone (r := (pileOpened pile (s.frameEnded .cab), a)) e rfl,
    cabEnded_latches (r := (pileOpened pile (s.frameEnded .cab), a)) e, rfl, rfl, Brc.opened_of_room room noGap pile _ _,
    cabEnded_keeps (r := (pileOpened pile (s.frameEnded .cab), a)) e (by simp) (by simp)⟩

/-- What a CLOSE_PILE that passes its checks leaves (R124, R156). -/
theorem closePile_taken (s : State) (a : Answer) :
    let t := settle (cabEnded (pileClosed (s.frameEnded .cab), a))
    AnsweredAlone .cab a s t ∧ LatchesCleared s t ∧ t.znt = { s.znt with sessionOpen := false } ∧
      t.brc = s.brc.writeGap.append s.stk.bottomHole s.stk.depth (.closed s.znt.pile) ∧
      KeepsAllBut [.phc, .znt, .zones, .brc, .gst, .pif] s t := by
  have e := pileClosed_effect (s.frameEnded .cab)
  exact ⟨answered_alone (r := (pileClosed (s.frameEnded .cab), a)) e rfl,
    cabEnded_latches (r := (pileClosed (s.frameEnded .cab), a)) e, rfl, rfl,
    cabEnded_keeps (r := (pileClosed (s.frameEnded .cab), a)) e (by simp) (by simp)⟩

/-- Settles O22: the checks of each request in order, then the session opened or closed. -/
theorem pilesOpenAndClose : Obligations.PilesOpenAndClose := by
  refine ⟨fun a b s ready inv => ?_, fun a b s ready => ?_⟩
  · refine ⟨_, exec_cabRequest (c := .openPile) ready rfl rfl rfl a b, ?_⟩
    generalize ht : settle _ = t
    have h := ht.symm
    simp only [serve, serveOpenPile] at h
    refine refused_or h Iff.rfl fun _ h => refused_or h Iff.rfl fun _ h => refused_or h Iff.rfl fun _ h =>
      refused_or h Iff.rfl fun notOpen h => refused_or h Iff.rfl fun notFull h => ?_
    have noGap : s.brc.gap.pending = false := Bool.eq_false_iff.mpr (mt inv.gap notOpen)
    rw [h]
    exact openPile_taken a _ (not_le.mp notFull) noGap
  · refine ⟨_, exec_cabRequest (c := .closePile) ready rfl rfl rfl a b, ?_⟩
    generalize ht : settle _ = t
    have h := ht.symm
    simp only [serve, serveClosePile] at h
    refine refused_or h Iff.rfl fun _ h => refused_or h (by simp) fun _ h => refused_or h Iff.rfl fun _ h =>
      refused_or h Iff.rfl fun _ h => ?_
    rw [h]
    obtain ⟨alone, latches, znt, brc, keeps⟩ := closePile_taken s (answer .ok (s.frameEnded .cab).pileNumber
      (depth10 (s.frameEnded .cab).stk.bottomHole))
    exact ⟨alone, latches, znt, brc.trans (Brc.writeGap_append _ _ _ _), keeps⟩

end Sys2Proof.Machine
end

