-- ==== Sys2Proof/Proofs/ZoneWrites.lean ====
section
/-! ZONE_WRITE: its checks in order, the one field it writes, and the zones and the envelope formed anew (R114 to R119). -/

namespace Sys2Proof.Machine

/-! The field. -/

/-- The value a field takes of B (R115). -/
theorem zoneBring_read (field : Nat) (b : Word) : zoneBring field (zoneRead field b) =
    let read : Int := if field = 1 ∨ field = 2 then b.toInt else b.toNat
    if field = 1 ∨ field = 2 then max (-2000) (min 15000 read)
    else if field = 6 ∧ read ≠ 65535 then min read 5000 else read := by
  match field with
  | 1 | 2 => rfl
  | 6 =>
    show zoneSpeed (b.toNat : Int) = _
    by_cases uncapped : (b.toNat : Int) = 65535 <;> simp [zoneSpeed, uncapped]
  | 0 | 3 | 4 | 5 => rfl
  | n + 7 => simp [zoneBring, zoneRead]

/-- An entry with the field `x` written that a ZONE_WRITE brings of B, field by field (R114 to R116). -/
def Zone.written (z : Zone) (field : Nat) (b : Word) (x : Int) : Zone :=
  match field with
  | 0 => { z with valid := b ≠ 0 }
  | 1 => { z with top := x, valid := z.valid && decide (x < z.bottom) }
  | 2 => { z with bottom := x, valid := z.valid && decide (z.top < x) }
  | 3 => { z with tCap := x }
  | 4 => { z with cCap := x }
  | 5 => { z with wotCap := x }
  | 6 => { z with vCap := x }
  | _ => { z with flags := b.extractLsb' 0 3 }

/-- The model's write of the value it reads of B is that write (R114 to R116). -/
theorem Zone.write_read (z : Zone) {field : Nat} (within : field < 8) (b : Word) :
    z.write field (zoneBring field (zoneRead field b)) = z.written field b (zoneBring field (zoneRead field b)) := by
  match field with
  | 0 =>
    have zero : (b.toNat : Int) ≠ 0 ↔ b ≠ 0 := by rw [ne_eq, ne_eq, ← BitVec.toNat_inj]; simp
    exact congrArg (fun v => { z with valid := v }) (decide_eq_decide.mpr zero)
  | 1 | 2 | 3 | 4 | 5 | 6 => rfl
  | 7 =>
    have flags : BitVec.ofInt 3 (b.toNat : Int) = b.extractLsb' 0 3 := BitVec.eq_of_toNat_eq (by simp)
    exact congrArg (fun v => { z with flags := v }) flags
  | n + 8 => omega

/-- The codes a field refuses (R115, step 3). -/
theorem zoneCodeGood_iff (field : Nat) (b : Word) :
    (field = 0 ∧ 1 < b.toNat) ∨ (field = 7 ∧ 7 < b.toNat) ↔ (!zoneCodeGood field b) = true := by
  unfold zoneCodeGood
  split <;> simp_all

/-! The operation. -/

theorem Brc.askAll_closed (b : Brc) (d : Int) (ds : List EventDetail) : b.askAll false d ds = b := by
  induction ds with
  | nil => rfl
  | cons x xs ih => exact ih

/-- A part that an operation may write and leaves as it was is none that it writes. -/
theorem Effect.without {x : Part} {c : List Part} {s t : State} (e : Effect (x :: c) s t) (kept : x.kept s t) :
    Effect c s t := by
  refine ⟨⟨fun y hy => ?_, e.pending⟩, e.answers⟩
  by_cases same : y = x
  · exact same ▸ kept
  · exact e.kept y (by simp [same, hy])

/-- With the session CLOSED a re-evaluation of the zones records nothing (R120, R148). -/
theorem zntReevaluate_effect_closed {s : State} (closed : s.znt.sessionOpen = false) :
    Effect [.znt] s (zntReevaluate s) := by
  refine Effect.without (x := .brc) ((zntReevaluate_effect s).mono (by simp)) ?_
  show (zntReevaluate s).brc = s.brc
  rw [zntReevaluate_brc, closed, Brc.askAll_closed]

section
variable (i : Fin 8) (field : Nat) (x : Int) (s : State)

theorem zoneWritten_effect (closed : s.znt.sessionOpen = false) :
    Effect [.znt, .zones, .env, .grants, .pif] s (zoneWritten i field x s) := by
  unfold zoneWritten
  generalize hw : s.withZnt { s.znt with zones := s.znt.zones.set i (s.znt.zones[i].write field x) } = w
  have written : Effect [.znt, .zones] s w := hw ▸ withZnt_effect s _
  have still : w.znt.sessionOpen = false := by rw [← hw]; exact closed
  exact (written.mono (by simp)).trans (((zntReevaluate_effect_closed still).mono (by simp)).trans
    ((recompute_effect _).mono (by simp)))

/-- One entry written, and what the zone table forms of it anew (R116 to R119). -/
theorem zoneWritten_znt : (zoneWritten i field x s).znt =
    let table := { s.znt with zones := s.znt.zones.set i (s.znt.zones[i].write field x) }
    let set := table.combinedSet s.stk.quality s.stk.depth
    { table with mask := table.containing s.stk.depth, combined := set, limits := table.combine set } :=
  (recompute_effect _).znt_eq.trans (zntReevaluate_znt _)
end

/-! The request. -/

/-- An entry or a field number above 7 (R115, step 1). -/
theorem serveZoneWrite_outside {a : Word} (outside : 8 ≤ a.toNat / 256 ∨ 8 ≤ a.toNat % 256) (b : Word) (s : State) :
    serveZoneWrite a b s = refuse .badArg 0 0 s := by
  unfold serveZoneWrite
  split_ifs with entry field
  · omega
  · rfl
  · rfl

/-- The entry and the field that A names (R115). -/
theorem serveZoneWrite_named (i : Fin 8) {field : Nat} (within : field < 8) (b : Word) (s : State) :
    serveZoneWrite (BitVec.ofNat 16 (i.val * 256 + field)) b s = zoneRequested i field b s := by
  have a : (BitVec.ofNat 16 (i.val * 256 + field)).toNat = i.val * 256 + field := by
    rw [BitVec.toNat_ofNat]
    omega
  have entry : (i.val * 256 + field) / 256 = i.val := by omega
  have number : (i.val * 256 + field) % 256 = field := by omega
  simp [serveZoneWrite, a, entry, number, within]

/-- What a ZONE_WRITE that passes its checks leaves (R115, R116, R119). -/
theorem zoneWrite_taken (i : Fin 8) (field : Nat) (x : Int) (a : Answer) {s : State} (closed : s.znt.sessionOpen = false) :
    let t := settle (cabEnded (zoneWritten i field x (s.frameEnded .cab), a))
    Answered .cab a s t ∧ t.znt.zones = s.znt.zones.set i (s.znt.zones[i].write field x) ∧ t.znt.sessionOpen = false ∧
      t.znt.pile = s.znt.pile ∧ t.znt.mask = t.znt.containing s.stk.depth ∧
      t.znt.combined = t.znt.combinedSet s.stk.quality s.stk.depth ∧ t.znt.limits = t.znt.combine t.znt.combined ∧
      t.env = t.envelope ∧ LatchesCleared s t ∧ KeepsAllBut [.znt, .zones, .env, .grants, .phc, .gst, .pif] s t := by
  have e := zoneWritten_effect i field x (s := s.frameEnded .cab) closed
  have current : Current (zoneWritten i field x (s.frameEnded .cab)) := recompute_current _
  have znt := zoneWritten_znt i field x (s.frameEnded .cab)
  simp only [frameEnded_znt, frameEnded_stk] at znt
  generalize zoneWritten i field x (s.frameEnded .cab) = w at *
  refine ⟨cabEnded_answered (r := (w, a)) e, ?_, ?_, ?_, ?_, ?_, ?_, settle_current (cabEnded_current current a),
    cabEnded_latches (r := (w, a)) e, cabEnded_keeps (r := (w, a)) e (by simp) (by simp)⟩
  all_goals rw [settle_znt, cabEnded_znt, znt]
  case refine_2 => exact closed
  all_goals rfl

/-- Settles O23: the checks in order, then the write of the field and what follows it. -/
theorem zoneWriteWritesOneField : Obligations.ZoneWriteWritesOneField := by
  refine ⟨fun a b s ready outside => ?_, fun i field b s ready within => ?_⟩
  · refine ⟨_, exec_cabRequest (c := .zoneWrite) ready rfl rfl rfl a b, ?_⟩
    rw [serve, serveZoneWrite_outside outside]
    exact cabEnded_refused s _ _ _
  · intro a z read x written
    refine ⟨_, exec_cabRequest (c := .zoneWrite) ready rfl rfl rfl a b, ?_⟩
    have value : zoneBring field (zoneRead field b) = x := zoneBring_read field b
    have entry : z.write field x = z.written field b x := value ▸ z.write_read within b
    have same : z.written field b x = written := rfl
    generalize ht : settle _ = t
    have h := ht.symm
    simp only [serve, a, serveZoneWrite_named i within, zoneRequested] at h
    refine refused_or h Iff.rfl fun notOpen h => refused_or h (zoneCodeGood_iff field b) fun _ h =>
      refused_or h Iff.rfl fun _ h => ?_
    rw [value] at h
    rw [← same, ← entry, h]
    exact zoneWrite_taken i field x _ (Bool.eq_false_iff.mpr notOpen)

end Sys2Proof.Machine
end
